-- ==== Sys2Proof/Word.lean ====
section
/-!
DEFINITION. The word types of the TH2-9640 and the one container of sparse state.
The unit of storage is the byte (R5, little-endian); registers, scalars and FP32 patterns are 32-bit words.
-/
namespace Sys2Proof

abbrev Byte := BitVec 8
abbrev Half := BitVec 16
/-- A register, a scalar register or a stored FP32 or INT32 pattern. -/
abbrev Word := BitVec 32
abbrev DWord := BitVec 64

/-- Sparse state by number: keys strictly rising, no entry equal to what an unlisted key reads as.
The operations and the form `wf` are in Machine/Map.lean. -/
abbrev SMap (α : Type) := List (Nat × α)

end Sys2Proof
end

