-- ==== Sys2Proof/Syntax.lean ====
section
/-!
DEFINITION. The commands of the TH2-9640: one constructor of `Instr` for each row of spec/opcode_table.json, with the
row's operands. The table gives no bits; operand shapes follow the rules cited at each type.
-/
namespace Sys2Proof

/-! ## Ring commands (13) -/

/-- A command packet as fetched (R368), its OPCODE being the constructor's. `body` holds bytes 16 to the end of the last
slot. -/
structure Pkt where
  slots : BitVec 8
  flags : BitVec 8
  seq : BitVec 32
  job : BitVec 32
  plen : BitVec 16
  welt : BitVec 16
  body : List Byte
deriving DecidableEq, Repr

/-- What the device's sensors show when RESUME asks whether a hold cause has cleared (R459): for how many ns every junction
has read below 100 degrees, every rail has been in range, and the reference and the counter's loop have been good. -/
structure HoldEnv where
  coolNs : Nat
  railNs : Nat
  clockNs : Nat
deriving DecidableEq, Repr

/-! ## Folio declarations (06 to 12): what a folio image declares; the image's own header layout is not in the spec -/

/-- The logical direction of a stitch link (R187, R192). -/
inductive Dir where
  | colMinus | colPlus | rowMinus | rowPlus
deriving DecidableEq, Repr

/-- A collective record (R413). -/
structure CollRec where
  op : Nat
  arith : Nat
  axes : Nat
  runs : Nat
  bytes : Nat
  root : Nat
deriving DecidableEq, Repr

/-- Source of a dynamic bound (R174). -/
inductive BoundSrc where
  | reg (n : Nat)
  | word (addr : Nat)
  | other
deriving DecidableEq, Repr

/-- A dynamic dimension of a phase (R174, R176). -/
structure DynDim where
  dim : Nat
  src : BoundSrc
  max : Nat
deriving DecidableEq, Repr

/-- A phase entry of the timing table (R342). `coreCyc` is indexed 8m + 2r + f, `sliceCyc` 2m + f, the pairs by f. -/
structure PhaseEntry where
  phase : Nat
  kind : Nat
  prefRung : Nat
  perStep : Nat
  coreCyc : List Nat
  sliceCyc : List Nat
  decCyc : List Nat
  hbmBytes : List Nat
  farBytes : Nat
  hbmRounds : Nat
  farRounds : Nat
  windowWays : Nat
  colls : List CollRec
  dims : List DynDim
  reserved : Nat
deriving DecidableEq, Repr

/-- What the folio declares of one attention layer's KV planes: formats, headroom, SAT (R227, R229). -/
structure LayerDecl where
  kFmt : BitVec 4
  vFmt : BitVec 4
  headroom : Nat
  sat : Bool
deriving DecidableEq, Repr

/-- An attention phase (R222): heads, head dimension, logit scale, mask, its layers, and the dimension of its sequence bound. -/
structure AttnPhase where
  hq : Nat
  hkv : Nat
  d : Nat
  lambda : Word
  mask : Nat
  layers : List LayerDecl
  phase : Nat
  dim : Nat
deriving DecidableEq, Repr

/-- The attention of a folio: its phases in order, the sequence limit and the largest batch (R232). -/
structure AttnDecl where
  first : AttnPhase
  more : List AttnPhase
  tLimit : Nat
  bMax : Nat
deriving DecidableEq, Repr

/-- A size: fixed, or a dynamic dimension of the phase (R174). -/
inductive DimSrc where
  | const (n : Nat)
  | dyn (dim : Nat)
deriving DecidableEq, Repr

/-- A convolution phase's parameters (R202) for channels `cin`, `cout` before regrouping; the input's size, and, for a depth-to-space
write, that of the tensor written (R210, R212), with the bytes of a position and of a row of positions in both. -/
structure ConvDecl where
  cin : Nat
  cout : Nat
  g : Nat
  kh : Nat
  kw : Nat
  sy : Nat
  sx : Nat
  dy : Nat
  dx : Nat
  pt : Nat
  pb : Nat
  pl : Nat
  pr : Nat
  padMode : Nat
  f : Nat
  o : Nat
  h : DimSrc
  w : DimSrc
  inPos : Nat
  inRow : Nat
  d2s : Bool
  outH : Nat
  outW : Nat
  outPos : Nat
  outRow : Nat
deriving DecidableEq, Repr

/-- A contraction of a phase: a product of rows, columns and contraction length, a product with a vector, or a convolution of the
folio's list. -/
inductive ContrBody where
  | mat (m n k : DimSrc)
  | mv (m k : DimSrc)
  | conv (i : Nat)
deriving DecidableEq, Repr

/-- The output tiles of a contraction that an owner takes: tile rows `r0` on and tile columns `c0` on (R168, R182). -/
structure TileShare where
  owner : Nat
  r0 : Nat
  rn : Nat
  c0 : Nat
  cn : Nat
deriving DecidableEq, Repr

/-- A contraction that a phase runs: its sizes and its owners' shares, none where every owner has an output of its own. -/
structure ContrDecl where
  phase : Nat
  body : ContrBody
  share : List TileShare
deriving DecidableEq, Repr

/-- A pooling operation's parameters (R215). -/
structure PoolDecl where
  kh : Nat
  kw : Nat
  s : Nat
  q : Nat
  rows : Nat
  padY : Nat
  padX : Nat
  countPad : Nat
deriving DecidableEq, Repr

/-- A depthwise operation's parameters (R139). -/
structure DwaDecl where
  kh : Nat
  kw : Nat
  s : Nat
  cg : Nat
  q : Nat
  rows : Nat
  maxReg : Nat
deriving DecidableEq, Repr

/-- What an update stanza may hold (R263). -/
inductive StanzaClass where
  | vector | special | loadStore | nzNorm | stopMax
  | rowReduction | columnReduction | depthwise | outerProduct | drain | stitch | guarded
deriving DecidableEq, Repr

/-- An update stanza (R263, R264, R269): the phase that runs it, its length, the classes it uses, whether it touches only what it may;
the latent's declared maximum shape as outer elements, rows and columns, the latched sizes of its rows and columns, and, per owner, its
first latent tile and how many it has; for the guidance combination (R261) the places in the work range of row 0 of the network output
and of the guided output, the bytes from row b to row B + b, and their format. -/
structure StanzaDecl where
  phase : Nat
  length : Nat
  classes : List StanzaClass
  tensorsOk : Bool
  outer : Nat
  maxRows : Nat
  maxCols : Nat
  rows : DimSrc
  cols : DimSrc
  owners : List (Nat × Nat × Nat)
  netOff : Nat
  pairBytes : Nat
  guideOff : Nat
  guideFmt : Byte
deriving DecidableEq, Repr

/-- An SWF tensor header (R314); `base` is the tensor's offset in the image and `dir` its block directory. -/
structure SwfDecl where
  fmt : BitVec 4
  cls : Nat
  gen : Nat
  base : Nat
  dir : List Nat
deriving DecidableEq, Repr

/-- A tensor header's format (R45, R51): whether it is an operand of the engines and of the matrix-vector path, and whether
the contraction dimension is innermost. -/
structure FmtUse where
  code : BitVec 4
  operand : Bool
  mv : Bool
  innermost : Bool
deriving DecidableEq, Repr

/-- A named output format byte (R63) and whether the tile's column dimension is innermost in that output (R92). -/
structure OutUse where
  byte : Byte
  innermost : Bool
deriving DecidableEq, Repr

/-- A snapshot tensor in the job's work range (R276): offset and bytes at its maximum shape. -/
structure SnapTensor where
  off : Nat
  bytes : Nat
deriving DecidableEq, Repr

/-- A frame of a folio's video output (R430): the completed steps after which it is final, and its buffer within the job's
result. -/
structure VideoOut where
  steps : Nat
  off : Nat
  bytes : Nat
deriving DecidableEq, Repr

/-- The batch of a folio's network (R260): samples, the places in the work range of sample 0's latent and in the input of its
conditioning, the bytes of each, and the null conditioning's place in the image. -/
structure BatchDecl where
  samples : Nat
  latentOff : Nat
  latentBytes : Nat
  condOff : Nat
  condBytes : Nat
  nullOff : Nat
deriving DecidableEq, Repr

/-- What a folio image declares (R341, R342 and the folio rules of 02 to 12). `exchanges` lists the receiving ends of the folio's
stitch exchanges: an owner, 64 × logical column + logical row, and the direction it receives from (R192, R193); `scratchTensorLines` the lines of
its scratchpad tensors by slice (R352); `residentBytes` F of R296; `outs` its output format bytes; `maxDim` and `maxTensorBytes` its
largest dimension and tensor (R198); `reservedOk` that no reserved field of a folio structure is nonzero; `contrs` the contractions of its phases; `timingAt` the offset of the timing
table in the image (R341): what the table's bytes say counts in place of the same fields here. -/
structure FolioDecl where
  entries : Nat
  wellKib : Nat
  tregs : Nat
  accNeed : Nat
  cores : Nat
  pagerNs : Nat
  snapBytes : Nat
  workBytes : Nat
  scratchGran : Nat
  phases : List PhaseEntry
  formats : List FmtUse
  outs : List OutUse
  rndCodes : List (BitVec 4)
  dwas : List DwaDecl
  convs : List ConvDecl
  pools : List PoolDecl
  maxDim : Nat
  maxTensorBytes : Nat
  attn : Option AttnDecl
  stanza : Option StanzaDecl
  initStanza : Option StanzaDecl
  nullCond : Bool
  compat : Bool
  draws : List Nat
  swf : List SwfDecl
  snapTensors : List SnapTensor
  residentBytes : Nat
  videoFrames : List VideoOut
  linkTraffic : Bool
  reservedOk : Bool
  exchanges : List (Nat × Dir)
  scratchTensorLines : List (Nat × Nat)
  contrs : List ContrDecl
  timingAt : Nat
  batch : Option BatchDecl
deriving DecidableEq, Repr

/-! ## Core instructions (03 to 07, 09) -/

/-- The core that issues and the job slot whose tag the instruction carries (R81, R113). -/
structure CoreRef where
  core : Fin 2048
  slot : Fin 64
deriving DecidableEq, Repr

/-- Mask predicate and mask mode (R116, R117). -/
structure Mask where
  pred : Fin 8
  zero : Bool
deriving DecidableEq, Repr

/-- What the check hardware reported while the instruction ran: nothing, residue disagreements (R136, R146), parity errors of a
tile register (R137), a disagreement of the duplicated drain logic (R91), an error in a well word (R285; `double` where it is not a
single bit). `same` says that the failure falls in the island cycle of the last one of its cluster (R109, R143);
`coincides` says so of a comparison of a drain. -/
inductive Upset where
  | none
  | residue (adder : Bool) (elems : List (Fin 512)) (same : Bool)
  | parity (treg : Fin 32) (elems : List (Fin 512)) (same : Bool)
  | duplicate (row : Fin 16) (same : Bool)
  | coincides
  | eccWell (addr : Nat) (double : Bool)
deriving DecidableEq, Repr

/-- What a particle strike has done to a line of device memory (R451): an error that HBM corrects (R305) or reports as uncorrectable
(R302), or one of a single or of two bits in a word of a reservoir slice (R286). -/
inductive StoreErr where
  | hbmCorr
  | hbmUncorr
  | single
  | double
deriving DecidableEq, Repr

/-- Where an operand of an update is read (R75). -/
inductive OpSrc where
  | well (base : Int)
  | treg (n : Fin 32)
  | fifo
deriving DecidableEq, Repr

/-- The context scale of an operand (R48): a byte of the folio's, or the K or V page scale of the page descriptor under way (R235,
R239). -/
inductive ScaleSrc where
  | byte (b : Byte)
  | pageK
  | pageV
deriving DecidableEq, Repr

/-- An operand of an update: source, format (R44), context scale (R48), layout in the well (`kMajor`: the vectors of
consecutive contraction indices lie at `stride`; otherwise each row or column lies at `stride` with the contraction
innermost), scale plane of an MX operand, and the elements `lo` to `bound - 1` that lie within the operand's declared bounds
(R76, R207). -/
structure Operand where
  src : OpSrc
  fmt : BitVec 4
  scale : ScaleSrc
  kMajor : Bool
  stride : Nat
  scaleBase : Nat
  scaleStride : Nat
  lo : Nat
  bound : Nat
deriving DecidableEq, Repr

/-- The output tile that an instruction of the tiler works on: the contraction's place in the folio's list, tile row, tile column. -/
structure TileAt where
  op : Nat
  ti : Nat
  tj : Nat
deriving DecidableEq, Repr

/-- An outer-product instruction (03, The update) on an output tile of a contraction; `rows` and `cols` are the rows and columns of the
output tile in bounds (R170, R171). -/
structure OpuOp where
  pos : TileAt
  tile : Fin 8
  a : Operand
  b : Operand
  len : Nat
  clear : Bool
  rows : Nat
  cols : Nat
deriving DecidableEq, Repr

/-- A matrix-vector update (R101): W in the well at `wBase`, x in consecutive tile registers from `x`. -/
structure MvOp where
  pos : TileAt
  tile : Fin 8
  wBase : Nat
  wFmt : BitVec 4
  xFmt : BitVec 4
  rows : Nat
  x : Fin 32
  len : Nat
  clear : Bool
deriving DecidableEq, Repr

/-- Destination of a drain (R87, R131, R212): well rows, a tile register, or depth-to-space segments of `cout` elements, each at
its offset, in ascending row and segment (none for a position outside the tensor), with the address of each one's MX scale byte. -/
inductive DrainDst where
  | well (base stride scaleBase scaleStride : Nat)
  | treg (n : Fin 32)
  | segments (base cout : Nat) (offs : List (Option Nat)) (scales : List Nat)
deriving DecidableEq, Repr

/-- A drain. `int32`: the rows of a tile that accumulates in INT32 leave it as INT32, unconverted (R87, R131). -/
structure DrainOp where
  pos : TileAt
  tile : Fin 8
  rows : Nat
  cols : Nat
  held : Option (Fin 32)
  outFmt : Byte
  outScale : Byte
  dst : DrainDst
  release : Bool
  int32 : Bool
deriving DecidableEq, Repr

structure Vec1 where
  d : Fin 32
  a : Fin 32
  m : Mask
deriving DecidableEq, Repr

structure Vec2 where
  d : Fin 32
  a : Fin 32
  b : Fin 32
  m : Mask
deriving DecidableEq, Repr

structure Vec3 where
  d : Fin 32
  a : Fin 32
  b : Fin 32
  c : Fin 32
  m : Mask
deriving DecidableEq, Repr

/-- Whether an addition is an ordinary one (R119) or an accumulation addition of a contraction (R527), FP32 or INT32. -/
inductive AccAdd where
  | plain | accF32 | accI32
deriving DecidableEq, Repr

inductive Cond where
  | eq | ne | lt | le | gt | ge
deriving DecidableEq, Repr

/-- A scalar source: a scalar register or a step scalar (R258). -/
inductive Scalar where
  | s (n : Fin 16)
  | k (n : Fin 16)
deriving DecidableEq, Repr

inductive LenSrc where
  | imm (rows cols : Nat)
  | reg (s : Scalar)
deriving DecidableEq, Repr

/-- Address of a load or store: the core's well, or a device address reached through the vertical bond (R282, R310). -/
inductive MemRef where
  | well (base : Nat)
  | dev (base : Nat)
deriving DecidableEq, Repr

/-- A load or store (R127, R128, R130). `intDst` selects INT32 elements in the tile register. -/
structure LdStOp where
  t : Fin 32
  addr : MemRef
  stride : Nat
  scaleBase : Nat
  scaleStride : Nat
  fmt : Byte
  scale : Byte
  intDst : Bool
  m : Mask
deriving DecidableEq, Repr

/-- A depthwise accumulate (R139). -/
structure DwaOp where
  d : Fin 32
  w : Nat
  wt : Nat
  bias : Option (Fin 32)
  kh : Nat
  kw : Nat
  s : Nat
  cg : Nat
  q : Nat
  m : Mask
deriving DecidableEq, Repr

/-- Destination of a receive (R188, R191). -/
inductive RecvDst where
  | treg (n : Fin 32) (row : Fin 16)
  | fifo
deriving DecidableEq, Repr

structure SendOp where
  dir : Dir
  t : Fin 32
  row : Fin 16
  rows : Nat
  upset : Upset
deriving DecidableEq, Repr

/-- A credit at a core's side of a link: the direction and, from another device, the mailbox half at the receiver (R188, R194). -/
structure CreditAt where
  dir : Dir
  box : Nat
deriving DecidableEq, Repr

structure RecvOp where
  dir : Dir
  dst : RecvDst
  rows : Nat
deriving DecidableEq, Repr

/-- Noise (R272): tensor identifier and draw index. -/
structure NoiseOp where
  d : Fin 32
  sa : Fin 16
  tensor : BitVec 16
  draw : BitVec 8
  m : Mask
deriving DecidableEq, Repr

/-- Pooling (R215, R216); `bounds` is a scalar register or a step scalar (R258). -/
structure PoolOp where
  d : Fin 32
  w : Nat
  kh : Nat
  kw : Nat
  s : Nat
  q : Nat
  bounds : Scalar
  countPad : Bool
  m : Mask
deriving DecidableEq, Repr

/-- Resampling (R218, R219): upper and lower window registers and the vertical weight. -/
structure ResampleOp where
  d : Fin 32
  upper : Fin 32
  lower : Fin 32
  q : Nat
  f : Nat
  wy : Word
  m : Mask
deriving DecidableEq, Repr

/-! ## The tiler's and the scribe's own acts in a running phase instance (07, 08, 09)

The table gives them no row: they are operands of PHASE_INSTANCE_START (log 62). -/

/-- How positions beyond the input are staged: a filter or pooling window of size `k`, stride `s` and padding `p0`, `p1`, under a padding
mode of R202 (R208, R214), or the nearest position, for upsampling by `f` (R218, R220). -/
inductive StageEdge where
  | window (k s p0 p1 padMode : Nat)
  | near (f : Nat)
deriving DecidableEq, Repr

/-- Staging of the `q` window registers from `w` on for one output tile (R214, R218, R220): the well address of input position (0, 0), the
bytes of a position and of a row, the input's rows and columns, the input row, the tile's first output position, the elements' format,
context scale and first channel, how many channels there are, and the scale bytes of an MX input. -/
structure StageOp where
  w : Nat
  q : Nat
  base : Int
  posBytes : Nat
  rowBytes : Nat
  rows : DimSrc
  cols : DimSrc
  y : Int
  out0 : Nat
  edge : StageEdge
  fmt : BitVec 4
  scale : Byte
  chan : Nat
  chans : Nat
  scaleBase : Nat
  scalePos : Nat
  scaleRow : Nat
deriving DecidableEq, Repr

/-- The bounds register of a pooling tile (R216): the window's size, strides and paddings, its depth, the input's rows and columns, the
tile's output row and first output position. -/
structure BoundsOp where
  s : Fin 16
  kh : Nat
  kw : Nat
  sy : Nat
  sx : Nat
  pt : Nat
  pl : Nat
  q : Nat
  rows : DimSrc
  cols : DimSrc
  outRow : Nat
  out0 : Nat
deriving DecidableEq, Repr

/-- The fill of an owner's halo at the field edge (R208): the convolution of the folio's list, the well address of input position
(0, 0), and the positions from (y0, x0) that the owner's halo-extended block takes. -/
structure HaloOp where
  conv : Nat
  base : Int
  y0 : Int
  x0 : Int
  ny : Nat
  nx : Nat
deriving DecidableEq, Repr

/-- A share of an attention phase on a core (R223, R224, R238): sequence slot, layer, KV head, first query position and how many, the
first page and number of pages of its keys, and where in the well the planes of the page under way lie. -/
structure AttendOp where
  seq : Nat
  layer : Nat
  head : Nat
  pos0 : Nat
  npos : Nat
  page0 : Nat
  pages : Nat
  kWell : Nat
  vWell : Nat
deriving DecidableEq, Repr

/-- The registers of one query tile of R237: the tile's place among the share's tiles, the well address and format of the share's queries
(d elements a head, heads `qHead` and positions `qPos` bytes apart; an MX query's scale bytes likewise), the row-state register, and the
first of the d / 32 registers of O. -/
structure AttnRegs where
  tile : Nat
  q : Nat
  qHead : Nat
  qPos : Nat
  qFmt : BitVec 4
  qScale : Byte
  qsBase : Nat
  qsHead : Nat
  qsPos : Nat
  ta : Fin 32
  o : Fin 32
deriving DecidableEq, Repr

/-- What a PHASE_INSTANCE_START does: it starts an instance, or the tiler or scribe acts in the one that runs. -/
inductive PhaseUnit where
  /-- The instance starts (R175, R180 to R182). -/
  | start
  /-- A row of the batch is given its latent and its conditioning in the well (R260). -/
  | batch (row latentWell condWell : Nat)
  /-- The guidance combination on one latent tile of the owner's (R261). -/
  | guide (tile : Nat)
  /-- The next latent tile of a stanza (R264). -/
  | tile
  | halo (o : HaloOp)
  | stage (o : StageOp)
  | bounds (o : BoundsOp)
  /-- A range of device memory enters a half of the staging window (R199). -/
  | fetch (src bytes : Nat)
  /-- Bytes in the window go to the core's well. -/
  | fill (src well bytes : Nat)
  /-- Decoded lines of a load-time block, from line `line` on, go to the core's well (R322, R324). -/
  | weights (tensor block line n well : Nat)
  /-- The parked chunk sums of an output tile are added and left in a register (R68, R70, R183). -/
  | combine (pos : TileAt) (d : Fin 32)
  /-- Chunk states of a statistic, by chunk index, are merged into the first (R163). -/
  | gather (norm : Bool) (regs : List (Fin 32))
  /-- The scribe emits the descriptors of a share's pages (R234, R236). -/
  | attend (o : AttendOp)
  /-- One page of R237 for one query tile. -/
  | page (o : AttnRegs)
  /-- Chunk states of an attention, by chunk index, are merged into the first (R238). -/
  | merge (l : List AttnRegs)
  /-- The final division of R237, the output left in the registers of O. -/
  | attended (o : AttnRegs)
  /-- The instance ends on the core. -/
  | finish
deriving DecidableEq, Repr

/-- A phase and the unit of it. -/
structure PhaseAct where
  phase : Nat
  unit : PhaseUnit
deriving DecidableEq, Repr

/-! ## Links (14) -/

/-- What a link finds in training (R405, R406). -/
structure TrainResult where
  link : Fin 64
  light : Bool
  rxLanes : BitVec 4
  txLanes : BitVec 4
  fec : Bool
  peerSizes : List Nat
  peerWrap : BitVec 4
  peerCoord : BitVec 14
  peerPort : Fin 8
  peerGroup : Fin 8
  flightNs : Nat
  peerDone : Bool
deriving DecidableEq, Repr

/-- A received flit: its 288 bytes (R394) and what the FEC layer reported of its codewords (R393, R419). -/
structure FlitRx where
  bytes : List Byte
  uncorrectable : Bool
  correctedCw : Nat
  symbols : List Nat
deriving DecidableEq, Repr

/-- The reduction that a REDUCE flit belongs to: the axes of its collective record (R413) and the ranks whose contributions its lines hold
(R412). The device knows both from the folio and the stream; a flit has no field for them (log 39). -/
structure RedSrc where
  axes : BitVec 4
  ranks : List Nat
deriving DecidableEq, Repr

/-- The reduction of a REDUCE flit, and whether the two lane adders at this device disagree on it (R109). -/
structure RedUse where
  disagree : Bool
  src : RedSrc
deriving DecidableEq, Repr

/-- A control message on VC0 (R416): the link it arrived on, the group, the epoch and the sender. -/
structure Ctrl where
  link : Fin 64
  group : BitVec 8
  epoch : BitVec 8
  src : BitVec 14
deriving DecidableEq, Repr

/-- One pager decision of rank 0 (R252), with what the deferred queue holds of its command (R529): the ring and SEQ, and `op`, which
numbers the commands of the group's pager in order of arrival; `withdrawn` for a join that a leave withdrew and for that leave. -/
structure PagerDecision where
  leave : Bool
  tag : Word
  slot : Nat
  status : BitVec 8
  reason : BitVec 8
  t0 : Nat
  tMax : Nat
  prompt : Nat
  ring : Nat
  seq : Word
  op : Nat
  withdrawn : Bool
deriving DecidableEq, Repr

/-- What a group job's submissions must have alike (R358): folio, MODE, CLASS, RESTARTS and the step block's 64 bytes, none without one. -/
structure GroupTerms where
  folio : Nat
  mode : Nat
  cls : Nat
  restarts : Nat
  block : List Byte
deriving DecidableEq, Repr

/-- The times that a device carries into the start barrier (R359), in ns. -/
structure BarrierTimes where
  phases : List Nat
  once : Nat
  step : Nat
  replay : Nat
deriving DecidableEq, Repr

/-- With what they must have alike. -/
structure BarrierTerms extends BarrierTimes where
  same : GroupTerms
deriving DecidableEq, Repr

/-! ## Video (15) -/

/-- How a running frame ended: an encode, a decode that showed a picture (its planes' bytes) or none, a decode in error at a bit offset
(R446), or an input line whose welt failed. FRAME_DONE carries the luma samples of an encode's reconstruction beside it, in raster
order. -/
inductive FrameEnd where
  | encoded
  | decoded (key : Bool) (picture : Option (List Byte))
  | badStream (bit : Nat)
  | weltFail (addr : Nat)
deriving DecidableEq, Repr

/-- What the coder gives for a tile group (R424): the payload of the sequence header, that of the frame header, and the tile group's. -/
structure GroupBits where
  sequence : List Byte
  header : List Byte
  tiles : List Byte
deriving DecidableEq, Repr

/-- The search result of one 16 x 16 unit (R437, R438, R443). -/
structure UnitResult where
  hintUsed : Bool
  intra : Bool
  ref : Nat
  mvX : BitVec 16
  mvY : BitVec 16
deriving DecidableEq, Repr

/-! ## Integrity (16) -/

/-- Readings of one burnish pass at an island: the highest replica-path pass in MHz, with slack and temperature correction, of
each successive measurement (R463). -/
abbrev Readings := List Nat

inductive Rail where
  | clu | rsv | base | hbm | opt | ucie | io
deriving DecidableEq, Repr

/-- A line found bad by an awl: channel-local line, mismatched bit positions modulo 64, and whether its welt failed (R304). -/
structure AwlMiss where
  line : Nat
  bits : DWord
  welt : Bool
deriving DecidableEq, Repr

/-- What a sample of the monitors finds beside warnings: the islands with an ERROR (R449), and the lines of device memory that particles have
struck since the last (R451). -/
structure SampleHits where
  errors : List (Fin 100)
  strikes : List (Nat × StoreErr)
deriving DecidableEq, Repr

/-- A JTAG instruction: the mandatory ones of IEEE 1149.1, IDCODE, or any other code (R479). -/
inductive JtagIr where
  | bypass | sample | preload | extest | idcode | other
deriving DecidableEq, Repr

/-- The commands: one constructor per row of spec/opcode_table.json, in the table's order. -/
inductive Instr where
  -- ring commands, R376
  | echo (n : Fin 64) (p : Pkt)
  | queryState (n : Fin 64) (p : Pkt)
  | quiesce (n : Fin 64) (p : Pkt)
  | resume (n : Fin 64) (p : Pkt) (env : HoldEnv)
  | setPartition (n : Fin 64) (p : Pkt)
  | memCopy (n : Fin 64) (p : Pkt)
  | memFill (n : Fin 64) (p : Pkt)
  | memVerify (n : Fin 64) (p : Pkt)
  | folioLoad (n : Fin 64) (p : Pkt)
  | folioPin (n : Fin 64) (p : Pkt)
  | folioEvict (n : Fin 64) (p : Pkt)
  | tableLoad (n : Fin 64) (p : Pkt)
  | jobSubmit (n : Fin 64) (p : Pkt)
  | jobCancel (n : Fin 64) (p : Pkt)
  | jobStatus (n : Fin 64) (p : Pkt)
  | readResult (n : Fin 64) (p : Pkt)
  | releaseResult (n : Fin 64) (p : Pkt)
  | seqJoin (n : Fin 64) (p : Pkt)
  | seqLeave (n : Fin 64) (p : Pkt)
  | kvPageMap (n : Fin 64) (p : Pkt)
  | topoSet (n : Fin 64) (p : Pkt)
  | groupDefine (n : Fin 64) (p : Pkt)
  | linkTrain (n : Fin 64) (p : Pkt)
  | videoOpen (n : Fin 64) (p : Pkt)
  | videoFrame (n : Fin 64) (p : Pkt)
  | videoClose (n : Fin 64) (p : Pkt)
  | burnishRun (n : Fin 64) (p : Pkt)
  | marginReport (n : Fin 64) (p : Pkt)
  | attest (n : Fin 64) (p : Pkt)
  | fwStage (n : Fin 64) (p : Pkt)
  | awlStart (n : Fin 64) (p : Pkt)
  | awlStop (n : Fin 64) (p : Pkt) (done : List (Nat × List AwlMiss))
  | awlReport (n : Fin 64) (p : Pkt)
  | unknownOpcodePacket (n : Fin 64) (opcode : BitVec 16) (p : Pkt)
  -- jobs and steps
  | admissionDecision (slot : Fin 64)
  | waitingJobRetry
  | preemptSpillDone (slot : Fin 64) (core : Fin 2048)
  | victimResume (slot : Fin 64)
  | phaseInstanceStart (c : CoreRef) (act : PhaseAct)
  | stepCut (slot : Fin 64)
  | snapshotCommit (slot : Fin 64)
  | pagerDecisionRecord (slot : Fin 64)
  | jobComplete (slot : Fin 64)
  | promiseOverrun (slot : Fin 64)
  | deadlinePassed (slot : Fin 64)
  | startWaitTimeout (slot : Fin 64)
  | restartQuietDone (slot : Fin 64)
  | restartAgreementTimeout (slot : Fin 64)
  | restartRestoreDone (slot : Fin 64)
  | restartResume (slot : Fin 64)
  -- core instructions
  | outerProductUpdate (c : CoreRef) (o : OpuOp) (u : Upset)
  | matrixVectorUpdate (c : CoreRef) (o : MvOp) (u : Upset)
  | drain (c : CoreRef) (o : DrainOp) (u : Upset)
  | add (c : CoreRef) (o : Vec2) (k : AccAdd) (u : Upset)
  | sub (c : CoreRef) (o : Vec2) (u : Upset)
  | mul (c : CoreRef) (o : Vec2) (u : Upset)
  | fma (c : CoreRef) (o : Vec3) (u : Upset)
  | fms (c : CoreRef) (o : Vec3) (u : Upset)
  | abs (c : CoreRef) (o : Vec1) (u : Upset)
  | neg (c : CoreRef) (o : Vec1) (u : Upset)
  | min (c : CoreRef) (o : Vec2) (u : Upset)
  | max (c : CoreRef) (o : Vec2) (u : Upset)
  | cmp (c : CoreRef) (cc : Cond) (p : Fin 8) (a b : Fin 32) (m : Mask) (u : Upset)
  | sel (c : CoreRef) (o : Vec2) (p : Fin 8) (u : Upset)
  | iadd (c : CoreRef) (o : Vec2) (u : Upset)
  | isub (c : CoreRef) (o : Vec2) (u : Upset)
  | iadds (c : CoreRef) (o : Vec2) (u : Upset)
  | isubs (c : CoreRef) (o : Vec2) (u : Upset)
  | and (c : CoreRef) (o : Vec2) (u : Upset)
  | or (c : CoreRef) (o : Vec2) (u : Upset)
  | xor (c : CoreRef) (o : Vec2) (u : Upset)
  | shl (c : CoreRef) (o : Vec2) (u : Upset)
  | shr (c : CoreRef) (o : Vec2) (u : Upset)
  | sar (c : CoreRef) (o : Vec2) (u : Upset)
  | cvtI2f (c : CoreRef) (o : Vec1) (u : Upset)
  | cvtF2i (c : CoreRef) (o : Vec1) (u : Upset)
  | rnd (c : CoreRef) (o : Vec1) (fmt : Byte) (u : Upset)
  | mov (c : CoreRef) (o : Vec1) (u : Upset)
  | bcr (c : CoreRef) (o : Vec1) (row : Fin 16) (u : Upset)
  | bcc (c : CoreRef) (o : Vec1) (col : Fin 32) (u : Upset)
  | bcs (c : CoreRef) (d : Fin 32) (s : Scalar) (m : Mask) (u : Upset)
  | rsum (c : CoreRef) (o : Vec1) (u : Upset)
  | rmax (c : CoreRef) (o : Vec1) (u : Upset)
  | rmin (c : CoreRef) (o : Vec1) (u : Upset)
  | csum (c : CoreRef) (o : Vec1) (u : Upset)
  | cmax (c : CoreRef) (o : Vec1) (u : Upset)
  | cmin (c : CoreRef) (o : Vec1) (u : Upset)
  | pand (c : CoreRef) (d a b : Fin 8) (m : Mask)
  | por (c : CoreRef) (d a b : Fin 8) (m : Mask)
  | pnot (c : CoreRef) (d a : Fin 8) (m : Mask)
  | setLen (c : CoreRef) (src : LenSrc)
  | flagRd (c : CoreRef) (s : Fin 16)
  | flagClr (c : CoreRef) (mask : Half)
  | ld (c : CoreRef) (o : LdStOp) (u : Upset)
  | ldr (c : CoreRef) (o : LdStOp) (u : Upset)
  | st (c : CoreRef) (o : LdStOp) (u : Upset)
  | str (c : CoreRef) (o : LdStOp) (u : Upset)
  | dwa (c : CoreRef) (o : DwaOp) (u : Upset)
  | sfExp2 (c : CoreRef) (o : Vec1) (u : Upset)
  | sfExp (c : CoreRef) (o : Vec1) (u : Upset)
  | sfLog2 (c : CoreRef) (o : Vec1) (u : Upset)
  | sfLog (c : CoreRef) (o : Vec1) (u : Upset)
  | sfRcp (c : CoreRef) (o : Vec1) (u : Upset)
  | sfRsqrt (c : CoreRef) (o : Vec1) (u : Upset)
  | sfTanh (c : CoreRef) (o : Vec1) (u : Upset)
  | sfSigm (c : CoreRef) (o : Vec1) (u : Upset)
  | sfErf (c : CoreRef) (o : Vec1) (u : Upset)
  | sfSoftplus (c : CoreRef) (o : Vec1) (u : Upset)
  | sfGelu (c : CoreRef) (o : Vec1) (u : Upset)
  | sfSilu (c : CoreRef) (o : Vec1) (u : Upset)
  | smxInit (c : CoreRef) (ta : Fin 32)
  | smxAcc (c : CoreRef) (te ta ts : Fin 32) (m : Mask) (u : Upset)
  | smxExp (c : CoreRef) (te ts ta : Fin 32) (m : Mask) (u : Upset)
  | smxNorm (c : CoreRef) (td te ta : Fin 32) (m : Mask) (u : Upset)
  | smxMerge (c : CoreRef) (ta tb : Fin 32) (u : Upset)
  | nrmInit (c : CoreRef) (ta : Fin 32) (zeroShift : Bool)
  | nrmAcc (c : CoreRef) (ta ts : Fin 32) (m : Mask) (u : Upset)
  | nrmFin (c : CoreRef) (td ta : Fin 32) (u : Upset)
  | nrmMerge (c : CoreRef) (ta tb : Fin 32) (u : Upset)
  | send (c : CoreRef) (o : SendOp)
  | recv (c : CoreRef) (o : RecvOp)
  | stitchCreditArrival (c : CoreRef) (at' : CreditAt)
  | stopMax (c : CoreRef) (ts : Fin 32) (m : Mask) (u : Upset)
  | nzNorm (c : CoreRef) (o : NoiseOp) (u : Upset)
  | poolMax (c : CoreRef) (o : PoolOp) (u : Upset)
  | poolAvg (c : CoreRef) (o : PoolOp) (u : Upset)
  | rsNear (c : CoreRef) (o : ResampleOp) (u : Upset)
  | rsBil (c : CoreRef) (o : ResampleOp) (u : Upset)
  -- weight decoders and tables
  | swfBlockDecode (slot : Fin 64) (tensor block : Nat)
  | atUseBlockRequest (c : CoreRef) (tensor block : Nat) (well : Nat)
  | tableInstall (cls : Fin 2)
  | tableLoadTimeout (cls : Fin 2)
  -- final records of commands that replied ACCEPTED; `op` is the command's place in the order of fetch
  | partitionApplied
  | memCopyDone (op : Nat)
  | memFillDone (op : Nat)
  | memVerifyDone (op : Nat)
  | folioLoadDone (op : Nat) (img : FolioDecl)
  | folioPinDone (op : Nat)
  | kvPageMapDone (op : Nat)
  | quiesceDone
  | jobCancelDone (op : Nat)
  | readResultDone (op : Nat)
  | releaseResultDone (op : Nat)
  | linkTrainDone (op : Nat) (rs : List TrainResult)
  | marginReportDone (op : Nat)
  | attestDone (op : Nat)
  | fwStageDone (op : Nat)
  | videoCloseDone (op : Nat)
  | awlRegionDone (c : Fin 192) (miss : List AwlMiss)
  -- video
  | frameStart (e : Fin 4)
  | tileGroupEmit (e : Fin 4) (bits : GroupBits) (rowBits : List Nat)
  | frameDone (e : Fin 4) (r : FrameEnd) (recon : List Nat)
  -- links
  | writeFlit (l : Fin 64) (f : FlitRx)
  | reduceFlit (l : Fin 64) (f : FlitRx) (u : RedUse)
  | idleFlit (l : Fin 64) (f : FlitRx)
  | fault (m : Ctrl) (reason : BitVec 8) (count : BitVec 48)
  | barrierEnter (m : Ctrl) (rank : Nat) (t : BarrierTimes) (same : GroupTerms)
  | start (m : Ctrl) (t : BarrierTerms)
  | abort (m : Ctrl) (timeout : Bool)
  | refuse (m : Ctrl) (status reason : BitVec 8)
  | stopStat (m : Ctrl) (rank : Nat) (step : Nat) (stat : Word)
  | commit (m : Ctrl) (rank : Nat) (ordinal : Nat)
  | pager (m : Ctrl) (ds : List PagerDecision)
  | laneLockLoss (l : Fin 64) (lane : Fin 4)
  | laneSymbolLimit (l : Fin 64) (lane : Fin 4)
  | laneUncorrectableRun (l : Fin 64) (symbols : List Nat)
  | laneRealignDone (l : Fin 64) (peerRx : BitVec 4)
  -- integrity, power, boot
  | crossingStall (src dst : Fin 100)
  | monitorSample (warnings : List (Fin 100 × Nat)) (hits : SampleHits)
  | burnishDue (i : Fin 100)
  | burnishIdlePass (i : Fin 100) (r : Readings)
  | burnishLivePass (i : Fin 100) (r : Readings)
  | islFreqUpdate (cycles : List Nat)
  | powerSample (milliwatts : Nat)
  | thermalFault (i : Fin 100)
  | thermLAssert (i : Fin 100)
  | thermLRelease
  | powerFault (r : Rail)
  | sysclkLoss
  | optclkLoss
  | pwrgoodRise (bootMode : BitVec 2)
  | pwrgoodFall
  | resetLAssert
  | resetLRise
  | fuseLoadDone (bad : Bool)
  | ucieTrainingDone (modules : BitVec 4) (rate : BitVec 6)
  | imageReadDone
  | imageReadTimeout
  | hostWaitTimeout
  | verifyDone
  | releaseDone (bootFuseOk ratchetOk : Bool)
  | hbmTrainingDone (cap : Nat) (best : List Nat) (report : List (BitVec 8 × Bool))
  | subtreeReady
  | firstBurnishDone (r : List Readings)
  -- register rows
  | ringDoorbell (n : Fin 64) (tail : Word)
  | ringEnable (n : Fin 64) (value : Word)
  | ringDisable (n : Fin 64) (value : Word)
  | backlogRecordWrite (n : Fin 64)
  | firmwareStall (n : Option (Fin 64)) (opcode : BitVec 16) (p : Pkt) (scribe : BitVec 4) (committed : Bool)
  | ctlCountLo (wide : Bool)
  | vidRingProdLo (e : Fin 4) (s : Fin 8) (wide : Bool)
  | vidRingConsLo (e : Fin 4) (s : Fin 8) (value : Word)
  | opeFailInfo (cl : Fin 64) (wide : Bool)
  | vecFailInfo (cl : Fin 64) (wide : Bool)
  | hbmChEcc (c : Fin 192) (wide : Bool)
  | linkFec (l : Fin 64) (wide : Bool)
  | linkReplay (l : Fin 64) (wide : Bool)
  | linkLaneSym (l : Fin 64) (wide : Bool)
  | vidErr (e : Fin 4) (wide : Bool)
  | hstLinkErr (wide : Bool)
  | awlCtlStop (c : Fin 192) (done : Nat × List AwlMiss)
  | serviceHours (value : Word)
  | irqMask (hi : Bool) (value : Word)
  | msixMaskClear (v : Option (Fin 65))
  | irqEvent (value : Word)
  | irqHoldoffExpiry (n : Fin 64)
  | go
  | hostBootGo
  | registerWrite (off : Nat) (wide : Bool) (value : DWord)
  -- host bus and management
  | cxlMemRead (off : Nat)
  | cxlMemWrite (off : Nat) (enable : BitVec 64) (data : List Byte)
  | cxlSnoop (addr : DWord)
  | backInvalidateResponse (line : Nat)
  | hostLinkDown
  | hostLinkUp (modules : BitVec 4) (rate : BitVec 6)
  | i3cPrivateWrite (bytes : List Byte)
  | i3cPrivateRead (n : Nat)
  | i3cAddressAssign (addr : BitVec 7)
  | burnishRunDone (op : Nat) (r : List (Fin 100 × Readings))
  | globalObservationResponse (addr : DWord)
  | jtagAccess (ir : JtagIr) (dr : Word)
  | hostModuleLost (k : Fin 4)
deriving DecidableEq, Repr

end Sys2Proof
end

