-- ==== Sys2Proof/Decode.lean ====
section
/-! DEFINITION. The words that spell a command by the table's bits: spec/opcode_table.json gives no row any bit. -/
namespace Sys2Proof

/-- No row of the table has bits, so no word of any length spells a command. -/
def decodeTableWord (_nbits _w : Nat) : Option Instr := none

end Sys2Proof
end

