-- ==== Sys2Proof/Machine/Fp.lean ====
section
/-!
DEFINITION. Exact arithmetic and its roundings (R46, R56 to R59, R94, R119).
A real value is held exactly as a dyadic; every FP32 operation computes exactly and rounds once.
-/
namespace Sys2Proof

/-- A dyadic rational `m * 2^e`. -/
structure Dy where
  m : Int
  e : Int
deriving DecidableEq, Repr

/-- The integer `m * 2^k`. -/
def Dy.up (m : Int) (k : Int) : Int := m * (2 ^ k.toNat : Nat)

def Dy.ofInt (n : Int) : Dy := ⟨n, 0⟩
def Dy.add (a b : Dy) : Dy :=
  let e := min a.e b.e
  ⟨Dy.up a.m (a.e - e) + Dy.up b.m (b.e - e), e⟩
def Dy.neg (a : Dy) : Dy := ⟨-a.m, a.e⟩
def Dy.sub (a b : Dy) : Dy := a.add b.neg
def Dy.mul (a b : Dy) : Dy := ⟨a.m * b.m, a.e + b.e⟩
/-- `a * 2^k`. -/
def Dy.scale (a : Dy) (k : Int) : Dy := ⟨a.m, a.e + k⟩
def Dy.absd (a : Dy) : Dy := ⟨a.m.natAbs, a.e⟩
def Dy.le (a b : Dy) : Bool := decide ((a.sub b).m ≤ 0)
def Dy.lt (a b : Dy) : Bool := decide ((a.sub b).m < 0)
def Dy.eqv (a b : Dy) : Bool := decide ((a.sub b).m = 0)
def Dy.maxd (a b : Dy) : Dy := if a.lt b then b else a
def Dy.mind (a b : Dy) : Dy := if b.lt a then b else a
/-- The greatest integer not above `a`. -/
def Dy.floor (a : Dy) : Int := if 0 ≤ a.e then Dy.up a.m a.e else a.m / ((2 ^ (-a.e).toNat : Nat) : Int)

/-- `m * 2^e` rounded to nearest, ties to even, to `p` significant bits and no bit below `2^emin`: a significand and its
exponent. -/
def roundSig (p : Nat) (emin : Int) (m : Nat) (e : Int) : Nat × Int :=
  if m = 0 then (0, emin) else
  let q := max emin (e + m.log2 + 1 - p)
  if q ≤ e then (m * 2 ^ (e - q).toNat, q) else
  let k := (q - e).toNat
  let f := m / 2 ^ k
  let r := m % 2 ^ k
  let half := 2 ^ (k - 1)
  (if half < r ∨ (r = half ∧ f % 2 = 1) then f + 1 else f, q)

/-- Far below every exponent that occurs: rounding with unbounded exponent. -/
def noMin : Int := -1000000

/-- `a` rounded to `p` significant bits with unbounded exponent (R94 with p = 24, R148 with p = 40). -/
def Dy.round (p : Nat) (a : Dy) : Dy :=
  let (m, e) := roundSig p noMin a.m.natAbs a.e
  ⟨if a.m < 0 then -(m : Int) else m, e⟩

/-- `a` rounded to the nearest integer, ties to even. -/
def Dy.roundInt (a : Dy) : Int :=
  let (m, e) := roundSig 100000 0 a.m.natAbs a.e
  let n := m * 2 ^ e.toNat
  if a.m < 0 then -(n : Int) else n

/-- A value of the internal form (R52) or of FP32: NaN, an infinity or a signed finite value `m * 2^e`, zero when `m = 0`. -/
inductive Fp where
  | nan
  | inf (neg : Bool)
  | fin (neg : Bool) (m : Nat) (e : Int)
deriving DecidableEq, Repr

namespace Fp
def zero : Fp := .fin false 0 0
def one : Fp := .fin false 1 0
def isZero : Fp → Bool
  | .fin _ m _ => m == 0
  | _ => false
def isNan : Fp → Bool
  | .nan => true
  | _ => false
def isInf : Fp → Bool
  | .inf _ => true
  | _ => false
def isFin : Fp → Bool
  | .fin .. => true
  | _ => false
def sign : Fp → Bool
  | .nan => false
  | .inf n => n
  | .fin n _ _ => n
def negate : Fp → Fp
  | .nan => .nan
  | .inf n => .inf !n
  | .fin n m e => .fin (!n) m e
def absv : Fp → Fp
  | .nan => .nan
  | .inf _ => .inf false
  | .fin _ m e => .fin false m e
/-- The exact value of a finite one (0 of the others). -/
def toDy : Fp → Dy
  | .fin n m e => ⟨if n then -(m : Int) else m, e⟩
  | _ => ⟨0, 0⟩
/-- The value of a dyadic, a zero taking the sign given. -/
def ofDy (zneg : Bool) (d : Dy) : Fp :=
  if d.m = 0 then .fin zneg 0 0 else .fin (decide (d.m < 0)) d.m.natAbs d.e
/-- Multiply a finite value by `2^k` exactly. -/
def scale (k : Int) : Fp → Fp
  | .fin n m e => .fin n m (e + k)
  | x => x

/-- Exact product (R57): the sign of a zero or an infinity is the exclusive OR. -/
def mulExact : Fp → Fp → Fp
  | .nan, _ => .nan
  | _, .nan => .nan
  | .inf a, .inf b => .inf (a != b)
  | .inf a, .fin b m _ => if m = 0 then .nan else .inf (a != b)
  | .fin a m _, .inf b => if m = 0 then .nan else .inf (a != b)
  | .fin a m e, .fin b n f => .fin (a != b) (m * n) (e + f)

/-- Exact sum (R58): opposite infinities give NaN; an exact zero sum is +0 but for two zeros of sign minus. -/
def addExact : Fp → Fp → Fp
  | .nan, _ => .nan
  | _, .nan => .nan
  | .inf a, .inf b => if a = b then .inf a else .nan
  | .inf a, .fin .. => .inf a
  | .fin .., .inf b => .inf b
  | .fin a m e, .fin b n f =>
    ofDy (a && b && m == 0 && n == 0) ((toDy (.fin a m e)).add (toDy (.fin b n f)))

/-- Round a value to `p` significant bits with unbounded exponent, keeping the sign of a zero (R94). -/
def roundTo (p : Nat) : Fp → Fp
  | .fin n m e => let (m', e') := roundSig p noMin m e; .fin n m' e'
  | x => x
end Fp

/-- The canonical NaN (R59). -/
def nan32 : Word := 0x7FC00000
def inf32 (neg : Bool) : Word := if neg then 0xFF800000 else 0x7F800000
def one32 : Word := 0x3F800000

/-- A stored FP32 pattern as a value (R46). -/
def decode32 (w : Word) : Fp :=
  let s := w.msb
  let e : Nat := (w.toNat / 2 ^ 23) % 256
  let m := w.toNat % 2 ^ 23
  if e = 255 then (if m = 0 then .inf s else .nan)
  else if e = 0 then .fin s m (-149)
  else .fin s (2 ^ 23 + m) ((e : Int) - 150)

/-- A finite magnitude after rounding to FP32: pattern without sign, and whether it overflowed to infinity (R56). -/
def pack32 (m : Nat) (e : Int) : Nat × Bool :=
  let (f, q) := roundSig 24 (-149) m e
  let bits := (q + 149).toNat * 2 ^ 23 + f
  if f = 0 then (0, false)
  else if 0x7F800000 ≤ bits then (0x7F800000, true) else (bits, false)

/-- A value rounded to FP32, to nearest, ties to even, subnormals kept, and whether a finite value became infinite. -/
def encode32 : Fp → Word × Bool
  | .nan => (nan32, false)
  | .inf n => (inf32 n, false)
  | .fin n m e =>
    let (b, o) := pack32 m e
    (BitVec.ofNat 32 (if n then 2 ^ 31 + b else b), o)

/-- `round32` of the spec. -/
def round32 (x : Fp) : Word := (encode32 x).1
/-- Round to FP32 and give the value back. -/
def round32v (x : Fp) : Fp := decode32 (round32 x)

/-- The result of an FP32 instruction with the flags it may raise (R119): a finite result that rounds to infinity, an invalid
operation on non-NaN inputs. -/
structure FpRes where
  bits : Word
  ovf : Bool
  inv : Bool
deriving DecidableEq, Repr

/-- Round an exact result of `ins`. -/
def fpResult (ins : List Fp) (x : Fp) : FpRes :=
  let (b, o) := encode32 x
  ⟨b, o, x.isNan && ins.all fun y => !y.isNan⟩

/-- ADD with one rounding (R119). -/
def fadd (a b : Word) : FpRes := fpResult [decode32 a, decode32 b] ((decode32 a).addExact (decode32 b))
def fsub (a b : Word) : FpRes := fpResult [decode32 a, decode32 b] ((decode32 a).addExact (decode32 b).negate)
def fmul (a b : Word) : FpRes := fpResult [decode32 a, decode32 b] ((decode32 a).mulExact (decode32 b))
/-- FMA: `a * b + c` with one rounding (R119). -/
def ffma (a b c : Word) : FpRes :=
  fpResult [decode32 a, decode32 b, decode32 c] (((decode32 a).mulExact (decode32 b)).addExact (decode32 c))
/-- FMS: `a * b - c` with one rounding (R119). -/
def ffms (a b c : Word) : FpRes :=
  fpResult [decode32 a, decode32 b, decode32 c] (((decode32 a).mulExact (decode32 b)).addExact (decode32 c).negate)

/-- IEEE 754 binary32 division, rounded to nearest, ties to even (R161, R217). -/
def fdivFp : Fp → Fp → Fp
  | .nan, _ => .nan
  | _, .nan => .nan
  | .inf _, .inf _ => .nan
  | .inf a, .fin b _ _ => .inf (a != b)
  | .fin a _ _, .inf b => .fin (a != b) 0 0
  | .fin a m e, .fin b n f =>
    if n = 0 then (if m = 0 then .nan else .inf (a != b))
    else
      let k := 64 + n.log2
      let q := (m * 2 ^ k) / n
      let r := (m * 2 ^ k) % n
      .fin (a != b) (2 * q + if r = 0 then 0 else 1) (e - f - k - 1)

def fdiv (a b : Word) : Word := round32 (fdivFp (decode32 a) (decode32 b))

/-- The plain operations on patterns, without their flags. -/
def addW (a b : Word) : Word := (fadd a b).bits
def subW (a b : Word) : Word := (fsub a b).bits
def mulW (a b : Word) : Word := (fmul a b).bits
def fmaW (a b c : Word) : Word := (ffma a b c).bits

/-- ABS and NEG: the sign bit, a NaN giving the canonical NaN (R119). -/
def fabs (a : Word) : Word := if (decode32 a).isNan then nan32 else a &&& 0x7FFFFFFF
def fneg (a : Word) : Word := if (decode32 a).isNan then nan32 else a ^^^ 0x80000000

/-- The order of two values neither of which is NaN; −0 equals +0. -/
def Fp.ltv : Fp → Fp → Bool
  | .inf true, .inf true => false
  | .inf true, _ => true
  | _, .inf true => false
  | .inf false, _ => false
  | _, .inf false => true
  | a, b => a.toDy.lt b.toDy
def Fp.eqv : Fp → Fp → Bool
  | .inf a, .inf b => a == b
  | .fin a m e, .fin b n f => (Fp.toDy (.fin a m e)).eqv (Fp.toDy (.fin b n f))
  | _, _ => false

/-- MAX of R120: NaN when either is NaN, and MAX(+0, −0) is +0. -/
def fmax (a b : Word) : Word :=
  let x := decode32 a
  let y := decode32 b
  if x.isNan || y.isNan then nan32
  else if x.isZero && y.isZero then (if x.sign && y.sign then a else 0)
  else if x.ltv y then b else a

/-- MIN of R120: NaN when either is NaN, and MIN(+0, −0) is −0. -/
def fmin (a b : Word) : Word :=
  let x := decode32 a
  let y := decode32 b
  if x.isNan || y.isNan then nan32
  else if x.isZero && y.isZero then (if x.sign || y.sign then 0x80000000 else 0)
  else if y.ltv x then b else a

/-- INT32 to FP32, to nearest, ties to even (R122). -/
def i2f (w : Word) : Word := round32 (Fp.ofDy false (Dy.ofInt w.toInt))

/-- Clamp to the INT32 range: the value and whether it was clamped. -/
def clamp32 (n : Int) : Int × Bool :=
  if n < -2147483648 then (-2147483648, true) else if 2147483647 < n then (2147483647, true) else (n, false)

/-- Saturating INT32 addition and subtraction (R60, R121). -/
def sadd (a b : Word) : Word × Bool := let (v, t) := clamp32 (a.toInt + b.toInt); (BitVec.ofInt 32 v, t)
def ssub (a b : Word) : Word × Bool := let (v, t) := clamp32 (a.toInt - b.toInt); (BitVec.ofInt 32 v, t)

/-- The pairwise tree of R68 over a list: entries 2j and 2j+1 are combined with the lower index on the left, an unpaired last
entry passes up unchanged. One level. -/
def treeLevel {α : Type} (f : α → α → α) : List α → List α
  | a :: b :: r => f a b :: treeLevel f r
  | r => r

/-- The tree of R68, `n` levels of it. -/
def treeFuel {α : Type} (f : α → α → α) : Nat → List α → List α
  | 0, l => l
  | n + 1, l => treeFuel f n (treeLevel f l)

/-- The result of the pairwise tree of R68, `d` for no entry; a list of fewer than 2^32 entries is reduced to one. -/
def tree {α : Type} (d : α) (f : α → α → α) (l : List α) : α := (treeFuel f 32 l).headD d

end Sys2Proof
end

