-- ==== Sys2Proof/Machine/Formats.lean ====
section
/-!
DEFINITION. The number formats of chapter 02: codes, decoding to the internal form (R44 to R54), packing (R49),
conversion to output formats (R62 to R66).
-/
namespace Sys2Proof

/-- Element width in bits of a format code (R44); 0 for the reserved code. -/
def fmtBits (c : BitVec 4) : Nat :=
  match c.toNat with
  | 0 => 32 | 1 => 16 | 2 => 16
  | 3 => 8 | 4 => 8 | 5 => 8 | 6 => 8 | 7 => 6 | 8 => 6 | 9 => 4 | 10 => 8
  | 11 => 8 | 12 => 4 | 13 => 8 | 14 => 4 | _ => 0

/-- Codes 0x5 to 0xA carry a block scale (R44). -/
def fmtMx (c : BitVec 4) : Bool := decide (5 ≤ c.toNat) && decide (c.toNat ≤ 10)
/-- Codes 0x3, 0x4, 0xB, 0xC and 0xD may carry a context scale and 0xE carries a tensor scale (R48). -/
def fmtCtx (c : BitVec 4) : Bool := [3, 4, 11, 12, 13, 14].contains c.toNat
/-- The integer codes of R60. -/
def fmtInt (c : BitVec 4) : Bool := [11, 12, 13].contains c.toNat
/-- Class of R44: 0 for 16-bit, 1 for 8-bit, 2 for 4-bit, 3 for the 32-bit and the reserved code. -/
def fmtClass (c : BitVec 4) : Nat :=
  match c.toNat with
  | 1 | 2 => 0
  | 3 | 4 | 5 | 6 | 7 | 8 | 10 | 11 | 13 => 1
  | 9 | 12 | 14 => 2
  | _ => 3
/-- Rank per cycle of a pair of classes (R55). -/
def fmtRank (a b : BitVec 4) : Nat :=
  if fmtClass a = 0 ∨ fmtClass b = 0 then 1
  else if fmtClass a = 2 ∧ fmtClass b = 2 then 4 else 2

/-- Layout of a floating-point code (R46): exponent bits, mantissa bits, bias, and kind of specials: 0 none, 1 NaN only at the
all-ones pattern (E4M3), 2 infinity and NaN. -/
structure FloatFmt where
  eb : Nat
  mb : Nat
  bias : Int
  kind : Nat
deriving DecidableEq, Repr

def floatFmt (c : BitVec 4) : Option FloatFmt :=
  match c.toNat with
  | 0 => some ⟨8, 23, 127, 2⟩
  | 1 => some ⟨8, 7, 127, 2⟩
  | 2 => some ⟨5, 10, 15, 2⟩
  | 3 | 5 => some ⟨4, 3, 7, 1⟩
  | 4 | 6 => some ⟨5, 2, 15, 2⟩
  | 7 => some ⟨3, 2, 3, 0⟩
  | 8 => some ⟨2, 3, 1, 0⟩
  | 9 | 14 => some ⟨2, 1, 1, 0⟩
  | _ => none

/-- A floating-point element (R46). -/
def decodeFloat (f : FloatFmt) (n : Nat) : Fp :=
  let s := n / 2 ^ (f.eb + f.mb) % 2 == 1
  let e : Nat := n / 2 ^ f.mb % 2 ^ f.eb
  let m : Nat := n % 2 ^ f.mb
  let top := e = 2 ^ f.eb - 1
  if top ∧ f.kind = 2 then (if m = 0 then .inf s else .nan)
  else if top ∧ f.kind = 1 ∧ m = 2 ^ f.mb - 1 then .nan
  else if e = 0 then .fin s m (1 - f.bias - f.mb)
  else .fin s (2 ^ f.mb + m) (e - f.bias - f.mb)

/-- An integer element of `w` bits in two's complement, as a value `n * 2^e` (R47). -/
def decodeInt (w n : Nat) (e : Int) : Fp :=
  if 2 ^ (w - 1) ≤ n then .fin true (2 ^ w - n) e else .fin false n e

/-- A stored element as a value, before any scale (R46, R47). Every code but the reserved one. -/
def decodeElem (c : BitVec 4) (n : Nat) : Fp :=
  match floatFmt c with
  | some f => decodeFloat f n
  | none =>
    match c.toNat with
    | 10 => decodeInt 8 n (-6)
    | 11 => decodeInt 8 n 0
    | 12 => decodeInt 4 n 0
    | _ => .fin false n 0

/-- A value under an E8M0 scale byte (R48, R53): 0xFF makes it NaN. -/
def applyScale (v : Byte) (x : Fp) : Fp :=
  if v = 0xFF then .nan else x.scale ((v.toNat : Int) - 127)

/-- The internal form of a stored element (R53); `sc` is the scale that applies, 127 where none does. -/
def internal (c : BitVec 4) (sc : Byte) (n : Nat) : Fp :=
  if fmtMx c || fmtCtx c then applyScale sc (decodeElem c n) else decodeElem c n

/-- Bits `[lo, lo + w)` of a little-endian string of bytes. -/
def bitsAt (bytes : Nat → Byte) (lo w : Nat) : Nat :=
  let b := lo / 8
  let v := (List.range ((lo % 8 + w + 7) / 8)).foldr (fun i acc => acc * 256 + (bytes (b + i)).toNat) 0
  v / 2 ^ (lo % 8) % 2 ^ w

/-- Encoding of element `i` of a row packed under R49 from the byte at index 0 of `bytes`. -/
def elemAt (c : BitVec 4) (bytes : Nat → Byte) (i : Nat) : Nat := bitsAt bytes (i * fmtBits c) (fmtBits c)

/-! ## Conversion to output formats (R62 to R66) -/

/-- A converted element with the flags CVT_SAT and CVT_NAN it sets. -/
structure Conv where
  enc : Nat
  sat : Bool
  nan : Bool
deriving DecidableEq, Repr

def FloatFmt.maxFinite (f : FloatFmt) : Dy :=
  let e : Int := (2 ^ f.eb : Nat) - 1 - (if f.kind = 2 then 1 else 0) - f.bias - f.mb
  let m : Nat := 2 ^ (f.mb + 1) - 1 - (if f.kind = 1 then 1 else 0)
  ⟨m, e⟩

def FloatFmt.maxEnc (f : FloatFmt) : Nat :=
  2 ^ (f.eb + f.mb) - 1 - (match f.kind with | 0 => 0 | 1 => 1 | _ => 2 ^ f.mb)
def FloatFmt.infEnc (f : FloatFmt) : Nat := (2 ^ f.eb - 1) * 2 ^ f.mb
/-- The NaN encodings of R64: 0x7FC0_0000, 0x7FC0, 0x7E00, 0x7F, 0x7E. -/
def FloatFmt.nanEnc (f : FloatFmt) : Nat :=
  if f.kind = 1 then 2 ^ (f.eb + f.mb) - 1 else f.infEnc + 2 ^ (f.mb - 1)

/-- A finite value in a floating-point format: rounded once, subnormals kept; `none` when it overflows (R64). -/
def FloatFmt.encodeFin (f : FloatFmt) (m : Nat) (e : Int) : Option Nat :=
  let (q, x) := roundSig (f.mb + 1) (1 - f.bias - f.mb) m e
  if f.maxFinite.lt ⟨q, x⟩ then none
  else some (if q = 0 then 0 else (x - (1 - f.bias - f.mb)).toNat * 2 ^ f.mb + q)

/-- Conversion to a floating-point code outside the MX formats (R64, R65). `sat` is the SAT bit of R63. -/
def convFloat (c : BitVec 4) (f : FloatFmt) (sat : Bool) (x : Fp) : Conv :=
  let sgn (b : Bool) (n : Nat) := if b then 2 ^ (f.eb + f.mb) + n else n
  match x with
  | .nan => if f.kind = 0 then ⟨0, false, true⟩ else ⟨f.nanEnc, false, false⟩
  | .inf s => if f.kind = 2 then ⟨sgn s f.infEnc, false, false⟩ else ⟨sgn s f.maxEnc, true, false⟩
  | .fin s m e =>
    match f.encodeFin m e with
    | some n => ⟨sgn s n, false, false⟩
    | none =>
      if f.kind = 2 ∧ (c = 0 ∨ !sat) then ⟨sgn s f.infEnc, false, false⟩ else ⟨sgn s f.maxEnc, true, false⟩

/-- Clamp an integer to `[lo, hi]`. -/
def convInt (w : Nat) (lo hi n : Int) : Conv :=
  let v := if n < lo then lo else if hi < n then hi else n
  ⟨(v % ((2 ^ w : Nat) : Int)).toNat, decide (v ≠ n), false⟩

/-- Conversion to an integer code of range `[lo, hi]` (R64). -/
def convToInt (w : Nat) (lo hi : Int) (x : Fp) : Conv :=
  match x with
  | .nan => ⟨0, false, true⟩
  | .inf s => { convInt w lo hi (if s then lo - 1 else hi + 1) with sat := true }
  | x => convInt w lo hi x.toDy.roundInt

/-- Conversion of a value to any code outside the MX formats, after the scale of codes that carry one (R63, R64). DESIGN CHOICE
(log 59): under scale byte 0xFF, to which R63 gives a meaning in decoding only, the value converts as a NaN. -/
def convert (c : BitVec 4) (sat : Bool) (sc : Byte) (x : Fp) : Conv :=
  let y := if fmtCtx c then (if sc = 0xFF then .nan else x.scale (127 - (sc.toNat : Int))) else x
  match floatFmt c with
  | some f => convFloat c f sat y
  | none =>
    match c.toNat with
    | 11 => convToInt 8 (-128) 127 y
    | 12 => convToInt 4 (-8) 7 y
    | _ => convToInt 8 0 255 y

/-- An INT32 value converts to INT8, INT4 and UINT8 directly and to every other format through FP32 (R64). -/
def intSource (c : BitVec 4) (w : Word) : Fp :=
  let x := Fp.ofDy false (Dy.ofInt w.toInt)
  if fmtInt c then x else round32v x

/-- emax of an MX element format (R66). -/
def mxEmax (c : BitVec 4) : Int :=
  match c.toNat with
  | 5 => 8 | 6 => 15 | 7 => 4 | 8 => 2 | 9 => 2 | _ => 0

/-- floor(log2 |x|) of a finite nonzero value. -/
def floorLog2 (x : Fp) : Int :=
  match x with
  | .fin _ m e => m.log2 + e
  | _ => 0

/-- The largest magnitude of the finite values of a list, as a value; a zero when all are zero. -/
def amax (xs : List Fp) : Fp :=
  xs.foldl (fun a x => if x.isFin && a.toDy.absd.lt x.toDy.absd then x.absv else a) Fp.zero

/-- An MX element: clamped to the largest magnitude (R64, R66). -/
def convMxElem (c : BitVec 4) (x : Fp) : Conv :=
  match floatFmt c with
  | some f =>
    (match x with
    | .fin s m e =>
      let sgn (n : Nat) := if s then 2 ^ (f.eb + f.mb) + n else n
      (match f.encodeFin m e with
      | some n => ⟨sgn n, false, false⟩
      | none => ⟨sgn f.maxEnc, true, false⟩)
    | _ => ⟨0, false, false⟩)
  | none => convInt 8 (-128) 127 (x.scale 6).toDy.roundInt

/-- One MX output block (R66): scale byte, element encodings, and the flags. `xs` holds the in-bounds elements. -/
def convMxBlock (c : BitVec 4) (xs : List Fp) : Byte × List Nat × Bool × Bool :=
  if xs.any fun x => !x.isFin then
    (0xFF, xs.map fun _ => 0, xs.any Fp.isInf, xs.any Fp.isNan)
  else
    let a := amax xs
    let x := if a.isZero then -127 else min 127 (max (-127) (floorLog2 a - mxEmax c))
    let es := xs.map fun v => convMxElem c (v.scale (-x))
    (BitVec.ofInt 8 (x + 127), es.map Conv.enc, es.any Conv.sat, false)

/-- Page scale of a first write into a fresh page (R229). -/
def pageScale (c : BitVec 4) (headroom : Nat) (xs : List Fp) : Byte :=
  let emax : Option Int := match c.toNat with | 3 => some 8 | 4 => some 15 | 11 => some 6 | 12 => some 2 | _ => none
  match emax with
  | none => 0x7F
  | some em =>
    let a := amax xs
    if a.isZero then 0x7F
    else BitVec.ofInt 8 (min 127 (max (-127) (floorLog2 a - em + headroom)) + 127)

/-- RND.fmt of R122: the value rounded to a format and read back. -/
def rndTo (c : BitVec 4) (sat : Bool) (x : Fp) : Word × Bool × Bool :=
  let r := convert c sat 127 x
  (round32 (decodeElem c r.enc), r.sat, r.nan)

end Sys2Proof
end

