-- ==== Sys2Proof/Config.lean ====
section
/-!
DEFINITION. What the spec leaves open and the model does not choose: constants WITHOUT A BODY, so that nothing can
evaluate them or prove a value of them. A statement about one holds whatever it is.
-/
namespace Sys2Proof

/-- A free value of 64 bits: the n-th value the model took (R67 and every log entry that names a free value). -/
opaque Config.freeValue : Nat → BitVec 64

/-- Device-key ECDSA P-384 signature of a hash (17 R482: derivation labels and signing nonce are not given). Log 9. -/
opaque Config.deviceSign : List Byte → List Byte
/-- The device key's public point, 97 bytes (17 R482). Log 9. -/
opaque Config.devicePub : List Byte
/-- The long-term LMS public key, 56 bytes (17 R482). Log 9. -/
opaque Config.longTermPub : List Byte
/-- The one-time signature of the long-term key at a leaf: 1,132 bytes, the signature without its path nodes (17 R483). Log 9. -/
opaque Config.longTermSign : Nat → List Byte → List Byte
/-- The per-boot subtree's public key at boot leaf q, 56 bytes (17 R483). Log 9. -/
opaque Config.subtreePub : Nat → List Byte
/-- The subtree signature of boot leaf q at report leaf i over a body, 2,668 bytes (17 R485). Log 9. -/
opaque Config.subtreeSign : Nat → Nat → List Byte → List Byte
/-- The value of leaf q of the long-term tree (17 R483: derived from the seed). Log 9. -/
opaque Config.longTermLeaf : Nat → List Byte

/-- Bits [31:1] of the JTAG IDCODE (16 R479 names the instruction only). Log 6. -/
opaque Config.idcode : BitVec 31

/-- The PRBS-31 data of an awl (10 R305: bit order and packing are not given): seed, place of the line in the region, word of the
line. Log 13. -/
opaque Config.awlPrbs : Word → Nat → Nat → DWord
/-- The bit that a walking-one pattern starts at (10 R305 gives none). Log 13. -/
opaque Config.awlWalkStart : Nat

/-- The bytes that fill an OBU_PADDING before its trailing bits (15 R435 gives none). Log 10. -/
opaque Config.padByte : Nat → Byte

/-- The reservoir slice in which the at-use block with its header line at an address lies (11 R323: the device's choosing). Log 67. -/
opaque Config.atUseSlice : Nat → BitVec 4

end Sys2Proof
end

