-- ==== Sys2Proof/Machine/Map.lean ====
section
/-!
DEFINITION. Sparse maps in ONE canonical form: keys strictly rising, no listed value equal to the default.
Every array of registers, every store of bytes and every table of the state is one of these, so that equal contents are
equal data.
-/
namespace Sys2Proof

/-- What key `k` reads as; `d` is what an unlisted key reads as. -/
def SMap.get {α : Type} (d : α) : SMap α → Nat → α
  | [], _ => d
  | (j, v) :: m, k => if k = j then v else SMap.get d m k

/-- Insert or replace the entry of key `k`. -/
def SMap.insert {α : Type} (k : Nat) (v : α) : SMap α → SMap α
  | [] => [(k, v)]
  | (j, w) :: m => if k < j then (k, v) :: (j, w) :: m else if k = j then (k, v) :: m else (j, w) :: SMap.insert k v m

/-- Write `v` at `k`, keeping the canonical form: the default removes the entry. -/
def SMap.set {α : Type} [DecidableEq α] (d : α) (k : Nat) (v : α) (m : SMap α) : SMap α :=
  if v = d then m.filter fun kv => kv.1 != k else SMap.insert k v m

/-- Change the value at `k` by `f`. -/
def SMap.modify {α : Type} [DecidableEq α] (d : α) (k : Nat) (f : α → α) (m : SMap α) : SMap α :=
  SMap.set d k (f (SMap.get d m k)) m

/-- The map whose keys below `n` read as `f` gives them. -/
def SMap.ofFn {α : Type} [DecidableEq α] (d : α) (n : Nat) (f : Nat → α) : SMap α :=
  (List.range n).filterMap fun k => if f k = d then none else some (k, f k)

/-- Every key of the list `ks` set in turn to what `f` gives it. -/
def SMap.setMany {α : Type} [DecidableEq α] (d : α) (f : Nat → α) (ks : List Nat) (m : SMap α) : SMap α :=
  ks.foldl (fun m k => SMap.set d k (f k) m) m

/-- All keys are above `b`. -/
def SMap.above {α : Type} (b : Nat) (m : SMap α) : Bool := m.all fun kv => b < kv.1

/-- The canonical form: keys strictly rising and no value equal to the default. -/
def SMap.wf {α : Type} [DecidableEq α] (d : α) : SMap α → Bool
  | [] => true
  | (j, v) :: m => decide (v ≠ d) && SMap.above j m && SMap.wf d m

/-- The listed keys. -/
def SMap.keys {α : Type} (m : SMap α) : List Nat := m.map (·.1)

/-! ## Sorting -/

/-- `a` put before the first element of a sorted list that it does not follow. -/
def putBy {α : Type} (le : α → α → Bool) (a : α) : List α → List α
  | [] => [a]
  | b :: l => if le a b then a :: b :: l else b :: putBy le a l

/-- A list in the order of `le`, equal elements in the order they had. -/
def sortBy {α : Type} (le : α → α → Bool) : List α → List α
  | [] => []
  | a :: l => putBy le a (sortBy le l)

end Sys2Proof
end

