-- ==== Sys2Proof/Machine/Bytes.lean ====
section
/-!
DEFINITION. Little-endian fields of byte structures (R5), the line check value (R308), the check value of records and packets
(R369), CRC-32, and bits and bytes as numbers.
-/
namespace Sys2Proof.Machine

/-- The little-endian number of a list of bytes (R5). -/
def leNat : List Byte → Nat
  | [] => 0
  | b :: bs => b.toNat + 256 * leNat bs

/-- The `n` low bytes of `v`, little-endian (R5). -/
def leBytes : Nat → Nat → List Byte
  | 0, _ => []
  | n + 1, v => BitVec.ofNat 8 v :: leBytes n (v / 256)

/-- The `n`-byte field at offset `off`; bytes beyond the structure read 0. -/
def fieldAt (bs : List Byte) (off n : Nat) : Nat := leNat ((bs.drop off).take n)

/-- The bytes `off` to `off + n - 1`, padded with 0. -/
def sliceAt (bs : List Byte) (off n : Nat) : List Byte :=
  let t := (bs.drop off).take n
  t ++ List.replicate (n - t.length) 0

/-- Bits [lo + w - 1 : lo] of a number. -/
def bitsOf (v lo w : Nat) : Nat := (v >>> lo) % 2 ^ w

/-- All bytes of the structure from `off` for `n` are zero (reserved bytes, R376). -/
def zeroAt (bs : List Byte) (off n : Nat) : Bool := fieldAt bs off n == 0

/-- Replace the bytes at `off` by `xs`. -/
def putAt (bs : List Byte) (off : Nat) (xs : List Byte) : List Byte :=
  bs.take off ++ xs ++ bs.drop (off + xs.length)

/-- One bit of the CRC of R308. -/
def crcBit (crc : Half) (bit : Bool) : Half :=
  let fb := xor crc.msb bit
  if fb then (crc <<< 1) ^^^ 0x8bb7 else crc <<< 1

/-- One byte of the CRC of R308, most significant bit first. -/
def crcByte (crc : Half) (b : Byte) : Half :=
  (List.range 8).foldl (fun c i => crcBit c (b.getLsbD (7 - i))) crc

/-- The CRC of R308: initial value 0xFFFF, ascending bytes, no final inversion. -/
def crc16 (bs : List Byte) : Half := bs.foldl crcByte 0xffff

/-- The address fold of R308; `line` is the line address a[47:6]. -/
def lineFold (line : Nat) : Half :=
  BitVec.ofNat 16 line ^^^ BitVec.ofNat 16 (line >>> 16) ^^^ BitVec.ofNat 16 (bitsOf line 32 10)

/-- The welt of a line (R308). -/
def lineWelt (line : Nat) (bs : List Byte) : Half := crc16 bs ^^^ lineFold line

/-- The welt of a packet or record whose WELT field stands at `off` (R369): the CRC with that field taken as 0. -/
def recWelt (off : Nat) (bs : List Byte) : Half := crc16 (putAt bs off [0, 0])

/-- The structure with its WELT field at `off` filled in. -/
def sealWelt (off : Nat) (bs : List Byte) : List Byte := putAt bs off (leBytes 2 (recWelt off bs).toNat)

/-- One byte of CRC-32 (IEEE 802.3, reflected). -/
def crc32Byte (crc : Word) (b : Byte) : Word :=
  (List.range 8).foldl (fun c _ => if c.getLsbD 0 then (c >>> 1) ^^^ 0xEDB88320 else c >>> 1) (crc ^^^ b.zeroExtend 32)

/-- CRC-32 (IEEE 802.3): initial value and final exclusive-or of all ones. -/
def crc32 (bs : List Byte) : Word := ~~~ (bs.foldl crc32Byte 0xFFFFFFFF)

/-- The smaller of a count and its ceiling: a saturating counter (R305, R419, R448, R503). -/
def satTo (top v : Nat) : Nat := Nat.min v top

/-- `ceil(a / b)`. -/
def ceilDiv (a b : Nat) : Nat := (a + b - 1) / b

end Sys2Proof.Machine
end

