-- ==== Sys2Proof/Machine/StateCore.lean ====
section
/-!
DEFINITION. State of one core (03, 04, 05, 06, 08, 09, 10): well, tile registers, accumulator tiles, job contexts, phase
instances and stitch links.
-/
namespace Sys2Proof.Machine

/-- A tile register: 512 lanes of 32 bits (R112) and the job slot that owns it (R113). -/
structure TReg where
  lanes : SMap Word
  owner : Option Nat
deriving DecidableEq, Repr

def TReg.empty : TReg := ⟨[], none⟩

/-- An accumulator tile (R80): 512 elements; signed and magnitude sums of the checksum row and column (R95), FP32 patterns or
64-bit integers; the count n; MV mode; INT32 elements; the saturation bit; the owner. -/
structure AccTile where
  elems : SMap Word
  rowS : SMap DWord
  rowM : SMap DWord
  colS : SMap DWord
  colM : SMap DWord
  n : Nat
  mv : Bool
  int : Bool
  sat : Bool
  owner : Option Nat
deriving DecidableEq, Repr

def AccTile.empty : AccTile := ⟨[], [], [], [], [], 0, false, false, false, none⟩

/-- A job context on a core: LEN (R115), predicates P1 to P7, scalar registers S0 to S15, step scalars K0 to K15 (R258), sticky
flags (R133), the stop accumulator (R265), and for each register that holds row states how many ACC instructions have fed it (R163).
-/
structure Ctx where
  rows : Nat
  cols : Nat
  preds : SMap (BitVec 512)
  sregs : SMap Word
  ksc : SMap Word
  flags : Half
  stopAcc : Word
  stat : SMap Nat
deriving DecidableEq, Repr

def Ctx.empty : Ctx := ⟨0, 0, [], [], [], 0, 0, []⟩

/-- An output tile whose contraction is under way in an accumulator tile (R182, R183): its place, the first index of the segment and the
next index to be issued, and for a convolution the well address of input position (0, 0) (R206). -/
structure TileWork where
  acc : Nat
  pos : TileAt
  start : Nat
  next : Nat
  desc : Int
deriving DecidableEq, Repr

/-- Parked partial sums of an output tile in the well (R183): segment, base and stride of its rows, INT32 or FP32. -/
structure Parked where
  pos : TileAt
  chunk : Nat
  base : Nat
  stride : Nat
  int : Bool
deriving DecidableEq, Repr

/-- A phase instance on a core (R175, R180 to R182, R291): the phase, its place among the instances of the step, granted
accumulator tiles, rung, segment length, latched bounds by dimension, staging ways taken, whether it has ended; the tiler's output tiles
under way, parked and done; the stanza's latent tiles done (R264); and the share of an
attention phase with the pages emitted to this core (R234), whether the page under way lies in the well and the query tiles that have used
it, and the latent tiles whose guidance combination is done (R261); the convolutions whose halo has been filled at the field edge (R208). -/
structure PhaseRun where
  phase : Nat
  inst : Nat
  grant : Nat
  rung : Nat
  seg : Nat
  bounds : List (Nat × Nat)
  ways : Nat
  ended : Bool
  tiles : List TileWork
  parked : List Parked
  drained : List TileAt
  latent : Nat
  share : Option AttendOp
  emitted : Nat
  fetched : Bool
  pageTiles : List Nat
  guided : List Nat
  filled : List Nat
deriving DecidableEq, Repr

/-- A posted receive (R188): job slot, destination, row count; on a relayed edge the device address of its half of the mailbox and
the lines of its message that have arrived there (R193, R194). -/
structure Posted where
  slot : Nat
  dst : RecvDst
  rows : Nat
  box : Option Nat
  got : Nat
deriving DecidableEq, Repr

/-- A SEND waiting for its credit: job slot and the rows read from its source register. -/
structure SendWait where
  slot : Nat
  rows : List (List Byte)
deriving DecidableEq, Repr

/-- A credit (R188): the job slot, and the device address of the mailbox half that it gives, 0 on a direct edge. -/
abbrev Credit := Nat × Nat

/-- One logical stitch link of a core (R188): receives posted on it; credits on their way to this core's side; credits present;
sends waiting; how many receives each job slot has posted on it, whose parity is the mailbox half that the next one takes. -/
structure StitchPort where
  posted : List Posted
  flying : List Credit
  credits : List Credit
  sends : List SendWait
  turn : SMap Nat
deriving DecidableEq, Repr

def StitchPort.empty : StitchPort := ⟨[], [], [], [], []⟩

/-- A row of the stitch receive FIFO with the job slot of its tag (R191). -/
abbrev FifoRow := Nat × List Byte

/-- A page descriptor (R235). -/
structure PageDesc where
  kAddr : Nat
  vAddr : Nat
  kFmt : BitVec 4
  kScale : Byte
  vFmt : BitVec 4
  vScale : Byte
  tokens : Nat
  kvHead : Nat
  basePos : Nat
  slotSeq : Nat
  last : Bool
  pad : Bool
deriving DecidableEq, Repr

/-- A core. `fifo` holds at most 4 rows; `fifoWait` the rows of receives into it that have not entered yet. -/
structure CoreSt where
  well : SMap Byte
  tregs : SMap TReg
  accs : SMap AccTile
  ctxs : SMap Ctx
  runs : SMap (Option PhaseRun)
  ports : SMap StitchPort
  fifo : List FifoRow
  fifoWait : List FifoRow
  descs : SMap (List PageDesc)
deriving DecidableEq, Repr

def CoreSt.empty : CoreSt := ⟨[], [], [], [], [], [], [], [], []⟩

/-- Why a command is held: an instruction of a job on a core that names registers which a receive has pending (R125) or that would be a
third receive on a link (R188); a phase instance, or a unit of one, that waits (R181, R230, R255, R278, R333). -/
inductive HeldWhy where
  | issue (r : CoreRef) (regs : List Nat)
  | recv (r : CoreRef) (regs : List Nat) (d : Dir)
  | phase (r : CoreRef)
deriving DecidableEq, Repr

/-- A command that is held, with its reason. -/
structure Held where
  why : HeldWhy
  cmd : Instr
deriving DecidableEq, Repr

/-- The core and job slot that a held command belongs to. -/
def HeldWhy.ref : HeldWhy → CoreRef
  | .issue r _ => r
  | .recv r _ _ => r
  | .phase r => r

end Sys2Proof.Machine
end

