-- ==== Sys2Proof/Machine/StateJob.lean ====
section
/-!
DEFINITION. State of folios, code tables, jobs and their pagers (08, 09, 10, 11, 12, 13, 16).
-/
namespace Sys2Proof.Machine

/-- A decoded line of an SWF block: its line address A / 64 + i, its weights, its welt (R324). -/
structure DecLine where
  line : Nat
  data : List Byte
  welt : Half
deriving DecidableEq, Repr

/-- A decoded block of a load-time tensor (R322). -/
structure DecBlock where
  tensor : Nat
  block : Nat
  lines : List DecLine
deriving DecidableEq, Repr

/-- A block in the queue of a load-time decoder, numbered 4 × stack + decoder: the job slot that it is for, tensor and block, and the table
slot and generation of the binding (R322, R325, R326). -/
structure DecReq where
  decoder : Nat
  owner : Nat
  tensor : Nat
  block : Nat
  bound : Option (Nat × Nat)
deriving DecidableEq, Repr

/-- A loaded folio (R295 to R297, R330). `lastUse` is the count of the last end of a job that used it; `decoded` the plain weights in its
resident copy (R296, R322). -/
structure Folio where
  id : Nat
  base : Nat
  bytes : Nat
  decl : FolioDecl
  resident : Bool
  pin : Nat
  invalid : Bool
  lastUse : Nat
  decoded : List DecBlock
deriving DecidableEq, Repr

/-- A code table in a slot (R319, R325); `age` orders the two slots of a class, the smaller loaded first. -/
structure Table where
  fmt : Nat
  gen : Nat
  lens : List Nat
  age : Nat
deriving DecidableEq, Repr

/-- A TABLE_LOAD that waits (R327): ring, SEQ, place in the order of fetch, the table, the count at which its timeout ends. -/
structure TableWait where
  op : Nat
  tab : Table
  deadline : Nat
deriving DecidableEq, Repr

/-- The job states of R335. -/
inductive JobState where
  | submitted | accepted | running | preempted | complete | faulted | restarting | cancelled | released
deriving DecidableEq, Repr

def JobState.code : JobState → Nat
  | .submitted => 1 | .accepted => 2 | .running => 3 | .preempted => 4 | .complete => 5
  | .faulted => 6 | .restarting => 7 | .cancelled => 8 | .released => 9

/-- ACCEPTED to RESTARTING: an admitted job (R530, R385). -/
def JobState.admitted : JobState → Bool
  | .accepted | .running | .preempted | .restarting => true
  | _ => false
/-- COMPLETE, FAULTED or CANCELLED. -/
def JobState.final : JobState → Bool
  | .complete | .faulted | .cancelled => true
  | _ => false

/-- A step block (R253). -/
structure StepBlock where
  seed : DWord
  sMax : Nat
  schedRows : Nat
  schedCols : Nat
  pair : Bool
  guideIdx : Nat
  schedAddr : Nat
  snapAddr : Nat
  snapBytes : Nat
  snapInterval : Nat
  stopThresh : Word
  stopMin : Nat
  stopRun : Nat
deriving DecidableEq, Repr

/-- The terms of a submission (R336, R377). -/
structure Terms where
  folio : Nat
  cls : Nat
  canonical : Bool
  compat : Bool
  issueShare : Nat
  memShare : Nat
  linkShare : Nat
  accReserve : Nat
  restarts : Nat
  deadlineUs : Nat
  group : Nat
  startWaitUs : Nat
  stepBlock : Option StepBlock
  result : Nat
  resultBytes : Nat
  completion : Nat
  input : Nat
  inputBytes : Nat
  work : Nat
deriving DecidableEq, Repr

/-- An admitted sequence of a pager (R246, R529): the tokens it holds, 0 until its first step has written its `t0` prompt tokens, which
it reads from `prompt` (R242). -/
structure SeqEnt where
  tag : Word
  tokens : Nat
  tMax : Nat
  t0 : Nat
  prompt : Nat
deriving DecidableEq, Repr

/-- A queued join or leave with the command it came from (R242, R243, R529): place in the order of fetch, ring, SEQ. -/
structure SeqReq where
  op : Nat
  ring : Nat
  seq : Word
  leave : Bool
  tag : Word
  t0 : Nat
  tMax : Nat
  prompt : Nat
  deferred : Bool
deriving DecidableEq, Repr

/-- A decision whose record waits for its snapshot (R248, R249): the snapshot ordinal that includes it and the record's
contents. -/
structure Decision where
  ordinal : Nat
  req : SeqReq
  final : Bool
  status : Nat
  reason : Nat
  detail : DWord
deriving DecidableEq, Repr

/-- A pager (R231, R244, R246): the pool, UNRESERVED, the sequence table, slot ownership, the planes whose page scale has been
fixed (pool slot, V plane; R229), the bytes of plane that the step has written (pool slot, offset in it; R230), the queued joins and
leaves in order of arrival, the deferred joins among them, and the decisions whose records wait; `mapped` once KV_PAGE_MAP has
replied OK. -/
structure Pager where
  poolBase : Nat
  tableBase : Nat
  n : Nat
  unreserved : Nat
  seqs : SMap (Option SeqEnt)
  owned : SMap Bool
  scaled : List (Nat × Bool)
  wrote : List (Nat × Nat)
  queue : List SeqReq
  decisions : List Decision
  mapped : Bool
deriving DecidableEq, Repr

/-- A snapshot of R275, R276: ordinal, last step completed, flag word, early-stop run count and statistic, body bytes, and the
pager state it holds, with the page-table entries of its sequences (index, entry; log 35); `begun` once its header has been written
(R277, R279). -/
structure SnapInfo where
  ordinal : Nat
  step : Word
  flags : Half
  stopRun : Nat
  stopStat : Word
  bodyBytes : Nat
  pager : Option Pager
  table : List (Nat × Nat)
  begun : Bool
deriving DecidableEq, Repr

/-- A fault cause seen in the present event of a job (R450): reason, whether its line had not failed before in the job (R456), island,
WHERE. -/
structure Cause where
  reason : Nat
  restart : Bool
  island : Nat
  loc : Nat
deriving DecidableEq, Repr

/-- Where a restart stands (R455). -/
inductive RestartStage where
  | stopped | agreement | restore | barrier | resume
deriving DecidableEq, Repr

/-- A restart in progress: the stage, the causes of the event, the counts at the stop and at quiet, what agreement gave, the
entries of the members into the agreement and the barrier (at rank 0: those that have arrived). -/
structure Restart where
  stage : RestartStage
  causes : List Cause
  quietAt : Nat
  ordinal : Option Nat
  agree : List (Nat × Option Nat)
  barrier : List Nat
deriving DecidableEq, Repr

/-- The start barrier of a group job (R359): the count at which this device entered, the terms that have arrived from its
children in the tree of R417 with the points they came from, and whether rank 0 has decided. -/
structure StartBarrier where
  since : Nat
  entries : List (Nat × BarrierTerms)
  decided : Bool
deriving DecidableEq, Repr

/-- The terms of R344 at a job's admission, in ns: its phase bounds, `once`, `step`, `start`, `pre`; the time to write one snapshot as a
fraction, `snapNum` over `snapDen`, and the first network phase of a step, which it is less by; and in a group the largest replay
term, none before START (R359). -/
structure Price where
  phases : List Nat
  once : Nat
  step : Nat
  snapNum : Nat
  snapDen : Nat
  first : Nat
  start : Nat
  pre : Nat
  replay : Option Nat
deriving DecidableEq, Repr

/-- A location of a core that one job takes from another (R353): a well granule, a tile register, an accumulator tile, or the
context; `spareTreg` and `spareAcc` are a register or tile of the victim's share that it has not written. -/
inductive Loc where
  | well (granule : Nat)
  | treg (n : Nat)
  | acc (n : Nat)
  | ctx
  | spareTreg
  | spareAcc
deriving DecidableEq, Repr

/-- What a displaced location held; the bytes of a well granule are those of its spill lines. -/
inductive LocData where
  | well
  | treg (t : TReg)
  | acc (a : AccTile)
  | ctx (c : Ctx)
  | spare
deriving DecidableEq, Repr

/-- A displaced location: victim slot, core, location, its contents, and the device address of its lines in the taker's spill
region (R354). -/
structure Spill where
  victim : Nat
  core : Nat
  loc : Loc
  data : LocData
  addr : Nat
deriving DecidableEq, Repr

/-- The 16 KiB granules of a core's well that a job's well region takes (R339); its tile registers, accumulator reserve and
context are counts that its folio and terms give. -/
structure CoreHold where
  core : Nat
  well : List Nat
deriving DecidableEq, Repr

/-- A job in its slot. `admitNo` is its place in the order of admission; `cores` its placement; `holds` what it has taken on
cores; `granules` its scratchpad granules in each slice (R289); `bindings` its SWF tensors with slot and generation (R326).
`lanes` is the number of active lanes of each port at its admission (R401). `step` is the step under way, none before step 0; `nextRow` the schedule row of the next step, read during this one (R259); `batchRows` the
rows of the batch that the step's network has run (R260, R262) and `attended` the shares of its attention that are done (R240); `latches` the memory-held bounds of its phase instances (R175); `atCut` while the boundary waits for the combined stop statistic
`allStat` (R256, R265) or for rank 0's pager decisions `pagerRemote`, oldest first (R252); `peerStats` and `peerCommits` are what has arrived
from the children in the tree of R417, by the rank they came from, `nextStats` what has arrived for the step to come.
`snap` is the snapshot being written, `snaps` the committed ones, newest first, `combined` the newest ordinal that every device has
committed, `snapNext` the next ordinal. `spills` is what this G job displaced; `displaced` the takers of its own locations, with
the core; `awaitSpill` the cores whose spill is not complete. `refused` marks a part whose terms differ from rank 0's (R358). `window` is what the two halves
of its staging window hold, the newer first (R199), `lost` the restored lines that failed their welt check (R357), `partials` the ranks whose contributions a local operand line holds beside
this device's own (R412), `decoded` the plain weights of the blocks streamed through it (R322). -/
structure Job where
  id : Nat
  st : JobState
  ring : Nat
  seq : Word
  terms : Terms
  origin : Nat
  promiseUs : Nat
  boundUs : Nat
  decided : Bool
  admitNo : Nat
  cores : List Nat
  holds : List CoreHold
  granules : List (List Nat)
  windowWays : Nat
  bindings : List (Nat × Nat × Nat)
  price : Option Price
  lanes : List Nat
  step : Option Nat
  nextRow : Option (List Byte)
  batchRows : List Nat
  attended : List AttendOp
  stepsRun : Nat
  latches : List (Nat × List (Nat × Nat))
  atCut : Bool
  done : Bool
  earlyStop : Bool
  stopRun : Nat
  stopStat : Word
  peerStats : List (Nat × Word)
  nextStats : List (Nat × Word)
  allStat : Option Word
  snap : Option SnapInfo
  snaps : List SnapInfo
  combined : Option Nat
  peerCommits : List (Nat × Nat)
  snapNext : Nat
  pager : Option Pager
  pagerRemote : List (List PagerDecision)
  restartsTaken : Nat
  restart : Option Restart
  failedAddrs : List Nat
  endReason : Nat
  endDetail : Option DWord
  degraded : Nat
  lowest : Nat
  overrun : Bool
  late : Bool
  frames : Nat
  start : Option StartBarrier
  spills : List Spill
  displaced : List (Nat × Nat)
  awaitSpill : List Nat
  refused : Bool
  flags : Half
  decoded : List DecBlock
  window : List (Nat × Nat)
  lost : List Nat
  partials : List (Nat × List Nat)
deriving DecidableEq, Repr

end Sys2Proof.Machine
end

