-- ==== Sys2Proof/Machine/StateDev.lean ====
section
/-!
DEFINITION. State of the device outside the cores and jobs (01, 10, 13 to 19): boot and security, islands, rings,
interrupts, mailbox, memory, host link, partition, commands in progress, torus, links, video, HBM channels, integrity,
management ports, and what has been put on the terminals.
-/
namespace Sys2Proof.Machine

/-- Fuses (01 R18, 16 R465, 17 R480, 18 R503). Unary fields are held as their counts. -/
structure Fuses where
  coreMap : SMap Word
  major : Nat
  minor : Nat
  ecdsaHash : List (List Byte)
  lmsHash : List (List Byte)
  ecdsaRevoked : BitVec 4
  lmsRevoked : BitVec 4
  svn : Nat
  bootCount : Nat
  ship : SMap Nat
deriving DecidableEq, Repr

/-- Device states with a code (R38). `off` is the device while PWRGOOD is low or RESET_L asserted. -/
inductive DevState where
  | off | fuseLoad | configLoad | verify | training | ready | running | quiesced | faultHold | locked
deriving DecidableEq, Repr

def DevState.code : DevState → Nat
  | .off => 0 | .fuseLoad => 1 | .configLoad => 2 | .verify => 3 | .training => 4 | .ready => 5
  | .running => 6 | .quiesced => 7 | .faultHold => 8 | .locked => 9

/-- Boot and security state (17): BOOT_STAT, BOOT_COUNT, SVN_STAT, host boot registers, the image being read or verified,
what step 4 left, staging and the certificates. `verified` marks VERIFY passed, `trained` HBM training done. -/
structure Boot where
  st : DevState
  lockCause : Nat
  hbmFail : Bool
  identityOff : Bool
  subtreeReady : Bool
  hostWait : Bool
  hostWaitAt : Nat
  slotB : Bool
  mode : BitVec 2
  reports : Nat
  leaf : Nat
  imageSvn : Nat
  hostAddrLo : Nat
  hostAddrHi : Word
  hostLen : Nat
  reading : Bool
  readFrom : Nat
  readLen : Nat
  readAt : Nat
  image : List Byte
  verified : Bool
  trained : Bool
  measure : List Byte
  ecdsaIdx : Nat
  lmsIdx : Nat
  staged : Bool
  stagedMeasure : List Byte
  deviceCert : List Byte
  bootCert : List Byte
deriving DecidableEq, Repr

/-- The control-island counter (R31, R35). -/
structure Clock where
  count : Nat
  latchHi : Word
  run : Bool
deriving DecidableEq, Repr

/-- An island (R29, R343, R462 to R467). `held` lists each lowering that still counts for ISL_FLOOR: the floor before it and the
places in the order of admission of the G jobs then admitted; `charges` lists (count, weight) of the burnish charges;
`timingAtFloor` the counts of TIMING_ERROR events while at the floor. -/
structure Island where
  held : List (Nat × List Nat)
  freq : Nat
  admFloor : Nat
  offset : Int
  status : Nat
  live : Bool
  cap : Nat
  capRaw : Nat
  proj : Option Nat
  firstProj : Option Nat
  firstAt : Nat
  lastPass : Option Nat
  dueAt : Option Nat
  charges : List (Nat × Nat)
  chargedTotal : Nat
  warnings : Nat
  timingErrs : Nat
  timingAtFloor : List Nat
  noHead : Bool
deriving DecidableEq, Repr

def Island.atConfigLoad : Island :=
  ⟨[], 0, 1200, 0, 4, false, 0, 0, none, none, 0, none, none, [], 0, 0, 0, [], false⟩

/-- A record as formed by a command before it reaches the ring (R371); the device state, counter, PHASE and WELT are added when
it is written. `jobLife` marks a lifecycle record of a job slot (R366), `finalJob` one that carries a final job state. -/
structure Rec where
  seq : Word
  opcode : Nat
  status : Nat
  reason : Nat
  job : Nat
  jobState : Nat
  promise : Nat
  detail : DWord
  jobLife : Option Nat
  finalJob : Bool
deriving DecidableEq, Repr

/-- A ring pair (R362 to R366, R504). `owes` lists the places in the order of fetch of its commands that owe a record. -/
structure Ring where
  enable : Bool
  sqHbm : Bool
  rqHbm : Bool
  sqLog2 : Nat
  rqLog2 : Nat
  sqBase : Nat
  rqBase : Nat
  tail : Word
  sqHead : Word
  rqTail : Word
  rqHead : Word
  stalls : Nat
  cfgErr : Bool
  doorbellErr : Bool
  backlog : List Rec
  owes : List Nat
  lastMsg : Option Nat
  held : Bool
deriving DecidableEq, Repr

def Ring.atReset : Ring :=
  ⟨false, false, false, 6, 6, 0, 0, 0, 0, 0, 0, 0, false, false, [], [], none, false⟩

/-- An MSI-X table entry (R504): message address and data, mask. -/
structure MsixEntry where
  addrLo : Word
  addrHi : Word
  data : Word
  mask : Bool
deriving DecidableEq, Repr

def MsixEntry.atReset : MsixEntry := ⟨0, 0, 0, true⟩

/-- Interrupt state (R504, R505). -/
structure Irq where
  mask : DWord
  event : BitVec 5
  eventEn : BitVec 5
  holdoffUs : Nat
  table : SMap MsixEntry
  funcMask : Bool
deriving DecidableEq, Repr

/-- The scribe mailbox (R506, R507) and SCRIBE_STAT (R508). -/
structure Mbx where
  packet : SMap Word
  reply : SMap Word
  busy : Bool
  overrun : Bool
  heartbeat : SMap Nat
deriving DecidableEq, Repr

/-- Device memory (10): bytes by device address; by line index, the difference of each line's stored welt from the correct one
(R308); lines present in the line cache, 1 clean and 2 dirty (R292); errors of storage that no access has met yet, by line index (R286,
R302, R451). -/
structure Mem where
  bytes : SMap Byte
  synd : SMap Half
  cached : SMap Nat
  errs : List (Nat × StoreErr)
deriving DecidableEq, Repr

/-- A device write to a line the host may hold, waiting for its back-invalidate response (R495): line index and contents. -/
structure BiWrite where
  line : Nat
  data : List (Nat × Byte)
deriving DecidableEq, Repr

/-- What the device puts on its terminals. -/
inductive Out where
  /-- An MSI-X message (R504): vector, address, data. -/
  | msi (v : Nat) (addr : DWord) (data : Word)
  /-- Back-invalidate snoop of a line (R495). -/
  | backInvalidate (line : Nat)
  /-- Response RspIHitI to a host snoop (R493). -/
  | snoopResponse (addr : DWord)
  /-- The value a register read returned (R500): offset, 4-byte or 8-byte value. -/
  | regRead (off : Nat) (v : DWord)
  /-- A line returned to a CXL.mem read, with its poison (R494, R496). -/
  | memRead (off : Nat) (data : List Byte) (poison : Bool)
  /-- Bytes of an I3C private read and an in-band interrupt with its data byte (R470). -/
  | i3cRead (bytes : List Byte)
  | i3cIrq (reason : Nat)
  /-- A JTAG data register shifted out (R479). -/
  | jtag (v : Word)
  /-- A flit sent on a link (R394). -/
  | flit (l : Nat) (bytes : List Byte)
  /-- A control message sent on VC0 through a port (R416): message code, group, epoch, sender, payload. -/
  | ctrl (port : Nat) (msg group epoch src : Nat) (payload : List Byte)
  /-- FAULT_L and THERM_L driven (true: low) or released (R517). -/
  | faultL (low : Bool)
  | thermL (low : Bool)
deriving DecidableEq, Repr

/-- The host link and what waits on it (18): HST_LINK, HST_LINK_ERR, the snoop filter, writes awaiting back-invalidate,
host writes and messages held while the link is down (R499), rings whose reply record waits for a global-observation
response (R493) with the record, and the host's memory. -/
structure HostSide where
  mem : SMap Byte
  modules : BitVec 4
  rate : Nat
  memActive : Bool
  memEn : Bool
  cacheEn : Bool
  replays : Nat
  retrains : Nat
  poisoned : Nat
  filter : List Nat
  biWait : List BiWrite
  heldWrites : List (Nat × List Byte)
  heldOut : List Out
  goWait : List (Nat × Nat × Rec)
deriving DecidableEq, Repr

/-- Partition and far-tier registers (10 R287, R295, R311). `pend` is a SET_PARTITION in progress: scratch, folio area, its place
in the order of fetch. -/
structure Part where
  scratch : Nat
  folioGib : Nat
  pend : Option (Nat × Nat × Nat)
  cap : Nat
  rate : Nat
  farBaseLo : Nat
  farBaseHi : Word
  farGib : Nat
  farLat : Nat
  farGbs : Nat
deriving DecidableEq, Repr

/-- What a command that replied ACCEPTED still has to do. -/
inductive OpKind where
  | memCopy (src dst bytes : Nat) (srcHost dstHost : Bool)
  | memFill (dst bytes : Nat) (pattern : DWord)
  | memVerify (addr bytes : Nat)
  | folioLoad (image bytes folio : Nat) (host : Bool)
  | folioPin (folio : Nat) (made : Bool)
  | tableLoad
  | setPartition
  | jobSubmit (slot : Nat)
  | jobCancel (slot : Nat)
  | readResult (slot dst off bytes : Nat)
  | releaseResult (slot : Nat)
  | seq (slot : Nat)
  | kvPageMap (slot : Nat)
  | linkTrain (ports : BitVec 8) (retrain : Bool)
  | videoFrame (e sess : Nat)
  | videoClose (e sess : Nat)
  | burnishRun (islands : List Nat)
  | marginReport (dst : Nat) (host : Bool)
  | attest (nonce : List Byte) (dst : Nat) (host : Bool)
  | fwStage (image bytes : Nat) (host : Bool)
  | quiesce (cancel : Bool)
  | plain
deriving DecidableEq, Repr

/-- A command that owes a record: its place in the order of fetch, ring, SEQ, opcode, job identifier, and what it does. -/
structure Op where
  no : Nat
  ring : Nat
  seq : Word
  opcode : Nat
  job : Nat
  kind : OpKind
deriving DecidableEq, Repr

/-- Order of fetch (R365), commands in progress, released identifiers (R382), waiting S and B jobs (R528), quiesce (R386), and the
FIRMWARE_STALL record that takes the place of the first record of the command being run (R375), the queues of the load-time decoders in
order of arrival (R322), and the ring last served (R365). -/
structure Sys where
  fetchNo : Nat
  ops : List Op
  released : List Nat
  waiting : List Nat
  quiesce : Option Bool
  admits : Nat
  stalled : Option (Nat × Rec)
  decq : List DecReq
  lastRing : Nat
deriving DecidableEq, Repr

/-- Registers of a cluster island (R108, R142), whether the failure that an information register records fell in the cycle of the
last failure (R109, R143), and the count of single-bit errors corrected in the cluster's wells (R285, which gives the count no
register). -/
structure Cluster where
  opeFail : Nat
  opeSkip : Nat
  opeInfo : Word
  opeFresh : Bool
  vecFail : Nat
  vecInfo : Word
  vecFresh : Bool
  wellCorr : Nat
deriving DecidableEq, Repr

def Cluster.atReset : Cluster := ⟨0, 0, 0, false, 0, 0, false, 0⟩

/-- A point or box of the torus, by axis X, Y, Z, W. -/
structure Coord where
  x : Nat
  y : Nat
  z : Nat
  w : Nat
deriving DecidableEq, Repr

/-- A group (R407). -/
structure Group where
  org : Coord
  ext : Coord
deriving DecidableEq, Repr

/-- A REDUCE flit that waits in its input buffer (R396, R412). -/
structure RedWait where
  link : Nat
  bytes : List Byte
  held : Option (Nat × Nat × Bool)
  disagree : Bool
  src : RedSrc
deriving DecidableEq, Repr

/-- Topology (R403), groups, the FAULT floods already seen: (group, epoch) (R418), and the entries into a start barrier that arrived
before this device accepted its part: group, rank, terms (R359). `reds` are the REDUCE flits that wait for their turn in the order of
R412: link, bytes, input buffer, whether the adders disagree. -/
structure Topo where
  size : Coord
  coord : Coord
  wrap : BitVec 4
  groups : SMap (Option Group)
  faultSeen : List (Nat × Nat)
  early : List (Nat × Nat × BarrierTerms)
  reds : List RedWait
deriving DecidableEq, Repr

/-- A flit that waits at a link's output for a credit, for the realignment or for room in the replay buffer (R396, R399, R400): its
bytes, and for one that is passing through the link it came in on, with the class of the buffer it holds there and whether that
buffer is of the shared pool. -/
structure FlitWait where
  bytes : List Byte
  held : Option (Nat × Nat × Bool)
deriving DecidableEq, Repr

/-- A link (R394 to R400, R419): registers (`sym` counts corrected symbols by lane), the sequence numbers expected and next to
send, the replay buffer (SEQ, flit), credits for sending by class and shared, reserved input buffers in use by class, whether it is
realigning, flits waiting at its output, the virtual channel that had the last of the shared slots, and how many each has had in the
round (R395). -/
structure Link where
  st : Nat
  tx : BitVec 4
  rx : BitVec 4
  cause : Nat
  flight : Nat
  peer : Nat
  corr : Nat
  uncorr : Nat
  replays : Nat
  drops : Nat
  sym : SMap Nat
  rxSeq : Nat
  txSeq : Nat
  replay : List (Nat × List Byte)
  credit : SMap Nat
  shared : Nat
  inUse : SMap Nat
  realign : Bool
  waiting : List FlitWait
  served : Nat
  used : SMap Nat
deriving DecidableEq, Repr

/-- Reserved credits held for a class and shared credits, as after training (R396); entries of `credit` are counted down from
this. -/
def Link.reservedCredits : Nat := 8
def Link.sharedCredits : Nat := 448
def Link.atReset : Link := ⟨0, 0, 0, 0, 0, 0, 0, 0, 0, 0, [], 0, 0, [], [], 448, [], false, [], 0, []⟩

/-- A port (R420). -/
structure Port where
  w1 : Nat
  w2 : Nat
  w3 : Nat
  redFail : Nat
deriving DecidableEq, Repr

def Port.atReset : Port := ⟨4, 3, 1, 0⟩

/-- A video CONFIG (R425). -/
structure VidCfg where
  encode : Bool
  profile : Nat
  depth : Nat
  mono : Bool
  width : Nat
  height : Nat
  fpsNum : Nat
  fpsDen : Nat
  tileCols : Nat
  tgRows : Nat
  rc : Nat
  refs : Nat
  kbps : Nat
  vbvKbits : Nat
  qMin : Nat
  qMax : Nat
  qInit : Nat
  stats : Bool
  keyInterval : Nat
  girPeriod : Nat
  opPoint : Nat
  outHost : Bool
  work : Nat
  workMib : Nat
  outKib : Nat
  outAddr : Nat
  progress : Nat
deriving DecidableEq, Repr

/-- A frame descriptor (R427) with the command it came from. -/
structure Frame where
  op : Nat
  sess : Nat
  index : Nat
  slot : Option Nat
  src : Nat
  size : Nat
  forceKey : Bool
  hintPresent : Bool
  srcHost : Bool
  dstHost : Bool
  dst : Nat
  dstPitch : Nat
  statsAddr : Nat
  hint : Nat
  gmvX : BitVec 16
  gmvY : BitVec 16
deriving DecidableEq, Repr

/-- A running frame: key frame, its place after the last key frame, base_q_idx, budget, complexity of its units and sums of its rows,
q of the rows coded, bits spent by row, bytes emitted, the tile group to come or under way, and what of that group waits for room
in the output ring (R435). -/
structure RunFrame where
  f : Frame
  key : Bool
  nth : Nat
  baseQ : Nat
  budget : Int
  units : List Nat
  comp : List Nat
  q : List Nat
  spent : List Nat
  bytes : Nat
  group : Nat
  tail : List Byte
deriving DecidableEq, Repr

/-- A reference frame in a session's work area (R424, R426): whether it is a key frame, the luma samples of its reconstruction in raster order,
and the stored search results of its units (R438). -/
structure RefPic where
  key : Bool
  luma : List Nat
  units : List UnitResult
deriving DecidableEq, Repr

/-- A session (R425, R435, R440 to R442, R448); `refs` are its active references, the most recently coded first (R424). -/
structure Session where
  cfg : VidCfg
  produced : Nat
  cons : Nat
  consHi : Word
  prodHi : Word
  level : Int
  prevComp : List Nat
  prevQ : List Nat
  prevSpent : Int
  prevBudget : Int
  coded : Nat
  sinceKey : Nat
  closing : Option Nat
  refs : List RefPic
deriving DecidableEq, Repr

/-- A video engine (R429, R448). -/
structure Engine where
  sess : SMap (Option Session)
  queue : List Frame
  run : Option RunFrame
  count : Nat
  errWelt : Nat
  errStream : Nat
deriving DecidableEq, Repr

def Engine.atReset : Engine := ⟨[], [], none, 0, 0, 0⟩

/-- An HBM channel with its awl (R305). -/
structure Chan where
  temp : Nat
  refresh2x : Bool
  trained : Bool
  corr : Nat
  uncorr : Nat
  run : Bool
  loop : Bool
  op : Nat
  pattern : Nat
  value : Word
  base : Nat
  len : Nat
  done : Nat
  errCnt : Nat
  errLine : Word
  errBits : DWord
deriving DecidableEq, Repr

def Chan.atReset : Chan := ⟨0, false, false, 0, 0, false, false, 0, 0, 0, 0, 0, 0, 0, 0, 0⟩

/-- A FAULT_LOG entry (R469). -/
structure LogEntry where
  count : Nat
  reason : Nat
  island : Nat
  job : Nat
  epoch : Nat
  hold : Bool
  loc : Nat
deriving DecidableEq, Repr

/-- Integrity and ageing (16 R459, R466 to R469). `hours` is the base with the count of its write. `holds` are the reasons that
put the device into FAULT_HOLD and are present, with the island of MARGIN_EXHAUSTED; `rsvCorr` counts the single-bit errors corrected
in each reservoir slice (R286, which gives the count no register). -/
structure Integ where
  hours : Option (Nat × Nat)
  hold : Bool
  reason : Nat
  faults : Nat
  logTotal : Nat
  log : SMap (Option LogEntry)
  holds : List (Nat × Nat)
  passes : Nat
  rsvCorr : SMap Nat
deriving DecidableEq, Repr

/-- The I3C target (R470) and JTAG (R479). -/
structure Mgmt where
  ptr : Nat
  addr : Option (BitVec 7)
  ibi : Option Nat
  jtagIr : JtagIr
deriving DecidableEq, Repr

/-- Sideband terminals (R517) and the strap (R471). -/
structure Pins where
  pwrgood : Bool
  resetL : Bool
  faultL : Bool
  thermL : Bool
deriving DecidableEq, Repr

end Sys2Proof.Machine
end

