-- ==== Sys2Proof/Machine/State.lean ====
section
/-!
DEFINITION. The state of the device as plain data, the ways a step can stop, and the state after reset.
INVENTORY.md lists every field with the rule that names it.
-/
namespace Sys2Proof.Machine

/-- Why a step stops. -/
inductive Fault where
  /-- Raised by a command whose operands name a form that no encoding of the spec has room for (WellFormed.lean says which):
  the hardware cannot be given it. Safe. -/
  | illFormed
deriving DecidableEq, Repr

/-- Why a command has no meaning here. -/
inductive Refusal where
  /-- The command has not been modelled; raised by no arm once every command has its meaning. Safe. -/
  | notModelled (mnemonic : String)
deriving DecidableEq, Repr

/-- The device with the memories of its surroundings that it reads and writes, the queue of waiting commands `pending`, the core
instructions and phase instances that are `held`, oldest first (R125, R181, R188), what it has put on its terminals `out` (newest first), and the counter `free` of free values taken. -/
structure State where
  pending : List Instr
  held : List Held
  fuses : Fuses
  flash : SMap Byte
  boot : Boot
  clk : Clock
  isl : SMap Island
  rings : SMap Ring
  irq : Irq
  mbx : Mbx
  mem : Mem
  host : HostSide
  part : Part
  folios : List Folio
  tables : SMap (Option Table)
  tableWait : SMap (Option TableWait)
  jobs : SMap (Option Job)
  sys : Sys
  cores : SMap CoreSt
  clus : SMap Cluster
  topo : Topo
  links : SMap Link
  ports : SMap Port
  video : SMap Engine
  chans : SMap Chan
  integ : Integ
  mgmt : Mgmt
  pins : Pins
  free : Nat
  out : List Out
deriving DecidableEq, Repr

/-- Fuses as the model names them (log 3): every core in service, stepping 0, hashes 0, nothing revoked, SVN 0, boot counter 0,
SHIP_i 1,260 MHz. Unlisted entries of `coreMap` read all ones and of `ship` 1,260. -/
def Fuses.named : Fuses :=
  ⟨[], 0, 0, List.replicate 4 (List.replicate 48 0), List.replicate 4 (List.replicate 48 0), 0, 0, 0, 0, []⟩

/-- Boot state on entry to CONFIG_LOAD (R487), strap 00. -/
def Boot.atConfigLoad : Boot :=
  { st := .configLoad, lockCause := 0, hbmFail := false, identityOff := false, subtreeReady := false, hostWait := false,
    hostWaitAt := 0, slotB := false, mode := 0, reports := 0, leaf := 0, imageSvn := 0, hostAddrLo := 0, hostAddrHi := 0,
    hostLen := 0, reading := true, readFrom := 0, readLen := 0, readAt := 0, image := [], verified := false, trained := false,
    measure := [], ecdsaIdx := 0, lmsIdx := 0, staged := false, stagedMeasure := [], deviceCert := [], bootCert := [] }

def Irq.atReset : Irq := ⟨0xFFFFFFFFFFFFFFFF, 0, 0, 0, [], false⟩
def Mbx.atReset : Mbx := ⟨[], [], false, false, []⟩
def Mem.atReset : Mem := ⟨[], [], [], []⟩
def HostSide.atReset : HostSide :=
  ⟨[], 0, 0, false, false, false, 0, 0, 0, [], [], [], [], []⟩
def Part.atReset : Part := ⟨0, 0, none, 0, 0, 0, 0, 0, 0, 0⟩
def Sys.atReset : Sys := ⟨0, [], [], [], none, 0, none, [], 63⟩
def Topo.atReset : Topo := ⟨⟨1, 1, 1, 1⟩, ⟨0, 0, 0, 0⟩, 0, [], [], [], []⟩
def Integ.atReset : Integ := ⟨none, false, 0, 0, 0, [], [], 0, []⟩
def Mgmt.atReset : Mgmt := ⟨0, none, none, .idcode⟩

/-- The device on entry to CONFIG_LOAD after power good: every register at its Reset column, memories with nothing listed. -/
def State.reset : State :=
  { pending := [], held := [], fuses := Fuses.named, flash := [], boot := Boot.atConfigLoad, clk := ⟨0, 0, true⟩, isl := [], rings := [],
    irq := Irq.atReset, mbx := Mbx.atReset, mem := Mem.atReset, host := HostSide.atReset, part := Part.atReset, folios := [],
    tables := [], tableWait := [], jobs := [], sys := Sys.atReset, cores := [], clus := [], topo := Topo.atReset, links := [],
    ports := [], video := [], chans := [], integ := Integ.atReset, mgmt := Mgmt.atReset,
    pins := ⟨true, true, false, false⟩, free := 0, out := [] }

end Sys2Proof.Machine
end

