-- ==== Sys2Proof/Machine/Ops.lean ====
section
/-!
DEFINITION. The named operations over the state that every family shares: setting a field, the numbered objects, time and
device state, device and host memory with welts and the snoop filter (10, 18), the terminals, interrupts (R504, R505), reply
records (R366, R371) and free values.
-/
namespace Sys2Proof.Machine

/-- The outcome of a command. -/
abbrev Res := Host.Outcome State Fault Refusal

/-! ## Fields -/

def State.withPending (s : State) (v : List Instr) : State := { s with pending := v }
def State.withHeld (s : State) (v : List Held) : State := { s with held := v }
def State.withFuses (s : State) (v : Fuses) : State := { s with fuses := v }
def State.withFlash (s : State) (v : SMap Byte) : State := { s with flash := v }
def State.withBoot (s : State) (v : Boot) : State := { s with boot := v }
def State.withClk (s : State) (v : Clock) : State := { s with clk := v }
def State.withIsl (s : State) (v : SMap Island) : State := { s with isl := v }
def State.withRings (s : State) (v : SMap Ring) : State := { s with rings := v }
def State.withIrq (s : State) (v : Irq) : State := { s with irq := v }
def State.withMbx (s : State) (v : Mbx) : State := { s with mbx := v }
def State.withMem (s : State) (v : Mem) : State := { s with mem := v }
def State.withHost (s : State) (v : HostSide) : State := { s with host := v }
def State.withPart (s : State) (v : Part) : State := { s with part := v }
def State.withFolios (s : State) (v : List Folio) : State := { s with folios := v }
def State.withTables (s : State) (v : SMap (Option Table)) : State := { s with tables := v }
def State.withTableWait (s : State) (v : SMap (Option TableWait)) : State := { s with tableWait := v }
def State.withJobs (s : State) (v : SMap (Option Job)) : State := { s with jobs := v }
def State.withSys (s : State) (v : Sys) : State := { s with sys := v }
def State.withCores (s : State) (v : SMap CoreSt) : State := { s with cores := v }
def State.withClus (s : State) (v : SMap Cluster) : State := { s with clus := v }
def State.withTopo (s : State) (v : Topo) : State := { s with topo := v }
def State.withLinks (s : State) (v : SMap Link) : State := { s with links := v }
def State.withPorts (s : State) (v : SMap Port) : State := { s with ports := v }
def State.withVideo (s : State) (v : SMap Engine) : State := { s with video := v }
def State.withChans (s : State) (v : SMap Chan) : State := { s with chans := v }
def State.withInteg (s : State) (v : Integ) : State := { s with integ := v }
def State.withMgmt (s : State) (v : Mgmt) : State := { s with mgmt := v }
def State.withPins (s : State) (v : Pins) : State := { s with pins := v }
def State.withFree (s : State) (v : Nat) : State := { s with free := v }
def State.withOut (s : State) (v : List Out) : State := { s with out := v }

/-! ## Numbered objects -/

def State.ring (s : State) (n : Nat) : Ring := s.rings.get Ring.atReset n
def State.modRing (s : State) (n : Nat) (f : Ring → Ring) : State := s.withRings (s.rings.modify Ring.atReset n f)
def State.island (s : State) (i : Nat) : Island := s.isl.get Island.atConfigLoad i
def State.modIsl (s : State) (i : Nat) (f : Island → Island) : State := s.withIsl (s.isl.modify Island.atConfigLoad i f)
def State.job (s : State) (k : Nat) : Option Job := s.jobs.get none k
def State.setJob (s : State) (k : Nat) (j : Option Job) : State := s.withJobs (s.jobs.set none k j)
def State.modJob (s : State) (k : Nat) (f : Job → Job) : State := s.withJobs (s.jobs.modify none k (Option.map f))
def State.core (s : State) (c : Nat) : CoreSt := s.cores.get CoreSt.empty c
def State.modCore (s : State) (c : Nat) (f : CoreSt → CoreSt) : State := s.withCores (s.cores.modify CoreSt.empty c f)
def State.cluster (s : State) (c : Nat) : Cluster := s.clus.get Cluster.atReset c
def State.modClu (s : State) (c : Nat) (f : Cluster → Cluster) : State := s.withClus (s.clus.modify Cluster.atReset c f)
def State.link (s : State) (l : Nat) : Link := s.links.get Link.atReset l
def State.modLink (s : State) (l : Nat) (f : Link → Link) : State := s.withLinks (s.links.modify Link.atReset l f)
def State.port (s : State) (p : Nat) : Port := s.ports.get Port.atReset p
def State.modPort (s : State) (p : Nat) (f : Port → Port) : State := s.withPorts (s.ports.modify Port.atReset p f)
def State.engine (s : State) (e : Nat) : Engine := s.video.get Engine.atReset e
def State.modEngine (s : State) (e : Nat) (f : Engine → Engine) : State := s.withVideo (s.video.modify Engine.atReset e f)
def State.chan (s : State) (c : Nat) : Chan := s.chans.get Chan.atReset c
def State.modChan (s : State) (c : Nat) (f : Chan → Chan) : State := s.withChans (s.chans.modify Chan.atReset c f)
def State.modSys (s : State) (f : Sys → Sys) : State := s.withSys (f s.sys)
def State.modHost (s : State) (f : HostSide → HostSide) : State := s.withHost (f s.host)
def State.modBoot (s : State) (f : Boot → Boot) : State := s.withBoot (f s.boot)
def State.modInteg (s : State) (f : Integ → Integ) : State := s.withInteg (f s.integ)

/-- A clause of a meaning: `f` when `b` holds. -/
def State.when (s : State) (b : Bool) (f : State → State) : State := if b then f s else s

/-- `f` for each element of a list in turn. -/
def State.each {α : Type} (s : State) (xs : List α) (f : State → α → State) : State := xs.foldl f s

/-! ## Jobs, time and the device state -/

/-- The jobs in their slots, in ascending slot. -/
def State.jobList (s : State) : List (Nat × Job) := s.jobs.filterMap fun kv => kv.2.map fun j => (kv.1, j)

/-- The slot of the job, not in RELEASED, that holds the identifier (R377). -/
def State.slotOf (s : State) (id : Nat) : Option Nat := (s.jobList.find? fun kj => kj.2.id == id).map (·.1)

/-- The admitted jobs: ACCEPTED to RESTARTING (R385, R530). -/
def State.admittedJobs (s : State) : List (Nat × Job) := s.jobList.filter fun kj => kj.2.st.admitted

/-- The device state of R38; RUNNING is READY with a job in ACCEPTED to RESTARTING (R385). -/
def State.devState (s : State) : DevState :=
  if s.boot.st = .ready && !s.admittedJobs.isEmpty then .running else s.boot.st

/-- The control-island counter (R31). -/
def State.now (s : State) : Nat := s.clk.count

/-- A free value (log 1). -/
def State.free64 (s : State) : DWord := Config.freeValue s.free
def State.free32 (s : State) : Word := (Config.freeValue s.free).truncate 32
def State.took (s : State) : State := s.withFree (s.free + 1)

/-! ## Terminals -/

/-- Put `o` on a terminal. -/
def State.emit (s : State) (o : Out) : State := s.withOut (o :: s.out)

/-- Whether a host module is up (R489, R499). -/
def State.hostUp (s : State) : Bool := s.host.modules != 0

/-- Send on the host link, or hold in order while it is down (R499). -/
def State.emitHost (s : State) (o : Out) : State :=
  if s.hostUp then s.emit o else s.modHost fun h => { h with heldOut := h.heldOut ++ [o] }

/-! ## Host memory -/

def HostSide.put (h : HostSide) (a : Nat) (bs : List Byte) : HostSide :=
  { h with mem := bs.zipIdx.foldl (fun m bi => m.set 0 (a + bi.2) bi.1) h.mem }

/-- Posted write to host memory; while every module is down it waits in order (R499). -/
def State.hostWrite (s : State) (a : Nat) (bs : List Byte) : State :=
  s.modHost fun h => if h.modules != 0 then h.put a bs else { h with heldWrites := h.heldWrites ++ [(a, bs)] }

def State.hostBytes (s : State) (a n : Nat) : List Byte := (List.range n).map fun i => s.host.mem.get 0 (a + i)

/-! ## Device memory (R282, R308 to R310) -/

inductive Region where
  | hbm | scratch | far
deriving DecidableEq, Repr

def hbmBytes : Nat := 0x6000000000
def scratchLo : Nat := 0x080000000000
def farLo : Nat := 0x100000000000
def sliceStride : Nat := 0x08000000
def gib : Nat := 2 ^ 30
def mib : Nat := 2 ^ 20

/-- The store of a device address at the present scratchpad and far-tier sizes, none where nothing is mapped (R282). -/
def State.region (s : State) (a : Nat) : Option Region :=
  if a < hbmBytes then some .hbm
  else if scratchLo ≤ a ∧ a < scratchLo + 16 * sliceStride ∧ (a - scratchLo) % sliceStride < s.part.scratch * (16 * mib) then
    some .scratch
  else if farLo ≤ a ∧ a < farLo + s.part.farGib * gib then some .far
  else none

/-- Every byte of a range of `n` bytes from `a` lies in one store (R282). -/
def State.mappedRange (s : State) (a n : Nat) : Bool :=
  n != 0 && (s.region a).isSome && s.region a == s.region (a + n - 1) &&
    (s.region a != some .scratch || (a - scratchLo) / sliceStride == (a + n - 1 - scratchLo) / sliceStride)

/-- FAR_BASE (R306, R311). -/
def State.farBase (s : State) : Nat := s.part.farBaseHi.toNat * 2 ^ 32 + s.part.farBaseLo * 2 ^ 30

/-- The folio area: the top FOLIO_GIB GiB of HBM (R295, R494). -/
def State.folioLo (s : State) : Nat := hbmBytes - s.part.folioGib * gib

/-- A byte as stored; far-tier bytes are host memory at FAR_BASE (R306). -/
def State.storedByte (s : State) (a : Nat) : Byte :=
  if a < farLo then s.mem.bytes.get 0 a else s.host.mem.get 0 (s.farBase + (a - farLo))

/-- A byte as a unit of the device reads it: a write that waits for its back-invalidate response is already seen inside the
device (R495). -/
def State.devByte (s : State) (a : Nat) : Byte :=
  match (s.host.biWait.reverse.filter fun w => w.line == a / 64).findSome? fun w => w.data.reverse.lookup a with
  | some b => b
  | none => s.storedByte a

def State.devBytes (s : State) (a n : Nat) : List Byte := (List.range n).map fun i => s.devByte (a + i)

/-- The home slice of a device address: its own for the scratchpad (R282), else that of R292. -/
def homeSliceOf (a : Nat) : Nat :=
  if scratchLo ≤ a ∧ a < farLo then (a - scratchLo) / sliceStride % 16
  else (List.range 7).foldl (fun h i => h ^^^ bitsOf a (12 + 4 * i) 4) 0

/-- The HBM stack, channel of the device and channel-local address of a device address (R300). -/
def hbmStack (a : Nat) : Nat := a / 4096 % 6
def hbmChannel (a : Nat) : Nat :=
  let ap := a / 4096 / 6 * 4096 + a % 4096
  32 * hbmStack a + ((bitsOf ap 8 5) ^^^ (bitsOf ap 18 5))

/-- The difference of a line's welt from the correct one; a waiting write has a fresh welt (R308, R495). -/
def State.lineSynd (s : State) (line : Nat) : Half :=
  if s.host.biWait.any fun w => w.line == line then 0 else s.mem.synd.get 0 line

/-- Every device write to the lines of a range has been accepted at its home slice: none waits for its back-invalidate response
(R277, R384, R430, R495, R498). -/
def State.settled (s : State) (a n : Nat) : Bool :=
  s.host.biWait.all fun w => decide (64 * w.line + 64 ≤ a) || decide (a + n ≤ 64 * w.line)

/-- The lines that a range of `n` bytes from `a` touches. -/
def linesOf (a n : Nat) : List Nat := (List.range (ceilDiv (a % 64 + n) 64)).map fun k => a / 64 + k

/-- The error of storage that an access to a line meets: one of HBM where the line cache does not hold the line, one of a slice where the
slice holds it. -/
def State.storeErr (s : State) (line : Nat) : Option StoreErr :=
  (s.mem.errs.lookup line).filter fun e => match e with
    | .hbmCorr | .hbmUncorr => decide (64 * line < hbmBytes) && s.mem.cached.get 0 line == 0
    | .single | .double => s.region (64 * line) == some .scratch || s.mem.cached.get 0 line != 0

/-- An error that leaves the line undelivered: HBM's uncorrectable one, or a double-bit error in a line that is no copy; a clean copy is fetched
again (R286, R302, R451). -/
def State.uncorrectable (s : State) (line : Nat) : Bool :=
  match s.storeErr line with
  | some .hbmUncorr => true
  | some .double => s.region (64 * line) == some .scratch || s.mem.cached.get 0 line == 2
  | _ => false

/-- The line is not delivered: its welt fails its check (R310), or its storage cannot correct it. -/
def State.lineBad (s : State) (line : Nat) : Bool := s.lineSynd line != 0 || s.uncorrectable line

/-- The device address of the first line of a range that is not delivered. -/
def State.badLine (s : State) (a n : Nat) : Option Nat := ((linesOf a n).find? s.lineBad).map (64 * ·)

/-- Bytes with their addresses, cut into lines. -/
def lineChunks (a : Nat) (bs : List Byte) : List (Nat × List (Nat × Byte)) :=
  let ws := bs.zipIdx.map fun bi => (a + bi.2, bi.1)
  (linesOf a bs.length).map fun l => (l, ws.filter fun w => w.1 / 64 == l)

def Mem.putBytes (m : Mem) (ws : List (Nat × Byte)) : Mem :=
  { m with bytes := ws.foldl (fun b w => b.set 0 w.1 w.2) m.bytes }

/-- Bytes of one line made visible, with a welt for what the line then holds (R310), the line dirty in the line cache when
`dirty` (R292). -/
def Mem.putLine (m : Mem) (line : Nat) (ws : List (Nat × Byte)) (dirty : Bool) : Mem :=
  let m := m.putBytes ws
  { m with synd := m.synd.set 0 line 0
           errs := m.errs.filter (·.1 != line)
           cached := if dirty && line * 64 < hbmBytes then m.cached.set 0 line 2 else m.cached }

/-- The writes cover the whole of their line. -/
def coversLine (ws : List (Nat × Byte)) : Bool := (List.range 64).all fun o => ws.any fun w => w.1 % 64 == o

/-- A device write within one line: a partial write onto a line that is not delivered is not merged (R310); a line that the host
may hold is back-invalidated first and the write waits (R495); a far-tier line is written through (R292). -/
def State.writeLine (s : State) (line : Nat) (ws : List (Nat × Byte)) : State :=
  if line * 64 ≥ farLo then s.each ws fun s w => s.hostWrite (s.farBase + (w.1 - farLo)) [w.2]
  else if s.lineBad line && !coversLine ws then s
  else if s.host.filter.contains line || s.host.biWait.any fun w => w.line == line then
    let s' := if s.host.biWait.any fun w => w.line == line then s else s.emitHost (.backInvalidate line)
    s'.modHost fun h => { h with biWait := h.biWait ++ [⟨line, ws⟩] }
  else s.withMem (s.mem.putLine line ws true)

/-- A device write of consecutive bytes, line by line, each line with a fresh welt (R310). -/
def State.devWrite (s : State) (a : Nat) (bs : List Byte) : State := s.each (lineChunks a bs) fun s c => s.writeLine c.1 c.2

/-- The first line of a write that is only in part written and is not delivered (R310, partial-line merge). -/
def State.badMerge (s : State) (a n : Nat) : Option Nat :=
  ((linesOf a n).find? fun l =>
    decide (¬ (a ≤ 64 * l ∧ 64 * l + 64 ≤ a + n)) && decide (64 * l < farLo) && s.lineBad l).map (64 * ·)

/-- Writes of dirty lines go back to HBM and the lines leave the line cache (R293). -/
def State.cleanCache (s : State) : State :=
  s.withMem { s.mem with cached := s.mem.cached.filterMap fun kv => if kv.2 = 2 then some (kv.1, 1) else some kv }

/-- An error that storage corrects is counted and written back corrected; a clean copy with two wrong bits is fetched again (R285, R305,
R451). -/
def State.correct (s : State) (line : Nat) : State :=
  if s.uncorrectable line then s
  else match s.storeErr line with
    | some e =>
      let s := s.withMem { s.mem with errs := s.mem.errs.filter (·.1 != line) }
      match e with
      | .hbmCorr => s.modChan (hbmChannel (64 * line)) fun c => { c with corr := satTo 0xFFFF (c.corr + 1) }
      | .single => s.modInteg fun g => { g with rsvCorr := g.rsvCorr.modify 0 (homeSliceOf (64 * line)) (· + 1) }
      | _ => s
    | none => s

/-- A read of a range by a unit of the device allocates its HBM and far-tier lines clean (R292), its storage errors corrected. -/
def State.touch (s : State) (a n : Nat) : State :=
  let s := s.each (linesOf a n) State.correct
  s.withMem { s.mem with cached := (linesOf a n).foldl (fun c l =>
    if scratchLo ≤ 64 * l ∧ 64 * l < farLo then c else if c.get 0 l = 0 then c.set 0 l 1 else c) s.mem.cached }

/-- Bytes at a host or a device address, as the address flag says (R376). -/
def State.srcBytes (s : State) (host : Bool) (a n : Nat) : List Byte := if host then s.hostBytes a n else s.devBytes a n
def State.dstWrite (s : State) (host : Bool) (a : Nat) (bs : List Byte) : State :=
  if host then s.hostWrite a bs else s.devWrite a bs

/-- The memories that the device reads and writes are in canonical form: device memory, the host's, the flash, the cores' wells. -/
def Mem.wf (m : Mem) : Bool := SMap.wf 0 m.bytes && SMap.wf 0 m.synd && SMap.wf 0 m.cached
def State.memWf (s : State) : Bool :=
  s.mem.wf && SMap.wf 0 s.host.mem && SMap.wf 0xFF s.flash && s.cores.all fun kv => SMap.wf 0 kv.2.well

/-! ## Interrupts (R504, R505) -/

def State.vector (s : State) (v : Nat) : MsixEntry := s.irq.table.get MsixEntry.atReset v

/-- Whether the MSI-X mask and the function mask leave the vector free. -/
def State.vectorOpen (s : State) (v : Nat) : Bool := !(s.vector v).mask && !s.irq.funcMask

def State.sendMsi (s : State) (v : Nat) : State :=
  let e := s.vector v
  s.emitHost (.msi v (e.addrHi ++ e.addrLo) e.data)

/-- Whether all three masks of a ring vector are clear. -/
def State.ringMsgOpen (s : State) (n : Nat) : Bool := s.vectorOpen n && !s.irq.mask.getLsbD n

/-- One message for ring n (R504). -/
def State.ringMsg (s : State) (n : Nat) : State :=
  (s.sendMsi n).modRing n fun r => { r with lastMsg := some s.now, held := false }

/-- Whether a message was sent for ring n in the last HOLDOFF_US (R504). -/
def State.inHoldoff (s : State) (n : Nat) : Bool :=
  match (s.ring n).lastMsg with
  | none => false
  | some t => s.now - t < s.irq.holdoffUs * 1000

/-- A record has been written to reply ring n (R504). -/
def State.ringNoted (s : State) (n : Nat) : State :=
  if s.inHoldoff n then s.modRing n fun r => { r with held := true }
  else if s.ringMsgOpen n then s.ringMsg n
  else s

/-- The message that clearing a mask sends when the counts differ (R504). -/
def State.ringUnmasked (s : State) (n : Nat) : State :=
  if s.ringMsgOpen n && (s.ring n).rqTail != (s.ring n).rqHead then s.ringMsg n else s

/-- Event k of IRQ_EVENT (R505). -/
def State.event (s : State) (k : Nat) : State :=
  if s.irq.event.getLsbD k then s
  else
    let s' := s.withIrq { s.irq with event := s.irq.event ||| (1 <<< k) }
    if s.irq.eventEn.getLsbD k && s.vectorOpen 64 then s'.sendMsi 64 else s'

/-! ## Reply records (R366, R371) -/

/-- The 32 bytes of a record when its place is `tail` of a ring of 2^log2 records (R371); for the mailbox PHASE is 1. -/
def State.recBytes (s : State) (r : Rec) (log2 tail : Nat) : List Byte :=
  let phase := if (tail / 2 ^ log2) % 2 = 0 then 2 ^ 31 else 0
  sealWelt 22 <|
    leBytes 4 r.seq.toNat ++ leBytes 2 (r.opcode % 4096 + 4096 * s.devState.code) ++ leBytes 1 r.status ++ leBytes 1 r.reason ++
    leBytes 4 (r.job % 2 ^ 27 + 2 ^ 27 * (r.jobState % 16) + phase) ++ leBytes 4 r.promise ++ leBytes 6 s.now ++ [0, 0] ++
    leBytes 8 r.detail.toNat

/-- Whether reply ring n has space (R366). -/
def State.rqSpace (s : State) (n : Nat) : Bool :=
  let r := s.ring n
  (r.rqTail - r.rqHead).toNat < 2 ^ r.rqLog2

/-- Write a record at the tail of reply ring n, then its interrupt (R366, R492, R504). -/
def State.putRecord (s : State) (n : Nat) (r : Rec) : State :=
  let g := s.ring n
  let a := g.rqBase + 32 * (g.rqTail.toNat % 2 ^ g.rqLog2)
  let s' := s.dstWrite (!g.rqHbm) a (s.recBytes r g.rqLog2 g.rqTail.toNat)
  (s'.modRing n fun g => { g with rqTail := g.rqTail + 1 }).ringNoted n

/-- A record waits in the backlog: a lifecycle record takes the place of a waiting one of the same job, unless that one carries
a final job state (R366). -/
def backlogAdd : List Rec → Rec → List Rec
  | [], r => [r]
  | w :: q, r => if r.jobLife.isSome && w.jobLife == r.jobLife && !w.finalJob then r :: q else w :: backlogAdd q r

/-- A record goes to reply ring n: at once into free space, else into the backlog (R366). -/
def State.queueRec (s : State) (n : Nat) (r : Rec) : State :=
  if (s.ring n).backlog.isEmpty && s.rqSpace n then s.putRecord n r
  else s.modRing n fun g => { g with backlog := backlogAdd g.backlog r }

/-- The FIRMWARE_STALL record of a command, counted in RING_STAT.STALLS (R375). -/
def State.sendStall (s : State) (n : Nat) (r : Rec) : State :=
  (s.queueRec n r).modRing n fun g => { g with stalls := satTo 0xFFFF (g.stalls + 1) }

/-- Send a record to reply ring n; the first record of a command whose timer has expired is discarded and the FIRMWARE_STALL written in
its place (R375). -/
def State.sendRec (s : State) (n : Nat) (r : Rec) : State :=
  match s.sys.stalled with
  | some (m, w) =>
    if m = n ∧ w.seq = r.seq ∧ w.opcode = r.opcode then (s.modSys fun y => { y with stalled := none }).sendStall n w
    else s.queueRec n r
  | none => s.queueRec n r

/-! ## Time -/

/-- The scribes run the image: from step 4 on, and not in LOCKED (R508). -/
def State.scribesRun (s : State) : Bool :=
  [DevState.training, .ready, .running, .quiesced, .faultHold].contains s.boot.st

/-- HEARTBEAT of every scribe advances, by how much beyond 1 is a free value (R508). -/
def State.beat (s : State) : State :=
  s.each (List.range 8) fun s k => s.took.withMbx { s.mbx with
    heartbeat := s.mbx.heartbeat.modify 0 k fun h => (h + 1 + s.free64.toNat % (2 ^ 24 - 1)) % 2 ^ 24 }

/-- One nanosecond passes on the control-island counter if it runs (R31; log 7); every 100 µs the heartbeats advance. -/
def State.tick (s : State) : State :=
  if s.clk.run then
    (s.withClk { s.clk with count := (s.clk.count + 1) % 2 ^ 64 }).when
      (s.scribesRun && decide ((s.clk.count + 1) % 100000 = 0)) State.beat
  else s

end Sys2Proof.Machine
end

