-- ==== Sys2Proof/Machine/Geo.lean ====
section
/-!
DEFINITION. Where things lie: cores, clusters and slices (01 R11 to R22), gateways (R22), HBM stacks and channels (R300), and
the torus: neighbours (R404), routes (R397), groups and ranks (R407, R408), the combining tree of VC0 (R417).
-/
namespace Sys2Proof.Machine

/-! ## Cores and islands (R11 to R22) -/

def clusterOf (c : Nat) : Nat := c / 32
def coreCol (c : Nat) : Nat := 4 * (c / 32 % 8) + c % 32 % 4
def coreRow (c : Nat) : Nat := 8 * (c / 32 / 8) + c % 32 / 4
def coreAt (row col : Nat) : Nat := 32 * (8 * (row / 8) + col / 4) + 4 * (row % 8) + col % 4
def homeSliceOfCluster (cl : Nat) : Nat := 4 * (cl / 8 / 2) + cl % 8 / 2
def homeSlice (c : Nat) : Nat := homeSliceOfCluster (clusterOf c)

/-- Whether the core map has the core in service (R16, R18). -/
def State.inService (s : State) (c : Nat) : Bool :=
  c < 2048 && (s.fuses.coreMap.get 0xFFFFFFFF (c / 32)).getLsbD (c % 32)

def State.inServiceCores (s : State) : List Nat := (List.range 2048).filter s.inService

/-- The island indices of R21. -/
def islRsv (sl : Nat) : Nat := 64 + sl
def islPort (p : Nat) : Nat := 80 + p
def islHbm (h : Nat) : Nat := 88 + h
def islHst : Nat := 94
def islCtl : Nat := 95
def islVid (e : Nat) : Nat := 96 + e

/-- The gateway slice of an HBM island (R22). -/
def hbmGateway (h : Nat) : Nat := [4, 8, 12, 7, 11, 15].getD h 0

/-- The physical stitch neighbour in a direction; none at the grid's edge (R13). -/
def stitchNeighbour (c : Nat) : Dir → Option Nat
  | .colMinus => if coreCol c = 0 then none else some (coreAt (coreRow c) (coreCol c - 1))
  | .colPlus => if coreCol c = 31 then none else some (coreAt (coreRow c) (coreCol c + 1))
  | .rowMinus => if coreRow c = 0 then none else some (coreAt (coreRow c - 1) (coreCol c))
  | .rowPlus => if coreRow c = 63 then none else some (coreAt (coreRow c + 1) (coreCol c))

/-- The channel-local address of a device address (R300). -/
def hbmLocal (a : Nat) : Nat :=
  let ap := a / 4096 / 6 * 4096 + a % 4096
  bitsOf ap 13 23 * 256 + ap % 256
/-- The device address of channel-local byte address `o` of channel `c` (R300, inverse). -/
def hbmAddr (c o : Nat) : Nat :=
  let ap := (o / 256) * 8192 + ((c % 32) ^^^ (bitsOf o 13 5)) * 256 + o % 256
  ((ap / 4096) * 6 + c / 32) * 4096 + ap % 4096

/-! ## The torus -/

def Coord.get (c : Coord) : Nat → Nat
  | 0 => c.x | 1 => c.y | 2 => c.z | _ => c.w
def Coord.set (c : Coord) (v : Nat) : Nat → Coord
  | 0 => { c with x := v } | 1 => { c with y := v } | 2 => { c with z := v } | _ => { c with w := v }

/-- Coordinates laid out as DEST (R394). -/
def Coord.code (c : Coord) : Nat := c.x % 16 + 16 * (c.y % 16) + 256 * (c.z % 8) + 2048 * (c.w % 8)
def Coord.ofCode (v : Nat) : Coord := ⟨v % 16, v / 16 % 16, v / 256 % 8, v / 2048 % 8⟩

def axisMax (a : Nat) : Nat := if a < 2 then 16 else 8

/-- The plus (`up`) or minus neighbour along axis `a` (R404). -/
def Topo.step (t : Topo) (c : Coord) (a : Nat) (up : Bool) : Option Coord :=
  let n := t.size.get a
  let v := c.get a
  if up then (if v + 1 < n then some (c.set (v + 1) a) else if t.wrap.getLsbD a then some (c.set 0 a) else none)
  else (if 0 < v then some (c.set (v - 1) a) else if t.wrap.getLsbD a then some (c.set (n - 1) a) else none)

/-- Port p faces axis p div 2, plus when p is odd (R391). -/
def Topo.neighbour (t : Topo) (p : Nat) : Option Coord := t.step t.coord (p / 2) (p % 2 == 1)

def Group.has (g : Group) (c : Coord) : Bool :=
  (List.range 4).all fun a => decide (g.org.get a ≤ c.get a) && decide (c.get a < g.org.get a + g.ext.get a)

def Topo.group (t : Topo) (g : Nat) : Option Group := t.groups.get none g

/-- An axis of the group is a ring (R407). -/
def Topo.isRing (t : Topo) (g : Group) (a : Nat) : Bool :=
  g.ext.get a == t.size.get a && decide (2 ≤ g.ext.get a) && t.wrap.getLsbD a

/-- The diameter of a group (R407). -/
def Topo.diameter (t : Topo) (g : Group) : Nat :=
  ((List.range 4).map fun a => if t.isRing g a then g.ext.get a / 2 else g.ext.get a - 1).sum

/-- The smallest power of two not below `n`. -/
def pow2Up (n : Nat) : Nat := (List.range 17).foldl (fun r k => if r < n then 2 ^ k else r) 1

/-- A member's rank (R408). -/
def Group.rank (g : Group) (c : Coord) : Nat :=
  let d := fun a => c.get a - g.org.get a
  let e := fun a => pow2Up (g.ext.get a)
  d 0 + e 0 * (d 1 + e 1 * (d 2 + e 2 * d 3))

/-- The members of a group. -/
def Group.members (g : Group) : List Coord :=
  (List.range g.ext.w).flatMap fun w => (List.range g.ext.z).flatMap fun z => (List.range g.ext.y).flatMap fun y =>
    (List.range g.ext.x).map fun x => ⟨g.org.x + x, g.org.y + y, g.org.z + z, g.org.w + w⟩

/-- The first axis on which two points differ (R397: X, then Y, Z and W). -/
def firstDiff (c d : Coord) : Option Nat := (List.range 4).find? fun a => c.get a != d.get a

/-- The hops in the plus direction from u to v on axis a, none where the axis does not lead there. -/
def Topo.plusHops (t : Topo) (a u v : Nat) : Option Nat :=
  if u ≤ v then some (v - u) else if t.wrap.getLsbD a then some (v + t.size.get a - u) else none
def Topo.minusHops (t : Topo) (a u v : Nat) : Option Nat :=
  if v ≤ u then some (u - v) else if t.wrap.getLsbD a then some (u + t.size.get a - v) else none

/-- The port of the next hop of a flit at `c` for `d`: dimension order, the shorter way round, plus on a tie (R397). -/
def Topo.routePort (t : Topo) (c d : Coord) : Option Nat :=
  match firstDiff c d with
  | none => none
  | some a =>
    match t.plusHops a (c.get a) (d.get a), t.minusHops a (c.get a) (d.get a) with
    | some u, some v => some (2 * a + if u ≤ v then 1 else 0)
    | some _, none => some (2 * a + 1)
    | _, _ => some (2 * a)

def Topo.nextHop (t : Topo) (c d : Coord) : Option Coord :=
  (t.routePort c d).bind fun p => t.step c (p / 2) (p % 2 == 1)

/-- The port towards this device's parent in the tree of R417; none at rank 0. -/
def Topo.parentPort (t : Topo) (g : Group) : Option Nat := t.routePort t.coord g.org

/-- The first member on the route from a point to rank 0, and its port at which the route arrives; points outside the group pass a
message on (R397, R417). The first number bounds the hops: an axis has at most 16 points. -/
def Topo.parentOf (t : Topo) (g : Group) : Nat → Coord → Option (Coord × Nat)
  | 0, _ => none
  | n + 1, c => (t.routePort c g.org).bind fun p => (t.step c (p / 2) (p % 2 == 1)).bind fun h =>
      if g.has h then some (h, if p % 2 = 1 then p - 1 else p + 1) else Topo.parentOf t g n h

/-- This device's children in the tree of R417, each with the port at which its route arrives. -/
def Topo.children (t : Topo) (g : Group) : List (Coord × Nat) :=
  g.members.filterMap fun m => if m = t.coord then none
    else (t.parentOf g 16 m).bind fun x => if x.1 = t.coord then some (m, x.2) else none

/-- The ports that face a member of the group (R401, R418). -/
def Topo.facing (t : Topo) (g : Group) : List Nat :=
  (List.range 8).filter fun p => match t.neighbour p with
    | some c => g.has c && c != t.coord
    | none => false

def linkUp : Nat := 2

/-- The links of port p that are UP. -/
def State.upLinks (s : State) (p : Nat) : List Nat := (List.range 8).filter fun g => (s.link (8 * p + g)).st == linkUp

def popcount4 (b : BitVec 4) : Nat := (List.range 4).countP fun i => b.getLsbD i

/-- The active lanes of port p over its UP links, in the narrower of its two directions (R415). -/
def State.portLanes (s : State) (p : Nat) : Nat :=
  Nat.min ((s.upLinks p).map fun g => popcount4 (s.link (8 * p + g)).tx).sum
    ((s.upLinks p).map fun g => popcount4 (s.link (8 * p + g)).rx).sum

/-- This device is rank 0 of the group. -/
def Topo.isRoot (t : Topo) (g : Group) : Bool := t.coord == g.org

/-- The group of a job that names one. -/
def State.groupOf (s : State) (g : Nat) : Option Group := if g = 0 then none else s.topo.group g

end Sys2Proof.Machine
end

