-- ==== Sys2Proof/Machine/AwlOps.lean ====
section
/-!
DEFINITION. What an awl does to the lines of its region (R303 to R305), and how it stops.
-/
namespace Sys2Proof.Machine

/-- Channel-local line `i` of the awl's region (R304). -/
def Chan.lineAt (c : Chan) (i : Nat) : Nat := (c.base + i % Nat.max 1 c.len) % 2 ^ 25

/-- The device line of channel c's local line. -/
def chanLine (c line : Nat) : Nat := hbmAddr c (64 * line) / 64

/-- The 64-bit words of the pattern for the i-th line of the region (R305). -/
def Chan.patternWord (g : Chan) (addr i w : Nat) : DWord :=
  if g.pattern = 0 then Config.awlPrbs (if g.value = 0 then 1 else g.value) (i % Nat.max 1 g.len) w
  else if g.pattern = 1 then BitVec.ofNat 64 (addr + 8 * w)
  else if g.pattern = 2 then (1 : DWord) <<< ((Config.awlWalkStart + i % Nat.max 1 g.len) % 64)
  else g.value ++ g.value

def Chan.patternLine (g : Chan) (addr i : Nat) : List Byte :=
  (List.range 8).flatMap fun w => leBytes 8 (g.patternWord addr i w).toNat

/-- OP 0 and 1 write, OP 0, 2 and 3 read, OP 0 and 2 compare (R305). -/
def Chan.writes (g : Chan) : Bool := g.op == 0 || g.op == 1
def Chan.reads (g : Chan) : Bool := g.op != 1
def Chan.compares (g : Chan) : Bool := g.op == 0 || g.op == 2

/-- Mismatched bit positions modulo 64 of a line against the pattern (R304). -/
def State.mismatchBits (s : State) (g : Chan) (addr i : Nat) : DWord :=
  (List.range 8).foldl (fun r w =>
    r ||| (g.patternWord addr i w ^^^ BitVec.ofNat 64 (leNat (s.devBytes (addr + 8 * w) 8)))) 0

/-- A line found bad (R304, R305). -/
def Chan.miss (g : Chan) (line : Nat) (bits : DWord) (welt : Bool) : Chan :=
  { g with errCnt := satTo 0xFFFFFFFF (g.errCnt + 1), errBits := g.errBits ||| bits,
           errLine := if g.errLine.getLsbD 31 then g.errLine
             else BitVec.ofNat 32 (2 ^ 31 + (if welt then 2 ^ 30 else 0) + line % 2 ^ 25) }

/-- A line is not in the line cache: an awl writes its channel directly (R303). -/
def State.uncache (s : State) (line : Nat) : State := s.withMem { s.mem with cached := s.mem.cached.set 0 line 0 }

/-- The awl's write of the i-th line, where its operation writes. -/
def State.awlPut (s : State) (g : Chan) (addr i : Nat) : State :=
  if g.writes then (s.devWrite addr (g.patternLine addr i)).uncache (addr / 64) else s

/-- The awl visits the i-th line of its region: writes it, then reads it; `seen` is what the hardware saw go wrong there. -/
def State.awlVisit (s : State) (c : Nat) (seen : List AwlMiss) (i : Nat) : State :=
  let g := s.chan c
  let line := g.lineAt i
  let addr := hbmAddr c (64 * line)
  let s := s.awlPut g addr i
  let bits := if g.compares then s.mismatchBits g addr i else 0
  let welt := s.lineSynd (addr / 64) != 0
  let phys := seen.find? fun m => m.line == line
  let bits := if g.compares then bits ||| (phys.map (·.bits)).getD 0 else 0
  let welt := welt || (phys.map (·.welt)).getD false
  let missed := g.reads && (bits != 0 || welt || (g.compares && phys.isSome))
  s.modChan c fun h =>
    let h := if missed then h.miss line bits welt else h
    { h with done := (h.done + 1) % 2 ^ 32 }

/-- The awl of channel c ends after `n` lines. -/
def State.awlEnd (s : State) (c n : Nat) (seen : List AwlMiss) : State :=
  (s.each (List.range n) fun s i => s.awlVisit c seen i).modChan c fun g => { g with run := false }

/-- An awl stopped with no row that says how far it got: how many lines it has done by then is a free value, at most the region
without LOOP (R305). -/
def State.stopAwl (s : State) (c : Nat) : State :=
  let g := s.chan c
  s.took.awlEnd c (s.free64.toNat % (if g.loop then 2 ^ 32 else g.len + 1)) []

/-- Every awl stops: awls run only in READY and QUIESCED with no job admitted (R303). -/
def State.stopAwls (s : State) : State :=
  s.each ((List.range 192).filter fun c => (s.chan c).run) State.stopAwl

end Sys2Proof.Machine
end

