-- ==== Sys2Proof/WellFormed.lean ====
section
/-! DEFINITION. Commands the hardware can be given: operand shapes for which an encoding of the spec has room, and which its own
refusals let through (a folio that names another is refused at FOLIO_LOAD, so the instruction never reaches a core). -/
namespace Sys2Proof

/-- A packet as fetched has 64 bytes a slot after its 16-byte header, one slot where SLOTS is none of 1 to 16 (R364, R368,
R370). -/
def Pkt.wf (p : Pkt) : Bool :=
  p.body.length == (if 1 ≤ p.slots.toNat ∧ p.slots.toNat ≤ 16 then 64 * p.slots.toNat - 16 else 48)

/-- Codes 0x5 to 0xA, the MX formats (R44). -/
def mxCode (c : BitVec 4) : Bool := decide (5 ≤ c.toNat) && decide (c.toNat ≤ 10)

/-- A format code other than the reserved one (R45). -/
def codeOk (c : BitVec 4) : Bool := c != 15

/-- An output format byte (R63, R45). -/
def outByteOk (b : Byte) : Bool := decide (b.toNat < 32) && decide (b.toNat % 16 ≠ 15)

/-- An operand of the engine names neither FP32 nor the reserved code (R45); an MX operand has the contraction innermost (R51) and
its register, if it lies in one, is even (R114). -/
def Operand.wf (o : Operand) : Bool :=
  o.fmt != 0 && codeOk o.fmt &&
    (!mxCode o.fmt || (!o.kMajor && match o.src with
      | .treg n => n.val % 2 == 0
      | _ => true))

/-- A tile has 16 rows and 32 columns (R80). -/
def OpuOp.wf (o : OpuOp) : Bool := o.a.wf && o.b.wf && decide (o.rows ≤ 16) && decide (o.cols ≤ 32)

/-- Both operands are BF16, W has at most 64 rows (R101). -/
def MvOp.wf (o : MvOp) : Bool := o.wFmt == 1 && o.xFmt == 1 && decide (o.rows ≤ 64)

/-- A row leaves as INT32 in place of FP32, code 0 (R87); one in an MX format is one block, so one segment (R92, R212). -/
def DrainOp.wf (o : DrainOp) : Bool :=
  decide (o.rows ≤ 16) && decide (o.cols ≤ 32) && outByteOk o.outFmt && (!o.int32 || (o.outFmt.truncate 4 : BitVec 4) == 0) &&
    match o.dst with
    | .segments _ cout _ _ => decide (1 ≤ cout) && (!mxCode (o.outFmt.truncate 4) || decide (o.cols ≤ cout))
    | _ => true

/-- The codes of RND (R122). -/
def rndFmtOk (b : Byte) : Bool := decide (b.toNat < 32) && [1, 2, 3, 4, 0xB, 0xC, 0xD].contains (b.toNat % 16)

/-- ROWS of 0 to 16, COLS of 0 to 32 (R115). -/
def LenSrc.wf : LenSrc → Bool
  | .imm rows cols => decide (rows ≤ 16) && decide (cols ≤ 32)
  | .reg _ => true

def LdStOp.wf (o : LdStOp) : Bool := outByteOk o.fmt

/-- The limits of R139 that do not depend on LEN. -/
def DwaOp.wf (o : DwaOp) : Bool :=
  let r := fun lo hi v => decide (lo ≤ v) && decide (v ≤ hi)
  let k := o.cg * o.kh * o.kw
  r 1 7 o.kh && r 1 7 o.kw && r 1 2 o.s && [1, 2, 4].contains o.cg && r 1 3 o.q && decide (k ≤ 64) &&
    decide (o.w + o.q * o.kh ≤ 32) && decide (o.wt + (k - 1) / 16 ≤ 31)

/-- The limits of R215 that do not depend on LEN. -/
def PoolOp.wf (o : PoolOp) : Bool :=
  let r := fun lo hi v => decide (lo ≤ v) && decide (v ≤ hi)
  r 1 8 o.kh && r 1 8 o.kw && r 1 4 o.s && r 1 3 o.q && decide (o.w + o.q * o.kh ≤ 32)

/-- f of 2 or 4 (R218); the windows within the file. -/
def ResampleOp.wf (o : ResampleOp) : Bool :=
  [2, 4].contains o.f && decide (1 ≤ o.q) && decide (o.q ≤ 3) && decide (o.upper.val + o.q ≤ 32) && decide (o.lower.val + o.q ≤ 32)

/-- A message of 1 to 16 consecutive rows of one register (R187). -/
def SendOp.wf (o : SendOp) : Bool := decide (1 ≤ o.rows) && decide (o.row.val + o.rows ≤ 16)

def RecvOp.wf (o : RecvOp) : Bool :=
  decide (1 ≤ o.rows) && match o.dst with
    | .treg _ row => decide (row.val + o.rows ≤ 16)
    | .fifo => decide (o.rows ≤ 16)

/-- Sa is S0 to S13 (R272). -/
def NoiseOp.wf (o : NoiseOp) : Bool := decide (o.sa.val ≤ 13)

/-- A row of the state's own size: a flit has 288 bytes (R394). -/
def FlitRx.wf (f : FlitRx) : Bool := f.bytes.length == 288

end Sys2Proof
end

