-- ==== Sys2Proof/Machine/Cmd.lean ====
section
/-!
DEFINITION. The command path (13): fetching a packet from a ring (R363 to R367), the ordered packet checks (R370), the device
state matrix (R388), replies (R371, R372) and the commands in progress that owe a final record (R376).
-/
namespace Sys2Proof

open Machine

/-! ## The packet (R368 to R370) -/

def Pkt.jobId (p : Pkt) : Nat := p.job.toNat % 2 ^ 27

/-- A parameter: `n` bytes at offset `off` from byte 16 (R376). -/
def Pkt.arg (p : Pkt) (off n : Nat) : Nat := fieldAt p.body off n

/-- All bytes of the packet in its slots (R368). -/
def Pkt.bytes (p : Pkt) (opcode : Nat) : List Byte :=
  leBytes 2 opcode ++ [p.slots, p.flags] ++ leBytes 4 p.seq.toNat ++ leBytes 4 p.job.toNat ++ leBytes 2 p.plen.toNat ++
    leBytes 2 p.welt.toNat ++ p.body

/-- The CRC check of R369. -/
def Pkt.weltOk (p : Pkt) (opcode : Nat) : Bool := recWelt 14 (p.bytes opcode) == p.welt

/-- SLOTS of 1 to 16 (check 1 of R370). -/
def Pkt.slotsOk (p : Pkt) : Bool := decide (1 ≤ p.slots.toNat) && decide (p.slots.toNat ≤ 16)

/-- Check 4 of R370: reserved header bits, SLOTS against PLEN, PLEN against the opcode's. -/
def Pkt.headerOk (p : Pkt) (plenOk : Nat → Bool) : Bool :=
  p.flags.toNat / 2 == 0 && p.job.toNat / 2 ^ 27 == 0 && p.slots.toNat == Nat.max 1 (ceilDiv (16 + p.plen.toNat) 64) &&
    plenOk p.plen.toNat

/-- ORDER (R365). -/
def Pkt.ordered (p : Pkt) : Bool := p.flags.getLsbD 0

end Sys2Proof

namespace Sys2Proof.Machine

/-! ## Status and reason codes (R372, R373) -/

def stOk : Nat := 0x00
def stAccepted : Nat := 0x01
def stDeferred : Nat := 0x02
def stNotReady : Nat := 0x03
def stReleased : Nat := 0x04
def stBadOpcode : Nat := 0x10
def stBadParam : Nat := 0x11
def stBadFormat : Nat := 0x12
def stConflict : Nat := 0x13
def stNoResource : Nat := 0x14
def stInfeasible : Nat := 0x15
def stTableBusy : Nat := 0x16
def stWelt : Nat := 0x20
def stFaulted : Nat := 0x21
def stStall : Nat := 0x22
def stAuth : Nat := 0x23
def stCompat : Nat := 0x24

def rsJobSlots : Nat := 0x01
def rsWell : Nat := 0x02
def rsTileRegs : Nat := 0x03
def rsAccTiles : Nat := 0x04
def rsContexts : Nat := 0x05
def rsIssueShare : Nat := 0x06
def rsMemShare : Nat := 0x07
def rsLinkShare : Nat := 0x08
def rsSpill : Nat := 0x09
def rsStaging : Nat := 0x0A
def rsCores : Nat := 0x0B
def rsScratch : Nat := 0x0C
def rsKvPages : Nat := 0x10
def rsSeqSlots : Nat := 0x11
def rsTableAbsent : Nat := 0x18
def rsTablePending : Nat := 0x19
def rsFolioInvalid : Nat := 0x1A
def rsSwfBlock : Nat := 0x1B
def rsStarted : Nat := 0x20
def rsRestarted : Nat := 0x21
def rsOverrun : Nat := 0x22
def rsPeerRefused : Nat := 0x23
def rsStartTimeout : Nat := 0x24
def rsPeerFault : Nat := 0x25
def rsBounds : Nat := 0x26
def rsDeadline : Nat := 0x27
def rsPacketSize : Nat := 0x30
def rsUnknownJob : Nat := 0x31
def rsQuiescing : Nat := 0x32
def rsHoldActive : Nat := 0x33
def rsDuplicate : Nat := 0x34
def rsAttestExhausted : Nat := 0x35
def rsUnknownFolio : Nat := 0x36

/-- A refusal: STATUS, REASON, DETAIL. -/
abbrev Refuse := Nat × Nat × DWord

/-- A refusal without a DETAIL. -/
def refuse (st rs : Nat) : Refuse := (st, rs, 0)

/-- The refusal `r` where `bad` holds. -/
def chk (bad : Bool) (r : Refuse) : Option Refuse := if bad then some r else none

/-! ## Fetching (R363 to R367) -/

/-- The address of slot `k` beyond the head of submission ring n (R364). -/
def State.slotAddr (s : State) (n k : Nat) : Nat :=
  let g := s.ring n
  g.sqBase + 64 * ((g.sqHead.toNat + k) % 2 ^ g.sqLog2)

/-- A slot line of an HBM submission ring fails its welt (check 2 of R370). -/
def State.slotBad (s : State) (n k : Nat) : Bool := (s.ring n).sqHbm && s.lineBad (s.slotAddr n k / 64)

/-- How many slots the packet takes (checks 1 and 2 of R370). -/
def State.consumed (s : State) (n : Nat) (p : Pkt) : Nat := if p.slotsOk && !s.slotBad n 0 then p.slots.toNat else 1

/-- Checks 1 to 4 of R370, made by HST. -/
def State.headerCheck (s : State) (n op : Nat) (known : Bool) (plenOk : Nat → Bool) (p : Pkt) : Option Refuse :=
  if !p.slotsOk then some (refuse stBadParam rsPacketSize)
  else if (List.range (s.consumed n p)).any (s.slotBad n) || !p.weltOk op then some (refuse stWelt 0)
  else if !known then some (refuse stBadOpcode 0)
  else if !p.headerOk plenOk then some (refuse stBadParam rsPacketSize)
  else none

/-- Whether the device fetches from rings in its present state (R363). -/
def DevState.fetches : DevState → Bool
  | .off | .fuseLoad | .configLoad | .verify => false
  | _ => true

/-- A packet of `slots` slots can be fetched from ring n: the pair is enabled, the doorbell covers every slot, no record waits in the
backlog, fewer than 64 commands owe a record, an ORDER command finds none owing, and a ring in host memory can be reached
(R363 to R366, R499). -/
def State.ringServes (s : State) (n slots : Nat) (ordered : Bool) : Bool :=
  let g := s.ring n
  s.boot.st.fetches && g.enable && decide (slots ≤ (g.tail - g.sqHead).toNat) && g.backlog.isEmpty &&
    decide (g.owes.length < 64) && (!ordered || g.owes.isEmpty) && (g.sqHbm || s.hostUp)

/-- A byte of the header at the head of ring n, as it lies in the ring's memory. -/
def State.headByte (s : State) (n o : Nat) : Nat :=
  (if (s.ring n).sqHbm then s.devByte (s.slotAddr n 0 + o) else s.host.mem.get 0 (s.slotAddr n 0 + o)).toNat

/-- Ring n has a packet that the device can fetch, by the SLOTS and ORDER of the header in its memory. -/
def State.ringDue (s : State) (n : Nat) : Bool :=
  decide ((s.ring n).tail ≠ (s.ring n).sqHead) &&
    s.ringServes n (if 1 ≤ s.headByte n 2 ∧ s.headByte n 2 ≤ 16 then s.headByte n 2 else 1) (s.headByte n 3 % 2 == 1)

/-- The rings between the one last served and ring n, in round-robin order (R365). -/
def State.ringsBefore (s : State) (n : Nat) : List Nat :=
  (List.range ((n + 63 - s.sys.lastRing) % 64)).map fun i => (s.sys.lastRing + 1 + i) % 64

/-- The device fetches this packet from ring n: it can, and no ring before it in round-robin order has one (R365). -/
def State.fetchable (s : State) (n : Nat) (p : Pkt) : Bool :=
  s.ringServes n (s.consumed n p) p.ordered && !(s.ringsBefore n).any s.ringDue

/-- The packet has been fetched: the head moves and the command takes its place in the order of fetch (R365). -/
def State.fetched (s : State) (n : Nat) (p : Pkt) : State :=
  (s.modRing n fun g => { g with sqHead := g.sqHead + BitVec.ofNat 32 (s.consumed n p) }).modSys fun y =>
    { y with fetchNo := y.fetchNo + 1, lastRing := n }

/-! ## Records of commands -/

/-- The JOB_STATE code of the job that holds an identifier; 9 for one released among the last 256; 0 for none (R371, R382). -/
def State.jobCode (s : State) (id : Nat) : Nat :=
  match (s.slotOf id).bind s.job with
  | some j => j.st.code
  | none => if s.sys.released.contains id then JobState.released.code else 0

/-- A record of a command (R371). -/
def State.cmdRec (s : State) (op : Nat) (seq : Word) (jobId st rs promise : Nat) (detail : DWord) : Rec :=
  { seq := seq, opcode := op, status := st, reason := rs, job := jobId, jobState := if jobId = 0 then 0 else s.jobCode jobId,
    promise := promise, detail := detail, jobLife := none, finalJob := false }

/-- The single, final record of a command answered at once. -/
def State.reply (s : State) (n op : Nat) (p : Pkt) (r : Refuse) : State :=
  s.sendRec n (s.cmdRec op p.seq p.jobId r.1 r.2.1 0 r.2.2)

/-- The command owes a further record: `no` is its place in the order of fetch. -/
def State.owe (s : State) (o : Op) : State :=
  (s.modRing o.ring fun g => { g with owes := g.owes ++ [o.no] }).modSys fun y => { y with ops := y.ops ++ [o] }

/-- ACCEPTED, a further record being owed. -/
def State.accept (s : State) (n op : Nat) (p : Pkt) (kind : OpKind) (detail : DWord) : State :=
  (s.sendRec n (s.cmdRec op p.seq p.jobId stAccepted 0 0 detail)).owe
    { no := s.sys.fetchNo - 1, ring := n, seq := p.seq, opcode := op, job := p.jobId, kind := kind }

/-- A command in progress by its place in the order of fetch. -/
def State.opOf (s : State) (no : Nat) : Option Op := s.sys.ops.find? fun o => o.no == no

/-- The command owes nothing further. -/
def State.dropOp (s : State) (o : Op) : State :=
  (s.modRing o.ring fun g => { g with owes := g.owes.filter (· != o.no) }).modSys fun y =>
    { y with ops := y.ops.filter fun q => q.no != o.no }

/-- The final record of a command in progress. -/
def State.finishOp (s : State) (o : Op) (st rs : Nat) (detail : DWord) : State :=
  (s.dropOp o).sendRec o.ring (s.cmdRec o.opcode o.seq o.job st rs 0 detail)

/-! ## The state matrix (R388) -/

def opEcho : Nat := 0x0101
def opQueryState : Nat := 0x0102
def opQuiesce : Nat := 0x0103
def opResume : Nat := 0x0104
def opSetPartition : Nat := 0x0105
def opMemCopy : Nat := 0x0201
def opMemFill : Nat := 0x0202
def opMemVerify : Nat := 0x0203
def opFolioLoad : Nat := 0x0301
def opFolioPin : Nat := 0x0302
def opFolioEvict : Nat := 0x0303
def opTableLoad : Nat := 0x0304
def opJobSubmit : Nat := 0x0401
def opJobCancel : Nat := 0x0402
def opJobStatus : Nat := 0x0403
def opReadResult : Nat := 0x0404
def opReleaseResult : Nat := 0x0405
def opSeqJoin : Nat := 0x0501
def opSeqLeave : Nat := 0x0502
def opKvPageMap : Nat := 0x0503
def opTopoSet : Nat := 0x0601
def opGroupDefine : Nat := 0x0602
def opLinkTrain : Nat := 0x0603
def opVideoOpen : Nat := 0x0701
def opVideoFrame : Nat := 0x0702
def opVideoClose : Nat := 0x0703
def opBurnishRun : Nat := 0x0801
def opMarginReport : Nat := 0x0802
def opAttest : Nat := 0x0901
def opFwStage : Nat := 0x0902
def opAwlStart : Nat := 0x0A01
def opAwlStop : Nat := 0x0A02
def opAwlReport : Nat := 0x0A03

/-- The opcodes of R376. -/
def opcodes : List Nat :=
  [opEcho, opQueryState, opQuiesce, opResume, opSetPartition, opMemCopy, opMemFill, opMemVerify, opFolioLoad, opFolioPin,
   opFolioEvict, opTableLoad, opJobSubmit, opJobCancel, opJobStatus, opReadResult, opReleaseResult, opSeqJoin, opSeqLeave,
   opKvPageMap, opTopoSet, opGroupDefine, opLinkTrain, opVideoOpen, opVideoFrame, opVideoClose, opBurnishRun, opMarginReport,
   opAttest, opFwStage, opAwlStart, opAwlStop, opAwlReport]

/-- The device states in which an opcode is legal (R388). -/
def legalIn (op : Nat) (d : DevState) : Bool :=
  if op = opEcho ∨ op = opQueryState then [.training, .ready, .running, .quiesced, .faultHold, .locked].contains d
  else if op = opQuiesce then [.ready, .running, .quiesced].contains d
  else if op = opResume then [.quiesced, .faultHold].contains d
  else if [opSetPartition, opTopoSet, opBurnishRun, opAwlStart].contains op then [.ready, .quiesced].contains d
  else if [opMemCopy, opMemFill, opFolioLoad, opFolioPin, opFolioEvict, opTableLoad, opGroupDefine, opLinkTrain,
      opFwStage].contains op then [.ready, .running, .quiesced].contains d
  else if [opMemVerify, opJobCancel, opJobStatus, opReadResult, opReleaseResult, opAwlStop, opAwlReport,
      opVideoClose].contains op then [.ready, .running, .quiesced, .faultHold].contains d
  else if [opJobSubmit, opSeqJoin, opSeqLeave, opKvPageMap, opVideoOpen, opVideoFrame].contains op then
    [.ready, .running].contains d
  else [.training, .ready, .running, .quiesced, .faultHold].contains d

/-- Check 6 of R370. -/
def State.stateCheck (s : State) (op : Nat) : Option Refuse := chk (!legalIn op s.devState) (refuse stConflict 0)

/-- A ring command after its fetch, by R370: checks 1 to 4 of HST; `params`, check 5; the state matrix, check 6; `late`, checks
7 to 9; then `run`. A command that fails a check has its refusal as only effect. -/
def State.serve (s : State) (n op : Nat) (p : Pkt) (plenOk : Nat → Bool) (params late : Option Refuse)
    (run : State → State) : State :=
  match (s.headerCheck n op true plenOk p).or (params.or ((s.stateCheck op).or late)) with
  | some r => (s.fetched n p).reply n op p r
  | none => run (s.fetched n p)

/-- A ring command: nothing happens while the device does not fetch it. -/
def State.command (s : State) (n op : Nat) (p : Pkt) (plenOk : Nat → Bool) (params late : Option Refuse)
    (run : State → State) : State :=
  if s.fetchable n p then s.serve n op p plenOk params late run else s

/-- The outcome of a well-formed ring command. -/
def ringRes (p : Pkt) (t : State) : Res := if p.wf then .next t else .fault .illFormed

/-! ## Records of jobs (R378) -/

/-- A lifecycle record of the job in slot k to the ring of its JOB_SUBMIT, with that command's SEQ (R378). -/
def State.jobRec (j : Job) (k st rs promise : Nat) (detail : DWord) : Rec :=
  { seq := j.seq, opcode := opJobSubmit, status := st, reason := rs, job := j.id, jobState := j.st.code, promise := promise,
    detail := detail, jobLife := some k, finalJob := j.st.final }

def State.sendJob (s : State) (k : Nat) (j : Job) (st rs promise : Nat) (detail : DWord) : State :=
  s.sendRec j.ring (State.jobRec j k st rs promise detail)

end Sys2Proof.Machine
end

