-- ==== Sys2Proof/Machine/JobOps.lean ====
section
/-!
DEFINITION. What every family does to a job: its flag word and its DETAIL (R133, R379), the completion record and the final
record (R378, R383), the end of a job (R335), frames that wait for it (R431), restoring what a G job displaced (R355).
-/
namespace Sys2Proof.Machine

/-! ## Flags and details -/

/-- The job's flag word: the OR over its contexts on every core, what preemption put aside, and the word restored (R133, R135). -/
def State.jobFlags (s : State) (k : Nat) (j : Job) : Half :=
  let onCores := s.cores.foldl (fun f kv => f ||| (kv.2.ctxs.get Ctx.empty k).flags) 0
  let aside := s.jobList.foldl (fun f kj => kj.2.spills.foldl (fun f sp => match sp.data with
    | .ctx c => if sp.victim = k then f ||| c.flags else f
    | _ => f) f) 0
  j.flags ||| onCores ||| aside

/-- REMAIN_US (R379): whole µs until origin + P, 0 once passed; all ones for S and B jobs and a pending decision. -/
def State.remainUs (s : State) (j : Job) : Nat :=
  if j.terms.cls ≠ 0 ∨ !j.decided then 0xFFFFFFFF else (j.origin + 1000 * j.promiseUs - s.now) / 1000

/-- DETAIL bits [23:0] (R186). -/
def Job.degradation (j : Job) : Nat :=
  16 * (satTo 0xFFFFF j.degraded) + (if j.degraded = 0 then 0 else 4) + j.lowest % 4

/-- The DETAIL of R379, or that of R177 or R330 for a job faulted under them. -/
def State.jobDetail (s : State) (j : Job) : DWord :=
  match j.endDetail.filter fun _ => j.st == .faulted with
  | some d => d
  | none => BitVec.ofNat 64 (s.remainUs j * 2 ^ 32 + satTo 255 j.restartsTaken * 2 ^ 24 + j.degradation)

/-- The DETAIL of a final record and of the completion record: a job cancelled because its bound exceeds the deadline carries that of R345
there (R378, R383). -/
def State.finalDetail (s : State) (j : Job) : DWord := j.endDetail.getD (s.jobDetail j)

/-- What every later reply for a job that ended in a bounds error carries (R177). -/
def Job.boundsEnd (j : Job) : Option Refuse :=
  (j.endDetail.filter fun _ => j.st == .faulted && j.endReason == rsBounds).map fun d => (stFaulted, rsBounds, d)

/-- PROMISE_US of a JOB_STATUS: all ones while the decision is pending (R371). -/
def Job.promiseField (j : Job) : Nat := if j.decided then satTo 0xFFFFFFFF j.promiseUs else 0xFFFFFFFF

/-! ## The completion record (R383) and the final record (R378) -/

def sealNotFinal : Nat := 0x00000000
def sealFinal : Nat := 0x5EA10001
def sealEnded : Nat := 0x5EA10002
def sealReleased : Nat := 0x5EA100FF

/-- The 64 bytes of the completion record (R383). -/
def State.completionLine (s : State) (k : Nat) (j : Job) (sl : Nat) : List Byte :=
  let fin := (if j.earlyStop then 1 else 0) + (if j.overrun || j.late then 2 else 0) + (if j.restartsTaken = 0 then 0 else 4)
  sealWelt 22 <|
    leBytes 4 sl ++ leBytes 4 (j.id % 2 ^ 27) ++ leBytes 4 j.stepsRun ++ leBytes 2 (s.jobFlags k j).toNat ++ leBytes 1 fin ++
    [0] ++ leBytes 6 s.now ++ [0, 0] ++ leBytes 8 (s.finalDetail j).toNat ++ leBytes 8 j.terms.resultBytes ++
    leBytes 8 j.terms.result ++ List.replicate 16 0

/-- The completion record is written by CXL.cache, one whole line (R493). -/
def State.writeCompletion (s : State) (k : Nat) (j : Job) (sl : Nat) : State :=
  s.hostWrite j.terms.completion (s.completionLine k j sl)

/-- STATUS of the final record (R378); a cancellation with the DETAIL of R345 is DEADLINE_INFEASIBLE, one of a part whose terms differ from
rank 0's BAD_PARAM (R358). -/
def Job.finalStatus (j : Job) : Nat :=
  match j.st with
  | .complete => stOk
  | .faulted => stFaulted
  | _ => if j.refused then stBadParam else if j.endDetail.isSome then stInfeasible else stConflict

/-- The final record of a job, which waits behind the completion record's global-observation response (R378, R493). -/
def State.finalRecord (s : State) (k : Nat) (j : Job) : State :=
  let r := State.jobRec j k j.finalStatus j.endReason 0 (s.finalDetail j)
  s.modHost fun h => { h with goWait := h.goWait ++ [(j.terms.completion, j.ring, r)] }

/-! ## What a job holds on the cores -/

def TReg.release (k : Nat) (t : TReg) : TReg := if t.owner = some k then { t with owner := none } else t
def AccTile.release (k : Nat) (a : AccTile) : AccTile := if a.owner = some k then { a with owner := none } else a

/-- Tile registers of job k freed: at the end of a phase (R113) or of the job. -/
def CoreSt.freeTregs (k : Nat) (c : CoreSt) : CoreSt :=
  { c with tregs := (List.range 32).foldl (fun m n => m.modify TReg.empty n (TReg.release k)) c.tregs }

def CoreSt.freeAccs (k : Nat) (c : CoreSt) : CoreSt :=
  { c with accs := (List.range 8).foldl (fun m n => m.modify AccTile.empty n (AccTile.release k)) c.accs }

/-- What job k has on its stitch links: receives posted, credits, sends (R188, R196). -/
def StitchPort.drop (k : Nat) (p : StitchPort) : StitchPort :=
  { posted := p.posted.filter (·.slot != k), flying := p.flying.filter (·.1 != k), credits := p.credits.filter (·.1 != k),
    sends := p.sends.filter (·.slot != k), turn := p.turn.set 0 k 0 }

def CoreSt.freeStitch (k : Nat) (c : CoreSt) : CoreSt :=
  { c with ports := (List.range 4).foldl (fun m n => m.modify StitchPort.empty n (StitchPort.drop k)) c.ports,
           fifo := c.fifo.filter (·.1 != k), fifoWait := c.fifoWait.filter (·.1 != k) }

/-- Everything of job k on a core is given back: registers, tiles, context, phase, links, descriptors (R335). -/
def CoreSt.clear (k : Nat) (c : CoreSt) : CoreSt :=
  let c := ((c.freeTregs k).freeAccs k).freeStitch k
  { c with ctxs := c.ctxs.set Ctx.empty k Ctx.empty, runs := c.runs.set none k none, descs := c.descs.set [] k [] }

/-- Every listed core changed by `f`. -/
def State.mapCores (s : State) (f : CoreSt → CoreSt) : State :=
  s.each s.cores.keys fun s c => s.modCore c f

/-- The job's blocks that have not begun leave the decoders' queues: withdrawn at preemption, flushed as it stops or ends (R332). -/
def State.flushBlocks (s : State) (k : Nat) : State := s.modSys fun y => { y with decq := y.decq.filter fun q => q.owner != k }

/-- Everything of job k on the cores is given back, what is held of it among it. -/
def State.clearCores (s : State) (k : Nat) : State :=
  ((s.mapCores (CoreSt.clear k)).withHeld (s.held.filter fun h => h.why.ref.slot.val != k)).flushBlocks k

/-! ## Displaced locations (R353 to R355) -/

def wellGranule : Nat := 16384

/-- Bytes of one 16 KiB granule of a well. -/
def wellPart (w : SMap Byte) (g : Nat) : SMap Byte := w.filter fun kv => kv.1 / wellGranule == g

/-- A well with the bytes of granule `g` replaced. -/
def wellReplace (w : SMap Byte) (g : Nat) (bs : SMap Byte) : SMap Byte :=
  bs.foldl (fun w kv => w.set 0 kv.1 kv.2) (w.filter fun kv => kv.1 / wellGranule != g)

/-- The bytes of a well granule as its spill lines from address `a` hold them. -/
def Mem.spilled (m : Mem) (a g : Nat) : SMap Byte :=
  (m.bytes.filter fun kv => decide (a ≤ kv.1) && decide (kv.1 < a + wellGranule)).map fun kv => (g * wellGranule + (kv.1 - a), kv.2)

/-- Put the contents of a displaced location back (R355). -/
def CoreSt.putBack (c : CoreSt) (victim : Nat) (m : Mem) (a : Nat) (l : Loc) : LocData → CoreSt
  | .well => match l with
    | .well g => { c with well := wellReplace c.well g (m.spilled a g) }
    | _ => c
  | .treg t => match l with
    | .treg n => { c with tregs := c.tregs.set TReg.empty n t }
    | _ => c
  | .acc a => match l with
    | .acc n => { c with accs := c.accs.set AccTile.empty n a }
    | _ => c
  | .ctx x => { c with ctxs := c.ctxs.set Ctx.empty victim x }
  | .spare => c

/-- The bytes of a location (R340). -/
def locBytes : Loc → Nat
  | .well _ => wellGranule
  | .treg _ | .spareTreg => 2048
  | .acc _ | .spareAcc => 2560
  | .ctx => 640

/-- A displaced location is restored from its lines; where one fails its welt check, the victim keeps its address, for which it faults
as it resumes (R355, R357). -/
def State.restoreSpill (s : State) (sp : Spill) : State :=
  match s.badLine sp.addr (locBytes sp.loc) with
  | some l => s.modJob sp.victim fun v => { v with lost := v.lost ++ [l] }
  | none => (s.touch sp.addr (locBytes sp.loc)).modCore sp.core fun c => c.putBack sp.victim s.mem sp.addr sp.loc sp.data

/-- When the G job in slot k ends, each of its cores restores its spill region into the locations it was taken from; those of a
victim that is no longer PREEMPTED are discarded (R355, R357). -/
def State.restoreSpills (s : State) (k : Nat) (j : Job) : State :=
  let s := s.each j.spills fun s sp =>
    match s.job sp.victim with
    | some v => if v.st = .preempted then s.restoreSpill sp else s
    | none => s
  s.each (s.jobList.map (·.1)) fun s v => s.modJob v fun w => { w with displaced := w.displaced.filter (·.1 != k) }

/-- Spilled lines of an ended victim are not restored (R357). -/
def State.forgetSpills (s : State) (k : Nat) : State :=
  s.each (s.jobList.map (·.1)) fun s g => s.modJob g fun w => { w with spills := w.spills.filter (·.victim != k) }

/-! ## Frames that wait (R431) -/

/-- A frame has written its final record (R448, VID_FRAMES). -/
def State.frameFinal (s : State) (e : Nat) (f : Frame) (st rs : Nat) (detail : DWord) : State :=
  let s := s.modEngine e fun g => { g with count := (g.count + 1) % 2 ^ 32, queue := g.queue.filter fun q => q.op != f.op }
  match s.opOf f.op with
  | some o => s.finishOp o st rs detail
  | none => s

/-- Frames not started that `hit` picks end with the given record (R431, R447). -/
def State.endFrames (s : State) (hit : Frame → Bool) (st rs : Nat) : State :=
  s.each (List.range 4) fun s e =>
    s.each ((s.engine e).queue.filter hit) fun s f => s.frameFinal e f st rs 0

/-- Frames that wait for the job in slot k (R431). -/
def State.endJobFrames (s : State) (k st rs : Nat) : State := s.endFrames (fun f => f.slot == some k) st rs

/-! ## The end of a job (R335) -/

/-- The records that a join, leave or pool map still gets as its job ends: of one already decided those of its decisions (R248, log 20);
of another STATE_CONFLICT, the state rule of R389 for a job in a final state; after a bounds error those of R177. -/
def Job.seqRecords (j : Job) (op : Nat) : List Refuse × Refuse :=
  let ds := (j.pager.elim [] (·.decisions)).filter fun d => d.req.op == op
  let note := fun (d : Decision) => ((d.status, d.reason, d.detail) : Refuse)
  match j.boundsEnd with
  | some r => ([], r)
  | none => ((ds.filter fun d => !d.final).map note, ((ds.find? (·.final)).map note).getD (refuse stConflict 0))

/-- Joins, leaves and pool maps of the job in slot k, `j`, which has ended. -/
def State.endSeqCmds (s : State) (k : Nat) (j : Job) : State :=
  s.each (s.sys.ops.filter fun o => o.kind == .seq k || o.kind == .kvPageMap k) fun s o =>
    let (early, last) := j.seqRecords o.no
    (s.each early fun s r => s.sendRec o.ring (s.cmdRec o.opcode o.seq o.job r.1 r.2.1 0 r.2.2)).finishOp o last.1 last.2.1 last.2.2

/-- A JOB_CANCEL under way is answered as its job ends: OK when it is CANCELLED, STATE_CONFLICT when it reached another final state
first (R376, R390), and as R177 says after a bounds error. -/
def State.endCancels (s : State) (k : Nat) (j : Job) : State :=
  let r := j.boundsEnd.getD (refuse (if j.st = .cancelled then stOk else stConflict) 0)
  s.each (s.sys.ops.filter fun o => o.kind == .jobCancel k) fun s o => s.finishOp o r.1 r.2.1 r.2.2

/-- The JOB_SUBMIT of a job whose decision was pending owes no decision record any more. -/
def State.dropSubmit (s : State) (k : Nat) : State :=
  s.each (s.sys.ops.filter fun o => o.kind == .jobSubmit k) fun s o => s.dropOp o

/-- The device enters READY as its last admitted job ends (R38, R385, R505). -/
def State.readyAgain (s : State) (wasAdmitted : Bool) : State :=
  if wasAdmitted && s.devState == .ready then s.event 0 else s

/-- The job in slot k reaches COMPLETE, FAULTED or CANCELLED: it returns everything it holds, and its completion record and
final record follow (R335, R378, R383). -/
def State.endJob (s : State) (k : Nat) (st : JobState) (reason : Nat) (detail : Option DWord) : State :=
  match s.job k with
  | none => s
  | some j =>
    let j' : Job := { j with
      st := st, endReason := reason, endDetail := detail, flags := s.jobFlags k j, restart := none, start := none,
      awaitSpill := [], spills := [], displaced := [], snap := none, granules := [], holds := [] }
    let s := ((s.setJob k (some j')).restoreSpills k j).forgetSpills k
    let s := (s.clearCores k).withFolios (s.folios.map fun f => if f.id = j.terms.folio then { f with lastUse := s.now } else f)
    let s := s.modSys fun y => { y with waiting := y.waiting.filter (· != k) }
    let s := ((s.dropSubmit k).endSeqCmds k j').endCancels k j'
    let s := if st = .complete then s
      else if st = .faulted then s.endJobFrames k stFaulted reason else s.endJobFrames k stConflict 0
    let s := s.writeCompletion k j' (if st = .complete then sealFinal else sealEnded)
    (s.finalRecord k j').readyAgain j.st.admitted

/-! ## Frame release (R430) -/

/-- Raise the frame-release count of a job, never lowering it. -/
def State.raiseFrames (s : State) (k n : Nat) : State := s.modJob k fun j => { j with frames := Nat.max j.frames n }

end Sys2Proof.Machine
end

