-- ==== Sys2Proof/Machine/FolioChecks.lean ====
section
/-!
DEFINITION. What FOLIO_LOAD judges of an image (02 to 12): the checks that refuse it with BAD_FORMAT, those that refuse it with
BAD_PARAM, and COMPAT_UNSUPPORTED of R71 and R274, which comes after both.
-/
namespace Sys2Proof

open Machine

/-! ## Formats -/

/-- A tensor header's use of a format (R45, R51). -/
def FmtUse.ok (f : FmtUse) : Bool :=
  f.code != 0xF && !(f.code == 0 && f.operand) && (!f.mv || f.code == 1) &&
    (f.innermost || !(fmtMx f.code && f.operand))

/-- An output format byte (R45, R63) and the orientation of an MX output (R92). -/
def OutUse.ok (o : OutUse) : Bool :=
  let c : BitVec 4 := o.byte.truncate 4
  o.byte.toNat / 32 == 0 && c != 0xF && (o.innermost || !fmtMx c)

/-- Formats that RND may name (R122). -/
def rndOk (c : BitVec 4) : Bool := [1, 2, 3, 4, 0xB, 0xC, 0xD].contains c.toNat

/-- The attention phases of a folio in order, and its attention layers with the phase of each (R232 counts them through). -/
def AttnDecl.phases (a : AttnDecl) : List AttnPhase := a.first :: a.more
def AttnDecl.layerList (a : AttnDecl) : List (AttnPhase × LayerDecl) := a.phases.flatMap fun p => p.layers.map fun l => (p, l)
def AttnDecl.layers (a : AttnDecl) : Nat := a.layerList.length
def AttnDecl.layer (a : AttnDecl) (l : Nat) : LayerDecl := (a.layerList[l]?.map (·.2)).getD ⟨1, 1, 0, false⟩
/-- The KV heads that a page table and a reserve count: those of the phase with the most (DESIGN CHOICE, log 63: R232 has one H_kv). -/
def AttnDecl.hkv (a : AttnDecl) : Nat := (a.phases.map (·.hkv)).foldl Nat.max 0

/-- Formats of the KV planes (R227). -/
def AttnDecl.fmtOk (a : AttnDecl) : Bool :=
  a.layerList.all fun l => decide (1 ≤ l.2.kFmt.toNat) && decide (l.2.kFmt.toNat ≤ 0xC) && [1, 2, 3, 4, 0xB, 0xC].contains l.2.vFmt.toNat

/-! ## SWF blocks (R315, R318) -/

/-- The fields of a block header line (R315). -/
structure BlockHead where
  flags : Nat
  fmt : Nat
  gen : Nat
  count : Nat
  reserved : Bool
  ends : List Nat
deriving DecidableEq, Repr

def BlockHead.ofBytes (b : List Byte) : BlockHead :=
  { flags := fieldAt b 0 1, fmt := fieldAt b 1 1, gen := fieldAt b 2 2, count := fieldAt b 4 2,
    reserved := zeroAt b 6 2 && zeroAt b 40 24, ends := (List.range 16).map fun k => fieldAt b (8 + 2 * k) 2 }

def BlockHead.raw (h : BlockHead) : Bool := h.flags % 2 == 1
/-- END[k − 1], 0 for k = 0. -/
def BlockHead.startOf (h : BlockHead) (k : Nat) : Nat := if k = 0 then 0 else h.ends.getD (k - 1) 0
def BlockHead.sizeOf (h : BlockHead) (k : Nat) : Nat := h.ends.getD k 0 - h.startOf k
/-- The weights of sub-stream k (R315). -/
def BlockHead.weights (h : BlockHead) (k : Nat) : Nat := Nat.min 256 (h.count - 256 * k)

/-- The checks of R318 on block b of a tensor; `img` gives the image's bytes. -/
def SwfDecl.blockOk (t : SwfDecl) (img : List Byte) (b : Nat) : Bool :=
  let at0 := t.base + 64 * t.dir.getD b 0
  let h := BlockHead.ofBytes (sliceAt img at0 64)
  decide (at0 + 64 ≤ img.length) && h.reserved && h.flags / 4 == 0 && h.fmt == t.fmt.toNat && h.flags / 2 % 2 == t.cls &&
    (if h.raw then h.gen == 0 else h.gen == t.gen && t.gen != 0) &&
    decide (1 ≤ h.count) && decide (h.count ≤ 4096) && (b + 1 == t.dir.length || h.count == 4096) &&
    ((List.range 16).all fun k =>
      decide (h.startOf k ≤ h.ends.getD k 0) && (h.weights k != 0 || h.sizeOf k == 0) &&
        (!h.raw || h.sizeOf k == ceilDiv (h.weights k) 2)) &&
    (b + 1 == t.dir.length || decide (at0 + 64 + 4 * h.ends.getD 15 0 ≤ t.base + 64 * t.dir.getD (b + 1) 0))

/-- R313 and R318 for a tensor. -/
def SwfDecl.ok (t : SwfDecl) (img : List Byte) : Bool :=
  (t.fmt == 1 || t.fmt == 2) && (List.range t.dir.length).all (t.blockOk img)

/-- The distinct generations that the tensors of a class name, 0 not counted (R314). -/
def FolioDecl.gens (d : FolioDecl) (cls : Nat) : List Nat :=
  ((d.swf.filter fun t => t.cls == cls && t.gen != 0).map (·.gen)).eraseDups

/-! ## BAD_FORMAT -/

def FolioDecl.formatOk (d : FolioDecl) (img : List Byte) : Bool :=
  d.formats.all FmtUse.ok && d.outs.all OutUse.ok && d.rndCodes.all rndOk &&
    (match d.attn with
     | some a => a.fmtOk
     | none => true) &&
    d.swf.all fun t => t.ok img

/-! ## BAD_PARAM -/

/-- R139. -/
def DwaDecl.ok (d : DwaDecl) : Bool :=
  let r := fun lo hi v => decide (lo ≤ v) && decide (v ≤ hi)
  r 1 7 d.kh && r 1 7 d.kw && r 1 2 d.s && [1, 2, 4].contains d.cg && r 1 3 d.q && decide (d.cg * d.kh * d.kw ≤ 64) &&
    decide ((d.rows - 1) * d.s + d.kw ≤ 16 * d.q) && decide (d.maxReg ≤ 31)

/-- A convolution's output size along one axis (R203). -/
def convOut (h p0 p1 d k s : Nat) : Nat :=
  if h + p0 + p1 < d * (k - 1) + 1 then 0 else (h + p0 + p1 - d * (k - 1) - 1) / s + 1

/-- A size that the folio fixes. -/
def DimSrc.static : DimSrc → Option Nat
  | .const n => some n
  | .dyn _ => none

/-- The positions along one axis after regrouping with factor f and offset o (R210). -/
def ConvDecl.grouped (c : ConvDecl) (n : Nat) : Nat := if n = 0 then 0 else ceilDiv (n + c.o) c.f

/-- The output height and width for input height and width (R203). -/
def ConvDecl.outRows (c : ConvDecl) (h : Nat) : Nat := convOut (c.grouped h) c.pt c.pb c.dy c.kh c.sy
def ConvDecl.outCols (c : ConvDecl) (w : Nat) : Nat := convOut (c.grouped w) c.pl c.pr c.dx c.kw c.sx

/-- R202, R203, R212. -/
def ConvDecl.ok (c : ConvDecl) : Bool :=
  let r := fun lo hi v => decide (lo ≤ v) && decide (v ≤ hi)
  r 1 (2 ^ 24) c.cin && r 1 (2 ^ 24) c.cout && r 1 c.cin c.g && c.cin % c.g == 0 && c.cout % c.g == 0 && r 1 16 c.kh &&
    r 1 16 c.kw && r 1 4 c.sy && r 1 4 c.sx && r 1 8 c.dy && r 1 8 c.dx && r 0 (c.dy * (c.kh - 1)) c.pt &&
    r 0 (c.dy * (c.kh - 1)) c.pb && r 0 (c.dx * (c.kw - 1)) c.pl && r 0 (c.dx * (c.kw - 1)) c.pr && decide (c.padMode ≤ 3) &&
    [1, 2, 4].contains c.f && decide (c.o < c.f) &&
    (match c.h.static with
     | some n => c.outRows n != 0
     | none => true) &&
    (match c.w.static with
     | some n => c.outCols n != 0
     | none => true) &&
    (!c.d2s || decide (c.f * c.f * c.cout ≤ 32) || c.cout % 32 == 0)

/-- R215. -/
def PoolDecl.ok (p : PoolDecl) : Bool :=
  let r := fun lo hi v => decide (lo ≤ v) && decide (v ≤ hi)
  r 1 8 p.kh && r 1 8 p.kw && r 1 4 p.s && r 1 3 p.q && decide ((p.rows - 1) * p.s + p.kw ≤ 16 * p.q) &&
    decide (p.padY ≤ p.kh - 1) && decide (p.padX ≤ p.kw - 1) && decide (p.countPad ≤ 1)

/-- R222, R229, R232. -/
def AttnPhase.ok (a : AttnPhase) : Bool :=
  a.hkv != 0 && a.hq % a.hkv == 0 && decide (1 ≤ a.hq / a.hkv) && decide (a.hq / a.hkv ≤ 64) && [64, 128, 256].contains a.d &&
    decide (a.mask ≤ 1) && a.layers.all fun l => decide (l.headroom ≤ 7)
def AttnDecl.ok (a : AttnDecl) : Bool := a.phases.all AttnPhase.ok && decide (a.tLimit ≤ 2 ^ 24)

/-- R263. -/
def StanzaDecl.ok (t : StanzaDecl) : Bool :=
  decide (t.length ≤ 256) && t.tensorsOk && t.classes.all fun c => match c with
    | .vector | .special | .loadStore | .nzNorm | .stopMax => true
    | _ => false

/-- R413. -/
def CollRec.ok (c : CollRec) : Bool :=
  decide (c.op ≤ 6) && (if c.op ≤ 1 then decide (c.arith ≤ 3) else c.arith == 0) && decide (1 ≤ c.axes) &&
    decide (c.axes ≤ 15) && decide (1 ≤ c.runs) && decide (c.runs ≤ 65536) && (c.op == 4 || c.root == 0)

def BoundSrc.ok : BoundSrc → Bool
  | .reg n => decide (n < 16)
  | .word a => decide (a < hbmBytes) || (decide (scratchLo ≤ a) && decide (a < scratchLo + 16 * sliceStride))
  | .other => false

/-- R342, R174. -/
def PhaseEntry.ok (p : PhaseEntry) : Bool :=
  decide (p.kind ≤ 2) && decide (p.prefRung ≤ 3) && decide (2 ≤ p.windowWays) && decide (p.windowWays ≤ 8) &&
    decide (p.colls.length ≤ 8) && p.colls.all CollRec.ok && p.dims.all (fun d => d.src.ok) && p.reserved == 0

/-- kb and vb of a layer's pages, and the slot size of R225, that of the largest page where layers differ (log 63). -/
def pageKb (p : AttnPhase) (l : LayerDecl) : Nat := 64 * p.d * fmtBits l.kFmt / 8 + if fmtMx l.kFmt then 64 * p.d / 32 else 0
def pageVb (p : AttnPhase) (l : LayerDecl) : Nat := 64 * p.d * fmtBits l.vFmt / 8
def AttnDecl.kb (a : AttnDecl) (l : Nat) : Nat := (a.layerList[l]?.map fun x => pageKb x.1 x.2).getD 0
def AttnDecl.slotBytes (a : AttnDecl) : Nat := (a.layerList.map fun x => 64 + pageKb x.1 x.2 + pageVb x.1 x.2).foldl Nat.max 64
/-- P_max and N_max (R232, R529). -/
def AttnDecl.pMax (a : AttnDecl) : Nat := ceilDiv a.tLimit 64
def AttnDecl.nMax (a : AttnDecl) : Nat := a.bMax * a.layers * a.hkv * a.pMax
/-- PG, the bytes of the pager part (R529). -/
def AttnDecl.pagerBytes (a : AttnDecl) : Nat := 64 + 64 * ceilDiv (16 * a.bMax) 64 + 64 * ceilDiv a.nMax 512 + 131072

def FolioDecl.pagerBytes (d : FolioDecl) : Nat :=
  match d.attn with
  | some a => a.pagerBytes
  | none => 0

/-- The bytes of a snapshot's body: the pager part and each tensor padded to whole lines (R276). -/
def FolioDecl.bodyBytes (d : FolioDecl) : Nat := d.pagerBytes + (d.snapTensors.map fun t => 64 * ceilDiv t.bytes 64).sum

/-- The BAD_PARAM checks: R339, R341, R342, R276, R198, R314 and those of each operation. -/
def FolioDecl.paramsOk (d : FolioDecl) : Bool :=
  let r := fun lo hi v => decide (lo ≤ v) && decide (v ≤ hi)
  d.reservedOk && r 1 256 d.entries && d.entries == d.phases.length && d.phases.all PhaseEntry.ok &&
    r 16 368 d.wellKib && d.wellKib % 16 == 0 && r 1 28 d.tregs && r 1 8 d.accNeed && r 0 1792 d.scratchGran &&
    (d.snapBytes == 0 || decide (64 + d.bodyBytes ≤ d.snapBytes)) &&
    d.dwas.all DwaDecl.ok && d.convs.all ConvDecl.ok && d.pools.all PoolDecl.ok &&
    decide (d.maxDim ≤ 2 ^ 24) && decide (d.maxTensorBytes ≤ 2 ^ 40) &&
    (match d.attn with
     | some a => a.ok
     | none => true) &&
    (match d.stanza with
     | some t => t.ok
     | none => true) &&
    (match d.initStanza with
     | some t => t.ok
     | none => true) &&
    decide ((d.gens 0).length ≤ 2) && decide ((d.gens 1).length ≤ 2)

/-! ## COMPAT_UNSUPPORTED (R71, R274) -/

/-- The codes that TH1 lacked. -/
def lackedByTh1 (c : BitVec 4) : Bool := [6, 7, 8, 9, 0xC, 0xE].contains c.toNat

/-- Every format code a folio names: tensors, output bytes, page tags. DEDUCED (log 59): the format that an RND names counts as an output
format byte of R71. -/
def FolioDecl.codes (d : FolioDecl) : List (BitVec 4) :=
  d.formats.map (·.code) ++ d.outs.map (fun o => o.byte.truncate 4) ++ d.rndCodes ++ d.swf.map (·.fmt) ++
    match d.attn with
    | some a => a.layerList.flatMap fun l => [l.2.kFmt, l.2.vFmt]
    | none => []

def FolioDecl.compatCodes (d : FolioDecl) : Bool := d.codes.any lackedByTh1

/-- The refusal of FOLIO_LOAD in compatibility mode: a lacked code or a draw index other than 0. -/
def FolioDecl.compatBad (d : FolioDecl) : Bool := d.compat && (d.compatCodes || d.draws.any (· != 0))

/-! ## The timing table in the image (R341, R342, R413) -/

/-- `n` 64-bit counts from an offset. -/
def countsAt (b : List Byte) (off n : Nat) : List Nat := (List.range n).map fun i => fieldAt b (off + 8 * i) 8

/-- A collective record of 32 bytes (R413); a reserved bit makes its code one that is refused. -/
def CollRec.ofBytes (b : List Byte) : CollRec :=
  let reserved := !zeroAt b 3 1 || !zeroAt b 18 14
  { op := if reserved then 7 else fieldAt b 0 1, arith := fieldAt b 1 1, axes := fieldAt b 2 1, runs := fieldAt b 4 4,
    bytes := fieldAt b 8 8, root := fieldAt b 16 2 }

/-- A phase entry of 320 bytes at `off` of the table `tab`, its dynamic dimensions being the folio's (R342). -/
def PhaseEntry.ofBytes (tab : List Byte) (off : Nat) (p : PhaseEntry) : PhaseEntry :=
  let b := sliceAt tab off 320
  { phase := fieldAt b 0 2, kind := fieldAt b 2 1, prefRung := fieldAt b 3 1, perStep := fieldAt b 4 4,
    coreCyc := countsAt b 8 24, sliceCyc := countsAt b 200 6, decCyc := countsAt b 248 2, hbmBytes := countsAt b 264 2,
    farBytes := fieldAt b 280 8, hbmRounds := fieldAt b 288 4, farRounds := fieldAt b 292 4, windowWays := fieldAt b 296 1,
    colls := (List.range (Nat.min 9 (fieldAt b 297 1))).map fun i => CollRec.ofBytes (sliceAt tab (fieldAt b 300 4 + 32 * i) 32),
    dims := p.dims, reserved := fieldAt b 298 2 + fieldAt b 304 16 }

/-- A folio as its image declares it: the header and the entries of the timing table are what their bytes say (R341, R342). -/
def FolioDecl.ofImage (d : FolioDecl) (img : List Byte) : FolioDecl :=
  let tab := img.drop d.timingAt
  let n := Nat.min 256 (fieldAt tab 0 4)
  { d with
    entries := fieldAt tab 0 4, wellKib := fieldAt tab 4 2, tregs := fieldAt tab 6 1, accNeed := fieldAt tab 7 1,
    cores := fieldAt tab 8 4, pagerNs := fieldAt tab 12 4, snapBytes := fieldAt tab 16 8, workBytes := fieldAt tab 24 8,
    scratchGran := fieldAt tab 32 4, reservedOk := d.reservedOk && zeroAt tab 36 28,
    phases := (List.range n).map fun i => PhaseEntry.ofBytes tab (64 + 320 * i)
      (d.phases.getD i ⟨0, 0, 0, 0, [], [], [], [], 0, 0, 0, 0, [], [], 0⟩) }

/-- What FOLIO_LOAD finds in an image. -/
def FolioDecl.check (d : FolioDecl) (img : List Byte) : Option Refuse :=
  (chk (!d.formatOk img) (refuse stBadFormat 0)).or ((chk (!d.paramsOk) (refuse stBadParam 0)).or
    (chk d.compatBad (refuse stCompat 0)))

end Sys2Proof
end

