-- ==== Sys2Proof/Machine/FaultOps.lean ====
section
/-!
DEFINITION. Taking a fault, as ONE shared operation (16 R449 to R459): the causes, the fault log and notice, the burnish charge,
the flood to the group, the job's new state, and fault hold.
-/
namespace Sys2Proof.Machine

/-! ## Causes (R449) -/

def cWeltLine : Nat := 0x80
def cWeltSnapshot : Nat := 0x81
def cEccWell : Nat := 0x84
def cEccReservoir : Nat := 0x85
def cHbmUncorr : Nat := 0x86
def cTregParity : Nat := 0x87
def cChecksum : Nat := 0x88
def cDuplicate : Nat := 0x89
def cResidue : Nat := 0x8A
def cReduce : Nat := 0x8B
def cLinkDown : Nat := 0x90
def cLinkDegraded : Nat := 0x91
def cTimingError : Nat := 0x98
def cCrossingStall : Nat := 0x99
def cControl : Nat := 0x9A
def cMarginExhausted : Nat := 0xA0
def cThermal : Nat := 0xA1
def cPower : Nat := 0xA2
def cClock : Nat := 0xA3
def cGroupSplit : Nat := 0xB0

/-- The Restart column of R449, R177, R330 and R457, apart from R456; a peer's fault leaves the outcome to the agreement. -/
def restartColumn (reason cls : Nat) : Bool :=
  if reason = cLinkDown ∨ reason = cLinkDegraded then cls != 0
  else [cWeltLine, cEccWell, cEccReservoir, cHbmUncorr, cTregParity, cChecksum, cDuplicate, cResidue, cReduce, cTimingError,
    cCrossingStall, cControl, rsPeerFault].contains reason

/-- The weight that a cause adds to the burnish record of its island (R449). -/
def chargeWeight (reason : Nat) : Nat :=
  if reason = cTimingError then 2
  else if [cChecksum, cDuplicate, cResidue, cReduce, cCrossingStall, cControl].contains reason then 1 else 0

/-- Faults whose notice carries a DETAIL of their own rule (R177, R330); their `loc` is that DETAIL. -/
def ownDetail (reason : Nat) : Bool := reason == rsBounds || reason == rsSwfBlock

/-- The cause of a detection. -/
def mkCause (reason island loc : Nat) : Cause := ⟨reason, true, island, loc⟩

/-! ## Records of a fault -/

/-- The burnish charge of a detection at an island (R449, R464). -/
def State.charge (s : State) (i w : Nat) : State :=
  if w = 0 then s else s.modIsl i fun l => { l with charges := l.charges ++ [(s.now, w)], chargedTotal := l.chargedTotal + w }

/-- A FAULT_LOG entry, its event bit and its in-band interrupt (R469, R470, R505). -/
def State.logFault (s : State) (e : LogEntry) : State :=
  let s := s.modInteg fun g => { g with log := g.log.set none (g.logTotal % 64) (some e), logTotal := (g.logTotal + 1) % 65536 }
  ((s.event 2).withMgmt { s.mgmt with ibi := some e.reason }).emit (.i3cIrq e.reason)

/-- FAULT_COUNT (R468). -/
def State.countFault (s : State) : State := s.modInteg fun g => { g with faults := satTo 0xFFFFFFFF (g.faults + 1) }

/-- WHERE as reported: 48 bits; 0 for the causes with a DETAIL of their own (R453). -/
def Cause.whereBits (c : Cause) : Nat := if ownDetail c.reason then 0 else c.loc % 2 ^ 48

/-- The DETAIL of a fault notice (R453). -/
def noticeDetail (c : Cause) (hold : Bool) (epoch : Nat) : DWord :=
  if ownDetail c.reason then BitVec.ofNat 64 c.loc
  else BitVec.ofNat 64 (c.island % 128 * 2 ^ 57 + (if hold then 2 ^ 56 else 0) + satTo 255 epoch * 2 ^ 48 + c.whereBits)

/-! ## Control messages on VC0 (R416) -/

def msgFault : Nat := 1
def msgBarrierEnter : Nat := 2
def msgStart : Nat := 3
def msgAbort : Nat := 4
def msgRefuse : Nat := 5
def msgStopStat : Nat := 6
def msgCommit : Nat := 7
def msgPager : Nat := 8

def State.sendCtrl (s : State) (port msg group epoch : Nat) (payload : List Byte) : State :=
  s.emit (.ctrl port msg group epoch s.topo.coord.code payload)

/-- Towards rank 0 (R417): nothing to send from rank 0 itself. -/
def State.sendUp (s : State) (gid : Nat) (g : Group) (msg epoch : Nat) (payload : List Byte) : State :=
  match s.topo.parentPort g with
  | some p => s.sendCtrl p msg gid epoch payload
  | none => s

/-- From rank 0 back along the tree (R417). -/
def State.sendDown (s : State) (gid : Nat) (g : Group) (msg epoch : Nat) (payload : List Byte) : State :=
  s.each (s.topo.children g) fun s c => s.sendCtrl c.2 msg gid epoch payload

/-- FAULT on every UP link of every port that faces a member (R418, R452): the payload is REASON and the detection count. -/
def State.floodFault (s : State) (gid epoch reason count : Nat) : State :=
  match s.groupOf gid with
  | none => s
  | some g =>
    let s := s.withTopo { s.topo with faultSeen := (gid, epoch) :: s.topo.faultSeen }
    s.each (s.topo.facing g) fun s p =>
      s.each (s.upLinks p) fun s _ => s.sendCtrl p msgFault gid epoch (leBytes 1 reason ++ leBytes 6 count)

/-! ## Whether the job restarts (R450, R454, R456) -/

/-- An S or B job whose port that faces a member has no link UP, or a G job, after a link fault (R456). -/
def State.refusesLink (s : State) (j : Job) (c : Cause) : Bool :=
  (c.reason == cLinkDown || c.reason == cLinkDegraded) &&
    (j.terms.cls == 0 || match s.groupOf j.terms.group with
      | some g => (s.topo.facing g).any fun p => (s.upLinks p).isEmpty
      | none => false)

/-- A line that already failed in the job (R456). -/
def Job.failedBefore (j : Job) (c : Cause) : Bool := (c.reason == cWeltLine || c.reason == cHbmUncorr) && j.failedAddrs.contains c.loc

/-- R456: an address that already failed in the job, a link fault of a G job, or an S or B job at a port that faces a member and
has no link UP. -/
def State.refusesRestart (s : State) (j : Job) (c : Cause) : Bool := j.failedBefore c || s.refusesLink j c

/-- The event allows no restart: fault hold, a state before RUNNING, the sixteenth restart, or a cause whose row says no. -/
def Job.noRestart (j : Job) (cs : List Cause) (hold : Bool) : Bool :=
  hold || j.st == .submitted || j.st == .accepted || decide (15 ≤ j.restartsTaken) ||
    cs.any fun c => !restartColumn c.reason j.terms.cls

/-- The cause that the device reports (R450). -/
def Job.reported (j : Job) (cs : List Cause) (hold : Bool) : Cause :=
  match (if hold then none else cs.find? fun c => !restartColumn c.reason j.terms.cls) with
  | some c => c
  | none => cs.headD (mkCause 0 0 0)

/-- What a stop discards of a job that stays admitted (R452, R455): its live state on the cores, the snapshot being written,
its staging window, restarts of its barrier. Its placement and reservations stay. -/
def Job.stopped (j : Job) : Job :=
  { j with snap := none, nextRow := none, batchRows := [], attended := [], decoded := [], window := [], lost := [], partials := [], latches := [], atCut := false, done := false, peerStats := [], nextStats := [],
            allStat := none, pagerRemote := [], promiseUs := 0 }

/-- The job in slot k meets the causes of one event (R449, R450): logged, charged elsewhere, flooded, and the job enters
RESTARTING or FAULTED with its notice. `flood` is false when the event came from a peer's FAULT. -/
def State.faultJob (s : State) (k : Nat) (cs : List Cause) (hold flood : Bool) : State :=
  match s.job k with
  | none => s
  | some j =>
    if j.st.final || cs.isEmpty then s
    else
      let s := s.each cs fun s c => s.logFault ⟨s.now, c.reason, c.island, j.id, j.restartsTaken, hold, c.whereBits⟩
      let s := s.countFault
      let c := j.reported cs hold
      let s := if flood then s.floodFault j.terms.group j.restartsTaken c.reason s.now else s
      let stop := j.noRestart cs hold || ((s.groupOf j.terms.group).isNone && cs.any (s.refusesRestart j))
      let before := j
      let failed := (cs.filter fun c => c.reason == cWeltLine || c.reason == cHbmUncorr).map (·.loc)
      let j := { j with failedAddrs := j.failedAddrs ++ failed }
      if stop then
        let s := s.setJob k (some j)
        let s := s.sendRec j.ring { State.jobRec j k stFaulted c.reason 0 (noticeDetail c hold j.restartsTaken) with
          jobState := JobState.faulted.code, finalJob := true }
        s.endJob k .faulted c.reason (if ownDetail c.reason then some (noticeDetail c hold j.restartsTaken) else none)
      else
        let j' : Job := { j.stopped with
          st := .restarting, restartsTaken := j.restartsTaken + 1, degraded := 0, lowest := 0,
          flags := s.jobFlags k j,
          restart := some { stage := .stopped, causes := cs.map fun c => { c with restart := !before.failedBefore c }, quietAt := s.now, ordinal := none, agree := [], barrier := [] } }
        let s := (s.setJob k (some j')).clearCores k
        s.sendJob k j' stOk c.reason 0 (noticeDetail c hold j'.restartsTaken)

/-- One detection for the job in slot k, with its burnish charge (R449). -/
def State.detect (s : State) (k : Nat) (reason island loc : Nat) : State :=
  (s.charge island (chargeWeight reason)).faultJob k [mkCause reason island loc] false true

/-- One detection for several jobs: an event for each (R450). -/
def State.detectAll (s : State) (ks : List Nat) (reason island loc : Nat) : State :=
  (s.charge island (chargeWeight reason)).each ks fun s k => s.faultJob k [mkCause reason island loc] false true

/-! ## Errors of storage (R286, R302, R449, R451) -/

def State.folio (s : State) (id : Nat) : Option Folio := s.folios.find? fun f => f.id == id
def State.declOf (s : State) (j : Job) : Option FolioDecl := (s.folio j.terms.folio).map (·.decl)

/-- The ranges of a job other than its input: base and bytes; the pool and the page table join once KV_PAGE_MAP has replied OK. -/
def State.writableRanges (s : State) (j : Job) : List (Nat × Nat) :=
  let d := s.declOf j
  [(j.terms.result, j.terms.resultBytes), (j.terms.work, (d.map (·.workBytes)).getD 0)] ++
    (match j.terms.stepBlock with
     | some b => [(b.snapAddr, b.snapBytes)]
     | none => []) ++
    match j.pager, d.bind (·.attn) with
    | some g, some a => if g.mapped then [(g.poolBase, g.n * a.slotBytes), (g.tableBase, 4 * a.nMax)] else []
    | _, _ => []

def inSpans (ps : List (Nat × Nat)) (a : Nat) : Bool := ps.any fun p => decide (p.1 ≤ a) && decide (a < p.1 + p.2)

/-- The jobs whose allocation, scratchpad reservation or folio holds a device address (R283, R289, R449). -/
def State.lineHolders (s : State) (a : Nat) : List Nat :=
  (s.jobList.filter fun kj => !kj.2.st.final && (
    ((kj.2.terms.input, kj.2.terms.inputBytes) :: s.writableRanges kj.2).any (fun p => decide (p.1 ≤ a) && decide (a < p.1 + p.2)) ||
    (decide (scratchLo ≤ a) && decide (a < farLo) &&
      (kj.2.granules.getD (homeSliceOf a) []).contains ((a - scratchLo) % sliceStride / 65536)) ||
    match s.folio kj.2.terms.folio with
    | some f => decide (f.base ≤ a) && decide (a < f.base + f.bytes)
    | none => false)).map (·.1)

/-- An error of storage in the line of address `l` that faults every job it meets; `who` is a job that reads the line. -/
def State.storageFault (s : State) (who : List Nat) (l : Nat) : State :=
  let ks := who ++ (s.lineHolders l).filter fun k => !who.contains k
  if s.storeErr (l / 64) = some .hbmUncorr then
    (s.modChan (hbmChannel l) fun c => { c with uncorr := satTo 0xFFFF (c.uncorr + 1) }).detectAll ks cHbmUncorr (islHbm (hbmStack l)) l
  else s.detectAll ks cEccReservoir (islRsv (homeSliceOf l)) l

/-- A check of job k's, found at an island: where it is a line that storage cannot deliver, that error's own fault (R449). -/
def State.lineFault (s : State) (k reason island l : Nat) : State :=
  if (reason = cWeltLine ∨ reason = cWeltSnapshot) ∧ s.uncorrectable (l / 64) = true then s.storageFault [k] l
  else s.detect k reason island l

/-- A unit that reads for no job meets a line that it is not given: an error of storage faults the jobs whose line it is (R451). -/
def State.lineReport (s : State) (bad : Option Nat) : State :=
  match bad with
  | some l => if s.uncorrectable (l / 64) then s.storageFault [] l else s
  | none => s

/-- A read of a range for no job, up to the first line that storage does not deliver. -/
def State.scan (s : State) (a n : Nat) : State := (s.touch a n).lineReport (s.badLine a n)

/-! ## Fault hold (R459) -/

def rsHoldFrames : Nat := rsHoldActive

/-- FAULT_L driven or released (R517). -/
def State.driveFaultL (s : State) (low : Bool) : State :=
  if s.pins.faultL = low then s else (s.withPins { s.pins with faultL := low }).emit (.faultL low)

/-- A hold cause: the device enters FAULT_HOLD unless it is LOCKED or not yet out of fuse load; frames not started end
(R447), every job with a part on the device enters FAULTED, HOLD_CAUSE records the cause and FAULT_L is asserted (R459). -/
def State.hold (s : State) (reason island loc : Nat) : State :=
  if s.boot.st = .locked ∨ s.boot.st = .off ∨ s.boot.st = .fuseLoad then s
  else
    let fresh := s.boot.st != .faultHold
    let s := s.stopAwls
    let s := s.modInteg fun g => { g with hold := true, reason := reason, holds := if g.holds.contains (reason, island) then g.holds else g.holds ++ [(reason, island)] }
    let s := s.modBoot fun b => { b with st := .faultHold }
    let s := if fresh then s.event 1 else s
    let s := s.endFrames (fun _ => true) stConflict rsHoldFrames
    let ks := (s.jobList.filter fun kj => !kj.2.st.final).map (·.1)
    let s := if ks.isEmpty then (s.logFault ⟨s.now, reason, island, 0, 0, true, loc⟩).countFault
      else s.each ks fun s k => s.faultJob k [mkCause reason island loc] true true
    s.driveFaultL true

/-- An internal control fault of the job in slot k at an island (R449); one that meets no job is a hold cause (R459). -/
def State.control (s : State) (k : Option Nat) (island : Nat) : State :=
  match k with
  | some k => s.detect k cControl island 0
  | none => (s.charge island (chargeWeight cControl)).hold cControl island 0

/-! ## The jobs assigned to an island (R530) -/

def State.jobsAt (s : State) (i : Nat) : List Nat :=
  (s.admittedJobs.filter fun kj =>
    if i < 64 then kj.2.cores.any fun c => clusterOf c == i
    else if 80 ≤ i ∧ i < 88 then match s.groupOf kj.2.terms.group with
      | some g => (s.topo.facing g).contains (i - 80)
      | none => false
    else decide (i < 96)).map (·.1)

/-- A timing fault at a video island ends the engine's running frame (R447, R530). -/
def State.abandonFrame (s : State) (e rs : Nat) : State :=
  match (s.engine e).run with
  | some r => (s.modEngine e fun g => { g with run := none }).frameFinal e r.f stConflict rs 0
  | none => s

end Sys2Proof.Machine
end

