-- ==== Sys2Proof/Machine/General.lean ====
section
/-!
DEFINITION. The general ring commands (R376, R386, R288), unknown opcodes and stalled firmware (R370, R375), and the rows of the
ring registers (R362 to R366).
-/
namespace Sys2Proof.Machine

/-! ## Parameter lengths (R376) -/

/-- The parameter bytes of an opcode. -/
def plenOf (op : Nat) (n : Nat) : Bool :=
  if op = opEcho then decide (n ≤ 1008)
  else if [opQueryState, opResume, opJobCancel, opJobStatus, opReleaseResult].contains op then n == 0
  else if [opQuiesce, opSetPartition, opFolioPin, opFolioEvict, opSeqLeave, opLinkTrain, opVideoClose].contains op then n == 8
  else if [opMemVerify, opTableLoad, opTopoSet, opGroupDefine, opVideoOpen, opVideoFrame, opBurnishRun,
      opMarginReport].contains op then n == 16
  else if [opMemFill, opFolioLoad, opReadResult, opSeqJoin, opKvPageMap, opFwStage, opAwlStart, opAwlStop].contains op then
    n == 24
  else if op = opMemCopy ∨ op = opAwlReport then n == 32
  else if op = opAttest then n == 48
  else if op = opJobSubmit then n == 80
  else false

/-- A ring command under the parameter length of its opcode. -/
def State.cmd (s : State) (n op : Nat) (p : Pkt) (params late : Option Refuse) (run : State → State) : State :=
  s.command n op p (plenOf op) params late run

def badParam (bad : Bool) : Option Refuse := chk bad (refuse stBadParam 0)

/-! ## ECHO and QUERY_STATE -/

/-- Payload bytes 0 to 7, zero-extended when fewer (R376). -/
def echoDetail (p : Pkt) : DWord := BitVec.ofNat 64 (leNat (p.body.take (Nat.min 8 p.plen.toNat)))

/-- ECHO. -/
def execEcho (n : Fin 64) (p : Pkt) (s : State) : Res :=
  ringRes p (s.cmd n opEcho p none none fun t => t.reply n opEcho p (stOk, 0, echoDetail p))

/-- The DETAIL of QUERY_STATE (R376). -/
def State.queryDetail (s : State) : DWord :=
  BitVec.ofNat 64 (s.inServiceCores.length % 2 ^ 12 + s.part.rate % 256 * 2 ^ 12 +
    ((List.range 64).countP fun l => (s.link l).st == linkUp) * 2 ^ 20 + s.jobList.length * 2 ^ 27 +
    (if s.sys.quiesce.isSome then 2 ^ 34 else 0) + (if s.part.pend.isSome then 2 ^ 35 else 0))

/-- QUERY_STATE. -/
def execQueryState (n : Fin 64) (p : Pkt) (s : State) : Res :=
  ringRes p (s.cmd n opQueryState p none none fun t => t.reply n opQueryState p (stOk, 0, t.queryDetail))

/-! ## QUIESCE and RESUME (R386) -/

/-- No job in ACCEPTED to RESTARTING and no video frame in progress. -/
def State.drained (s : State) : Bool :=
  s.admittedJobs.isEmpty && (List.range 4).all fun e => (s.engine e).queue.isEmpty && (s.engine e).run.isNone

/-- The device enters QUIESCED with every dirty line written back (R293, R386). -/
def State.enterQuiesced (s : State) : State :=
  (s.cleanCache.modBoot fun b => { b with st := .quiesced }).modSys fun y => { y with quiesce := none }

/-- Cancel the jobs that `hit` picks, on every device of a group (R386, R389). -/
def State.cancelJobs (s : State) (hit : Job → Bool) (reason : Nat) : State :=
  s.each ((s.jobList.filter fun kj => hit kj.2).map (·.1)) fun s k =>
    match s.job k with
    | some j => (s.floodFault j.terms.group j.restartsTaken reason s.now).endJob k .cancelled reason none
    | none => s

/-- What QUIESCE does after its checks. -/
def State.quiesce (s : State) (n : Nat) (p : Pkt) (cancel : Bool) : State :=
  if s.devState = .quiesced then s.reply n opQuiesce p (refuse stOk 0)
  else
    let s := s.cancelJobs (fun j => j.st == .submitted) rsQuiescing
    if s.drained then s.enterQuiesced.reply n opQuiesce p (refuse stOk 0)
    else
      let mode := cancel || s.sys.quiesce == some true
      (s.modSys fun y => { y with quiesce := some mode }).accept n opQuiesce p (.quiesce cancel) 0

/-- QUIESCE. -/
def execQuiesce (n : Fin 64) (p : Pkt) (s : State) : Res :=
  ringRes p (s.cmd n opQuiesce p (badParam (decide (1 < p.arg 0 1) || !zeroAt p.body 1 7)) none fun t =>
    t.quiesce n p (p.arg 0 1 == 1))

/-- Running frames are abandoned and queued frames removed (R447, QUIESCE in CANCEL mode). -/
def State.abandonFrames (s : State) : State :=
  (s.each (List.range 4) fun s e => s.abandonFrame e rsQuiescing).endFrames (fun _ => true) stConflict rsQuiescing

/-- Every QUIESCE in progress writes OK. -/
def State.finishQuiesce (s : State) : State :=
  s.enterQuiesced.each (s.sys.ops.filter fun o => match o.kind with
    | .quiesce _ => true
    | _ => false) fun s o => s.finishOp o stOk 0 0

/-- QUIESCE_DONE: in DRAIN mode once nothing admitted and no frame is left; in CANCEL mode after cancelling both. A hold meanwhile is
left only by RESUME (R459), so a QUIESCE waits through it. -/
def execQuiesceDone (s : State) : Res :=
  .next (if s.boot.st ≠ .ready then s else match s.sys.quiesce with
    | none => s
    | some false => if s.drained then s.finishQuiesce else s
    | some true => (s.abandonFrames.cancelJobs (fun j => !j.st.final) rsQuiescing).finishQuiesce)

/-- Whether a hold cause has cleared (R459). -/
def State.holdCleared (s : State) (env : HoldEnv) (h : Nat × Nat) : Bool :=
  if h.1 = cThermal then decide (1000000000 ≤ env.coolNs)
  else if h.1 = cPower then decide (1000000 ≤ env.railNs)
  else if h.1 = cClock then decide (1000000 ≤ env.clockNs)
  else if h.1 = cMarginExhausted then (s.island h.2).status != 3
  else true

/-- READY is entered from QUIESCED or FAULT_HOLD (R386, R459, R505). -/
def State.resumeReady (s : State) : State :=
  let s := (s.modBoot fun b => { b with st := .ready }).modInteg fun g => { g with hold := false, holds := [] }
  (s.driveFaultL false).event 0

/-- RESUME. -/
def execResume (n : Fin 64) (p : Pkt) (env : HoldEnv) (s : State) : Res :=
  ringRes p (s.cmd n opResume p none
    (chk (s.devState == .faultHold && !s.integ.holds.all (s.holdCleared env)) (refuse stConflict rsHoldActive))
    fun t => t.resumeReady.reply n opResume p (refuse stOk 0))

/-! ## SET_PARTITION (R287, R288, R295 to R297) -/

def waysFor (scratch : Nat) : Nat := 128 - 16 * scratch

/-- Ways per slice of a folio's resident copy (R296). -/
def Folio.ways (f : Folio) : Nat := ceilDiv f.decl.residentBytes (16 * mib)

/-- The folios in order of their last use, least recently used first. -/
def byLastUse (fs : List Folio) : List Folio := sortBy (fun a b => decide (a.lastUse ≤ b.lastUse)) fs

def residentWays (fs : List Folio) : Nat := ((fs.filter (·.resident)).map Folio.ways).sum

/-- Demote resident folios that `free` allows, least recently used first, until those that stay resident take at most `room`
ways (R288, R297). -/
def demote (free : Folio → Bool) (room : Nat) (fs : List Folio) : List Folio :=
  (byLastUse fs).foldl (fun fs f =>
    if residentWays fs ≤ room then fs
    else if f.resident && free f then fs.map fun g => if g.id = f.id then { g with resident := false } else g
    else fs) fs

/-- Check 9 of SET_PARTITION (R288). -/
def State.partitionCheck (s : State) (scratch g : Nat) : Option Refuse :=
  (chk (!s.admittedJobs.isEmpty || s.part.pend.isSome) (refuse stConflict 0)).or
    (chk (decide (waysFor scratch < 4 + ((s.folios.filter (·.pin == 2)).map Folio.ways).sum) ||
      s.folios.any fun f => f.pin != 0 && decide (f.base < hbmBytes - g * gib)) (refuse stNoResource 0))

/-- SET_PARTITION. -/
def execSetPartition (n : Fin 64) (p : Pkt) (s : State) : Res :=
  ringRes p (s.cmd n opSetPartition p
    (badParam (decide (7 < p.arg 0 1) || decide (192 < p.arg 1 1) || !zeroAt p.body 2 6))
    (s.partitionCheck (p.arg 0 1) (p.arg 1 1)) fun t =>
      (t.accept n opSetPartition p .setPartition 0).withPart
        { t.part with pend := some (p.arg 0 1, p.arg 1 1, t.sys.fetchNo - 1) })

/-- Bytes of the scratchpad that a change from `old` to `new` zero-fills or drops (R288 step 4). -/
def scratchKept (old new a : Nat) : Bool :=
  !(decide (scratchLo ≤ a) && decide (a < farLo)) ||
    decide ((a - scratchLo) % sliceStride < Nat.min old new * (16 * mib))

/-- Steps 2 to 6 of R288. -/
def State.applyPartition (s : State) (scratch g no : Nat) : State :=
  let s := s.cleanCache
  let kept := fun a => scratchKept s.part.scratch scratch a
  let s := s.withMem { s.mem with
    bytes := s.mem.bytes.filter fun kv => kept kv.1, synd := s.mem.synd.filter fun kv => kept (64 * kv.1),
    errs := s.mem.errs.filter fun kv => kept (64 * kv.1) }
  let fs := demote (·.pin != 2) (waysFor scratch - 4) s.folios
  let s := s.withFolios (fs.filter fun f => decide (hbmBytes - g * gib ≤ f.base))
  let s := s.withPart { s.part with scratch := scratch, folioGib := g, pend := none }
  match s.opOf no with
  | some o => s.finishOp o stOk 0 0
  | none => s

/-- PARTITION_APPLIED. -/
def execPartitionApplied (s : State) : Res :=
  .next (match s.part.pend with
    | some (sc, g, no) => s.applyPartition sc g no
    | none => s)

/-! ## Unknown opcodes and the record of stalled firmware -/

/-- UNKNOWN_OPCODE_PACKET: a packet whose OPCODE R376 does not list. -/
def execUnknownOpcodePacket (n : Fin 64) (opcode : BitVec 16) (p : Pkt) (s : State) : Res :=
  if opcodes.contains opcode.toNat then .fault .illFormed
  else ringRes p (if s.fetchable n p then
    match s.headerCheck n opcode.toNat false (fun _ => true) p with
    | some r => (s.fetched n p).reply n opcode.toNat p r
    | none => s
  else s)

/-- The DETAIL of a FIRMWARE_STALL record (R375). -/
def stallDetail (scribe : BitVec 4) (committed : Bool) : DWord :=
  BitVec.ofNat 64 (scribe.toNat * 256 + if committed then 1 else 0)

/-- A FIRMWARE_STALL record: REASON NONE, JOB_STATE 0 (R375). -/
def stallRec (op : Nat) (p : Pkt) (scribe : BitVec 4) (committed : Bool) : Rec :=
  { seq := p.seq, opcode := op, status := stStall, reason := 0, job := p.jobId, jobState := 0, promise := 0,
    detail := stallDetail scribe committed, jobLife := none, finalJob := false }

/-! ## Ring registers -/

/-- BAR0 accepts writes: from CONFIG_LOAD on, and not in LOCKED (R500). -/
def State.regsOpen (s : State) : Bool := !([DevState.off, .fuseLoad, .locked].contains s.boot.st)
/-- BAR0 answers reads (R500). -/
def State.regsRead (s : State) : Bool := !([DevState.off, .fuseLoad].contains s.boot.st)

/-- A clause of a register write. -/
def State.write (s : State) (f : State → State) : State := if s.regsOpen then f s else s

/-- RING_STAT.BUSY: the pair owes any record (R363). -/
def State.ringBusy (s : State) (n : Nat) : Bool :=
  let g := s.ring n
  !g.owes.isEmpty || !g.backlog.isEmpty || s.jobList.any fun kj => kj.2.ring == n

/-- A ring's place lies in range: in HBM, wholly inside it (R362, R363). -/
def ringFits (hbm : Bool) (base bytes : Nat) : Bool := !hbm || decide (base + bytes ≤ hbmBytes)

def Ring.cfgOk (g : Ring) : Bool :=
  decide (6 ≤ g.sqLog2) && decide (g.sqLog2 ≤ 16) && decide (6 ≤ g.rqLog2) && decide (g.rqLog2 ≤ 16) &&
    ringFits g.sqHbm g.sqBase (64 * 2 ^ g.sqLog2) && ringFits g.rqHbm g.rqBase (32 * 2 ^ g.rqLog2)

/-- A write of RING_CTL (R362, R363). -/
def Ring.writeCtl (g : Ring) (busy : Bool) (v : Word) : Ring :=
  if g.enable then (if v.getLsbD 0 || busy then g else { g with enable := false })
  else
    let g := { g with sqHbm := v.getLsbD 1, rqHbm := v.getLsbD 2 }
    if !v.getLsbD 0 then g
    else if g.cfgOk then { g with enable := true, tail := 0, sqHead := 0, rqTail := 0, rqHead := 0 }
    else { g with cfgErr := true }

def State.writeRingCtl (s : State) (n : Nat) (v : Word) : State :=
  s.write fun s => s.modRing n fun g => g.writeCtl (s.ringBusy n) v

/-- RING_ENABLE: a write of RING_CTL with ENABLE 1. -/
def execRingEnable (n : Fin 64) (value : Word) (s : State) : Res :=
  if value.getLsbD 0 then .next (s.writeRingCtl n value) else .fault .illFormed

/-- RING_DISABLE: a write of RING_CTL with ENABLE 0. -/
def execRingDisable (n : Fin 64) (value : Word) (s : State) : Res :=
  if value.getLsbD 0 then .fault .illFormed else .next (s.writeRingCtl n value)

/-- A doorbell write is valid when TAIL lies at most the ring's size ahead of the head and not behind the last valid TAIL; any
other is ignored and sets DOORBELL_ERR (R364). -/
def Ring.writeDoorbell (g : Ring) (t : Word) : Ring :=
  if (t - g.sqHead).toNat ≤ 2 ^ g.sqLog2 ∧ (g.tail - g.sqHead).toNat ≤ (t - g.sqHead).toNat then { g with tail := t }
  else { g with doorbellErr := true }

/-- RING_DOORBELL. -/
def execRingDoorbell (n : Fin 64) (tail : Word) (s : State) : Res :=
  .next (s.write fun s => s.modRing n fun g => g.writeDoorbell tail)

/-- BACKLOG_RECORD_WRITE: the first waiting record is written once space frees (R366). -/
def execBacklogRecordWrite (n : Fin 64) (s : State) : Res :=
  .next (match (s.ring n).backlog with
    | r :: q => if s.rqSpace n then (s.modRing n fun g => { g with backlog := q }).putRecord n r else s
    | [] => s)

end Sys2Proof.Machine
end

