-- ==== Sys2Proof/Machine/Memory.lean ====
section
/-!
DEFINITION. The memory commands (R376, R387) and the host bus: the memory window (R294, R494 to R496), snoops and
back-invalidates (R493, R495), the host link (R488, R499).
-/
namespace Sys2Proof.Machine

/-! ## MEM_COPY, MEM_FILL, MEM_VERIFY -/

/-- An address and a count of whole lines, in one store unless it is a host address (R282, R376). -/
def State.lineRange (s : State) (host : Bool) (a n : Nat) : Bool :=
  a % 64 == 0 && n % 64 == 0 && decide (64 ≤ n) && (host || s.mappedRange a n)

def overlaps (a n b m : Nat) : Bool := decide (a < b + m) && decide (b < a + n)

/-- Memory behind the host link can be reached (R499): host addresses and the far tier need a module up. -/
def State.reach (s : State) (host : Bool) (a : Nat) : Bool := s.hostUp || (!host && decide (a < farLo))

/-- Check 5 of MEM_COPY. -/
def State.copyCheck (s : State) (p : Pkt) : Option Refuse :=
  let (src, dst, n, fl) := (p.arg 0 8, p.arg 8 8, p.arg 16 8, p.arg 24 1)
  let (sh, dh) := (bitsOf fl 0 1 == 1, bitsOf fl 1 1 == 1)
  badParam (decide (3 < fl) || !zeroAt p.body 25 7 || decide (2 ^ 40 < n) || !s.lineRange sh src n || !s.lineRange dh dst n ||
    (sh == dh && overlaps src n dst n))

/-- MEM_COPY. -/
def execMemCopy (n : Fin 64) (p : Pkt) (s : State) : Res :=
  ringRes p (s.cmd n opMemCopy p (s.copyCheck p) none fun t =>
    t.accept n opMemCopy p (.memCopy (p.arg 0 8) (p.arg 8 8) (p.arg 16 8) (bitsOf (p.arg 24 1) 0 1 == 1)
      (bitsOf (p.arg 24 1) 1 1 == 1)) 0)

/-- Copy up to the first source line whose welt fails (R309, R310, R451); a host source has none. -/
def State.copyLines (s : State) (src dst n : Nat) (sh dh : Bool) : State × Bool :=
  let bad := if sh then none else s.badLine src n
  let m := match bad with
    | some a => a - src
    | none => n
  ((if sh then s else (s.touch src m).lineReport bad).dstWrite dh dst (s.srcBytes sh src m), bad.isSome)

/-- MEM_COPY_DONE. -/
def execMemCopyDone (op : Nat) (s : State) : Res :=
  .next (match s.opOf op with
    | some o => match o.kind with
      | .memCopy src dst n sh dh =>
        if s.reach sh src && s.reach dh dst then
          let (t, bad) := s.copyLines src dst n sh dh
          t.finishOp o (if bad then stWelt else stOk) 0 0
        else s
      | _ => s
    | none => s)

/-- MEM_FILL. -/
def execMemFill (n : Fin 64) (p : Pkt) (s : State) : Res :=
  ringRes p (s.cmd n opMemFill p (badParam (!s.lineRange false (p.arg 0 8) (p.arg 8 8))) none fun t =>
    t.accept n opMemFill p (.memFill (p.arg 0 8) (p.arg 8 8) (BitVec.ofNat 64 (p.arg 16 8))) 0)

/-- `n` bytes of an 8-byte pattern. -/
def patternBytes (n : Nat) (v : DWord) : List Byte := (List.replicate (n / 8) (leBytes 8 v.toNat)).flatten

/-- MEM_FILL_DONE. -/
def execMemFillDone (op : Nat) (s : State) : Res :=
  .next (match s.opOf op with
    | some o => match o.kind with
      | .memFill dst n v =>
        if s.reach false dst then (s.devWrite dst (patternBytes n v)).finishOp o stOk 0 0 else s
      | _ => s
    | none => s)

/-- MEM_VERIFY. -/
def execMemVerify (n : Fin 64) (p : Pkt) (s : State) : Res :=
  ringRes p (s.cmd n opMemVerify p (badParam (!s.lineRange false (p.arg 0 8) (p.arg 8 8))) none fun t =>
    t.accept n opMemVerify p (.memVerify (p.arg 0 8) (p.arg 8 8)) 0)

/-- The outcome of MEM_VERIFY: first failing address and failing line count (R387). -/
def State.verifyResult (s : State) (a n : Nat) : Refuse :=
  match s.badLine a n with
  | none => (stOk, 0, 0)
  | some b =>
    let k := (linesOf a n).countP s.lineBad
    (stWelt, 0, BitVec.ofNat 64 (b % 2 ^ 48 + satTo 0xFFFF k * 2 ^ 48))

/-- MEM_VERIFY_DONE. -/
def execMemVerifyDone (op : Nat) (s : State) : Res :=
  .next (match s.opOf op with
    | some o => match o.kind with
      | .memVerify a n =>
        if s.reach false a then
          let r := s.verifyResult a n
          (s.scan a n).finishOp o r.1 r.2.1 r.2.2
        else s
      | _ => s
    | none => s)

/-! ## The memory window (R294, R494 to R496) -/

/-- HST_LINK_ERR.POISONED (R503). -/
def State.poisoned (s : State) : State := s.modHost fun h => { h with poisoned := satTo 0xFF (h.poisoned + 1) }

def ones64 : List Byte := List.replicate 64 0xFF

/-- A host read of the line at window offset `off`: the folio area and a line whose welt fails return all ones with poison; any
other returns the line as stored, which the host may then hold. -/
def State.windowRead (s : State) (off : Nat) : State :=
  if s.folioLo ≤ off ∨ s.mem.synd.get 0 (off / 64) ≠ 0 ∨ s.uncorrectable (off / 64) = true then
    ((if s.folioLo ≤ off then s else s.lineReport (some off)).poisoned).emit (.memRead off ones64 true)
  else
    let s := s.correct (off / 64)
    let s := s.modHost fun h => { h with filter := if h.filter.contains (off / 64) then h.filter else h.filter ++ [off / 64] }
    s.emit (.memRead off ((List.range 64).map fun i => s.storedByte (off + i)) false)

/-- CXL_MEM_READ. -/
def execCxlMemRead (off : Nat) (s : State) : Res :=
  if off % 64 = 0 ∧ off < hbmBytes then .next (if s.host.memActive then s.windowRead off else s) else .fault .illFormed

/-- The bytes of a line that a write enables, with their addresses. -/
def enabledBytes (off : Nat) (en : BitVec 64) (data : List Byte) : List (Nat × Byte) :=
  (data.zipIdx.filter fun bi => en.getLsbD bi.2).map fun bi => (off + bi.2, bi.1)

/-- A host write: discarded in the folio area, and when it is partial and the old line's welt fails; otherwise at the home slice
when it hits, else in HBM, with a welt for the line (R294, R494). -/
def State.windowWrite (s : State) (off : Nat) (en : BitVec 64) (data : List Byte) : State :=
  if s.folioLo ≤ off ∨ (en ≠ BitVec.allOnes 64 ∧ (s.mem.synd.get 0 (off / 64) ≠ 0 ∨ s.uncorrectable (off / 64) = true)) then s.poisoned
  else s.withMem (s.mem.putLine (off / 64) (enabledBytes off en data) (s.mem.cached.get 0 (off / 64) != 0))

/-- CXL_MEM_WRITE. -/
def execCxlMemWrite (off : Nat) (enable : BitVec 64) (data : List Byte) (s : State) : Res :=
  if off % 64 = 0 ∧ off < hbmBytes ∧ data.length = 64 then
    .next (if s.host.memActive then s.windowWrite off enable data else s)
  else .fault .illFormed

/-- CXL_SNOOP: the device holds no host line and answers RspIHitI (R493). -/
def execCxlSnoop (addr : DWord) (s : State) : Res := .next (s.emit (.snoopResponse addr))

/-- BACK_INVALIDATE_RESPONSE: the waiting writes to the line become visible in order (R495). -/
def execBackInvalidateResponse (line : Nat) (s : State) : Res :=
  let ws := s.host.biWait.filter fun w => w.line == line
  let t := s.each ws fun s w => s.withMem (s.mem.putLine line w.data true)
  .next (t.modHost fun h => { h with biWait := h.biWait.filter (·.line != line), filter := h.filter.filter (· != line) })

/-- GLOBAL_OBSERVATION_RESPONSE: the record that waits behind the completion record's write is written (R493). -/
def execGlobalObservationResponse (addr : DWord) (s : State) : Res :=
  .next (match s.host.goWait.find? fun w => w.1 == addr.toNat with
    | some w =>
      if s.hostUp then (s.modHost fun h => { h with goWait := h.goWait.erase w }).sendRec w.2.1 w.2.2 else s
    | none => s)

/-! ## The host link (R488, R489, R499, R503) -/

def hostRates : List Nat := [4, 8, 12, 16, 24, 32]

/-- HOST_LINK_DOWN: every module goes down. -/
def execHostLinkDown (s : State) : Res := .next (s.modHost fun h => { h with modules := 0, rate := 0 })

/-- The held writes and messages are issued in their original order (R499). -/
def State.releaseHeld (s : State) : State :=
  let (ws, os) := (s.host.heldWrites, s.host.heldOut)
  let s := s.modHost fun h => { h with heldWrites := [], heldOut := [] }
  (s.each ws fun s w => s.modHost fun h => h.put w.1 w.2).each os fun s o => s.emit o

/-- HOST_LINK_UP. -/
def execHostLinkUp (modules : BitVec 4) (rate : BitVec 6) (s : State) : Res :=
  if modules ≠ 0 ∧ hostRates.contains rate.toNat then
    .next ((s.modHost fun h =>
      { h with modules := modules, rate := rate.toNat, retrains := satTo 0xFF (h.retrains + 1) }).releaseHeld)
  else .fault .illFormed

/-- HOST_MODULE_LOST: the module's bit drops, and the rate with the last module (R488, R503). -/
def execHostModuleLost (k : Fin 4) (s : State) : Res :=
  .next (s.modHost fun h =>
    let m := h.modules &&& ~~~ ((1 : BitVec 4) <<< k.val)
    { h with modules := m, rate := if m = 0 then 0 else h.rate })

end Sys2Proof.Machine
end

