-- ==== Sys2Proof/Machine/Awl.lean ====
section
/-!
DEFINITION. The awls (R303 to R305) and their ring commands (R376).
-/
namespace Sys2Proof.Machine

/-- The channels that a 192-bit mask names, ascending. -/
def maskChannels (p : Pkt) : List Nat := (List.range 192).filter fun c => bitsOf (p.arg 0 24) c 1 == 1

/-- A folio whose copy holds a line of HBM that the awl's write operation will cover (R303). -/
def Folio.hitBy (f : Folio) (c : Nat) (g : Chan) : Bool :=
  g.writes && (linesOf f.base f.bytes).any fun l =>
    hbmChannel (64 * l) == c && decide (((hbmLocal (64 * l) / 64) + 2 ^ 25 - g.base % 2 ^ 25) % 2 ^ 25 < g.len)

/-- AWL_START of one channel: counts cleared, its cached lines written back and invalidated, folios evicted (R303, R305). -/
def State.awlBegin (s : State) (c : Nat) : State :=
  let g := s.chan c
  let other := fun l => hbmBytes ≤ 64 * l || hbmChannel (64 * l) != c
  let s := s.withMem { s.mem with
    cached := s.mem.cached.filter fun kv => other kv.1
    errs := s.mem.errs.filter fun e => other e.1 || e.2 == .hbmCorr || e.2 == .hbmUncorr }
  let s := s.withFolios (s.folios.filter fun f => !f.hitBy c g)
  s.modChan c fun g => { g with run := true, done := 0, errCnt := 0, errLine := 0, errBits := 0 }

/-- The refusals of AWL_START that look at the channels' registers (R305, R376). -/
def State.awlStartCheck (s : State) (cs : List Nat) : Option Refuse :=
  (chk (cs.any fun c => decide (3 < (s.chan c).pattern) || (s.chan c).len == 0 || decide (2 ^ 25 < (s.chan c).len))
    (refuse stBadParam 0)).or
    (chk (!s.admittedJobs.isEmpty || cs.any fun c => (s.chan c).run) (refuse stConflict 0))

/-- AWL_START. -/
def execAwlStart (n : Fin 64) (p : Pkt) (s : State) : Res :=
  ringRes p (s.cmd n opAwlStart p none (s.awlStartCheck (maskChannels p)) fun t =>
    (t.each (maskChannels p) fun t c => t.awlBegin c).reply n opAwlStart p (refuse stOk 0))

/-- AWL_STOP; `done` gives the lines each running channel of the mask had completed and what the hardware saw wrong in them, in ascending
channel. -/
def execAwlStop (n : Fin 64) (p : Pkt) (done : List (Nat × List AwlMiss)) (s : State) : Res :=
  ringRes p (s.cmd n opAwlStop p none none fun t =>
    let cs := (maskChannels p).filter fun c => (t.chan c).run
    (t.each cs.zipIdx fun t ci => t.awlEnd ci.1 (done.getD ci.2 (0, [])).1 (done.getD ci.2 (0, [])).2).reply n opAwlStop p (refuse stOk 0))

/-- A 32-byte AWL_REPORT entry (R376). -/
def State.awlEntry (s : State) (c : Nat) : List Byte :=
  let g := s.chan c
  leBytes 2 c ++ [0, 0] ++ leBytes 4 g.done ++ leBytes 4 g.errCnt ++ leBytes 4 g.errLine.toNat ++ leBytes 8 g.errBits.toNat ++
    List.replicate 8 0

/-- AWL_REPORT. -/
def execAwlReport (n : Fin 64) (p : Pkt) (s : State) : Res :=
  ringRes p (s.cmd n opAwlReport p (badParam (p.arg 24 8 % 64 != 0)) none fun t =>
    (t.hostWrite (p.arg 24 8) ((maskChannels p).flatMap t.awlEntry)).reply n opAwlReport p (refuse stOk 0))

/-- AWL_REGION_DONE: the region is finished without LOOP (R304). -/
def execAwlRegionDone (c : Fin 192) (miss : List AwlMiss) (s : State) : Res :=
  .next (if (s.chan c).run && !(s.chan c).loop then s.awlEnd c (s.chan c).len miss else s)

/-- AWL_CTL_STOP: a write of STOP 1 (R305). -/
def execAwlCtlStop (c : Fin 192) (done : Nat × List AwlMiss) (s : State) : Res :=
  .next (s.write fun s => if (s.chan c).run then s.awlEnd c done.1 done.2 else s)

end Sys2Proof.Machine
end

