-- ==== Sys2Proof/Machine/HighPrec.lean ====
section
/-!
DEFINITION. Real constants and functions to 2^-400, as integers scaled by 2^400, for the exact Taylor coefficients of R148
and the correctly rounded tables of R166. The values are rounded to 40 or 24 bits afterwards (log 11: the rounding of a
400-bit value is taken as that of the exact one).
-/
namespace Sys2Proof.HP

/-- Fraction bits. -/
def P : Nat := 400
def unit : Int := (2 ^ P : Nat)
def mul (a b : Int) : Int := a * b / unit
def div (a b : Int) : Int := a * unit / b
/-- A dyadic in fixed point. -/
def ofDy (d : Dy) : Int := if 0 ≤ d.e + P then Dy.up d.m (d.e + P) else d.m / ((2 ^ (-(d.e + P)).toNat : Nat) : Int)
def toDy (x : Int) : Dy := ⟨x, -P⟩

/-- atanh(1/n) by its series. -/
def atanhInv (n : Nat) : Int :=
  ((List.range 300).foldl (fun (acc : Int × Int) k => (acc.1 + acc.2 / (2 * k + 1 : Nat), acc.2 / (n * n : Nat)))
    (0, unit / n)).1

/-- ln 2 = 2 atanh(1/3). -/
def ln2 : Int := 2 * atanhInv 3

/-- atan(1/n) by its alternating series. -/
def atanInv (n : Nat) : Int :=
  ((List.range 200).foldl (fun (acc : Int × Int) k => (acc.1 + acc.2 / (2 * k + 1 : Nat), -(acc.2 / (n * n : Nat))))
    (0, unit / n)).1

/-- pi by Machin's formula. -/
def pi : Int := 4 * (4 * atanInv 5 - atanInv 239)

/-- exp(x): the argument is divided by 2^12, summed by its series and squared 12 times. -/
def exp (x : Int) : Int :=
  let y := x / 4096
  let s := ((List.range 60).foldl (fun (acc : Int × Int) k => (acc.1 + acc.2, mul acc.2 y / (k + 1 : Nat))) (0, unit)).1
  (List.range 12).foldl (fun v _ => mul v v) s

/-- ln(x) for x in [1, 4): 2 atanh((x − 1)/(x + 1)). -/
def ln (x : Int) : Int :=
  let r := div (x - unit) (x + unit)
  let r2 := mul r r
  2 * ((List.range 300).foldl (fun (acc : Int × Int) k => (acc.1 + acc.2 / (2 * k + 1 : Nat), mul acc.2 r2)) (0, r)).1

/-- Integer square root by Newton's iteration from above. -/
def isqrt (n : Nat) : Nat :=
  (List.range 40).foldl (fun x _ => let y := (x + n / x) / 2; if y < x then y else x) (2 ^ (n.log2 / 2 + 1))

/-- sqrt(x) for x > 0. -/
def sqrt (x : Int) : Int := (isqrt (x * unit).toNat : Nat)

/-- erf(x) / (2/sqrt pi), the series sum of (−1)^n x^(2n+1) / (n! (2n+1)). -/
def erfSum (x : Int) : Int :=
  let x2 := mul x x
  ((List.range 420).foldl
    (fun (acc : Int × Int) n => (acc.1 + acc.2 / (2 * n + 1 : Nat), -(mul acc.2 x2) / (n + 1 : Nat))) (0, x)).1

def twoOverSqrtPi : Int := div (2 * unit) (sqrt pi)
def erf (x : Int) : Int := mul twoOverSqrtPi (erfSum x)
def invSqrt2 : Int := sqrt (unit / 2)
def invSqrt2Pi : Int := div unit (sqrt (2 * pi))
/-- The standard normal distribution function. -/
def normCdf (x : Int) : Int := (unit + erf (mul x invSqrt2)) / 2

/-! ## Power series about a centre, nine coefficients (degrees 0 to 8) -/

/-- Number of coefficients formed. -/
def terms : Nat := 9
def coef (s : List Int) (i : Nat) : Int := s.getD i 0

/-- A series from its first coefficients by a recurrence: coefficient i from the ones before. -/
def series (f : List Int → Nat → Int) : List Int :=
  (List.range terms).foldl (fun s i => s ++ [f s i]) []

/-- Product of two series. -/
def smul (a b : List Int) (n : Nat) : Int :=
  (List.range (n + 1)).foldl (fun acc i => acc + mul (coef a i) (coef b (n - i))) 0

/-- sin and cos of x in [0, 2) by their series. -/
def sinCos (x : Int) : Int × Int :=
  let x2 := mul x x
  let go (t0 : Int) (odd : Nat) :=
    ((List.range 90).foldl (fun (acc : Int × Int) k =>
      (acc.1 + acc.2, -(mul acc.2 x2) / ((2 * k + 1 + odd) * (2 * k + 2 + odd) : Nat))) (0, t0)).1
  (go x 1, go unit 0)

end Sys2Proof.HP
end

