-- ==== Sys2Proof/Machine/Sfu.lean ====
section
/-!
DEFINITION. The special functions of chapter 05: reductions and range rules (R147), segmented Taylor evaluation with
seam clamps (R148), special values (R152), flags (R153), TH1's interpolation (R165, R166); and the quarter-wave functions
of R271.
-/
namespace Sys2Proof

/-- The functions of R147, and g_cos and g_sin of R271. -/
inductive SfFn where
  | exp2 | exp | log2 | log | rcp | rsqrt | tanh | sigm | erf | softplus | gelu | silu | gcos | gsin
deriving DecidableEq, Repr

namespace Sfu

/-- Taylor series about `c` (fixed point) of the reduced function g of R147, R271. -/
def taylor (fn : SfFn) (c : Int) : List Int :=
  let sigm := fun (c : Int) =>
    let s0 := HP.div HP.unit (HP.unit + HP.exp (-c))
    HP.series fun s i =>
      if i = 0 then s0 else
        -- y' = y − y²
        (HP.coef s (i - 1) - HP.smul s s (i - 1)) / (i : Int)
  match fn with
  | .exp2 | .exp =>
    HP.series fun s i => if i = 0 then HP.exp (HP.mul c HP.ln2) else HP.mul (HP.coef s (i - 1)) HP.ln2 / (i : Int)
  | .log2 | .log =>
    let r := HP.div HP.unit c
    let ps := HP.series fun s i => if i = 0 then HP.div HP.unit HP.ln2 else -(HP.mul (HP.coef s (i - 1)) r)
    HP.series fun _ i => if i = 0 then HP.div (HP.ln c) HP.ln2 else -(HP.coef ps i) / (i : Int)
  | .rcp =>
    let r := HP.div HP.unit c
    HP.series fun s i => if i = 0 then r else -(HP.mul (HP.coef s (i - 1)) r)
  | .rsqrt =>
    let r := HP.div HP.unit c
    HP.series fun s i =>
      if i = 0 then HP.sqrt r else -(HP.mul (HP.coef s (i - 1)) r) * (2 * i - 1 : Int) / (2 * i : Int)
  | .tanh =>
    let e := HP.exp (2 * c)
    let t0 := HP.div (e - HP.unit) (e + HP.unit)
    HP.series fun s i =>
      if i = 0 then t0 else ((if i = 1 then HP.unit else 0) - HP.smul s s (i - 1)) / (i : Int)
  | .sigm => sigm c
  | .softplus =>
    let g := sigm c
    let e := HP.exp (-c)
    -- ln(1 + e^c) = c + ln(1 + e^−c); both forms reduced to [1, 4) by ln 2 where needed
    let v0 := if 0 ≤ c then c + HP.ln (HP.unit + e) else HP.ln (HP.unit + HP.exp c)
    HP.series fun _ i => if i = 0 then v0 else HP.coef g (i - 1) / (i : Int)
  | .erf =>
    let w0 := HP.mul HP.twoOverSqrtPi (HP.exp (-(HP.mul c c)))
    let w := HP.series fun s i =>
      if i = 0 then w0
      else -2 * (HP.mul c (HP.coef s (i - 1)) + (if i = 1 then 0 else HP.coef s (i - 2))) / (i : Int)
    HP.series fun _ i => if i = 0 then HP.erf c else HP.coef w (i - 1) / (i : Int)
  | .gelu =>
    let w0 := HP.mul HP.invSqrt2Pi (HP.exp (-(HP.mul c c) / 2))
    let w := HP.series fun s i =>
      if i = 0 then w0
      else -(HP.mul c (HP.coef s (i - 1)) + (if i = 1 then 0 else HP.coef s (i - 2))) / (i : Int)
    let ph := HP.series fun _ i => if i = 0 then HP.normCdf c else HP.coef w (i - 1) / (i : Int)
    HP.series fun _ i => HP.mul c (HP.coef ph i) + (if i = 0 then 0 else HP.coef ph (i - 1))
  | .silu =>
    let g := sigm c
    HP.series fun _ i => HP.mul c (HP.coef g i) + (if i = 0 then 0 else HP.coef g (i - 1))
  | .gcos | .gsin =>
    let h := HP.pi / 2
    let (sn, cs) := HP.sinCos (HP.mul h c)
    let p := HP.series fun s i => if i = 0 then HP.unit else HP.mul (HP.coef s (i - 1)) h / (i : Int)
    -- derivatives of cos run cos, −sin, −cos, sin
    HP.series fun _ i =>
      let d := (i + if fn = .gsin then 3 else 0) % 4
      HP.mul (HP.coef p i) (if d = 0 then cs else if d = 1 then -sn else if d = 2 then -cs else sn)

/-- A segment: lower and upper seam, centre and degree. -/
structure Seg where
  lo : Dy
  hi : Dy
  c : Dy
  deg : Nat
deriving DecidableEq, Repr

def segOf (lo hi : Dy) (deg : Nat) : Seg := ⟨lo, hi, (lo.add hi).scale (-1), deg⟩

/-- `n` equal segments of width `w` from `lo`. -/
def equal (lo w : Dy) (n deg : Nat) : List Seg :=
  (List.range n).map fun (i : Nat) => segOf (lo.add (w.mul (Dy.ofInt i))) (lo.add (w.mul (Dy.ofInt (i + 1)))) deg

/-- The segments of G[k1, k2] (R147): 4 in each binade from 2^k1 to 2^(k2 + 1). -/
def grid (k1 k2 : Int) : List Seg :=
  ((List.range (k2 - k1 + 1).toNat).map fun (i : Nat) => equal ⟨1, k1 + i⟩ ⟨1, k1 + i - 2⟩ 4 7).flatten

/-- The negation of a list of segments, in ascending order. -/
def mirror (l : List Seg) : List Seg := (l.map fun s => ⟨s.hi.neg, s.lo.neg, s.c.neg, s.deg⟩).reverse

/-- The segmented ranges of each function, each a maximal run of adjacent segments, ascending (R147, R271). -/
def ranges (fn : SfFn) : List (List Seg) :=
  match fn with
  | .exp2 | .exp => [equal ⟨0, 0⟩ ⟨1, -3⟩ 8 4]
  | .log2 | .log => [⟨⟨1, 0⟩, ⟨17, -4⟩, ⟨1, 0⟩, 7⟩ :: equal ⟨17, -4⟩ ⟨1, -4⟩ 15 5]
  | .rcp => [equal ⟨1, 0⟩ ⟨1, -4⟩ 16 5]
  | .rsqrt => [equal ⟨1, 0⟩ ⟨1, -3⟩ 8 5 ++ equal ⟨2, 0⟩ ⟨1, -2⟩ 8 5]
  | .tanh => [grid (-12) 2 ++ [segOf ⟨8, 0⟩ ⟨10, 0⟩ 7]]
  | .erf => [grid (-12) 1]
  | .sigm | .silu =>
    [segOf ⟨-17, 0⟩ ⟨-16, 0⟩ 7 :: mirror (grid (-12) 3), grid (-12) 3 ++ [segOf ⟨16, 0⟩ ⟨18, 0⟩ 7]]
  | .softplus =>
    [segOf ⟨-17, 0⟩ ⟨-16, 0⟩ 7 :: mirror (grid (-12) 3), grid (-12) 3 ++ [segOf ⟨16, 0⟩ ⟨20, 0⟩ 7]]
  | .gelu =>
    [equal ⟨-8, 0⟩ ⟨1, -3⟩ 32 7 ++ mirror (grid (-12) 1), grid (-12) 1 ++ grid 2 2 ++ [segOf ⟨8, 0⟩ ⟨10, 0⟩ 7]]
  | .gcos | .gsin => [⟨⟨0, 0⟩, ⟨1, -3⟩, ⟨0, 0⟩, 7⟩ :: equal ⟨1, -3⟩ ⟨1, -3⟩ 7 7]

/-- The unclamped `acc` of a segment at `u` (R148): Horner in round40. DEDUCED (log 59): the segments and degrees of R147 and R148 are
followed as they stand; with them SIGM, SILU and SOFTPLUS near -16, and LOG and LOG2 just below 1, leave the ulp bounds that R147 and
R149 promise. -/
def horner (fn : SfFn) (s : Seg) (u : Dy) : Dy :=
  let t := u.sub s.c
  let a := (taylor fn (HP.ofDy s.c)).map fun x => (HP.toDy x).round 40
  (List.range s.deg).foldl (fun acc i => ((acc.mul t).add (a.getD (s.deg - 1 - i) ⟨0, 0⟩)).round 40)
    (a.getD s.deg ⟨0, 0⟩)

/-- The turning point of a function that is not monotone (R150), below which g decreases. -/
def turning (fn : SfFn) : Option Dy :=
  match fn with
  | .gelu => some (decode32 0xBF407568).toDy
  | .silu => some (decode32 0xBFA3A4B9).toDy
  | _ => none

/-- Whether g decreases throughout its reduced interval. -/
def decreasing (fn : SfFn) : Bool := decide (fn = .rcp) || decide (fn = .rsqrt) || decide (fn = .gcos)

/-- Clamp to the two seam values (R148). Where the turning point lies inside the segment, the value is bounded from above by
the seam on its own side only, since the bounds of R147 hold there too (log 12). -/
def clampSeam (fn : SfFn) (s : Seg) (u acc lo hi : Dy) : Dy :=
  let between (a b : Dy) := (acc.maxd a).mind b
  if decreasing fn then between hi lo
  else match turning fn with
    | none => between lo hi
    | some m =>
      if s.hi.le m then between hi lo
      else if m.le s.lo then between lo hi
      else if u.lt m then acc.mind lo else acc.mind hi

/-- Evaluate `g` at `u` within one range of adjacent segments: `first` and `last` bound it at the ends of the range. A seam
belongs to the segment above it; the upper end of a range to its last segment. -/
def evalRange (fn : SfFn) (first last : Option Dy) (u : Dy) : List Seg → Bool → Dy
  | [], _ => ⟨0, 0⟩
  | s :: rest, start =>
    if u.lt s.hi || rest.isEmpty then
      let own := horner fn s s.lo
      let lo := if start then first.getD own else own
      let hi := match rest with
        | n :: _ => horner fn n n.lo
        | [] => last.getD (horner fn s s.hi)
      clampSeam fn s u (horner fn s u) lo hi
    else evalRange fn first last u rest false

end Sfu

/-- Constants rounded to a stated number of bits (R147). -/
def Sfu.log2e48 : Dy := (HP.toDy (HP.div HP.unit HP.ln2)).round 48
def Sfu.ln2r48 : Dy := (HP.toDy HP.ln2).round 48
def Sfu.ln2r40 : Dy := (HP.toDy HP.ln2).round 40
def Sfu.twoOverSqrtPi40 : Dy := (HP.toDy HP.twoOverSqrtPi).round 40
def Sfu.invSqrt2Pi40 : Dy := (HP.toDy HP.invSqrt2Pi).round 40

/-! ## TH1's interpolation (R166) -/

/-- `tab(v)`: round32 of the exact g(v). -/
def Sfu.tab (fn : SfFn) (v : Dy) : Fp :=
  let e := HP.toDy ((Sfu.taylor fn (HP.ofDy v)).headD 0)
  round32v (Fp.ofDy false e)

/-- The interpolation of R166 at `u` in the interval from `u0` of node spacing 2^h. -/
def Sfu.th1 (fn : SfFn) (u0 : Dy) (h : Int) (u : Dy) : Fp :=
  let q := (u.sub u0).scale (-h)
  let k := q.floor
  let t := q.sub (Dy.ofInt k)
  let node (i : Int) := Sfu.tab fn (u0.add ((Dy.ofInt (k + i)).scale h))
  let sub (a b : Fp) := round32v (a.addExact b.negate)
  let add (a b : Fp) := round32v (a.addExact b)
  let mul (a b : Fp) := round32v (a.mulExact b)
  let y0 := node 0
  let y1 := node 1
  let y2 := node 2
  let d1 := sub y1 y0
  let d2 := sub (sub y2 y1) d1
  let tf := Fp.ofDy false t
  let w := mul (mul tf (sub tf Fp.one)) (.fin false 1 (-1))
  add (add y0 (mul tf d1)) (mul w d2)

/-- The interval of `u` for R166: its lower end and log2 of the node spacing. `u` is in a segmented range. -/
def Sfu.th1Interval (fn : SfFn) (u : Dy) : Dy × Int :=
  match fn with
  | .exp2 | .exp | .gcos | .gsin => (⟨0, 0⟩, -6)
  | .log2 | .log | .rcp => (⟨1, 0⟩, -6)
  | .rsqrt => (⟨1, 0⟩, -5)
  | _ =>
    let single (lo w : Int) (n : Int) : Dy × Int := (⟨lo, 0⟩, w - n)
    if fn = .tanh ∧ (Dy.ofInt 8).le u then single 8 1 4
    else if (fn = .sigm ∨ fn = .silu) ∧ (Dy.ofInt 16).le u then single 16 1 4
    else if fn = .softplus ∧ (Dy.ofInt 16).le u then single 16 2 4
    else if fn = .gelu ∧ (Dy.ofInt 8).le u then single 8 1 4
    else if (fn = .sigm ∨ fn = .silu ∨ fn = .softplus) ∧ u.lt (Dy.ofInt (-16)) then single (-17) 0 4
    else
      -- the binade of |u|, by sign
      let k := floorLog u
      if u.m < 0 then (⟨-1, k + 1⟩, k - 4) else (⟨1, k⟩, k - 4)
where
  floorLog (u : Dy) : Int := u.m.natAbs.log2 + u.e

/-! ## A whole function -/

/-- The result of one special-function lane: the pattern with VEC_INV and VEC_OVF (R152, R153). -/
abbrev SfRes := FpRes

/-- Value of g at `u` inside a segmented range, by R148 or, in compatibility mode, by R166; `ends` are the bounds at the ends
of the range. -/
def Sfu.g (compat : Bool) (fn : SfFn) (ends : Option Dy × Option Dy) (u : Dy) : Dy :=
  if compat then
    let (u0, h) := Sfu.th1Interval fn u
    (Sfu.th1 fn u0 h u).toDy
  else
    let rs := Sfu.ranges fn
    let r := match rs with
      | [a] => a
      | a :: b :: _ => if u.m < 0 then a else b
      | [] => []
    Sfu.evalRange fn ends.1 ends.2 u r true

/-- `2^n * acc` for a reduced argument y, with the range rules of SF.EXP2 (R147): `none` marks overflow. -/
def Sfu.exp2Of (compat : Bool) (y : Dy) : Option Dy :=
  if (Dy.ofInt 128).le y then none
  else if y.le (Dy.ofInt (-150)) then some ⟨0, 0⟩
  else
    let n := y.floor
    some ((Sfu.g compat .exp2 (none, some ⟨2, 0⟩) (y.sub (Dy.ofInt n))).scale n)

/-- The reduced argument of SF.EXP: exact `x * L`, or TH1's two roundings (R147, R165). Where TH1's product rounds to an infinity, the
argument lies past both thresholds of the range rules: it is taken as ±2^128. -/
def Sfu.expArg (compat : Bool) (x : Dy) : Dy :=
  if compat then
    match round32v (Fp.ofDy false (x.mul (round32v (Fp.ofDy false (HP.toDy (HP.div HP.unit HP.ln2)))).toDy)) with
    | .inf neg => ⟨if neg then -1 else 1, 128⟩
    | y => y.toDy
  else x.mul Sfu.log2e48

/-- A rounded finite result with the flag of an overflow. -/
def Sfu.ret (zneg : Bool) (d : Dy) : FpRes :=
  let (b, o) := encode32 (Fp.ofDy zneg d)
  ⟨b, o, false⟩
def Sfu.plain (b : Word) : FpRes := ⟨b, false, false⟩

/-- SF.EXP of a finite value as FP32 (R147). -/
def Sfu.expFin (compat : Bool) (x : Dy) : FpRes :=
  match Sfu.exp2Of compat (Sfu.expArg compat x) with
  | none => ⟨inf32 false, true, false⟩
  | some v => Sfu.ret false v

/-- A finite nonzero input as `2^e * u` with u in [1, 2) (R147); the magnitude. -/
def Sfu.split (m : Nat) (e : Int) : Int × Dy := (m.log2 + e, ⟨m, -(m.log2 : Int)⟩)

/-- The value of a finite nonzero `x = ±m * 2^e` under each function (R147, R148, R166). -/
def Sfu.finite (compat : Bool) (fn : SfFn) (neg : Bool) (m : Nat) (e : Int) : FpRes :=
  let x : Dy := ⟨if neg then -(m : Int) else m, e⟩
  let ax : Dy := ⟨m, e⟩
  let small := ax.lt ⟨1, -12⟩
  let edge : Dy := ⟨if neg then -1 else 1, -12⟩
  let rule (d : Dy) : Dy := (round32v (Fp.ofDy false d)).toDy
  match fn with
  | .exp2 =>
    (match Sfu.exp2Of compat x with
    | none => ⟨inf32 false, true, false⟩
    | some v => Sfu.ret false v)
  | .exp => Sfu.expFin compat x
  | .log2 =>
    if neg then ⟨nan32, false, true⟩ else
    let (k, u) := Sfu.split m e
    Sfu.ret false ((Dy.ofInt k).add (Sfu.g compat .log2 (none, some ⟨1, 0⟩) u))
  | .log =>
    if neg then ⟨nan32, false, true⟩ else
    let (k, u) := Sfu.split m e
    Sfu.ret false (((Dy.ofInt k).add (Sfu.g compat .log (none, some ⟨1, 0⟩) u)).mul Sfu.ln2r48)
  | .rcp =>
    let (k, u) := Sfu.split m e
    let v := (Sfu.g compat .rcp (none, some ⟨1, -1⟩) u).scale (-k)
    Sfu.ret neg (if neg then v.neg else v)
  | .rsqrt =>
    if neg then ⟨nan32, false, true⟩ else
    let (k, u) := Sfu.split m e
    let j := k / 2
    Sfu.ret false ((Sfu.g compat .rsqrt (none, some ⟨1, -1⟩) (u.scale (k - 2 * j))).scale (-j))
  | .tanh =>
    if small then Sfu.ret neg x
    else if (Dy.ofInt 10).le ax then Sfu.plain (if neg then 0xBF800000 else one32)
    else
      let v := Sfu.g compat .tanh (some ⟨1, -12⟩, some ⟨1, 0⟩) ax
      Sfu.ret neg (if neg then v.neg else v)
  | .erf =>
    if small then Sfu.ret neg (x.mul Sfu.twoOverSqrtPi40)
    else if (Dy.ofInt 4).le ax then Sfu.plain (if neg then 0xBF800000 else one32)
    else
      let v := Sfu.g compat .erf (some (rule ((Dy.mk 1 (-12)).mul Sfu.twoOverSqrtPi40)), some ⟨1, 0⟩) ax
      Sfu.ret neg (if neg then v.neg else v)
  | .sigm =>
    let smallRule (d : Dy) := (Dy.mk 1 (-1)).add (d.scale (-2))
    if small then Sfu.ret false (smallRule x)
    else if (Dy.ofInt 18).le x then Sfu.plain one32
    else if x.lt (Dy.ofInt (-17)) then Sfu.expFin compat x
    else
      let lowEnd := (decode32 (Sfu.expFin compat (Dy.ofInt (-17))).bits).toDy
      let ends := if neg then (some lowEnd, some (rule (smallRule edge))) else (some (rule (smallRule edge)), some ⟨1, 0⟩)
      Sfu.ret false (Sfu.g compat .sigm ends x)
  | .softplus =>
    let smallRule (d : Dy) := Sfu.ln2r40.add (d.scale (-1))
    if small then Sfu.ret false (smallRule x)
    else if (Dy.ofInt 20).le x then Sfu.ret false x
    else if x.lt (Dy.ofInt (-17)) then Sfu.expFin compat x
    else
      let lowEnd := (decode32 (Sfu.expFin compat (Dy.ofInt (-17))).bits).toDy
      let ends := if neg then (some lowEnd, some (rule (smallRule edge))) else (some (rule (smallRule edge)), some ⟨20, 0⟩)
      Sfu.ret false (Sfu.g compat .softplus ends x)
  | .gelu =>
    let smallRule (d : Dy) := d.mul ((Dy.mk 1 (-1)).add (d.mul Sfu.invSqrt2Pi40))
    if small then Sfu.ret neg (smallRule x)
    else if (Dy.ofInt 10).le x then Sfu.ret false x
    else if x.lt (Dy.ofInt (-8)) then Sfu.plain 0x80000000
    else
      let ends := if neg then (some ⟨0, 0⟩, some (rule (smallRule edge))) else (some (rule (smallRule edge)), some ⟨10, 0⟩)
      Sfu.ret neg (Sfu.g compat .gelu ends x)
  | .silu =>
    let smallRule (d : Dy) := d.mul ((Dy.mk 1 (-1)).add (d.scale (-2)))
    let low (d : Dy) : Fp := (Fp.ofDy true d).mulExact (decode32 (Sfu.expFin compat d).bits)
    if small then Sfu.ret neg (smallRule x)
    else if (Dy.ofInt 18).le x then Sfu.ret false x
    else if x.lt (Dy.ofInt (-17)) then Sfu.plain (round32 (low x))
    else
      let lowEnd := (round32v (low (Dy.ofInt (-17)))).toDy
      let ends := if neg then (some lowEnd, some (rule (smallRule edge))) else (some (rule (smallRule edge)), some ⟨18, 0⟩)
      Sfu.ret neg (Sfu.g compat .silu ends x)
  | .gcos => Sfu.ret false (Sfu.g compat .gcos (none, some ⟨0, 0⟩) x)
  | .gsin => Sfu.ret false (Sfu.g compat .gsin (none, some ⟨1, 0⟩) x)

/-- One special-function lane (R147, R152, R153). -/
def sfu (compat : Bool) (fn : SfFn) (w : Word) : FpRes :=
  match decode32 w with
  | .nan => Sfu.plain nan32
  | .inf neg =>
    (match fn with
    | .exp2 | .exp => Sfu.plain (if neg then 0 else inf32 false)
    | .log2 | .log => if neg then ⟨nan32, false, true⟩ else Sfu.plain (inf32 false)
    | .rcp => Sfu.plain (if neg then 0x80000000 else 0)
    | .rsqrt => if neg then ⟨nan32, false, true⟩ else Sfu.plain 0
    | .tanh | .erf => Sfu.plain (if neg then 0xBF800000 else one32)
    | .sigm => Sfu.plain (if neg then 0 else one32)
    | .softplus => Sfu.plain (if neg then 0 else inf32 false)
    | .gelu | .silu => Sfu.plain (if neg then 0x80000000 else inf32 false)
    | .gcos | .gsin => Sfu.plain nan32)
  | .fin neg m e =>
    if m = 0 then
      (match fn with
      | .exp2 | .exp => Sfu.plain one32
      | .log2 | .log => Sfu.plain (inf32 true)
      | .rcp => Sfu.plain (inf32 neg)
      | .rsqrt => Sfu.plain (inf32 neg)
      | .tanh | .erf | .gelu | .silu => Sfu.plain w
      | .sigm => Sfu.plain 0x3F000000
      | .softplus => Sfu.plain (round32 (Fp.ofDy false Sfu.ln2r40))
      | .gcos => Sfu.plain one32
      | .gsin => Sfu.plain 0)
    else Sfu.finite compat fn neg m e

end Sys2Proof
end

