-- ==== Sys2Proof/Machine/Flags.lean ====
section
/-!
DEFINITION. The sticky flags of R62 and R133, and arithmetic that carries the flags it raises: FP32 operations (R119), INT32
operations (R121), accumulation additions (R527), conversions (R122) and special functions (R153).
-/
namespace Sys2Proof

/-! ## The flag word (R133) -/

def flAccSat : Half := 0x01
def flCvtSat : Half := 0x02
def flCvtNan : Half := 0x04
def flVecInv : Half := 0x08
def flVecOvf : Half := 0x10
def flVecIsat : Half := 0x20
def flStatNan : Half := 0x40

/-- The flag `f` where `b` holds. -/
def flagIf (b : Bool) (f : Half) : Half := if b then f else 0

/-- What an FP32 result raises (R119, R153). -/
def FpRes.flags (r : FpRes) : Half := flagIf r.inv flVecInv ||| flagIf r.ovf flVecOvf

/-- What a conversion raises (R62). -/
def Conv.flags (c : Conv) : Half := flagIf c.sat flCvtSat ||| flagIf c.nan flCvtNan

/-! ## Values with flags -/

/-- A 32-bit value with the flags raised in forming it. -/
abbrev FW := Word × Half

def FW.of (w : Word) : FW := (w, 0)
def FpRes.fw (r : FpRes) : FW := (r.bits, r.flags)

/-- An FP32 operation of two values (R119). -/
def FW.op (f : Word → Word → FpRes) (a b : FW) : FW := ((f a.1 b.1).bits, a.2 ||| b.2 ||| (f a.1 b.1).flags)

def FW.add : FW → FW → FW := FW.op fadd
def FW.sub : FW → FW → FW := FW.op fsub
def FW.mul : FW → FW → FW := FW.op fmul
/-- Division of R161 with the flags of an FP32 result. -/
def fdivRes (a b : Word) : FpRes := fpResult [decode32 a, decode32 b] (fdivFp (decode32 a) (decode32 b))
def FW.div : FW → FW → FW := FW.op fdivRes
/-- An operation that raises nothing (R120). -/
def FW.plain (f : Word → Word → Word) (a b : FW) : FW := (f a.1 b.1, a.2 ||| b.2)

/-- Sum of a row or column: the pairwise tree of R68 and R123, +0 for none. -/
def FW.treeSum (l : List FW) : FW := tree (FW.of 0) FW.add l
/-- Sequential sum in ascending index, as TH1 summed (R165). -/
def FW.seqSum : List FW → FW
  | [] => FW.of 0
  | x :: xs => xs.foldl FW.add x

/-- An addition of ADD: an FP32 one, or an accumulation addition, which raises ACC_SAT at most (R527). -/
def addKind (k : AccAdd) (a b : Word) : FW :=
  match k with
  | .plain => (fadd a b).fw
  | .accF32 => FW.of (addW a b)
  | .accI32 => ((sadd a b).1, flagIf (sadd a b).2 flAccSat)

/-- Saturating INT32 results (R121). -/
def isatFw (r : Word × Bool) : FW := (r.1, flagIf r.2 flVecIsat)

/-- CVT.F2I (R122). -/
def cvtF2i (w : Word) : FW :=
  match decode32 w with
  | .nan => (0, flCvtNan)
  | .inf n => (if n then 0x80000000 else 0x7FFFFFFF, flCvtSat)
  | x => (BitVec.ofInt 32 (clamp32 x.toDy.roundInt).1, flagIf (clamp32 x.toDy.roundInt).2 flCvtSat)

/-- RND.fmt (R122). -/
def rndFw (fmt : Byte) (w : Word) : FW :=
  let r := rndTo (fmt.truncate 4) (fmt.getLsbD 4) (decode32 w)
  (r.1, flagIf r.2.1 flCvtSat ||| flagIf r.2.2 flCvtNan)

/-- CMP.cc (R120). -/
def cmpCond (cc : Cond) (a b : Word) : Bool :=
  let x := decode32 a
  let y := decode32 b
  if x.isNan || y.isNan then cc == .ne
  else match cc with
    | .eq => Fp.eqv x y
    | .ne => !Fp.eqv x y
    | .lt => Fp.ltv x y
    | .le => Fp.ltv x y || Fp.eqv x y
    | .gt => Fp.ltv y x
    | .ge => Fp.ltv y x || Fp.eqv x y

/-- An element as a load writes it: FP32 rounded as R56 rounds a product, or the integer itself (R128). -/
def loadElem (c : BitVec 4) (sc : Byte) (int : Bool) (n : Nat) : FW :=
  if int && fmtInt c && sc == 127 then FW.of (BitVec.ofInt 32 (decodeElem c n).toDy.roundInt)
  else
    let x := internal c sc n
    ((encode32 x).1, flagIf (encode32 x).2 flVecOvf)

end Sys2Proof
end

