-- ==== Sys2Proof/Machine/Folios.lean ====
section
/-!
DEFINITION. Folios and code tables: FOLIO_LOAD, FOLIO_PIN, FOLIO_EVICT (R295 to R297, R331), the decoding of SWF blocks (R316 to
R324, R329, R330) and TABLE_LOAD with its slots (R319 to R327).
-/
namespace Sys2Proof.Machine

/-! ## Folios and ways (R290, R291, R295 to R297) -/

def State.modFolio (s : State) (id : Nat) (f : Folio → Folio) : State :=
  s.withFolios (s.folios.map fun g => if g.id = id then f g else g)

/-- A folio is in use: an admitted job names it (R297). -/
def State.folioInUse (s : State) (id : Nat) : Bool := s.admittedJobs.any fun kj => kj.2.terms.folio == id
/-- A job not in a final state names the folio (R376, FOLIO_EVICT). -/
def State.folioNamed (s : State) (id : Nat) : Bool := s.jobList.any fun kj => kj.2.terms.folio == id && !kj.2.st.final

/-- Ways per slice of the staging window that the job in slot k holds: a G job's from admission; an S or B job's while a phase
instance runs (R291). -/
def State.windowOf (s : State) (k : Nat) (j : Job) : Nat :=
  if !j.st.admitted || j.st == .preempted then 0
  else if j.terms.cls = 0 then j.windowWays
  else s.cores.foldl (fun m kv => match kv.2.runs.get none k with
    | some r => Nat.max m r.ways
    | none => m) 0

def State.stagingHeld (s : State) : Nat := (s.jobList.map fun kj => s.windowOf kj.1 kj.2).sum

/-- Demote resident folios, least recently used first, that are not `kept`, until `need` more ways fit (R297). -/
def State.makeRoom (s : State) (kept : Folio → Bool) (need : Nat) : List Folio :=
  let room := waysFor s.part.scratch - 4 - s.stagingHeld
  demote (fun f => !kept f) (room - need) s.folios

/-- Whether `need` ways can be freed for a folio and what the folios then are (R297). -/
def State.waysFreed (s : State) (need : Nat) : Option (List Folio) :=
  let fs := s.makeRoom (fun f => f.pin == 2 || s.folioInUse f.id) need
  if residentWays fs + need + s.stagingHeld + 4 ≤ waysFor s.part.scratch then some fs else none

/-! ## FOLIO_LOAD -/

def State.loading (s : State) (id : Nat) : Bool := s.sys.ops.any fun o => match o.kind with
  | .folioLoad _ _ f _ => f == id
  | _ => false

/-- FOLIO_LOAD. -/
def execFolioLoad (n : Fin 64) (p : Pkt) (s : State) : Res :=
  let (img, bytes, id, host) := (p.arg 0 8, p.arg 8 8, p.arg 16 4, p.arg 20 1 == 1)
  ringRes p (s.cmd n opFolioLoad p
    (badParam (img % 64 != 0 || bytes == 0 || decide (id < 1) || decide (65535 < id) || decide (1 < p.arg 20 1) ||
      !zeroAt p.body 21 3 || (!host && !s.mappedRange img bytes)))
    ((chk s.part.pend.isSome (refuse stConflict 0)).or
      (chk ((s.folio id).isSome || s.loading id) (refuse stConflict rsDuplicate)))
    fun t => t.accept n opFolioLoad p (.folioLoad img bytes id host) 0)

/-- The free runs of the folio area, in whole 4 KiB pages: (first page, pages), from page `lo` to page `hi`, between the folios
in ascending base. -/
def freeRuns (hi : Nat) : Nat → List (Nat × Nat) → List (Nat × Nat)
  | lo, [] => [(lo, hi - lo)]
  | lo, (b, e) :: fs => (lo, b - lo) :: freeRuns hi e fs

/-- The pages at which a run of `need` pages may start: (first, count) of each free run. -/
def State.folioStarts (s : State) (need : Nat) : List (Nat × Nat) :=
  let held := sortBy (fun a b => decide (a.1 ≤ b.1)) (s.folios.map fun f => (f.base / 4096, ceilDiv (f.base + f.bytes) 4096))
  ((freeRuns (hbmBytes / 4096) (s.folioLo / 4096) held).filter fun r => decide (need ≤ r.2)).map fun r => (r.1, r.2 - need + 1)

/-- The x-th of the starts. -/
def nthStart : List (Nat × Nat) → Nat → Nat
  | [], _ => 0
  | (lo, n) :: rs, x => if x < n then lo + x else nthStart rs (x - n)

/-- A folio that FOLIO_LOAD may evict: unpinned and named by no job, least recently used first (R297). -/
def State.evictee (s : State) : Option Folio := (byLastUse s.folios).find? fun f => f.pin == 0 && !s.folioNamed f.id

/-- Evict until a run of `need` pages is free; fuel is the number of folios. -/
def State.makeSpace (need : Nat) : Nat → State → Option State
  | 0, s => if (s.folioStarts need).isEmpty then none else some s
  | k + 1, s =>
    if !(s.folioStarts need).isEmpty then some s
    else match s.evictee with
      | some f => State.makeSpace need k (s.withFolios (s.folios.filter fun g => g.id != f.id))
      | none => none

/-- The base of a folio: the device's choice among the starts, a free value (R295). -/
def State.folioBase (s : State) (need : Nat) : Nat :=
  let rs := s.folioStarts need
  4096 * nthStart rs (s.free64.toNat % (rs.map (·.2)).sum)

/-- The image written as whole lines; the bytes beyond its end keep what they hold (R295, R310). -/
def State.copyImage (s : State) (base : Nat) (img : List Byte) : State :=
  let pad := 64 * ceilDiv img.length 64 - img.length
  s.devWrite base (img ++ s.devBytes (base + img.length) pad)

/-- A checked image is placed, copied and listed. -/
def State.installFolio (s : State) (o : Op) (id : Nat) (d : FolioDecl) (img : List Byte) : State :=
  let need := ceilDiv img.length 4096
  match s.makeSpace need s.folios.length with
  | none => s.finishOp o stNoResource 0 0
  | some t =>
    let base := t.folioBase need
    let f : Folio := { id := id, base := base, bytes := img.length, decl := d, resident := false, pin := 0, invalid := false,
                       lastUse := t.now, decoded := [] }
    ((t.took.copyImage base img).withFolios (t.folios ++ [f])).finishOp o stOk 0 (BitVec.ofNat 64 (base % 2 ^ 48))

/-- FOLIO_LOAD_DONE: the image is read and judged; a refusal leaves no copy (R310, R318, R376). -/
def execFolioLoadDone (op : Nat) (d : FolioDecl) (s : State) : Res :=
  .next (match s.opOf op with
    | some o => match o.kind with
      | .folioLoad a n id host =>
        if !s.reach host a then s
        else if !host && (s.badLine a n).isSome then (s.scan a n).finishOp o stWelt 0 0
        else
          let s := s.when (!host) (·.touch a n)
          let img := s.srcBytes host a n
          let d := d.ofImage img
          match d.check img with
          | some r => s.finishOp o r.1 r.2.1 r.2.2
          | none => s.installFolio o id d img
      | _ => s
    | none => s)

/-! ## FOLIO_PIN and FOLIO_EVICT -/

/-- The checks of FOLIO_PIN at its place in the order of fetch (R288, R297, R331, R376). -/
def State.pinCheck (s : State) (id level : Nat) : Option Refuse :=
  match s.folio id with
  | none => some (refuse stBadParam rsUnknownFolio)
  | some f =>
    (chk s.part.pend.isSome (refuse stConflict 0)).or ((chk f.invalid (refuse stConflict rsFolioInvalid)).or
      (chk (level == 2 && !f.resident && s.folioInUse id) (refuse stConflict 0)))

/-- FOLIO_PIN at its place in the order of fetch. A streamed folio becomes resident and pinned at once where its ways can be freed, so that a
command fetched later finds it so (R365); the record that follows ACCEPTED says which it was. -/
def State.pinNow (s : State) (n : Nat) (p : Pkt) (id level : Nat) : State :=
  if level = 2 ∧ !((s.folio id).any (·.resident)) then match s.waysFreed ((s.folio id).elim 0 (·.ways)) with
    | some fs => ((s.withFolios fs).modFolio id fun f => { f with resident := true, pin := 2, decoded := [] }).accept n opFolioPin p
        (.folioPin id true) 0
    | none => s.accept n opFolioPin p (.folioPin id false) 0
  else (s.modFolio id fun f => { f with pin := level }).reply n opFolioPin p (refuse stOk 0)

/-- FOLIO_PIN. -/
def execFolioPin (n : Fin 64) (p : Pkt) (s : State) : Res :=
  ringRes p (s.cmd n opFolioPin p (badParam (decide (2 < p.arg 4 1) || !zeroAt p.body 5 3)) (s.pinCheck (p.arg 0 4) (p.arg 4 1))
    fun t => t.pinNow n p (p.arg 0 4) (p.arg 4 1))

/-- FOLIO_EVICT. -/
def execFolioEvict (n : Fin 64) (p : Pkt) (s : State) : Res :=
  ringRes p (s.cmd n opFolioEvict p (badParam (!zeroAt p.body 4 4))
    ((chk (s.folio (p.arg 0 4)).isNone (refuse stBadParam rsUnknownFolio)).or
      (chk (s.folioNamed (p.arg 0 4)) (refuse stConflict 0)))
    fun t => (t.withFolios (t.folios.filter fun f => f.id != p.arg 0 4)).reply n opFolioEvict p (refuse stOk 0))

/-! ## Code tables (R319 to R321, R325) -/

/-- Slot `i` of a class is number 2 × class + i (R328). -/
def State.table (s : State) (i : Nat) : Option Table := s.tables.get none i

/-- A slot is referenced while an admitted job or a queued block is bound to it (R325). -/
def State.tableReferenced (s : State) (i : Nat) : Bool :=
  (s.admittedJobs.any fun kj => kj.2.bindings.any fun b => b.2.1 == i) || s.sys.decq.any fun q => q.bound.any fun b => b.1 == i

/-- The slot of a class that holds a generation. -/
def State.slotWith (s : State) (cls gen : Nat) : Option Nat :=
  [2 * cls, 2 * cls + 1].find? fun i => (s.table i).any fun t => t.gen == gen

/-- The older of two full slots of a class (R325). -/
def State.olderSlot (s : State) (cls : Nat) : Nat :=
  match s.table (2 * cls), s.table (2 * cls + 1) with
  | some a, some b => if a.age ≤ b.age then 2 * cls else 2 * cls + 1
  | _, _ => 2 * cls

def State.newerSlot (s : State) (cls : Nat) : Nat := 4 * cls + 1 - s.olderSlot cls

/-- Step 3 of R327. -/
def State.tableTarget (s : State) (cls : Nat) : Option Nat :=
  match [2 * cls, 2 * cls + 1].find? fun i => (s.table i).isNone with
  | some i => some i
  | none => [s.olderSlot cls, s.newerSlot cls].find? fun i => !s.tableReferenced i

def State.installTable (s : State) (i cls : Nat) (t : Table) : State :=
  let age := 1 + Nat.max ((s.table (2 * cls)).elim 0 (·.age)) ((s.table (2 * cls + 1)).elim 0 (·.age))
  s.withTables (s.tables.set none i (some { t with age := age }))

/-- Bytes of a table image: the first line and the code lengths (R319). -/
def tableBytes (fmt : Nat) : Nat := if fmt = 1 then 320 else 128

/-- The symbols of a format. -/
def symbolCount (fmt : Nat) : Nat := if fmt = 1 then 256 else 32

def tableOfBytes (b : List Byte) : Table :=
  let fmt := fieldAt b 0 1
  { fmt := fmt, gen := fieldAt b 2 2, lens := ((b.drop 64).take (symbolCount fmt)).map (·.toNat), age := 0 }

/-- R320, apart from FMT. -/
def tableOk (b : List Byte) : Bool :=
  let t := tableOfBytes b
  t.lens.all (fun l => decide (l ≤ 12)) && t.lens.any (· != 0) &&
    decide (((t.lens.filter (· != 0)).map fun l => 2 ^ (12 - l)).sum ≤ 4096) && decide (fieldAt b 1 1 ≤ 1) &&
    decide (1 ≤ t.gen) && zeroAt b 4 60 && (t.fmt == 1 || zeroAt b 96 32)

/-- Step 1 of R327 on the image as read. -/
def State.tableCheck (s : State) (host : Bool) (a : Nat) : Option Refuse :=
  let head := s.srcBytes host a 64
  let n := tableBytes (fieldAt head 0 1)
  if !host && (s.badLine a 64).isSome then some (refuse stWelt 0)
  else if fieldAt head 0 1 ≠ 1 ∧ fieldAt head 0 1 ≠ 2 then some (refuse stBadFormat 0)
  else if !host && !s.mappedRange a n then some (refuse stBadParam 0)
  else if !host && (s.badLine a n).isSome then some (refuse stWelt 0)
  else if !tableOk (s.srcBytes host a n) then some (refuse stBadParam 0)
  else chk (s.tableWait.get none (fieldAt head 1 1)).isSome (refuse stConflict 0)

/-- An OK record with the slot used in DETAIL [0] (R327). -/
def slotDetail (i : Nat) : DWord := BitVec.ofNat 64 (i % 2)

/-- Steps 2 to 5 of R327. -/
def State.loadTable (s : State) (n : Nat) (p : Pkt) (host : Bool) (a timeout : Nat) : State :=
  let b := s.srcBytes host a (tableBytes (fieldAt (s.srcBytes host a 64) 0 1))
  let cls := fieldAt b 1 1
  let t := tableOfBytes b
  match s.slotWith cls t.gen with
  | some i => s.reply n opTableLoad p (stOk, 0, slotDetail i)
  | none => match s.tableTarget cls with
    | some i => (s.installTable i cls t).reply n opTableLoad p (stOk, 0, slotDetail i)
    | none =>
      if timeout = 0 then s.reply n opTableLoad p (refuse stTableBusy 0)
      else
        let w : TableWait := { op := s.sys.fetchNo - 1, tab := t, deadline := s.now + 1000 * timeout }
        (s.accept n opTableLoad p .tableLoad 0).withTableWait (s.tableWait.set none cls (some w))

/-- TABLE_LOAD. -/
def execTableLoad (n : Fin 64) (p : Pkt) (s : State) : Res :=
  let (a, timeout, host) := (p.arg 0 8, p.arg 8 4, p.arg 12 1 == 1)
  ringRes p (if s.reach host a then
      s.cmd n opTableLoad p
        (badParam (a % 64 != 0 || decide (1 < p.arg 12 1) || !zeroAt p.body 13 3 || (!host && !s.mappedRange a 64)))
        (s.tableCheck host a) fun t => t.loadTable n p host a timeout
    else s)

/-- TABLE_INSTALL: the slot that a TABLE_LOAD waits for is unreferenced (R327). -/
def execTableInstall (cls : Fin 2) (s : State) : Res :=
  let i := s.olderSlot cls
  .next (match s.tableWait.get none cls with
    | some w =>
      if s.tableReferenced i || decide (w.deadline < s.now) then s
      else
        let t := (s.installTable i cls w.tab).withTableWait (s.tableWait.set none cls none)
        match t.opOf w.op with
        | some o => t.finishOp o stOk 0 (slotDetail i)
        | none => t
    | none => s)

/-- TABLE_LOAD_TIMEOUT: the wait has reached its timeout (R327). -/
def execTableLoadTimeout (cls : Fin 2) (s : State) : Res :=
  .next (match s.tableWait.get none cls with
    | some w =>
      if s.now < w.deadline then s
      else
        let t := s.withTableWait (s.tableWait.set none cls none)
        match t.opOf w.op with
        | some o => t.finishOp o stTableBusy 0 0
        | none => t
    | none => s)

/-! ## Decoding a block (R316, R317, R321, R329) -/

/-- The canonical code of R321: (length, codeword, symbol). -/
def codewords (lens : List Nat) : List (Nat × Nat × Nat) :=
  ((List.range 12).foldl (fun (acc : Nat × List (Nat × Nat × Nat)) k =>
    let r := lens.zipIdx.foldl (fun (a : Nat × List (Nat × Nat × Nat)) li =>
      if li.1 = k + 1 then (a.1 + 1, a.2 ++ [(k + 1, a.1, li.2)]) else a) acc
    (2 * r.1, r.2)) (0, [])).2

/-- The codeword at bit p, read bit by bit: its symbol and the position after it, or the KIND of R330. `fuel` bits remain of
the 12. -/
def readCode (cw : List (Nat × Nat × Nat)) (bits e : Nat) : Nat → Nat → Nat → Except Nat (Nat × Nat)
  | 0, _, _ => .error 2
  | fuel + 1, p, v =>
    if e ≤ p then .error 0
    else
      let v' := 2 * v + bitsOf bits p 1
      match cw.find? fun c => c.1 == 12 - fuel && c.2.1 == v' with
      | some c => .ok (c.2.2, p + 1)
      | none => readCode cw bits e fuel (p + 1) v'

/-- `n` codewords from bit p. -/
def readCodes (cw : List (Nat × Nat × Nat)) (bits e : Nat) : Nat → Nat → Except Nat (List Nat × Nat)
  | 0, p => .ok ([], p)
  | n + 1, p =>
    match readCode cw bits e 12 p 0 with
    | .error k => .error k
    | .ok (sym, q) => match readCodes cw bits e n q with
      | .error k => .error k
      | .ok (syms, q') => .ok (sym :: syms, q')

/-- The weight of field f and exponent e (R316). -/
def weightOf (fmt f e : Nat) : Nat :=
  if fmt = 1 then f / 128 % 2 * 2 ^ 15 + e * 2 ^ 7 + f % 128 else f / 1024 % 2 * 2 ^ 15 + e * 2 ^ 10 + f % 1024

/-- A coded sub-stream of n weights in e bits (R316, R329). -/
def decodeSub (fmt : Nat) (cw : List (Nat × Nat × Nat)) (bits e n : Nat) : Except Nat (List Nat) :=
  let r := if fmt = 1 then 8 else 11
  if e < n * r then .error 0
  else match readCodes cw bits e n (n * r) with
    | .error k => .error k
    | .ok (syms, p) =>
      if e ≠ 32 * ceilDiv p 32 ∨ bitsOf bits p (e - p) ≠ 0 then .error 1
      else .ok (syms.zipIdx.map fun si => weightOf fmt (bitsOf bits (si.2 * r) r) si.1)

/-- Sub-stream k of a block: its weights, or the KIND of its error. -/
def subWeights (h : BlockHead) (t : Table) (payload : List Byte) (k : Nat) : Except Nat (List Nat) :=
  let bits := leNat ((payload.drop (4 * h.startOf k)).take (4 * h.sizeOf k))
  if h.raw then .ok ((List.range (h.weights k)).map fun i => bitsOf bits (16 * i) 16)
  else decodeSub h.fmt (codewords t.lens) bits (32 * h.sizeOf k) (h.weights k)

/-- The lowest sub-stream in error with its KIND (R330). -/
def blockError (h : BlockHead) (t : Table) (payload : List Byte) : Option (Nat × Nat) :=
  (List.range 16).findSome? fun k => if h.weights k = 0 then none else match subWeights h t payload k with
    | .error e => some (e, k)
    | .ok _ => none

/-- The decoded lines of a block without error, its last line filled with zeros (R324). -/
def blockLines (h : BlockHead) (t : Table) (payload : List Byte) : List Byte :=
  let ws := (List.range 16).flatMap fun k => match subWeights h t payload k with
    | .ok w => w
    | .error _ => []
  let bs := ws.flatMap fun w => leBytes 2 w
  bs ++ List.replicate (64 * ceilDiv bs.length 64 - bs.length) 0

/-- DETAIL of R330. -/
def swfDetail (kind sub a : Nat) : Nat := kind * 2 ^ 62 + sub * 2 ^ 58 + a % 2 ^ 48

/-- An error of R329: the folio becomes invalid and every admitted job bound to it ends (R330). -/
def State.swfError (s : State) (f : Folio) (island kind sub a : Nat) : State :=
  let ks := (s.admittedJobs.filter fun kj => kj.2.terms.folio == f.id).map (·.1)
  (s.modFolio f.id fun g => { g with invalid := true }).each ks fun s k =>
    s.faultJob k [mkCause rsSwfBlock island (swfDetail kind sub a)] false true

/-- The device address of a block's header line. -/
def blockAddr (f : Folio) (t : SwfDecl) (block : Nat) : Nat := f.base + t.base + 64 * t.dir.getD block 0

/-- A block decoded for the job in slot k by the decoder of an island: the input lines are checked (R310), the address and the binding are
checked (R282, R326), then the sub-streams (R329); `use` takes the decoded lines. -/
def State.decodeBlock (s : State) (k : Nat) (j : Job) (f : Folio) (t : SwfDecl) (tensor block island : Nat)
    (use : State → List Byte → State) : State :=
  let a := blockAddr f t block
  let h := BlockHead.ofBytes (s.devBytes a 64)
  let n := 64 + 4 * h.ends.getD 15 0
  let tab := (j.bindings.find? fun b => b.1 == tensor).bind fun b =>
    (s.table b.2.1).filter fun x => x.gen == b.2.2 && h.gen == b.2.2
  if !s.mappedRange a n then s.detect k cControl island 0
  else match s.badLine a n with
  | some l => s.lineFault k cWeltLine island l
  | none =>
    if !h.raw && tab.isNone then s.detect k cControl island 0
    else
      let x := tab.getD ⟨0, 0, [], 0⟩
      let payload := s.devBytes (a + 64) (n - 64)
      match blockError h x payload with
      | some (kind, sub) => s.swfError f island kind sub a
      | none => use (s.touch a n) (blockLines h x payload)

/-- The job in its slot can issue on a core: it is RUNNING, placed there, and its locations are its own (R353, R354). -/
def Job.onCore (j : Job) (c : Nat) : Bool :=
  j.st == .running && j.cores.contains c && !j.awaitSpill.contains c && j.displaced.isEmpty

/-- The job of a slot with its folio and one of its SWF tensors of class `cls` that has the block. Blocks of a job that is preempted
or restarting wait (R332); the resident copy is made at acceptance. -/
def State.swfOf (s : State) (k tensor block cls : Nat) : Option (Job × Folio × SwfDecl) :=
  (s.job k).bind fun j => if !(j.st == .running || (cls == 0 && j.st == .accepted)) then none else (s.folio j.terms.folio).bind fun f =>
    f.decl.swf[tensor]?.bind fun t => if t.cls = cls ∧ block < t.dir.length then some (j, f, t) else none

/-! ## The load-time decoders (R322, R332) -/

/-- The decoder that a block goes to: of its stack's island, the one with the fewest blocks queued, the lower of two equals. -/
def State.decoderFor (s : State) (a : Nat) : Nat :=
  let n := fun (d : Nat) => s.sys.decq.countP fun q => q.decoder == d
  ((List.range 4).map fun d => 4 * hbmStack a + d).foldl (fun m d => if n d < n m then d else m) (4 * hbmStack a)

/-- The decoded blocks that a job reads: in the resident copy of its folio, or streamed through its window. -/
def decodedFor (f : Folio) (j : Job) : List DecBlock := if f.resident then f.decoded else j.decoded

def holdsBlock (bs : List DecBlock) (tensor block : Nat) : Bool := bs.any fun b => b.tensor == tensor && b.block == block

/-- A block of a load-time tensor joins a decoder's queue for the job in slot k, unless it is decoded or queued. -/
def State.queueBlock (s : State) (k : Nat) (j : Job) (f : Folio) (t : SwfDecl) (tensor block : Nat) : State :=
  if holdsBlock (decodedFor f j) tensor block || s.sys.decq.any fun q => q.owner == k && q.tensor == tensor && q.block == block then s
  else
    let bound := (j.bindings.find? fun b => b.1 == tensor).map (·.2)
    s.modSys fun y => { y with decq := y.decq ++ [⟨s.decoderFor (blockAddr f t block), k, tensor, block, bound⟩] }

/-- The load-time blocks of a folio, as tensor and block. -/
def loadBlocks (f : Folio) : List (SwfDecl × Nat × Nat) :=
  (f.decl.swf.zipIdx.filter fun x => x.1.cls == 0).flatMap fun x => (List.range x.1.dir.length).map fun b => (x.1, x.2, b)

/-- The blocks whose header line lies in a range join the queues. -/
def State.queueRange (s : State) (k : Nat) (j : Job) (f : Folio) (src bytes : Nat) : State :=
  s.each (loadBlocks f) fun s x =>
    if src ≤ blockAddr f x.1 x.2.2 ∧ blockAddr f x.1 x.2.2 < src + bytes then s.queueBlock k j f x.1 x.2.1 x.2.2 else s

/-- The blocks that the job needs join the queues: those of its resident folio, or those in its window (R322, R332). -/
def State.queueBlocks (s : State) (k : Nat) : State :=
  match s.job k with
  | none => s
  | some j => match s.folio j.terms.folio with
    | none => s
    | some f => if f.resident then s.queueRange k j f f.base f.bytes else s.each j.window fun s w => s.queueRange k j f w.1 w.2

/-- Decoded lines with their welts (R324). -/
def decLines (a : Nat) (bs : List Byte) : List DecLine :=
  (List.range (bs.length / 64)).map fun i => let d := sliceAt bs (64 * i) 64; ⟨a / 64 + i, d, lineWelt (a / 64 + i) d⟩

/-- A block decoded for a job enters the resident copy or its window. -/
def State.keepBlock (s : State) (k : Nat) (f : Folio) (tensor block a : Nat) (bs : List Byte) : State :=
  let add := fun (l : List DecBlock) => if holdsBlock l tensor block then l else l ++ [⟨tensor, block, decLines a bs⟩]
  if f.resident then s.modFolio f.id fun g => { g with decoded := add g.decoded }
  else s.modJob k fun j => { j with decoded := add j.decoded }

/-- The block is the next of its decoder's queue for the job. -/
def State.nextBlock (s : State) (k tensor block : Nat) : Option DecReq :=
  (s.sys.decq.find? fun q => q.owner == k && q.tensor == tensor && q.block == block).filter fun q =>
    (s.sys.decq.find? fun x => x.decoder == q.decoder) == some q

/-- SWF_BLOCK_DECODE: the load-time decoder at whose queue's head the block lies decodes it into the reservoir (R322). -/
def execSwfBlockDecode (slot : Fin 64) (tensor block : Nat) (s : State) : Res :=
  .next (match s.swfOf slot tensor block 0, s.nextBlock slot tensor block with
    | some (j, f, t), some q =>
      let a := blockAddr f t block
      (s.modSys fun y => { y with decq := y.decq.erase q }).decodeBlock slot j f t tensor block (islHbm (hbmStack a)) fun s bs =>
        s.keepBlock slot f tensor block a bs
    | _, _ => s)

/-- A block of a folio pinned resident is decoded with the table of its generation, where one is held; a block in error makes the folio
invalid (R322, R330). One whose table is absent waits for a job's binding (log 67). -/
def State.pinBlock (s : State) (id : Nat) (x : SwfDecl × Nat × Nat) : State :=
  match s.folio id with
  | none => s
  | some f =>
    let a := blockAddr f x.1 x.2.2
    let h := BlockHead.ofBytes (s.devBytes a 64)
    let n := 64 + 4 * h.ends.getD 15 0
    let tab := (s.slotWith 0 h.gen).bind s.table
    let payload := s.devBytes (a + 64) (n - 64)
    if (s.badLine a n).isSome ∨ (h.raw = false ∧ tab = none) ∨ holdsBlock f.decoded x.2.1 x.2.2 = true then s
    else match blockError h (tab.getD ⟨0, 0, [], 0⟩) payload with
      | some (kind, sub) => s.swfError f (islHbm (hbmStack a)) kind sub a
      | none => s.modFolio id fun g => { g with
          decoded := g.decoded ++ [⟨x.2.1, x.2.2, decLines a (blockLines h (tab.getD ⟨0, 0, [], 0⟩) payload)⟩] }

/-- FOLIO_PIN_DONE: the resident copy of the folio has been made (R297, R322), or its ways could not be freed. -/
def execFolioPinDone (op : Nat) (s : State) : Res :=
  .next (match s.opOf op with
    | some o => match o.kind with
      | .folioPin id made =>
        if !made then s.finishOp o stNoResource 0 0
        else match s.folio id with
          | some f => if f.resident then (s.each (loadBlocks f) fun s x => s.pinBlock id x).finishOp o stOk 0 0 else s.finishOp o stOk 0 0
          | none => s.finishOp o stOk 0 0
      | _ => s
    | none => s)

def wellBytes : Nat := 0x60000

/-- Bytes written into a core's well. -/
def CoreSt.wellPut (c : CoreSt) (a : Nat) (bs : List Byte) : CoreSt :=
  { c with well := bs.zipIdx.foldl (fun w bi => w.set 0 (a + bi.2) bi.1) c.well }

/-- AT_USE_BLOCK_REQUEST: a core reads a block and receives it whole, decoded, in its well; the slice that holds the block is the
device's choice, an unknown of each block (R323). -/
def execAtUseBlockRequest (c : CoreRef) (tensor block well : Nat) (s : State) : Res :=
  .next (match s.swfOf c.slot tensor block 1 with
    | some (j, f, t) =>
      let island := islRsv (Config.atUseSlice (blockAddr f t block)).toNat
      if !j.onCore c.core then s
      else s.decodeBlock c.slot j f t tensor block island fun s bs =>
        if well + bs.length ≤ wellBytes then s.modCore c.core fun x => x.wellPut well bs
        else s.detect c.slot cControl (clusterOf c.core) 0
    | none => s)

end Sys2Proof.Machine
end

