-- ==== Sys2Proof/Machine/Admission.lean ====
section
/-!
DEFINITION. The ductus (12): reserves and free resources of a core (R339, R528), placement (R352), scratchpad needs (R289, R340),
the price of collectives (R414, R415) and the bound of R344, and the checks of an admission in the order of R531.
-/
namespace Sys2Proof.Machine

/-! ## Footprints (R339, R340) -/

/-- Accumulator tiles that a G job reserves on each of its cores: ACC_RESERVE, or the folio's ACC_NEED (R336). -/
def reserveOf (t : Terms) (d : FolioDecl) : Nat := if t.accReserve = 0 then d.accNeed else t.accReserve

/-- The spill footprint of a G job on one core (R340). -/
def spillFootprint (t : Terms) (d : FolioDecl) : Nat := 1024 * d.wellKib + 2048 * d.tregs + 2560 * reserveOf t d + 640

/-- The admitted jobs that `hit` picks with a part on core c, with their declarations. -/
def State.onCore (s : State) (c : Nat) (hit : Job → Bool) : List (Nat × Job × FolioDecl) :=
  (s.admittedJobs.filter fun kj => kj.2.cores.contains c && hit kj.2).filterMap fun kj =>
    (s.declOf kj.2).map fun d => (kj.1, kj.2, d)

def Job.isG (j : Job) : Bool := j.terms.cls == 0

/-- Locations of a kind that jobs displaced from victim k on core c (R353). -/
def State.displacedUnits (s : State) (k c : Nat) (kind : Loc → Bool) : Nat :=
  (s.jobList.map fun g => (g.2.spills.filter fun x => x.victim == k && x.core == c && kind x.loc).length).sum

def Loc.isTreg : Loc → Bool
  | .treg _ | .spareTreg => true
  | _ => false
def Loc.isAcc : Loc → Bool
  | .acc _ | .spareAcc => true
  | _ => false
def Loc.isCtx : Loc → Bool
  | .ctx => true
  | _ => false
def Loc.isWell : Loc → Bool
  | .well _ => true
  | _ => false

/-- The granules of a core's well that some job has taken. -/
def State.wellTaken (s : State) (c : Nat) : List Nat :=
  (s.admittedJobs.flatMap fun kj => (kj.2.holds.filter fun h => h.core == c).flatMap (·.well)).eraseDups

/-- A G job that has not yet taken its reserve on core c. -/
def Job.unstarted (j : Job) (c : Nat) : Bool := j.isG && !(j.holds.any fun h => h.core == c)

def wellGranules : Nat := 24

/-- Granules of the well of core c that no G job has reserved and no job holds. -/
def State.wellFree (s : State) (c : Nat) : Nat :=
  wellGranules - (s.wellTaken c).length - ((s.onCore c fun j => j.unstarted c).map fun x => x.2.2.wellKib / 16).sum

/-- Tile registers that an S or B job still holds on core c. -/
def State.tregUnits (s : State) (c : Nat) (x : Nat × Job × FolioDecl) : Nat :=
  if x.2.1.isG then x.2.2.tregs else x.2.2.tregs - s.displacedUnits x.1 c Loc.isTreg

def State.tregFree (s : State) (c : Nat) : Nat := 32 - ((s.onCore c fun _ => true).map (s.tregUnits c)).sum

/-- The job's context on core c: one, unless it has been displaced. -/
def State.ctxUnits (s : State) (c : Nat) (x : Nat × Job × FolioDecl) : Nat :=
  if x.2.1.isG then 1 else 1 - s.displacedUnits x.1 c Loc.isCtx

def State.ctxFree (s : State) (c : Nat) : Nat := 8 - ((s.onCore c fun _ => true).map (s.ctxUnits c)).sum

/-- Accumulator tiles that a job holds on core c: a G job its reserve, another the grant of its phase instance (R180). -/
def State.accUnits (s : State) (c : Nat) (x : Nat × Job × FolioDecl) : Nat :=
  if x.2.1.isG then reserveOf x.2.1.terms x.2.2
  else ((s.core c).runs.get none x.1).elim 0 (·.grant) - s.displacedUnits x.1 c Loc.isAcc

def State.accFree (s : State) (c : Nat) : Nat := 8 - ((s.onCore c fun _ => true).map (s.accUnits c)).sum

/-- The first per-core check that a G job fails on core c (R339, R531). -/
def State.coreCheckG (s : State) (t : Terms) (d : FolioDecl) (c : Nat) : Option Nat :=
  let gs := s.onCore c Job.isG
  let sum := fun (f : Job → FolioDecl → Nat) => (gs.map fun x => f x.2.1 x.2.2).sum
  if wellGranules < sum (fun _ e => e.wellKib / 16) + d.wellKib / 16 then some rsWell
  else if 32 < sum (fun _ e => e.tregs) + d.tregs then some rsTileRegs
  else if 8 < sum (fun j e => reserveOf j.terms e) + reserveOf t d then some rsAccTiles
  else if 8 < gs.length + 1 then some rsContexts
  else if 16 < sum (fun j _ => j.terms.issueShare) + t.issueShare then some rsIssueShare
  else none

/-- The first per-core check that an S or B job fails on core c (R528, R531). -/
def State.coreCheckSB (s : State) (d : FolioDecl) (c : Nat) : Option Nat :=
  if s.wellFree c < d.wellKib / 16 then some rsWell
  else if s.tregFree c < d.tregs then some rsTileRegs
  else if s.ctxFree c = 0 then some rsContexts
  else none

def State.coreCheck (s : State) (t : Terms) (d : FolioDecl) (c : Nat) : Option Nat :=
  if t.cls = 0 then s.coreCheckG t d c else s.coreCheckSB d c

/-! ## Placement (R352) -/

/-- The numbers g with a ≤ g < b and g mod 6 = k. -/
def countMod (a b k : Nat) : Nat := (b + 5 - k) / 6 - (a + 5 - k) / 6

/-- Lines of the HBM range of n bytes from a, whole lines, that lie in stack k (R300). -/
def linesInStack (a n k : Nat) : Nat :=
  if n = 0 then 0
  else
    let (g0, g1) := (a / 4096, (a + n - 1) / 4096)
    let whole := 64 * countMod g0 (g1 + 1) k
    whole - (if g0 % 6 = k then a % 4096 / 64 else 0) - (if g1 % 6 = k then 63 - (a + n - 1) % 4096 / 64 else 0)

/-- The score of a slice for a job (R352). -/
def sliceScore (t : Terms) (f : Folio) (sl : Nat) : Nat :=
  let hbm := if t.input < hbmBytes then
    ((List.range 6).map fun h => if hbmGateway h = sl then linesInStack t.input t.inputBytes h else 0).sum else 0
  let far := if farLo ≤ t.input ∧ sl = 13 then t.inputBytes / 64 else 0
  let scratch := ((f.decl.scratchTensorLines.filter fun x => x.1 == sl).map (·.2)).sum
  hbm + far + scratch + if f.resident then f.ways * 16384 else 0

/-- Admitted jobs with a core in the cluster. -/
def State.jobsOnCluster (s : State) (cl : Nat) : Nat := s.admittedJobs.countP fun kj => kj.2.cores.any fun c => clusterOf c == cl

/-- The clusters in the order of R352. -/
def State.clusterOrder (s : State) (t : Terms) (f : Folio) : List Nat :=
  let keyed := (List.range 64).map fun cl => (cl, sliceScore t f (homeSliceOfCluster cl), s.jobsOnCluster cl)
  (sortBy (fun a b => decide (b.2.1 < a.2.1) || (a.2.1 == b.2.1 && (decide (a.2.2 < b.2.2) ||
    (a.2.2 == b.2.2 && decide (a.1 ≤ b.1))))) keyed).map (·.1)

/-- The cores placed and the first failed check of the first core skipped. -/
def State.place (s : State) (t : Terms) (f : Folio) : List Nat × Option Nat :=
  let need := if f.decl.cores = 0 then s.inServiceCores.length else f.decl.cores
  let order := (s.clusterOrder t f).flatMap fun cl => ((List.range 32).map fun i => 32 * cl + i).filter s.inService
  order.foldl (fun acc c =>
    if need ≤ acc.1.length then acc
    else match s.coreCheck t f.decl c with
      | none => (acc.1 ++ [c], acc.2)
      | some r => (acc.1, acc.2.or (some r))) ([], none)

/-- The placement of a job, or the REASON that none exists (R352, R531). -/
def State.placement (s : State) (t : Terms) (f : Folio) : Except Nat (List Nat) :=
  let need := if f.decl.cores = 0 then s.inServiceCores.length else f.decl.cores
  let (cs, bad) := s.place t f
  if need ≤ cs.length then .ok cs else .error (bad.getD rsCores)

/-! ## The logical grid (06) -/

/-- The columns of the core grid that a placement uses, ascending. -/
def placedCols (cores : List Nat) : List Nat := (List.range 32).filter fun x => cores.any fun c => coreCol c == x
/-- The placed cores of a column, in ascending physical row. -/
def placedInCol (cores : List Nat) (x : Nat) : List Nat := ((List.range 64).map fun r => coreAt r x).filter cores.contains

/-- The core of logical column and row `64 × column + row`. -/
def logicalCore (cores : List Nat) (a : Nat) : Option Nat :=
  (placedCols cores)[a / 64]?.bind fun x => (placedInCol cores x)[a % 64]?

/-- The core's logical column and row in a placement. -/
def logicalPos (cores : List Nat) (c : Nat) : Option (Nat × Nat) :=
  (placedCols cores).idxOf? (coreCol c) |>.bind fun x => (placedInCol cores (coreCol c)).idxOf? c |>.map fun r => (x, r)

/-- Two cores are stitch neighbours (R13). -/
def stitched (c e : Nat) : Bool :=
  [Dir.colMinus, .colPlus, .rowMinus, .rowPlus].any fun d => stitchNeighbour c d == some e

/-! ## Scratchpad (R193, R289, R340, R356) -/

def granuleBytes : Nat := 65536

/-- Granules of a slice at the present partition. -/
def State.sliceGranules (s : State) : Nat := s.part.scratch * 256

/-- The granules of a slice that no admitted job holds. -/
def State.freeGranules (s : State) (sl : Nat) : List Nat :=
  let held := s.admittedJobs.flatMap fun kj => kj.2.granules.getD sl []
  (List.range s.sliceGranules).filter fun g => !held.contains g

/-- The logical neighbour of a core in a job's placement (R192). -/
def logicalNext (cores : List Nat) (c : Nat) (d : Dir) : Option Nat :=
  (logicalPos cores c).bind fun xr => match d with
    | .colMinus => if xr.1 = 0 then none else logicalCore cores (64 * (xr.1 - 1) + xr.2)
    | .colPlus => logicalCore cores (64 * (xr.1 + 1) + xr.2)
    | .rowMinus => if xr.2 = 0 then none else logicalCore cores (64 * xr.1 + (xr.2 - 1))
    | .rowPlus => if xr.2 = 63 then none else logicalCore cores (64 * xr.1 + (xr.2 + 1))

/-- The core at the opposite edge of the placement: under CIRCULAR padding the edge owners wrap (R208). -/
def logicalWrap (cores : List Nat) (c : Nat) (d : Dir) : Option Nat :=
  ((logicalPos cores c).bind fun xr => match d with
    | .colMinus => logicalCore cores (64 * ((placedCols cores).length - 1) + xr.2)
    | .colPlus => logicalCore cores xr.2
    | .rowMinus => logicalCore cores (64 * xr.1 + ((placedInCol cores (coreCol c)).length - 1))
    | .rowPlus => logicalCore cores (64 * xr.1)).filter (· != c)

/-- The receiving ends of a folio's exchanges that are relayed and have their mailbox in slice `sl`: every edge but one between
stitch neighbours (R192), an edge to another device among them (R194). -/
def relayedIn (d : FolioDecl) (cores : List Nat) (sl : Nat) : List (Nat × Dir) :=
  d.exchanges.filterMap fun e => (logicalCore cores e.1).bind fun c =>
    let direct := match logicalNext cores c e.2 with
      | some a => stitched a c
      | none => false
    if direct || homeSlice c != sl then none else some (c, e.2)

/-- Bytes of the relay mailboxes in a slice: 2 messages of 2 KiB for each relayed edge, in the receiver's home slice (R193). -/
def mailboxBytes (d : FolioDecl) (cores : List Nat) (sl : Nat) : Nat := 4096 * (relayedIn d cores sl).length

/-- The address of byte `off` of a job's reservation in slice `sl`, its granules taken in their order (R289). -/
def reservedAddr (gs : List (List Nat)) (sl off : Nat) : Nat :=
  scratchLo + sl * sliceStride + (gs.getD sl []).getD (off / 65536) 0 * 65536 + off % 65536

/-- The first byte of the mailboxes in a slice's reservation: behind the tensors' granules (log 60). -/
def mailboxOff (d : FolioDecl) : Nat := d.scratchGran * 65536

/-- The address of the mailbox of the edge that core c receives on from direction `dir`; none where the edge has none. -/
def mailboxAddr (d : FolioDecl) (cores : List Nat) (gs : List (List Nat)) (c : Nat) (dir : Dir) : Option Nat :=
  ((relayedIn d cores (homeSlice c)).idxOf? (c, dir)).map fun n => reservedAddr gs (homeSlice c) (mailboxOff d + 4096 * n)

/-- The first byte of a G job's spill region of the `n`-th of its cores in a slice: behind the mailboxes (R340, log 60). -/
def spillOff (t : Terms) (d : FolioDecl) (cores : List Nat) (sl n : Nat) : Nat :=
  mailboxOff d + ceilDiv (mailboxBytes d cores sl) 65536 * 65536 + n * spillFootprint t d

/-- Granules that a job needs in a slice: tensors, mailboxes, and a G job's spill region (R289, R340). -/
def granuleNeed (t : Terms) (d : FolioDecl) (cores : List Nat) (sl : Nat) : Nat :=
  d.scratchGran + ceilDiv (mailboxBytes d cores sl) granuleBytes +
    if t.cls = 0 then ceilDiv (cores.countP (fun c => homeSlice c == sl) * spillFootprint t d) granuleBytes else 0

/-- The neediest slice that lacks granules: needed and free (R356). -/
def State.granuleShort (s : State) (t : Terms) (d : FolioDecl) (cores : List Nat) : Option (Nat × Nat) :=
  (List.range 16).foldl (fun acc sl =>
    let (n, f) := (granuleNeed t d cores sl, (s.freeGranules sl).length)
    if f < n && (match acc with
      | some a => decide (a.1 < n)
      | none => true) then some (n, f) else acc) none

/-- The granules taken for a job, lowest first, by slice. -/
def State.takeGranules (s : State) (t : Terms) (d : FolioDecl) (cores : List Nat) : List (List Nat) :=
  (List.range 16).map fun sl => (s.freeGranules sl).take (granuleNeed t d cores sl)

/-- A new reservation is filled with zeros and welts for its own addresses (R289). -/
def State.zeroGranules (s : State) (gs : List (List Nat)) : State :=
  let mine := fun a => decide (scratchLo ≤ a) && decide (a < farLo) &&
    (gs.getD ((a - scratchLo) / sliceStride) []).contains ((a - scratchLo) % sliceStride / granuleBytes)
  s.withMem { s.mem with bytes := s.mem.bytes.filter fun kv => !mine kv.1, synd := s.mem.synd.filter fun kv => !mine (64 * kv.1), errs := s.mem.errs.filter fun kv => !mine (64 * kv.1) }

/-! ## The price of collectives (R414, R415) -/

/-- A non-negative rational, for the sums of R344 and R415. -/
abbrev Ratio := Nat × Nat

def Ratio.add (a b : Ratio) : Ratio := (a.1 * b.2 + b.1 * a.2, a.2 * b.2)
def Ratio.le (a b : Ratio) : Bool := decide (a.1 * b.2 ≤ b.1 * a.2)

/-- The ports of axis `a` that face members. -/
def Topo.axisPorts (t : Topo) (g : Group) (a : Nat) : List Nat := (t.facing g).filter fun p => p / 2 == a

/-- B_a in bytes per ns for a virtual channel and a link share (R415). -/
def State.axisRate (s : State) (g : Group) (a share : Nat) (halo : Bool) : Ratio :=
  let one := fun p =>
    let w := s.port p
    (((Nat.min 32 (s.portLanes p) - 1) * 400 * (if halo then w.w2 else w.w1) * share, 9 * (w.w1 + w.w2 + w.w3) * 16) : Ratio)
  match (s.topo.axisPorts g a).map one with
  | [] => (0, 1)
  | r :: rs => rs.foldl (fun m x => if Ratio.le m x then m else x) r

/-- λ_a (R415). -/
def State.axisLambda (s : State) (g : Group) (a : Nat) : Nat :=
  if (s.topo.axisPorts g a).all fun p => (List.range 8).all fun i =>
      let l := s.link (8 * p + i)
      l.st == linkUp && l.tx == 0xF && l.rx == 0xF then 110 else 130

def ratioCeil (r : Ratio) : Nat := ceilDiv r.1 (Nat.max 1 r.2)

/-- λ_a × S_a + ceil(b_a / B_a) for one axis. -/
def axisNs (lambda steps : Nat) (b rate : Ratio) : Nat := lambda * steps + ratioCeil (b.1 * rate.2, b.2 * rate.1)

/-- One axis of a record: axis, extent, ring, bytes entering (N over the extents before it). -/
structure AxisTerm where
  a : Nat
  e : Nat
  ring : Bool
  n : Ratio
deriving DecidableEq, Repr

def Topo.axisTerms (t : Topo) (g : Group) (r : CollRec) : List AxisTerm :=
  (((List.range 4).filter fun a => bitsOf r.axes a 1 == 1 && decide (2 ≤ g.ext.get a)).foldl
    (fun (acc : List AxisTerm × Nat) a =>
      (acc.1 ++ [⟨a, g.ext.get a, t.isRing g a, (r.bytes, acc.2)⟩], acc.2 * g.ext.get a)) ([], 1)).1

def AxisTerm.diam (x : AxisTerm) : Nat := if x.ring then x.e / 2 else x.e - 1

/-- Steps and bytes of a part of R414 on one axis. -/
inductive CollPart where
  | ringPart | halving | doubling | allToAll | broadcast | barrier | halo
deriving DecidableEq, Repr

def AxisTerm.part (x : AxisTerm) (bytes : Nat) : CollPart → Nat × Ratio
  | .ringPart => (x.e - 1, ((x.e - 1) * x.n.1, x.e * x.n.2 * if x.ring then 2 else 1))
  | .halving =>
    let ee := pow2Up x.e
    let m := Nat.log2 ee
    (ee - 1, if x.ring && x.e == ee then ((2 * (m - 1) + 1) * x.n.1, 4 * x.n.2) else (m * x.n.1, 2 * x.n.2))
  | .doubling => (pow2Up x.e - 1, ((pow2Up x.e - 1) * bytes, 1))
  | .allToAll => (x.diam, (bytes * x.e, if x.ring then 8 else 4))
  | .broadcast => (x.diam, (bytes, 1))
  | .barrier => (2 * x.diam, (0, 1))
  | .halo => (1, (bytes, 1))

/-- The sum over the axes of the parts of a composition. -/
def State.partsNs (s : State) (g : Group) (r : CollRec) (share : Nat) (parts : List CollPart) : Nat :=
  ((s.topo.axisTerms g r).map fun x =>
    let ps := parts.map (x.part r.bytes)
    axisNs (s.axisLambda g x.a) (ps.map (·.1)).sum (ps.foldl (fun b p => Ratio.add b p.2) (0, 1))
      (s.axisRate g x.a share (r.op == 6))).sum

/-- Hops between two points by the routes of R397. -/
def Topo.hops (t : Topo) (c d : Coord) : Nat :=
  ((List.range 4).map fun a => match t.plusHops a (c.get a) (d.get a), t.minusHops a (c.get a) (d.get a) with
    | some u, some v => Nat.min u v
    | some u, none => u
    | none, some v => v
    | none, none => 0).sum

/-- The members that share this device's coordinates outside AXES, in ascending rank (R410). -/
def Topo.peers (t : Topo) (g : Group) (axes : Nat) : List Coord :=
  g.members.filter fun m => (List.range 4).all fun a => bitsOf axes a 1 == 1 || m.get a == t.coord.get a

/-- The compatibility chain (R414, R415). -/
def State.chainNs (s : State) (g : Group) (r : CollRec) (share : Nat) : Nat :=
  let xs := s.topo.axisTerms g r
  let ms := s.topo.peers g r.axes
  let steps := ((ms.zip (ms.drop 1)).map fun p => s.topo.hops p.1 p.2).sum + (xs.map AxisTerm.diam).sum
  let lambda := xs.foldl (fun m x => Nat.max m (s.axisLambda g x.a)) 0
  match xs.map fun x => s.axisRate g x.a share false with
  | [] => 0
  | b :: bs => axisNs lambda steps (2 * r.bytes, 1) (bs.foldl (fun m x => if Ratio.le m x then m else x) b)

/-- The algorithm terms of a record; mode 0 default, 1 canonical, 2 compatibility (R412, R414). -/
def State.collTerms (s : State) (g : Group) (mode share : Nat) (r : CollRec) : Nat :=
  let mode := if 2 ≤ r.arith then 0 else mode
  let rs := if mode = 1 then CollPart.halving else .ringPart
  if r.op = 0 then
    if mode = 2 then s.chainNs g r share
    else Nat.min (s.partsNs g r share [rs, .ringPart]) (s.partsNs g r share [.doubling])
  else if r.op = 1 then if mode = 2 then s.chainNs g r share else s.partsNs g r share [rs]
  else if r.op = 2 then s.partsNs g r share [.ringPart]
  else if r.op = 3 then s.partsNs g r share [.allToAll]
  else if r.op = 4 then s.partsNs g r share [.broadcast]
  else if r.op = 5 then s.partsNs g r share [.barrier]
  else s.partsNs g r share [.halo]

/-- coll(p) of R415. -/
def State.collNs (s : State) (g : Option Group) (mode share : Nat) (p : PhaseEntry) : Nat :=
  match g with
  | none => 0
  | some g => if share = 0 then 0 else (p.colls.map fun r => r.runs * (1200 + s.collTerms g mode share r)).sum

/-- The ports that face a member and have no link UP (R409). -/
def State.deadPorts (s : State) (g : Option Group) : List Nat :=
  match g with
  | none => []
  | some g => (s.topo.facing g).filter fun p => (s.upLinks p).isEmpty

/-- The ports on which a record of the folio would be priced with a single active lane (R415). -/
def State.thinPorts (s : State) (g : Option Group) (d : FolioDecl) : List Nat :=
  match g with
  | none => []
  | some g => (s.topo.facing g).filter fun p => s.portLanes p == 1 &&
      d.phases.any fun x => x.colls.any fun r => (s.topo.axisTerms g r).any fun t => t.a == p / 2

/-! ## The bound (R344) -/

def rungNeed (r : Nat) : Nat := [5, 3, 2, 1].getD r 1

/-- The rung of R182 for a preferred rung and g tiles. -/
def rungFor (pref g : Nat) : Nat := ((List.range 4).find? fun r => decide (pref ≤ r) && decide (rungNeed r ≤ g)).getD 3

/-- Mode index of R342. -/
def Terms.mode (t : Terms) : Nat := if t.canonical then 1 else if t.compat then 2 else 0

def State.minFloor (s : State) (is : List Nat) : Nat := is.foldl (fun m i => Nat.min m (s.island i).admFloor) 100000

/-- ceil(bytes / bw) with bw of R344. -/
def State.bwDen (s : State) (memShare : Nat) : Nat := Nat.max 1 (memShare * s.part.rate * 816)
def State.bwNs (s : State) (memShare bytes : Nat) : Nat := ceilDiv (bytes * 100) (s.bwDen memShare)

/-- The floors of a placement, in MHz: clusters, slices, HBM islands. -/
structure Floors where
  fc : Nat
  fr : Nat
  fb : Nat
deriving DecidableEq, Repr

def State.floorsOf (s : State) (cores : List Nat) : Floors :=
  ⟨s.minFloor (cores.map clusterOf).eraseDups, s.minFloor ((List.range 16).map islRsv), s.minFloor ((List.range 6).map islHbm)⟩

/-- t[p] of R344. -/
def State.phaseNs (s : State) (t : Terms) (d : FolioDecl) (fm : Nat) (fl : Floors) (p : PhaseEntry) : Nat :=
  let m := t.mode
  let r := rungFor p.prefRung (reserveOf t d)
  let core := ceilDiv (p.coreCyc.getD (8 * m + 2 * r + fm) 0 * 16000) (t.issueShare * fl.fc)
  let slice := ceilDiv (p.sliceCyc.getD (2 * m + fm) 0 * 1000) fl.fr
  let dec := ceilDiv (p.decCyc.getD fm 0 * 1000) fl.fb
  let hbm := s.bwNs t.memShare (p.hbmBytes.getD fm 0) + p.hbmRounds * 160
  let far := if p.farBytes = 0 ∧ p.farRounds = 0 then 0
    else ceilDiv (p.farBytes * 16) (Nat.max 1 (t.memShare * Nat.min s.part.farGbs 920)) + p.farRounds * (s.part.farLat + 100)
  Nat.max core (Nat.max slice (Nat.max dec (Nat.max hbm far))) + s.collNs (s.groupOf t.group) m t.linkShare p + 500

def Terms.sMax (t : Terms) : Nat := (t.stepBlock.map (·.sMax)).getD 1
def Terms.interval (t : Terms) : Nat := (t.stepBlock.map (·.snapInterval)).getD 0

/-- The steps that R344 prices in a replay. -/
def Terms.replaySteps (t : Terms) : Nat := if t.interval = 0 then t.sMax else Nat.min t.sMax (t.interval + 1)

/-- The periodic snapshots of steps `from` to S_MAX − 1; none after the last step (R275). -/
def Terms.periodic (t : Terms) (done : Nat) : Nat :=
  if t.interval = 0 then 0 else (t.sMax - 1) / t.interval - done / t.interval

/-- Sum of per_step × t[p] over the per-step phases, and of t[p] over the others. -/
def stepSum (d : FolioDecl) (ts : List Nat) : Nat :=
  ((d.phases.zip ts).map fun x => if x.1.kind = 2 then x.1.perStep * x.2 else 0).sum
def onceSum (d : FolioDecl) (ts : List Nat) : Nat := ((d.phases.zip ts).map fun x => if x.1.kind = 2 then 0 else x.2).sum

/-- The first network phase of a step (R344). -/
def firstNetwork (d : FolioDecl) (ts : List Nat) : Nat := ((d.phases.zip ts).find? fun x => x.1.kind == 2).elim 0 (·.2)

/-- The terms of R344; `copies` when the admission makes a resident copy. -/
def State.price (s : State) (t : Terms) (d : FolioDecl) (cores : List Nat) (fm : Nat) (copies : Bool) : Price :=
  let fl := s.floorsOf cores
  let ts := d.phases.map (s.phaseNs t d fm fl)
  let step := stepSum d ts + 2000 + d.pagerNs
  { phases := ts, once := onceSum d ts + if copies then s.bwNs t.memShare d.residentBytes else 0, step := step,
    snapNum := d.snapBytes * 100, snapDen := s.bwDen t.memShare, first := firstNetwork d ts,
    start := if t.group = 0 then 0 else t.startWaitUs * 1000 + 6000,
    pre := 500 + ceilDiv ((128 * 64 + spillFootprint t d) * 1000) (64 * Nat.min fl.fc fl.fr), replay := none }

/-- The term of n snapshots, rounded up once (R344). -/
def Price.snaps (q : Price) (n : Nat) : Nat := ceilDiv (n * q.snapNum) q.snapDen - n * q.first

/-- The replay term of one restart, which a group's barrier carries (R344, R359). -/
def Price.replayTerm (q : Price) (t : Terms) : Nat := 50000 + ceilDiv q.snapNum q.snapDen + t.replaySteps * q.step

/-- What the restarts add to P_r: rounded up once, or from the group's largest replay term (R344, R359). -/
def Price.restartsNs (q : Price) (t : Terms) : Nat :=
  match q.replay with
  | some r => t.restarts * r
  | none => t.restarts * (50000 + t.replaySteps * q.step) + ceilDiv (t.restarts * q.snapNum) q.snapDen

/-- The bound p of R344 in ns. -/
def Price.bound (q : Price) (t : Terms) : Nat := q.start + q.pre + q.once + t.sMax * q.step + q.snaps (t.periodic 0) + 2000

/-- P and P_r in µs (R344). -/
def Price.promise (q : Price) (t : Terms) : Nat × Nat :=
  (ceilDiv (q.bound t) 1000, ceilDiv (q.bound t + q.restartsNs t) 1000)

/-- The job uses the far tier (R311, R344). -/
def usesFar (t : Terms) (d : FolioDecl) : Bool :=
  (t.inputBytes != 0 && decide (farLo ≤ t.input)) || d.phases.any fun p => p.farBytes != 0 || p.farRounds != 0

/-- DETAIL of a DEADLINE_INFEASIBLE refusal (R345). -/
def infeasibleDetail (p pr : Nat) : DWord := BitVec.ofNat 64 (satTo 0xFFFFFFFF pr * 2 ^ 32 + satTo 0xFFFFFFFF p)

/-! ## The table generations (R326) -/

/-- The SWF tensors of a folio that need a table: index, class, generation. -/
def needsTables (d : FolioDecl) : List (Nat × Nat × Nat) :=
  (d.swf.zipIdx.filter fun ti => ti.1.gen != 0).map fun ti => (ti.2, ti.1.cls, ti.1.gen)

/-- The refusal of R326. -/
def State.tableNeeds (s : State) (d : FolioDecl) : Option Refuse :=
  let slots := (needsTables d).map fun x => (x.2.1, s.slotWith x.2.1 x.2.2)
  if slots.any fun x => x.2.isNone then some (refuse stConflict rsTableAbsent)
  else chk (slots.any fun x => (s.tableWait.get none x.1).isSome && x.2 == some (s.olderSlot x.1)) (refuse stConflict rsTablePending)

def State.bindTables (s : State) (d : FolioDecl) : List (Nat × Nat × Nat) :=
  (needsTables d).filterMap fun x => (s.slotWith x.2.1 x.2.2).map fun i => (x.1, i, x.2.2)

/-! ## The checks of an admission, in the order of R531 -/

/-- What an admission decides: the job waits, is refused, or is accepted with its placement, folios and price. -/
inductive Verdict where
  | wait (reason : Nat)
  | refused (r : Refuse)
  | accepted (cores : List Nat) (folios : List Folio) (window : Nat) (price : Price)
deriving DecidableEq, Repr

/-- DETAIL of a LINK_SHARE refusal: the ports (R409). -/
def portsDetail (ps : List Nat) : DWord := BitVec.ofNat 64 (ps.map fun p => 2 ^ p).sum

/-- The folios once a job of a folio is admitted: an unused folio becomes resident when its ways fit, and is streamed otherwise
(R297). -/
def State.modeChosen (s : State) (f : Folio) (window : Nat) : List Folio :=
  if s.folioInUse f.id then s.folios
  else
    let kept := fun g : Folio => g.pin == 2 || s.folioInUse g.id
    let room := waysFor s.part.scratch - 4 - s.stagingHeld - window
    let others := s.folios.map fun g => if g.id = f.id then { g with resident := false } else g
    let fs := demote (fun g => !kept g) (room - f.ways) others
    if residentWays fs + f.ways ≤ room then fs.map fun g => if g.id = f.id then { g with resident := true, decoded := if f.resident then g.decoded else [] } else g
    else others

/-- Checks 2 to 5 for a G job on its placement. -/
def State.verdictG (s : State) (t : Terms) (f : Folio) (cores : List Nat) : Verdict :=
  let gs := (s.admittedJobs.filter fun kj => kj.2.isG).map (·.2)
  let g := s.groupOf t.group
  let window := f.decl.phases.foldl (fun m p => Nat.max m p.windowWays) 2
  if 16 < (gs.map (·.terms.memShare)).sum + t.memShare then .refused (refuse stNoResource rsMemShare)
  else if 16 < (gs.map (·.terms.linkShare)).sum + t.linkShare then .refused (refuse stNoResource rsLinkShare)
  else if !(s.deadPorts g).isEmpty then .refused (stNoResource, rsLinkShare, portsDetail (s.deadPorts g))
  else if t.linkShare ≠ 0 ∧ !(s.thinPorts g f.decl).isEmpty then .refused (stNoResource, rsLinkShare, portsDetail (s.thinPorts g f.decl))
  else match s.granuleShort t f.decl cores with
    | some (n, free) => .refused (stNoResource, rsSpill, BitVec.ofNat 64 (n % 65536 * 65536 + free % 65536))
    | none =>
      if waysFor s.part.scratch < 4 + residentWays s.folios + s.stagingHeld + window then .refused (refuse stNoResource rsStaging)
      else
        let fs := s.modeChosen f window
        let res := fs.any fun h => h.id == f.id && h.resident
        let q := s.price t f.decl cores (if res then 0 else 1) (res && !f.resident)
        let (p, pr) := q.promise t
        if usesFar t f.decl ∧ s.part.farGbs = 0 then .refused (stInfeasible, 0, infeasibleDetail 0xFFFFFFFF 0xFFFFFFFF)
        else if t.deadlineUs < pr then .refused (stInfeasible, 0, infeasibleDetail p pr)
        else .accepted cores fs window q

/-- Checks 2 and 3 for an S or B job on its placement. -/
def State.verdictSB (s : State) (t : Terms) (f : Folio) (cores : List Nat) : Verdict :=
  let g := s.groupOf t.group
  if !(s.deadPorts g).isEmpty then .refused (stNoResource, rsLinkShare, portsDetail (s.deadPorts g))
  else if (s.granuleShort t f.decl cores).isSome then .wait rsScratch
  else .accepted cores (s.modeChosen f 0) 0 ⟨[], 0, 0, 0, 1, 0, 0, 0, none⟩

/-- The decision on a job (R337, R528, R531). -/
def State.verdict (s : State) (t : Terms) : Verdict :=
  match s.folio t.folio with
  | none => .refused (refuse stBadParam rsUnknownFolio)
  | some f =>
    if f.invalid then .refused (refuse stConflict rsFolioInvalid)
    else match s.placement t f with
      | .error r => if t.cls = 0 then .refused (refuse stNoResource r) else .wait r
      | .ok cores => if t.cls = 0 then s.verdictG t f cores else s.verdictSB t f cores

end Sys2Proof.Machine
end

