-- ==== Sys2Proof/Machine/Pager.lean ====
section
/-!
DEFINITION. The paged key-value cache (08): KV_PAGE_MAP, SEQ_JOIN, SEQ_LEAVE, the pager's work at a cut (R233, R244 to R248), its
decisions for a group (R252), page descriptors (R234 to R236), the pager part of a snapshot (R529) and the decision records.
-/
namespace Sys2Proof.Machine

/-! ## A job's allocation (R283) -/

def rangesHit (a b : Nat × Nat) : Bool := decide (a.2 ≠ 0) && decide (b.2 ≠ 0) && overlaps a.1 a.2 b.1 b.2

/-- Two of the ranges overlap. -/
def anyOverlap : List (Nat × Nat) → Bool
  | [] => false
  | r :: rs => rs.any (rangesHit r) || anyOverlap rs

/-- A range of whole lines that lies in HBM outside the folio area. -/
def State.inHbm (s : State) (r : Nat × Nat) : Bool := r.2 == 0 || (decide (r.1 + r.2 ≤ s.folioLo))

def linesRange (r : Nat × Nat) : Bool := r.1 % 64 == 0 && r.2 % 64 == 0

/-- The jobs not in RELEASED, but for one slot. -/
def State.otherJobs (s : State) (k : Nat) : List Job := (s.jobList.filter fun kj => kj.1 != k).map (·.2)

/-! ## The job that a command names (R370, R382, R389) -/

/-- The check of a command that names a job: an identifier that no job holds is UNKNOWN_JOB unless it was released lately; `rule`
judges the job, and a job that ended in a bounds error answers with that (R177). -/
def State.jobCheck (s : State) (p : Pkt) (rule : Nat → Job → Option Refuse) : Option Refuse :=
  match s.slotOf p.jobId with
  | none => some (if s.sys.released.contains p.jobId then refuse stConflict 0 else refuse stBadParam rsUnknownJob)
  | some k => match s.job k with
    | none => some (refuse stBadParam rsUnknownJob)
    | some j => (rule k j).map fun r => j.boundsEnd.getD r

/-- The device of a group job is rank 0, or the job has no group (R252). -/
def State.leads (s : State) (j : Job) : Bool :=
  match s.groupOf j.terms.group with
  | some g => s.topo.isRoot g
  | none => true

/-! ## KV_PAGE_MAP (R231, R283) -/

def State.mapCheck (s : State) (k : Nat) (j : Job) (pool table n : Nat) : Option Refuse :=
  match (s.declOf j).bind (·.attn) with
  | none => some (refuse stBadParam 0)
  | some a =>
    let mine := (j.terms.input, j.terms.inputBytes) :: s.writableRanges { j with pager := none }
    let new := [(pool, n * a.slotBytes), (table, 4 * a.nMax)]
    (chk (j.terms.stepBlock.isNone || !new.all s.inHbm || new.any (fun r => mine.any (rangesHit r)) || anyOverlap new ||
      (s.otherJobs k).any fun o => new.any fun r =>
        rangesHit r (o.terms.input, o.terms.inputBytes) || (s.writableRanges o).any (rangesHit r)) (refuse stBadParam 0)).or
    (chk (j.pager.isSome || j.step.isSome || !([JobState.submitted, .accepted, .running, .preempted].contains j.st))
      (refuse stConflict 0))

/-- A pool just named, not yet mapped. -/
def Pager.fresh (pool table n : Nat) : Pager :=
  { poolBase := pool, tableBase := table, n := n, unreserved := n, seqs := [], owned := [], scaled := [], wrote := [],
    queue := [], decisions := [], mapped := false }

/-- KV_PAGE_MAP. -/
def execKvPageMap (n : Fin 64) (p : Pkt) (s : State) : Res :=
  let (pool, table, cnt) := (p.arg 0 8, p.arg 8 8, p.arg 16 4)
  ringRes p (s.cmd n opKvPageMap p
    (badParam (pool % 64 != 0 || table % 64 != 0 || decide (cnt < 1) || decide (2 ^ 24 < cnt) || !zeroAt p.body 20 4))
    (s.jobCheck p fun k j => s.mapCheck k j pool table cnt)
    fun t => match t.slotOf p.jobId with
      | none => t
      | some k =>
        (t.modJob k fun j => { j with pager := some (Pager.fresh pool table cnt) }).accept n opKvPageMap p (.kvPageMap k) 0)

/-- KV_PAGE_MAP_DONE: every page-table entry has been written 0, and the pool is the job's. -/
def execKvPageMapDone (op : Nat) (s : State) : Res :=
  .next (match s.opOf op with
    | some o => match o.kind with
      | .kvPageMap k => match s.job k with
        | some j => match j.pager, (s.declOf j).bind (·.attn) with
          | some g, some a =>
            ((s.devWrite g.tableBase (List.replicate (4 * a.nMax) 0)).modJob k fun j =>
              { j with pager := some { g with mapped := true } }).finishOp o stOk 0 0
          | _, _ => s
        | none => s
      | _ => s
    | none => s)

/-! ## SEQ_JOIN and SEQ_LEAVE (R242, R243, R389) -/

/-- The reserve of a sequence (R244). -/
def seqReserve (a : AttnDecl) (tMax : Nat) : Nat := a.layers * a.hkv * ceilDiv tMax 64

/-- The admitted sequences by slot. -/
def Pager.admittedSeqs (g : Pager) : List (Nat × SeqEnt) := g.seqs.filterMap fun kv => kv.2.map fun e => (kv.1, e)

def Pager.hasSeq (g : Pager) (tag : Word) : Bool := g.admittedSeqs.any fun x => x.2.tag == tag
def Pager.hasJoin (g : Pager) (tag : Word) : Bool := g.queue.any fun r => !r.leave && r.tag == tag
def Pager.hasLeave (g : Pager) (tag : Word) : Bool := g.queue.any fun r => r.leave && r.tag == tag

/-- States in which joins and leaves are legal (R389). -/
def JobState.takesSeq (st : JobState) : Bool := !st.final && st != .released

def State.joinCheck (s : State) (j : Job) (tag : Word) (tMax : Nat) : Option Refuse :=
  match (s.declOf j).bind (·.attn) with
  | none => some (refuse stBadParam 0)
  | some a =>
    (chk (decide (a.tLimit < tMax) || !s.leads j) (refuse stBadParam 0)).or
    (chk (!j.st.takesSeq || match j.pager with
      | some g => !g.mapped || g.hasSeq tag || g.hasJoin tag
      | none => true) (refuse stConflict 0))

/-- DETAIL of the ACCEPTED reply of a join (R242). -/
def State.joinDetail (s : State) (j : Job) (tMax : Nat) : DWord :=
  BitVec.ofNat 64 (match (s.declOf j).bind (·.attn) with
    | some a => seqReserve a tMax % 2 ^ 24 * 2 ^ 16
    | none => 0)

/-- The command joins the queue of the job's pager and replies ACCEPTED. -/
def State.queueSeq (s : State) (n op : Nat) (p : Pkt) (leave : Bool) (t0 tMax prompt : Nat) : State :=
  match s.slotOf p.jobId with
  | none => s
  | some k => match s.job k with
    | none => s
    | some j =>
      let r : SeqReq := { op := s.sys.fetchNo - 1, ring := n, seq := p.seq, leave := leave, tag := BitVec.ofNat 32 (p.arg 0 4),
                          t0 := t0, tMax := tMax, prompt := prompt, deferred := false }
      (s.modJob k fun j => { j with pager := j.pager.map fun g => { g with queue := g.queue ++ [r] } }).accept n op p (.seq k)
        (if leave then 0 else s.joinDetail j tMax)

/-- SEQ_JOIN. -/
def execSeqJoin (n : Fin 64) (p : Pkt) (s : State) : Res :=
  ringRes p (s.cmd n opSeqJoin p
    (badParam (!zeroAt p.body 12 4 || p.arg 16 8 % 64 != 0 || decide (hbmBytes ≤ p.arg 16 8) || p.arg 4 4 == 0 ||
      decide (p.arg 8 4 < p.arg 4 4)))
    (s.jobCheck p fun _ j => s.joinCheck j (BitVec.ofNat 32 (p.arg 0 4)) (p.arg 8 4))
    fun t => t.queueSeq n opSeqJoin p false (p.arg 4 4) (p.arg 8 4) (p.arg 16 8))

def State.leaveCheck (s : State) (j : Job) (tag : Word) : Option Refuse :=
  (chk (!s.leads j) (refuse stBadParam 0)).or ((chk (!j.st.takesSeq) (refuse stConflict 0)).or (match j.pager with
    | some g => (chk (!g.hasSeq tag && !g.hasJoin tag) (refuse stBadParam 0)).or (chk (g.hasLeave tag) (refuse stConflict 0))
    | none => some (refuse stBadParam 0)))

/-- SEQ_LEAVE. -/
def execSeqLeave (n : Fin 64) (p : Pkt) (s : State) : Res :=
  ringRes p (s.cmd n opSeqLeave p (badParam (!zeroAt p.body 4 4))
    (s.jobCheck p fun _ j => s.leaveCheck j (BitVec.ofNat 32 (p.arg 0 4)))
    fun t => t.queueSeq n opSeqLeave p true 0 0 0)

/-! ## The pager's work at a cut (R233, R244, R246, R247) -/

/-- The tokens of a sequence after its next step: its prompt at first, then one more a step (R242, R244). -/
def seqAfter (e : SeqEnt) : Nat := if e.tokens = 0 then e.t0 else e.tokens + 1

/-- Page-table index of slot q, layer l, head h, page p (R232). -/
def pageIndex (a : AttnDecl) (q l h p : Nat) : Nat := ((q * a.layers + l) * a.hkv + h) * a.pMax + p

def State.pageEntry (s : State) (g : Pager) (i : Nat) : Nat := leNat (s.devBytes (g.tableBase + 4 * i) 4)
def State.setPageEntry (s : State) (g : Pager) (i v : Nat) : State := s.devWrite (g.tableBase + 4 * i) (leBytes 4 v)

/-- The pages of a sequence that hold its first n tokens, in ascending page-table index. -/
def seqPages (a : AttnDecl) (q lo hi : Nat) : List (Nat × Nat × Nat × Nat) :=
  (List.range a.layers).flatMap fun l => (List.range a.hkv).flatMap fun h =>
    ((List.range hi).drop lo).map fun p => (pageIndex a q l h p, l, h, p)

/-- The page-table entries of the admitted sequences' pages. -/
def State.seqTable (s : State) (a : AttnDecl) (g : Pager) : List (Nat × Nat) :=
  g.admittedSeqs.flatMap fun x => (seqPages a x.1 0 (ceilDiv (seqAfter x.2) 64)).map fun y => (y.1, s.pageEntry g y.1)

/-- A page scale byte before the first write: 0x7F where R226 fixes it, else a free value. -/
def State.freshScale (s : State) (c : BitVec 4) : Byte := if [1, 2].contains c.toNat || fmtMx c then 0x7F else s.free32.truncate 8

/-- The header line of a page slot, with the format codes of its layer (R226, R229). -/
def pageHeader (a : LayerDecl) (ks vs : Byte) (tokens q l h p : Nat) : List Byte :=
  [BitVec.ofNat 8 a.kFmt.toNat, ks, BitVec.ofNat 8 a.vFmt.toNat, vs] ++ leBytes 2 tokens ++ [0, 0] ++ leBytes 2 q ++ leBytes 2 l ++
    leBytes 2 h ++ [0, 0] ++ leBytes 4 p ++ List.replicate 44 0

/-- Allocate the lowest free slot for a page: its header, then the entry (R233). None where no slot is free. -/
def State.allocPage (s : State) (a : AttnDecl) (g : Pager) (q : Nat) (x : Nat × Nat × Nat × Nat) : Option (State × Pager) :=
  (((List.range g.n).find? fun i => !(g.owned.get false i))).map fun i =>
    let y := a.layer x.2.1
    let hd := pageHeader y (s.freshScale y.kFmt) (s.freshScale y.vFmt) 0 q x.2.1 x.2.2.1 x.2.2.2
    let s := (s.took.devWrite (g.poolBase + i * a.slotBytes) hd).setPageEntry g x.1 (2 ^ 31 + i)
    (s, { g with owned := g.owned.set false i true, scaled := g.scaled.filter (·.1 != i), wrote := g.wrote.filter (·.1 != i) })

/-- Free the slots of a sequence: the entries are cleared, the contents stay (R233). -/
def State.freeSeq (s : State) (a : AttnDecl) (g : Pager) (q : Nat) (e : SeqEnt) : State × Pager :=
  (seqPages a q 0 (ceilDiv e.tokens 64)).foldl (fun (acc : State × Pager) x =>
    let v := acc.1.pageEntry g x.1
    if v < 2 ^ 31 then acc
    else (acc.1.setPageEntry g x.1 0, { acc.2 with owned := acc.2.owned.set false (v % 2 ^ 24) false })) (s, g)

/-- What a cut decides of one command, as rank 0 tells its group (R252). -/
def seqDecision (r : SeqReq) (slot status reason : Nat) (withdrawn : Bool) : PagerDecision :=
  ⟨r.leave, r.tag, slot, BitVec.ofNat 8 status, BitVec.ofNat 8 reason, r.t0, r.tMax, r.prompt, r.ring, r.seq, r.op, withdrawn⟩

/-- DETAIL of a decision record (R248). -/
def seqDetail (unreserved reserve slot : Nat) (withdrawn : Bool) : DWord :=
  BitVec.ofNat 64 (unreserved % 2 ^ 24 * 2 ^ 40 + reserve % 2 ^ 24 * 2 ^ 16 + slot % 2 ^ 15 * 2 + if withdrawn then 1 else 0)

def noSlot : Nat := 0x7FFF

/-- The pager at work: memory, pager, the decisions so far (with the ordinal of the snapshot that will hold them) and what rank 0
sends. -/
structure CutWork where
  s : State
  g : Pager
  news : List PagerDecision
deriving DecidableEq, Repr

def CutWork.decide (w : CutWork) (ord : Nat) (r : SeqReq) (final : Bool) (status reason : Nat) (detail : DWord) (slot : Nat) :
    CutWork :=
  { w with
    g := { w.g with decisions := w.g.decisions ++ [⟨ord, r, final, status, reason, detail⟩],
                    queue := if final then w.g.queue.filter (·.op != r.op) else w.g.queue },
    news := w.news ++ [seqDecision r slot status reason (detail.getLsbD 0)] }

/-- A queued leave (R246). -/
def CutWork.leave (w : CutWork) (a : AttnDecl) (ord : Nat) (r : SeqReq) : CutWork :=
  match w.g.queue.find? fun x => !x.leave && x.tag == r.tag with
  | some j =>
    let w := w.decide ord j true stConflict 0 (seqDetail w.g.unreserved (seqReserve a j.tMax) noSlot true) noSlot
    w.decide ord r true stOk 0 (seqDetail w.g.unreserved (seqReserve a j.tMax) noSlot true) noSlot
  | none => match w.g.admittedSeqs.find? fun x => x.2.tag == r.tag with
    | some (q, e) =>
      let (s, g) := w.s.freeSeq a w.g q e
      let g := { g with unreserved := g.unreserved + seqReserve a e.tMax, seqs := g.seqs.set none q none }
      ({ w with s := s, g := g } : CutWork).decide ord r true stOk 0 (seqDetail g.unreserved (seqReserve a e.tMax) q false) q
    | none => w.decide ord r true stBadParam 0 0 noSlot

/-- The joins in order of arrival; once one is deferred, every later one is deferred with its reason (R246, R247). -/
def CutWork.joins (a : AttnDecl) (ord : Nat) : List SeqReq → Option Nat → CutWork → CutWork
  | [], _, w => w
  | r :: rs, hold, w =>
    let need := seqReserve a r.tMax
    let defer := fun (w : CutWork) (why : Nat) =>
      if r.deferred then w
      else
        let w := w.decide ord r false stDeferred why (seqDetail w.g.unreserved need noSlot false) noSlot
        { w with g := { w.g with queue := w.g.queue.map fun x => if x.op = r.op then { x with deferred := true } else x } }
    match hold with
    | some why => CutWork.joins a ord rs hold (defer w why)
    | none =>
      if w.g.n < need then
        CutWork.joins a ord rs none (w.decide ord r true stNoResource 0 (seqDetail w.g.unreserved need noSlot false) noSlot)
      else match (List.range a.bMax).find? fun q => (w.g.seqs.get none q).isNone with
        | none => CutWork.joins a ord rs (some rsSeqSlots) (defer w rsSeqSlots)
        | some q =>
          if w.g.unreserved < need then CutWork.joins a ord rs (some rsKvPages) (defer w rsKvPages)
          else
            let g := { w.g with unreserved := w.g.unreserved - need,
                                seqs := w.g.seqs.set none q (some ⟨r.tag, 0, r.tMax, r.t0, r.prompt⟩) }
            CutWork.joins a ord rs none
              (({ w with g := g } : CutWork).decide ord r true stOk 0 (seqDetail g.unreserved need q false) q)

/-- The pages that the next step writes, for each admitted sequence in ascending slot; none where a slot lacks (R246, R252). -/
def State.growPages (s : State) (a : AttnDecl) (g : Pager) : Option (State × Pager) :=
  g.admittedSeqs.foldl (fun acc x => acc.bind fun sg =>
    (seqPages a x.1 (ceilDiv x.2.tokens 64) (ceilDiv (seqAfter x.2) 64)).foldl
      (fun acc y => acc.bind fun sg => sg.1.allocPage a sg.2 x.1 y) (some sg)) (some (s, g))

/-- The headers' TOKENS field follows the tokens written by the step just done (R226). -/
def State.countTokens (s : State) (a : AttnDecl) (g : Pager) : State × Pager :=
  g.admittedSeqs.foldl (fun (acc : State × Pager) x =>
    let n := seqAfter x.2
    let s := acc.1.each (seqPages a x.1 (x.2.tokens / 64) (ceilDiv n 64)) fun s y =>
      let v := s.pageEntry g y.1
      if v < 2 ^ 31 then s
      else s.devWrite (g.poolBase + v % 2 ^ 24 * a.slotBytes + 4) (leBytes 2 (Nat.min 64 (n - 64 * y.2.2.2)))
    (s, { acc.2 with seqs := acc.2.seqs.set none x.1 (some { x.2 with tokens := n }) })) (s, { g with wrote := [] })

/-- The command's ACCEPTED has been written: it does not wait in its pair's backlog (R245, R366). -/
def State.replied (s : State) (r : SeqReq) : Bool :=
  !((s.ring r.ring).backlog.any fun w => w.seq == r.seq && (w.opcode == opSeqJoin || w.opcode == opSeqLeave))

/-- The pager's decisions at a cut (R245, R246): leaves, then joins, each once its ACCEPTED has been written; a leave whose join waits
for that waits with it. -/
def State.pagerCut (s : State) (a : AttnDecl) (g : Pager) (ord : Nat) : CutWork :=
  let leaves := g.queue.filter fun r => r.leave && s.replied r && g.queue.all fun x => x.leave || x.tag != r.tag || s.replied x
  let w := leaves.foldl (fun w r => CutWork.leave w a ord r) ⟨s, g, []⟩
  CutWork.joins a ord (w.g.queue.filter fun r => !r.leave && s.replied r) none w

/-- The lines of page table and headers that a boundary reads or writes in part: those of the admitted sequences' pages (R310). -/
def State.pagerLines (s : State) (a : AttnDecl) (g : Pager) : List Nat :=
  g.admittedSeqs.flatMap fun x => (seqPages a x.1 0 (ceilDiv (seqAfter x.2 + 1) 64)).flatMap fun y =>
    let v := s.pageEntry g y.1
    (g.tableBase + 4 * y.1) :: if 2 ^ 31 ≤ v then [g.poolBase + v % 2 ^ 24 * a.slotBytes] else []

/-- The first of those lines whose welt fails its check: a welt error of the scribe's (R236, R310). -/
def State.pagerBad (s : State) (a : AttnDecl) (g : Pager) : Option Nat := (s.pagerLines a g).findSome? fun x => s.badLine x 4

/-- The decisions of rank 0 applied on another device of the group (R252): its sequences, its slots and the deferred queue follow. -/
def State.applyNews (s : State) (a : AttnDecl) (g : Pager) (ds : List PagerDecision) : State × Pager :=
  ds.foldl (fun (acc : State × Pager) d =>
    let drop := { acc.2 with queue := acc.2.queue.filter (·.op != d.op) }
    if d.leave then
      if d.withdrawn then acc
      else match acc.2.seqs.get none d.slot with
        | some e =>
          let (s, g) := acc.1.freeSeq a acc.2 d.slot e
          (s, { g with unreserved := g.unreserved + seqReserve a e.tMax, seqs := g.seqs.set none d.slot none })
        | none => acc
    else if d.status.toNat = stDeferred then
      (acc.1, { drop with queue := drop.queue ++ [⟨d.op, d.ring, d.seq, false, d.tag, d.t0, d.tMax, d.prompt, true⟩] })
    else if d.status.toNat = stOk then
      (acc.1, { drop with unreserved := drop.unreserved - seqReserve a d.tMax,
                          seqs := drop.seqs.set none d.slot (some ⟨d.tag, 0, d.tMax, d.t0, d.prompt⟩) })
    else (acc.1, drop)) (s, g)

/-! ## The pager part of a snapshot (R529) -/

def padLine (bs : List Byte) : List Byte := bs ++ List.replicate (64 * ceilDiv bs.length 64 - bs.length) 0

def Pager.bytes (g : Pager) (a : AttnDecl) : List Byte :=
  let defs := g.queue.filter fun r => !r.leave && r.deferred
  let head := leBytes 4 g.unreserved ++ leBytes 4 g.n ++ leBytes 4 defs.length ++ leBytes 4 a.bMax ++ List.replicate 48 0
  let table := (List.range a.bMax).flatMap fun q => match g.seqs.get none q with
    | some e => leBytes 4 e.tag.toNat ++ leBytes 4 e.tokens ++ leBytes 4 e.tMax ++ leBytes 4 1
    | none => List.replicate 16 0
  let bits := (List.range (ceilDiv a.nMax 8)).map fun i =>
    BitVec.ofNat 8 ((List.range 8).map fun b => if g.owned.get false (8 * i + b) then 2 ^ b else 0).sum
  let queue := defs.flatMap fun r =>
    leBytes 4 r.tag.toNat ++ leBytes 4 r.t0 ++ leBytes 4 r.tMax ++ leBytes 4 r.ring ++ leBytes 4 r.seq.toNat ++
      List.replicate 4 0 ++ leBytes 8 r.prompt
  head ++ padLine table ++ padLine bits ++ queue ++ List.replicate (131072 - queue.length) 0

/-! ## Page descriptors (R234 to R236, R240) -/

/-- P_step of R240. -/
def Pager.pStep (g : Pager) : Nat := (g.admittedSeqs.map fun x => ceilDiv (seqAfter x.2) 64).foldl Nat.max 0

/-- The address of a page's header line. -/
def State.pageAt (s : State) (a : AttnDecl) (g : Pager) (q l h p : Nat) : Nat :=
  g.poolBase + s.pageEntry g (pageIndex a q l h p) % 2 ^ 24 * a.slotBytes

/-- The lines that the scribe reads for the descriptor of page p: the page-table entry's and the header (R234, R310). -/
def State.descReads (s : State) (a : AttnDecl) (g : Pager) (q l h p : Nat) (e : SeqEnt) : List Nat :=
  if ceilDiv (seqAfter e) 64 ≤ p then [] else [g.tableBase + 4 * pageIndex a q l h p, s.pageAt a g q l h p]

/-- The descriptor of page p of sequence slot q (R235); a page beyond the sequence's own is a pad (R240). -/
def State.pageDesc (s : State) (a : AttnDecl) (g : Pager) (q l h p : Nat) (e : SeqEnt) : PageDesc :=
  let n := seqAfter e
  let at0 := s.pageAt a g q l h p
  let hd := s.devBytes at0 64
  let y := a.layer l
  if ceilDiv n 64 ≤ p then ⟨0, 0, y.kFmt, 0x7F, y.vFmt, 0x7F, 0, h, 64 * p, q, false, true⟩
  else
    { kAddr := at0 + 64, vAddr := at0 + 64 + a.kb l, kFmt := BitVec.ofNat 4 (fieldAt hd 0 1), kScale := hd.getD 1 0,
      vFmt := BitVec.ofNat 4 (fieldAt hd 2 1), vScale := hd.getD 3 0, tokens := Nat.min 64 (n - 64 * p), kvHead := h,
      basePos := 64 * p, slotSeq := q, last := p + 1 == ceilDiv n 64, pad := false }

/-! ## Decision records (R248, R249) -/

/-- Every device of the job has committed the snapshot of the ordinal. -/
def Job.committedAll (j : Job) (ord : Nat) : Bool :=
  match j.combined with
  | some c => decide (ord ≤ c)
  | none => false

/-- PAGER_DECISION_RECORD: the first decision whose snapshot is committed on every device is written to its ring (R249). -/
def execPagerDecisionRecord (slot : Fin 64) (s : State) : Res :=
  .next (match s.job slot with
    | some j => match j.pager with
      | some g => match g.decisions with
        | x :: xs =>
          if !j.committedAll x.ordinal then s
          else
            let s := s.modJob slot fun j => { j with pager := some { g with decisions := xs } }
            match s.opOf x.req.op with
            | some o =>
              if x.final then s.finishOp o x.status x.reason x.detail
              else s.sendRec o.ring (s.cmdRec o.opcode o.seq o.job x.status x.reason 0 x.detail)
            | none => s
        | [] => s
      | none => s
    | none => s)

end Sys2Proof.Machine
end

