-- ==== Sys2Proof/Machine/Steps.lean ====
section
/-!
DEFINITION. Phases and steps (06, 09, 12): the start of a phase instance (R175 to R186, R264), the cut of a step and its boundary
actions (R255 to R266), snapshots (R275 to R279), completion, and the instants of R347 and R349.
-/
namespace Sys2Proof.Machine

/-! ## Control messages of a job's group (R416, R417) -/

/-- Send towards rank 0, or at rank 0 back along the tree. -/
def State.sendGroup (s : State) (j : Job) (down : Bool) (msg : Nat) (payload : List Byte) : State :=
  match s.groupOf j.terms.group with
  | none => s
  | some g => if down then s.sendDown j.terms.group g msg j.restartsTaken payload
    else s.sendUp j.terms.group g msg j.restartsTaken payload

/-- The ranks of this device's children in the tree of R417. -/
def State.childRanks (s : State) (j : Job) : List Nat :=
  match s.groupOf j.terms.group with
  | none => []
  | some g => (s.topo.children g).map fun c => g.rank c.1

def State.isGroupJob (s : State) (j : Job) : Bool := (s.groupOf j.terms.group).isSome

/-! ## The step scalars (R257 to R259) -/

def State.setContexts (s : State) (k : Nat) (cores : List Nat) (f : Ctx → Ctx) : State :=
  s.each cores fun s c => s.modCore c fun x => { x with ctxs := x.ctxs.modify Ctx.empty k f }

/-- What the sequencer finds as it reads schedule row min(n, SCHED_ROWS − 1): the row, none without a table; a line whose welt fails; an
address that is no longer mapped (R257, R259, R282). -/
inductive SchedRow where
  | row (bs : List Byte)
  | bad (line : Nat)
  | unmapped
deriving DecidableEq, Repr

def State.schedRow (s : State) (j : Job) (n : Nat) : SchedRow :=
  match j.terms.stepBlock with
  | none => .row []
  | some b =>
    let a := b.schedAddr + 64 * Nat.min n (b.schedRows - 1)
    if b.schedRows = 0 then .row []
    else if !s.mappedRange a 64 then .unmapped
    else match s.badLine a 64 with
      | some l => .bad l
      | none => .row (s.devBytes a 64)

/-- The scribe's read of a row. -/
def State.touchRow (s : State) (j : Job) (n : Nat) : State :=
  match j.terms.stepBlock with
  | none => s
  | some b => if b.schedRows = 0 then s else s.touch (b.schedAddr + 64 * Nat.min n (b.schedRows - 1)) 64

/-- A row goes into K0 to K15 of every core, columns beyond SCHED_COLS as +0; the stop accumulators start at +0 (R257, R258, R265). -/
def State.putScalars (s : State) (k : Nat) (j : Job) (row : List Byte) : State :=
  let cols := (j.terms.stepBlock.map (·.schedCols)).getD 0
  let ks := SMap.ofFn (0 : Word) 16 fun c => if c < cols then BitVec.ofNat 32 (fieldAt row (4 * c) 4) else 0
  s.setContexts k j.cores fun x => { x with ksc := ks, stopAcc := 0 }

/-- The row of step n + 1 is read during step n, the last one too, and its failure raised (R259). DESIGN CHOICE (log 65): at the step's
beginning. -/
def State.readAhead (s : State) (k : Nat) (j : Job) (n : Nat) : State :=
  match s.schedRow j (n + 1) with
  | .row bs => (s.touchRow j (n + 1)).modJob k fun j => { j with nextRow := some bs }
  | .bad l => s.lineFault k cWeltLine islCtl l
  | .unmapped => s.detect k cControl islCtl 0

/-- Part 1 of step n: the row read ahead, or one read now, is delivered; then the next row is read (R255, R259). -/
def State.deliverRow (s : State) (k : Nat) (j : Job) (n : Nat) : State :=
  match (match j.nextRow with
    | some bs => SchedRow.row bs
    | none => s.schedRow j n) with
  | .row bs => (s.putScalars k j bs).readAhead k j n
  | .bad l => s.lineFault k cWeltLine islCtl l
  | .unmapped => s.detect k cControl islCtl 0

/-- Step n begins. -/
def State.beginStep (s : State) (k n : Nat) : State :=
  let s := s.modJob k fun j => { j with
    step := some n, latches := [], batchRows := [], attended := [], peerStats := j.nextStats, nextStats := [], allStat := none, atCut := false }
  match s.job k with
  | some j => s.deliverRow k j n
  | none => s

/-! ## Snapshots (R275 to R279) -/

/-- The header line of a snapshot slot (R276). -/
def snapHeader (j : Job) (x : SnapInfo) (committed : Bool) (count : Nat) : List Byte :=
  leBytes 4 j.id ++ leBytes 4 x.step.toNat ++ leBytes 4 x.ordinal ++ [if committed then 1 else 0, 0] ++ leBytes 2 x.flags.toNat ++
    leBytes 2 x.stopRun ++ [0, 0] ++ leBytes 4 x.stopStat.toNat ++ leBytes 8 x.bodyBytes ++ leBytes 6 count ++ [0, 0] ++
    List.replicate 24 0

def snapSlot (b : StepBlock) (d : FolioDecl) (ordinal : Nat) : Nat := b.snapAddr + ordinal % 2 * d.snapBytes

/-- The pager part of a snapshot of a folio with an attention phase (R529). -/
def pagerPart (d : FolioDecl) (g : Option Pager) : List Byte :=
  match d.attn with
  | none => []
  | some a => (g.getD (Pager.fresh 0 0 0)).bytes a

/-- The tensors of a snapshot in the folio's order, each from a line start (R276). -/
def State.snapTensorBytes (s : State) (j : Job) (d : FolioDecl) : List Byte :=
  d.snapTensors.flatMap fun t => padLine (s.devBytes (j.terms.work + t.off) t.bytes)

/-- Steps 1 and 2 of R277, once the snapshot before is committed on every device (R279). -/
def State.writeSnap (s : State) (k : Nat) : State :=
  match s.job k with
  | none => s
  | some j => match j.snap, j.terms.stepBlock, s.declOf j with
    | some x, some b, some d =>
      if x.begun || !(x.ordinal == 0 || j.committedAll (x.ordinal - 1)) then s
      else match d.snapTensors.findSome? fun t => s.badLine (j.terms.work + t.off) t.bytes with
        | some l => s.lineFault k cWeltLine islCtl l
        | none =>
          let a := snapSlot b d x.ordinal
          let body := pagerPart d x.pager ++ s.snapTensorBytes j d
          let s := s.each d.snapTensors fun s t => s.touch (j.terms.work + t.off) t.bytes
          ((s.devWrite a (snapHeader j x false 0)).devWrite (a + 64) body).modJob k fun j =>
            { j with snap := some { x with begun := true } }
    | _, _, _ => s

/-- A snapshot falls due after step `step`, all ones for the initial one (R275). -/
def State.startSnap (s : State) (k : Nat) (step : Word) : State :=
  match s.job k with
  | none => s
  | some j => match s.declOf j with
    | some d =>
      if j.terms.stepBlock.isNone then s
      else
        let x : SnapInfo := { ordinal := j.snapNext, step := step, flags := s.jobFlags k j, stopRun := j.stopRun,
                              stopStat := j.stopStat, bodyBytes := d.bodyBytes, pager := j.pager,
                              table := match d.attn, j.pager with
                                | some a, some g => s.seqTable a g
                                | _, _ => [],
                              begun := false }
        (s.modJob k fun j => { j with snap := some x, snapNext := j.snapNext + 1 }).writeSnap k
    | none => s

/-- The newest ordinal that this device and every child's part of the tree have committed. -/
def State.treeCommit (s : State) (j : Job) : Option Nat :=
  (s.childRanks j).foldl (fun m r => match m, j.peerCommits.lookup r with
    | some a, some b => some (Nat.min a b)
    | _, _ => none) (j.snaps.head?.map (·.ordinal))

/-- A commit notice has raised what the tree below has committed: rank 0 tells every device, another its parent (R279, R417). -/
def State.passCommit (s : State) (k : Nat) (before : Option Nat) : State :=
  match s.job k with
  | none => s
  | some j =>
    let after := s.treeCommit j
    if after = before then s
    else match after with
      | none => s
      | some n =>
        if s.leads j then
          ((s.modJob k fun j => { j with combined := some n }).sendGroup j true msgCommit (leBytes 4 n)).writeSnap k
        else s.sendGroup j false msgCommit (leBytes 4 n)

/-- SNAPSHOT_COMMIT: once every line of the body has been accepted, the header is written with STATE 1 (R277). -/
def execSnapshotCommit (slot : Fin 64) (s : State) : Res :=
  .next (match s.job slot with
    | some j => match j.snap, j.terms.stepBlock, s.declOf j with
      | some x, some b, some d =>
        if !x.begun || !(j.st == .running || j.st == .preempted) || !s.settled (snapSlot b d x.ordinal + 64) x.bodyBytes then s
        else
          let s := s.devWrite (snapSlot b d x.ordinal) (snapHeader j x true s.now)
          let before := s.treeCommit j
          (s.modJob slot fun j => { j with
            snap := none, snaps := x :: j.snaps.filter fun y => y.ordinal % 2 != x.ordinal % 2 }).passCommit slot before
      | _, _, _ => s
    | none => s)

/-! ## The start of a phase instance (R175, R180 to R182, R186, R264, R291) -/

/-- DETAIL of R177. -/
def boundsDetail (phase dim value : Nat) : Nat := phase % 2 ^ 16 * 2 ^ 36 + dim % 16 * 2 ^ 32 + value % 2 ^ 32

/-- What latching a memory-held bound word finds (R175, R176, R282). -/
inductive Latch where
  | value (v : Nat)
  | badWelt (line : Nat)
  | unmapped
deriving DecidableEq, Repr

def State.latchWord (s : State) (a : Nat) : Latch :=
  if !s.mappedRange a 4 then .unmapped
  else match s.badLine a 4 with
    | some l => .badWelt l
    | none => .value (leNat (s.devBytes a 4))

/-- The bounds of a phase instance on a core, or the reason, island and location of its fault. Memory-held words that another
core's start has latched keep that value (R175). DESIGN CHOICE (log 65): where several dimensions fail at once, the DETAIL of R177
reports the first in the folio's list. -/
def State.latchDims (s : State) (c : Nat) (x : Ctx) (phase : Nat) (known : List (Nat × Nat)) :
    List DynDim → Except (Nat × Nat × Nat) (List (Nat × Nat))
  | [] => .ok []
  | d :: ds =>
    let v : Latch := match d.src with
      | .reg n => .value (x.sregs.get 0 n).toNat
      | .word a => match known.lookup d.dim with
        | some v => .value v
        | none => s.latchWord a
      | .other => .unmapped
    match v with
    | .badWelt l => .error (cWeltLine, islCtl, l)
    | .unmapped => .error (cControl, islCtl, 0)
    | .value v =>
      if d.max < v then .error (rsBounds, clusterOf c, boundsDetail phase d.dim v)
      else match s.latchDims c x phase known ds with
        | .ok r => .ok ((d.dim, v) :: r)
        | .error e => .error e

/-- Tiles of the core that job k owns. -/
def CoreSt.tilesOf (x : CoreSt) (k : Nat) : Nat := (List.range 8).countP fun n => (x.accs.get AccTile.empty n).owner == some k

/-- Accumulator tiles of a core that no admitted G job has reserved and no other job holds, by a grant or because it still owns them
(R81, R180). -/
def State.unreservedTiles (s : State) (c k : Nat) : Nat :=
  8 - ((s.onCore c fun _ => true).map fun x =>
    let grant := if x.1 = k then 0 else Nat.max (((s.core c).runs.get none x.1).elim 0 (·.grant)) ((s.core c).tilesOf x.1)
    if x.2.1.isG then Nat.max (reserveOf x.2.1.terms x.2.2) grant else grant - s.displacedUnits x.1 c Loc.isAcc).sum

/-- The grant of R180. -/
def State.grantFor (s : State) (c k : Nat) (j : Job) (d : FolioDecl) (pref : Nat) : Nat :=
  let spare := s.unreservedTiles c k
  Nat.min (rungNeed pref) (if j.isG then reserveOf j.terms d + spare else spare)

/-- The staging ways of an S or B phase instance: those already taken for it on another core, or what is free, up to
WINDOW_WAYS (R291); 0 when fewer than 2 are free. -/
def State.waysToTake (s : State) (k : Nat) (j : Job) (p : PhaseEntry) : Nat :=
  if j.isG then j.windowWays
  else
    let mine := s.windowOf k j
    let free := waysFor s.part.scratch - 4 - residentWays s.folios - (s.stagingHeld - mine)
    let n := Nat.min free p.windowWays
    if n < 2 then 0 else n

/-- The stanza that a phase runs, if any. -/
def stanzaOf (d : FolioDecl) (p : PhaseEntry) : Option StanzaDecl :=
  if p.kind = 0 then d.initStanza else d.stanza.filter fun t => t.phase == p.phase

/-- The instance begins with its grant, rung, segment, bounds and ways. -/
def State.runPhase (s : State) (k c : Nat) (j : Job) (p : PhaseEntry) (inst grant ways : Nat) (bounds : List (Nat × Nat)) : State :=
  let rung := rungFor p.prefRung grant
  let run : PhaseRun := { phase := p.phase, inst := inst, grant := grant, rung := rung,
                          seg := if j.terms.compat then 256 else 2048, bounds := bounds, ways := if j.isG then 0 else ways,
                          ended := false, tiles := [], parked := [], drained := [], latent := 0, share := none,
                          emitted := 0, fetched := false, pageTiles := [], guided := [], filled := [] }
  let words := bounds.filter fun b => p.dims.any fun x => x.dim == b.1 && match x.src with
    | .word _ => true
    | _ => false
  let s := s.modCore c fun x => { x.freeTregs k with runs := x.runs.set none k (some run), descs := x.descs.set [] k [] }
  s.modJob k fun j => { j with
    latches := if j.latches.any (·.1 == inst) then j.latches else j.latches ++ [(inst, words)],
    degraded := if p.prefRung < rung then j.degraded + 1 else j.degraded, lowest := Nat.max j.lowest rung }

/-! ## When an instance may start (R180, R181, R255, R291) -/

/-- The part of the order of R255 that a phase belongs to: phases before the init stanza, the init stanza; in a step the network and the
update stanza. -/
def partOf (d : FolioDecl) (p : PhaseEntry) : Nat :=
  if p.kind = 1 then 0 else if p.kind = 0 then 1 else if d.stanza.any fun t => t.phase == p.phase then 4 else 2

/-- The instances of earlier parts that every core runs before a part begins. -/
def earlierInstances (d : FolioDecl) (p : PhaseEntry) : Nat :=
  ((d.phases.filter fun q => (q.kind == 2) == (p.kind == 2) && decide (partOf d q < partOf d p)).map fun q =>
    if q.kind = 2 then q.perStep else 1).sum

/-- The part before has completed on every core of the job (R255). -/
def State.partReady (s : State) (k : Nat) (j : Job) (d : FolioDecl) (p : PhaseEntry) : Bool :=
  j.cores.all fun c => match (s.core c).runs.get none k with
    | none => earlierInstances d p == 0
    | some r => match d.phases.find? fun q => q.phase == r.phase with
      | none => true
      | some q => partOf d q == partOf d p ||
          (decide (partOf d q < partOf d p) && r.ended && decide (earlierInstances d p ≤ r.inst + 1))

/-- Job k stands before job m in the order of R180: by class, then by slot. -/
def State.outranks (s : State) (k m : Nat) : Bool :=
  match s.job k, s.job m with
  | some a, some b => decide (a.terms.cls < b.terms.cls) || (a.terms.cls == b.terms.cls && decide (k < m))
  | _, _ => false

/-- The instance with its index, grant and ways, were it to start now. -/
def State.startTerms (s : State) (k c : Nat) (j : Job) (d : FolioDecl) (p : PhaseEntry) : Nat × Nat × Nat :=
  (((s.core c).runs.get none k).elim 0 fun r => r.inst + 1, s.grantFor c k j d p.prefRung, s.waysToTake k j p)

/-- The job's phase of a folio, where the core may be given an instance of it. -/
def State.phaseOf (s : State) (k c phase : Nat) : Option (Job × FolioDecl × PhaseEntry) :=
  (s.job k).bind fun j => (s.declOf j).bind fun d => (d.phases.find? fun p => p.phase == phase).bind fun p =>
    if j.onCore c && !j.atCut && !j.done && (p.kind == 2) == j.step.isSome then some (j, d, p) else none

/-- Blocks of the job's resident folio are still to be decoded: the copy is made before the job's first phase (R297). -/
def State.copyPending (s : State) (k : Nat) (j : Job) : Bool :=
  (s.folio j.terms.folio).any (·.resident) && s.sys.decq.any fun q => q.owner == k

/-- A held start of another job on the core stands before job k and lacks nothing but tiles or ways. -/
def State.passedOver (s : State) (k c : Nat) : Bool :=
  s.held.any fun h => match h.cmd with
    | .phaseInstanceStart r ⟨phase, .start⟩ => r.core.val == c && r.slot.val != k && s.outranks r.slot k && match s.phaseOf r.slot c phase with
      | some (j, d, p) => s.partReady r.slot j d p && !s.copyPending r.slot j
      | none => false
    | _ => false

/-- The start of an instance waits: for the part before it (R255), for an accumulator tile (R181), for two window ways (R291), for the
resident copy (R297), or behind another start that waits (R180). -/
def State.startWaits (s : State) (k c phase : Nat) : Bool :=
  match s.phaseOf k c phase with
  | none => false
  | some (j, d, p) =>
    let (_, grant, ways) := s.startTerms k c j d p
    !s.partReady k j d p || grant == 0 || ways == 0 || s.copyPending k j || s.passedOver k c

/-- PHASE_INSTANCE_START of an instance that does not wait. -/
def State.startPhase (s : State) (k c phase : Nat) : State :=
  match s.phaseOf k c phase with
  | none => s
  | some (j, d, p) =>
    let (inst, grant, ways) := s.startTerms k c j d p
    match s.latchDims c ((s.core c).ctxs.get Ctx.empty k) phase ((j.latches.lookup inst).getD []) p.dims with
    | .error (reason, island, loc) => s.detect k reason island loc
    | .ok bounds => s.runPhase k c j p inst grant ways bounds

/-- An instance ends on a core: its tiles and ways are free, its registers given back (R113, R180, R291). -/
def State.finishPhase (s : State) (k c : Nat) : State :=
  s.modCore c fun x => match x.runs.get none k with
    | none => x
    | some r => { x.freeTregs k with runs := x.runs.set none k (some { r with ended := true, grant := 0, ways := 0 }),
                                     descs := x.descs.set [] k [] }

/-! ## Held commands (R125, R181, R188) -/

/-- An earlier instruction of the job on the core is held: a core issues a job's instructions in their order (R125, log 55). -/
def State.earlierHeld (s : State) (r : CoreRef) : Bool := s.held.any fun h => h.why.ref == r

/-- A command joins those that are held. -/
def State.holdCmd (s : State) (w : HeldWhy) (i : Instr) : State := s.withHeld (s.held ++ [⟨w, i⟩])

/-- The job in slot k has a command that is held. -/
def State.holdsFor (s : State) (k : Nat) : Bool := s.held.any fun h => h.why.ref.slot.val == k

/-! ## The cut (R245, R255, R265, R266) -/

/-- The frames of the folio's video output that are final after m steps: the leading ones whose lines have all been accepted
(R430). -/
def State.framesFinal (s : State) (j : Job) (d : FolioDecl) (m : Nat) : Nat :=
  (d.videoFrames.takeWhile fun v => decide (v.steps ≤ m) && s.settled (j.terms.result + v.off) v.bytes).length

/-- The phase instances of the job end on every core, and with them its staging window (R291). -/
def State.endRuns (s : State) (k : Nat) (j : Job) : State :=
  (s.each j.cores fun s c => s.modCore c fun x => { x.freeTregs k with runs := x.runs.set none k none, descs := x.descs.set [] k [] }).modJob k
    fun j => { j with window := [], decoded := [] }

/-- The device's stop statistic: MAX over the accumulators of the job's cores (R265). -/
def State.ownStat (s : State) (k : Nat) (j : Job) : Word :=
  j.cores.foldl (fun m c => fmax m ((s.core c).ctxs.get Ctx.empty k).stopAcc) 0

/-- At the cut of a group job its own statistic is kept beside those of its children (R265). -/
def State.keepStat (s : State) (k : Nat) (j : Job) : List (Nat × Word) :=
  match s.groupOf j.terms.group with
  | some g => j.peerStats ++ [(g.rank s.topo.coord, s.ownStat k j)]
  | none => j.peerStats

/-- The statistic of this device and its children in the tree. -/
def Job.treeStat (j : Job) : Word := j.peerStats.foldl (fun m x => fmax m x.2) 0

/-- The procedure of R266: the run count, and whether the job stops after step n. -/
def stopRule (b : StepBlock) (n run : Nat) (stat : Word) : Nat × Bool :=
  let x := decode32 stat
  let t := decode32 b.stopThresh
  let quiet := !x.isNan && !t.isNan && !(Fp.ltv t x)
  let run := if quiet then run + 1 else 0
  (run, decide (b.stopRun ≤ run) && decide (b.stopMin ≤ n + 1) && decide (n + 1 < b.sMax))

/-- The sequence in the lowest slot that the next step would take beyond its T_max, with its tokens then (R244). -/
def overlong (g : Pager) : Option Nat := (g.admittedSeqs.find? fun x => decide (x.2.tMax < seqAfter x.2)).map fun x => seqAfter x.2

/-- Actions 3 and 4 of the boundary after step n: the snapshot, and the next step. -/
def State.boundaryEnd (s : State) (k n : Nat) (due : Bool) : State :=
  let s := if due then s.startSnap k (BitVec.ofNat 32 n) else s
  match s.job k with
  | some j => if j.st == .running then s.beginStep k (n + 1) else s
  | none => s

/-- The payload of a PAGER message: the spec gives its content and no layout. -/
def newsBytes (ds : List PagerDecision) : List Byte :=
  ds.flatMap fun d => leBytes 4 d.tag.toNat ++ leBytes 4 ((if d.leave then 1 else 0) + if d.withdrawn then 2 else 0) ++ leBytes 4 d.slot ++
    leBytes 2 d.status.toNat ++ leBytes 2 d.reason.toNat ++ leBytes 4 d.t0 ++ leBytes 4 d.tMax ++ leBytes 8 d.prompt ++
    leBytes 4 d.ring ++ leBytes 4 d.seq.toNat ++ leBytes 4 d.op

/-- Action 2: the pager's work, for a job with a pool. -/
def State.boundaryPager (s : State) (k n : Nat) (j : Job) (a : AttnDecl) (g : Pager) (periodic : Bool) : State :=
  let (s, g, news) := if s.leads j then
      let w := s.pagerCut a g j.snapNext
      (w.s, w.g, w.news)
    else
      let ds := j.pagerRemote.headD []
      let (s, g) := s.applyNews a g ds
      (s, g, ds)
  let s := if s.leads j then s.sendGroup j true msgPager (newsBytes news) else s
  match overlong g with
  | some v => (s.modJob k fun j => { j with pager := some g }).detect k rsBounds islCtl (boundsDetail a.first.phase a.first.dim v)
  | none => match s.growPages a g with
    | none => s.detect k cControl islCtl 0
    | some (s, g) => (s.modJob k fun j => { j with pager := some g }).boundaryEnd k n (periodic || !news.isEmpty)

/-- The tokens of the step just done enter the page headers and the sequence table, at the last step too (R226). A line of the page table
or a header that fails its check is a welt error, and the boundary goes no further (R310). -/
def State.tokensDone (s : State) (k : Nat) : State :=
  match s.job k with
  | none => s
  | some j => match (s.declOf j).bind (·.attn), j.pager with
    | some a, some g =>
      if !g.mapped then s
      else match s.pagerBad a g with
        | some l => s.lineFault k cWeltLine islCtl l
        | none =>
          let (s, g) := s.countTokens a g
          s.modJob k fun j => { j with pager := some g }
    | _, _ => s

/-- The boundary actions after step n, with the combined stop statistic where STOP_RUN is nonzero (R255, R266). -/
def State.boundary (s : State) (k n : Nat) (stat : Word) : State :=
  let s := s.tokensDone k
  match s.job k with
  | none => s
  | some j =>
    if j.st ≠ .running then s
    else
    let (run, stop) := match j.terms.stepBlock with
      | some b => if b.stopRun = 0 then (0, false) else stopRule b n j.stopRun stat
      | none => (0, false)
    let stopping := (j.terms.stepBlock.map (·.stopRun)).getD 0 != 0
    let s := s.modJob k fun j => { j with
      atCut := false, pagerRemote := j.pagerRemote.drop 1, stopRun := run, stopStat := if stopping then stat else j.stopStat }
    if stop || decide (j.terms.sMax ≤ n + 1) then s.modJob k fun j => { j with done := true, earlyStop := stop }
    else
      let periodic := j.terms.interval != 0 && (n + 1) % j.terms.interval == 0
      match (s.declOf j).bind (·.attn), j.pager with
      | some a, some g => if g.mapped then s.boundaryPager k n j a g periodic else s.boundaryEnd k n periodic
      | _, _ => s.boundaryEnd k n periodic

/-- The boundary runs once what it waits for has come: the combined statistic of a group (R265), rank 0's pager decisions (R252). It
does not occur while the job is preempted (R251, R357). -/
def State.tryBoundary (s : State) (k : Nat) : State :=
  match s.job k with
  | none => s
  | some j => match j.step with
    | none => s
    | some n =>
      if !j.atCut || j.st != .running then s
      else if s.isGroupJob j && (j.terms.stepBlock.map (·.stopRun)).getD 0 != 0 then
        match j.allStat with
        | some v => s.boundary k n v
        | none => s
      else if j.pager.any (·.mapped) && !s.leads j && !decide (j.terms.sMax ≤ n + 1) && j.pagerRemote.isEmpty then s
      else s.boundary k n (s.ownStat k j)

/-- Once this device and every child have a statistic for the step, rank 0 has the combined one and another member passes theirs to
its parent (R265, R417). -/
def State.combineStat (s : State) (k : Nat) : State :=
  match s.job k with
  | none => s
  | some j => match j.step with
    | none => s
    | some n =>
      if !j.atCut || !s.isGroupJob j || (j.terms.stepBlock.map (·.stopRun)).getD 0 == 0 || j.allStat.isSome ||
          !((s.childRanks j).all fun r => (j.peerStats.lookup r).isSome) then s
      else
        let payload := leBytes 4 n ++ leBytes 4 j.treeStat.toNat
        if s.leads j then (s.sendGroup j true msgStopStat payload).modJob k fun j => { j with allStat := some j.treeStat }
        else s.sendGroup j false msgStopStat payload

/-- JOB_COMPLETE: every part of the job on this device is done and checked, and every line of its result has been accepted (R93, R335,
R384, R457, R498). -/
def execJobComplete (slot : Fin 64) (s : State) : Res :=
  .next (match s.job slot with
    | some j =>
      if j.st == .running && j.done && s.settled j.terms.result j.terms.resultBytes then
        (s.raiseFrames slot (match s.declOf j with
          | some d => d.videoFrames.length
          | none => 0)).endJob slot .complete 0 none
      else s
    | none => s)

/-! ## Instants of R347 and R349 -/

/-- PROMISE_OVERRUN. -/
def execPromiseOverrun (slot : Fin 64) (s : State) : Res :=
  .next (match s.job slot with
    | some j =>
      if j.isG && j.decided && j.st.admitted && !j.overrun && j.promiseUs != 0 && decide (j.origin + 1000 * j.promiseUs < s.now) then
        (s.modJob slot fun j => { j with overrun := true }).sendJob slot j stOk rsOverrun j.promiseUs 0
      else s
    | none => s)

/-- DEADLINE_PASSED. -/
def execDeadlinePassed (slot : Fin 64) (s : State) : Res :=
  .next (match s.job slot with
    | some j =>
      if j.terms.cls == 1 && !j.st.final && !j.late && decide (j.origin + 1000 * j.terms.deadlineUs < s.now) then
        (s.modJob slot fun j => { j with late := true }).sendJob slot j stOk rsDeadline 0 (s.jobDetail j)
      else s
    | none => s)

end Sys2Proof.Machine
end

