-- ==== Sys2Proof/Machine/CoreOps.lean ====
section
/-!
DEFINITION. What every core instruction shares: when it issues (R111, R113, R125, R353), the active lanes (R115 to R118), reading and
writing tile registers, predicates and flags, the check hardware (R136, R137, R143, R146), and accesses to the well and to device
addresses with their checks (R282, R284 to R286, R302, R310).
-/
namespace Sys2Proof.Machine

/-! ## Issue -/

/-- The outcome of a core instruction whose operands an encoding has room for. -/
def coreRes (ok : Bool) (t : State) : Res := if ok then .next t else .fault .illFormed

/-- Job slot k can issue on core c: it is RUNNING with its locations its own, and its step is not at its cut (R255, R353). -/
def State.issues (s : State) (c k : Nat) : Bool :=
  match s.job k with
  | some j => j.onCore c && !j.atCut && !j.done
  | none => false

def State.ctx (s : State) (c k : Nat) : Ctx := (s.core c).ctxs.get Ctx.empty k

/-- Tile registers that a posted receive of job k still has to fill: an instruction that names one is held (R125). -/
def CoreSt.pendingTregs (x : CoreSt) (k : Nat) : List Nat :=
  (List.range 4).flatMap fun p => ((x.ports.get StitchPort.empty p).posted.filter (·.slot == k)).filterMap fun r =>
    match r.dst with
    | .treg n _ => some n.val
    | .fifo => none

/-- Job k may name the register: it is its own or nobody's; an instruction with another job's tag is never directed to it (R113). -/
def CoreSt.tregMine (x : CoreSt) (k n : Nat) : Bool :=
  let o := (x.tregs.get TReg.empty n).owner
  o == none || o == some k

/-- Job k's instruction that names the register issues: no receive has it pending (R125). -/
def CoreSt.tregOk (x : CoreSt) (k n : Nat) : Bool := x.tregMine k n && !(x.pendingTregs k).contains n

/-- An instruction of job k on core c that names these tile registers issues. -/
def State.ready (s : State) (r : CoreRef) (regs : List Nat) : Bool :=
  s.issues r.core r.slot && regs.all ((s.core r.core).tregOk r.slot) && !s.earlierHeld r

/-- The issue of an instruction (R111, R113, R125): it runs, or it is held until the registers it names have been received and the
job's earlier held instructions have issued; one that the core is never given changes nothing. -/
def State.issue (s : State) (i : Instr) (r : CoreRef) (regs : List Nat) (go : State → State) : State :=
  if s.ready r regs then go s
  else if s.issues r.core r.slot && regs.all ((s.core r.core).tregMine r.slot) then s.holdCmd (.issue r regs) i
  else s

/-- The job runs in compatibility mode. -/
def State.isCompat (s : State) (k : Nat) : Bool :=
  match s.job k with
  | some j => j.terms.compat
  | none => false

/-! ## Lanes, predicates, scalars -/

/-- Lane `i` of 512 is active under mask predicate `p` (R116). -/
def Ctx.act (x : Ctx) (p i : Nat) : Bool :=
  decide (i / 32 < x.rows) && decide (i % 32 < x.cols) && (p == 0 || (x.preds.get 0 p).getLsbD i)

/-- Lane `i` lies within LEN. -/
def Ctx.inLen (x : Ctx) (i : Nat) : Bool := decide (i / 32 < x.rows) && decide (i % 32 < x.cols)

/-- The number whose bits below n are given by `f`. -/
def bitsFn (f : Nat → Bool) : Nat → Nat
  | 0 => 0
  | n + 1 => bitsFn f n + if f n then 2 ^ n else 0

/-- A predicate from its bits. -/
def predOf (f : Nat → Bool) : BitVec 512 := BitVec.ofNat 512 (bitsFn f 512)

/-- A predicate register as read: P0 reads all ones (R116). -/
def Ctx.predBit (x : Ctx) (p i : Nat) : Bool := p == 0 || (x.preds.get 0 p).getLsbD i

/-- A scalar source (R258). -/
def Ctx.scalar (x : Ctx) : Scalar → Word
  | .s n => x.sregs.get 0 n
  | .k n => x.ksc.get 0 n

/-- Lane `i` of register `n`. -/
def CoreSt.lane (x : CoreSt) (n i : Nat) : Word := (x.tregs.get TReg.empty n).lanes.get 0 i

/-- Byte `b` of register `n` in ascending order (R112). -/
def CoreSt.tregByte (x : CoreSt) (n b : Nat) : Byte := ((x.lane n (b / 4)) >>> (8 * (b % 4))).truncate 8

/-- The active lanes of row `i`, in ascending column. -/
def Ctx.rowLanes (x : Ctx) (p i : Nat) : List Nat := ((List.range 32).map (32 * i + ·)).filter (x.act p)
/-- The active lanes of column `j`, in ascending row. -/
def Ctx.colLanes (x : Ctx) (p j : Nat) : List Nat := ((List.range 16).map (32 * · + j)).filter (x.act p)

/-- The flags of the lanes that `act` picks. -/
def lanesFlags (act : Nat → Bool) (f : Nat → Half) : Half :=
  (List.range 512).foldl (fun h i => if act i then h ||| f i else h) 0

/-! ## Writing -/

/-- The whole of register `n` written for job k, which owns it from now on (R113). -/
def CoreSt.putTreg (x : CoreSt) (k n : Nat) (f : Nat → Word) : CoreSt :=
  { x with tregs := x.tregs.set TReg.empty n ⟨SMap.ofFn 0 512 f, some k⟩ }

def CoreSt.modCtx (x : CoreSt) (k : Nat) (f : Ctx → Ctx) : CoreSt := { x with ctxs := x.ctxs.modify Ctx.empty k f }

def CoreSt.raise (x : CoreSt) (k : Nat) (h : Half) : CoreSt := x.modCtx k fun c => { c with flags := c.flags ||| h }

/-- A destination register under its mask (R116, R117): active lanes take `f`, the others are kept or zeroed. -/
def CoreSt.putLanes (x : CoreSt) (k n : Nat) (m : Mask) (f : Nat → Word) : CoreSt :=
  let c := x.ctxs.get Ctx.empty k
  x.putTreg k n fun i => if c.act m.pred i then f i else if m.zero then 0 else x.lane n i

/-- A vector result: lanes and the flags of the active ones. -/
def CoreSt.putVec (x : CoreSt) (k n : Nat) (m : Mask) (f : Nat → FW) : CoreSt :=
  let c := x.ctxs.get Ctx.empty k
  (x.putLanes k n m fun i => (f i).1).raise k (lanesFlags (c.act m.pred) fun i => (f i).2)

/-- A predicate destination under its mask (R117); writes to P0 are ignored (R116). -/
def CoreSt.putPred (x : CoreSt) (k p : Nat) (m : Mask) (f : Nat → Bool) : CoreSt :=
  if p = 0 then x
  else x.modCtx k fun c => { c with
    preds := c.preds.set 0 p (predOf fun i => if c.act m.pred i then f i else !m.zero && (c.preds.get 0 p).getLsbD i) }

/-! ## The check hardware -/

/-- WHERE of a fault at a core (R453). -/
def coreWhere (c acc treg : Nat) : Nat := c * 2 ^ 32 + acc * 2 ^ 8 + treg

/-- An information register after a failure `new` (R109, R143): the first failure since VALID was cleared; of failures in one cycle
the one that `before` puts first. The second part says whether the register holds a failure of the last failure's cycle. -/
def failRecord (before : Word → Word → Bool) (old : Word) (fresh same : Bool) (new : Word) : Word × Bool :=
  if !old.msb then (new, true)
  else if same && fresh then (if before new old then new else old, true)
  else (old, false)

/-- VEC_FAIL_INFO takes the lower core, then the lower element (R143). -/
def vecBefore (a b : Word) : Bool :=
  let key := fun (w : Word) => bitsOf w.toNat 0 5 * 512 + bitsOf w.toNat 5 9
  decide (key a < key b)

/-- VEC_CHK_FAIL and VEC_FAIL_INFO (R142, R143) after `n` failures in one instruction, the lowest at element `elem`. -/
def State.vecFail (s : State) (c kind treg elem n : Nat) (same : Bool) : State :=
  s.modClu (clusterOf c) fun g =>
    let q := failRecord vecBefore g.vecInfo g.vecFresh same
      (BitVec.ofNat 32 (2 ^ 31 + kind * 2 ^ 19 + treg * 2 ^ 14 + elem * 2 ^ 5 + c % 32))
    { g with
      vecFail := satTo 0xFFFFFFFF (g.vecFail + n), vecInfo := q.1, vecFresh := q.2 }

/-- A tile-register parity error on a read (R137). -/
def State.parityFault (s : State) (r : CoreRef) (treg elem n : Nat) (same : Bool) : State :=
  (s.vecFail r.core 2 treg elem n same).detect r.slot cTregParity (clusterOf r.core) (coreWhere r.core 0 treg)

/-- A residue disagreement (R136, R146). -/
def State.residueFault (s : State) (r : CoreRef) (adder : Bool) (treg elem n : Nat) (same : Bool) : State :=
  (s.vecFail r.core (if adder then 1 else 0) treg elem n same).detect r.slot cResidue (clusterOf r.core) (coreWhere r.core 0 treg)

/-- The failing elements that a check covers: the lowest, and how many. -/
def failing (covers : Nat → Bool) (es : List (Fin 512)) : Option (Nat × Nat) :=
  match ((es.map Fin.val).filter covers).eraseDups with
  | [] => none
  | e :: rest => some (rest.foldl Nat.min e, rest.length + 1)

/-- An instruction under the checks of its tile registers and its arithmetic: `reads t e` says that it reads element `e` of register
`t` (R137), `elem e` that it computes element `e` by checked arithmetic (R136). A failed check faults the job in place of the
instruction's effect. -/
def State.checked (s : State) (r : CoreRef) (u : Upset) (reads : Nat → Nat → Bool) (dst : Nat) (elem : Nat → Bool)
    (run : State → State) : State :=
  match u with
  | .parity t es same => match failing (reads t) es with
    | some (e, n) => s.parityFault r t e n same
    | none => run s
  | .residue adder es same => match failing elem es with
    | some (e, n) => s.residueFault r adder dst e n same
    | none => run s
  | _ => run s

/-- The lanes of the job's context that are active under a mask (R116, R118). -/
def State.active (s : State) (r : CoreRef) (m : Mask) (e : Nat) : Bool := (s.ctx r.core r.slot).act m.pred e

/-- The elements of the first `cols` columns of the rows within ROWS. -/
def State.inRows (s : State) (r : CoreRef) (cols e : Nat) : Bool :=
  decide (e / 32 < (s.ctx r.core r.slot).rows) && decide (e % 32 < cols)

/-- A vector instruction that writes one tile register; `src i` lists the elements that output lane `i` reads, as register and
element: an inactive lane reads none (R118). -/
def State.vecFrom (s : State) (i : Instr) (r : CoreRef) (u : Upset) (reads : List Nat) (src : Nat → List (Nat × Nat)) (d : Nat)
    (m : Mask) (arith : Bool) (f : CoreSt → Nat → FW) : State :=
  s.issue i r (d :: reads) fun s =>
    s.checked r u (fun t e => (List.range 512).any fun l => s.active r m l && (src l).contains (t, e)) d
      (fun e => arith && s.active r m e) fun s => s.modCore r.core fun x => x.putVec r.slot d m (f x)

/-- A vector instruction whose lanes read the same lane of their sources. -/
def State.vecOp (s : State) (i : Instr) (r : CoreRef) (u : Upset) (reads : List Nat) (d : Nat) (m : Mask) (arith : Bool)
    (f : CoreSt → Nat → FW) : State :=
  s.issue i r (d :: reads) fun s =>
    s.checked r u (fun t e => reads.contains t && s.active r m e) d (fun e => arith && s.active r m e) fun s =>
      s.modCore r.core fun x => x.putVec r.slot d m (f x)

/-- A vector instruction that writes a predicate register. -/
def State.vecPred (s : State) (i : Instr) (r : CoreRef) (u : Upset) (reads : List Nat) (p : Nat) (m : Mask)
    (f : CoreSt → Nat → Bool) : State :=
  s.issue i r reads fun s =>
    s.checked r u (fun t e => reads.contains t && s.active r m e) 0 (fun _ => false) fun s =>
      s.modCore r.core fun x => x.putPred r.slot p m (f x)

/-! ## The well and device addresses -/

/-- The jobs whose well region on core c holds a well address (R449). -/
def State.wellHolders (s : State) (c a : Nat) : List Nat :=
  (s.jobList.filter fun kj => kj.2.holds.any fun h => h.core == c && h.well.contains (a / wellGranule)).map (·.1)

/-- A double-bit error in a well word (R285, R449). -/
def State.eccWellFault (s : State) (r : CoreRef) (a : Nat) : State :=
  s.detectAll (s.wellHolders r.core a) cEccWell (clusterOf r.core) (r.core * 2 ^ 32 + a % 2 ^ 19)

/-- A single-bit error in a well word is corrected and counted (R285). -/
def State.eccWellCorrected (s : State) (c : Nat) : State :=
  s.modClu (clusterOf c) fun g => { g with wellCorr := g.wellCorr + 1 }

/-- A read of spans of the core's well by an instruction of its job (R284, R285). -/
def State.readWell (s : State) (r : CoreRef) (u : Upset) (ps : List (Nat × Nat)) (go : State → State) : State :=
  if ps.any fun p => decide (wellBytes < p.1 + p.2) then s.detect r.slot cControl (clusterOf r.core) 0
  else match u with
    | .eccWell a double =>
      if !inSpans (ps.map fun p => (p.1 / 8 * 8, p.2 + p.1 % 8)) a then go s
      else if double then s.eccWellFault r a
      else go (s.eccWellCorrected r.core)
    | _ => go s

/-- A read of spans of device addresses through the vertical bond (R282, R310). -/
def State.readDevice (s : State) (r : CoreRef) (ps : List (Nat × Nat)) (go : State → State) : State :=
  if !(ps.all fun p => s.mappedRange p.1 p.2) then s.detect r.slot cControl (clusterOf r.core) 0
  else match ps.findSome? fun p => s.badLine p.1 p.2 with
    | some l => s.lineFault r.slot cWeltLine (clusterOf r.core) l
    | none => go (s.each ps fun s p => s.touch p.1 p.2)

/-- A job's writes into the buffer of a frame already released, after a restart (R430). -/
def State.frameSealed (s : State) (k a : Nat) : Bool :=
  match s.job k with
  | some j => decide (0 < j.restartsTaken) && match s.declOf j with
    | some d => (d.videoFrames.take j.frames).any fun v =>
        decide (j.terms.result + v.off ≤ a) && decide (a < j.terms.result + v.off + v.bytes)
    | none => false
  | none => false

/-- Job k writes the address: one of HBM lies in its result, work, snapshot, pool or page-table range (R283). -/
def State.mayWrite (s : State) (k a : Nat) : Bool :=
  decide (hbmBytes ≤ a) || match s.job k with
    | some j => inSpans (s.writableRanges j) a
    | none => false

/-- A write of bytes at device addresses by a job's instruction: unmapped addresses are a control fault (R282), a partial line
that is not delivered a welt error at its home slice (R310); the device writes nothing of HBM outside the job's ranges (R283). -/
def State.writeDevice (s : State) (r : CoreRef) (ws : List (Nat × Byte)) : State :=
  if !(ws.all fun w => (s.region w.1).isSome) then s.detect r.slot cControl (clusterOf r.core) 0
  else
    let ws := ws.filter fun w => s.mayWrite r.slot w.1 && !s.frameSealed r.slot w.1
    let lines := (ws.map (·.1 / 64)).eraseDups
    let ofLine := fun l => ws.filter fun w => w.1 / 64 == l
    match lines.find? fun l => decide (64 * l < farLo) && s.lineBad l && !coversLine (ofLine l) with
    | some l => s.lineFault r.slot cWeltLine (islRsv (homeSliceOf (64 * l))) (64 * l)
    | none => s.each lines fun s l => s.writeLine l (ofLine l)

/-- A write of bytes into the core's well (R284). -/
def State.writeWell (s : State) (r : CoreRef) (ws : List (Nat × Byte)) : State :=
  if ws.any fun w => decide (wellBytes ≤ w.1) then s.detect r.slot cControl (clusterOf r.core) 0
  else s.modCore r.core fun x => { x with well := ws.foldl (fun m w => m.set 0 w.1 w.2) x.well }

end Sys2Proof.Machine
end

