-- ==== Sys2Proof/Machine/Flits.lean ====
section
/-!
DEFINITION. Flits on the torus links: their fields and sealing (R394), sending with credits and the replay buffer (R396, R399), the
order of a link's flits (R395), routing (R397, R398), and WRITE flits of the halo channel (R194).
-/
namespace Sys2Proof.Machine

/-! ## Flits: fields, sealing (R394) -/

def flitType (f : List Byte) : Nat := bitsOf (fieldAt f 0 1) 0 4
def flitVc (f : List Byte) : Nat := bitsOf (fieldAt f 0 1) 4 2
/-- Class index 2 × VC + DCLASS. -/
def flitClass (f : List Byte) : Nat := 2 * flitVc f + bitsOf (fieldAt f 0 1) 6 1
def flitDest (f : List Byte) : Coord := Coord.ofCode (fieldAt f 2 2)
def flitLineNo (f : List Byte) : Nat := fieldAt f 4 6 % 2 ^ 42
def flitStream (f : List Byte) : Nat := fieldAt f 10 2 % 4096
def flitJob (f : List Byte) : Nat := fieldAt f 12 1 % 64
def flitArith (f : List Byte) : Nat := fieldAt f 13 1 % 4
def flitLines (f : List Byte) : List Nat := (List.range 4).filter fun k => bitsOf (fieldAt f 1 1) k 1 == 1
def flitLine (f : List Byte) (k : Nat) : List Byte := sliceAt f (16 + 64 * k) 64
def flitWelt (f : List Byte) (k : Nat) : Half := BitVec.ofNat 16 (fieldAt f (272 + 2 * k) 2)
def flitSeq (f : List Byte) : Nat := fieldAt f 280 2 % 4096
def flitCrcOk (f : List Byte) : Bool := crc32 (f.take 284) == BitVec.ofNat 32 (fieldAt f 284 4)

/-- The ACK field that a link sends. -/
def Link.ackField (x : Link) (nak : Bool) : Nat := x.rxSeq + 2 ^ 15 + if nak then 2 ^ 14 else 0

/-- A flit with its link fields filled in: CREDIT, SEQ, ACK, CRC. -/
def sealFlit (f : List Byte) (credit seq ack : Nat) : List Byte :=
  let b := putAt (putAt (putAt f 14 (leBytes 2 credit)) 280 (leBytes 2 seq)) 282 (leBytes 2 ack)
  putAt b 284 (leBytes 4 (crc32 (b.take 284)).toNat)

/-- An IDLE flit with a credit to return and an acknowledgement; it takes no sequence number. -/
def State.sendIdle (s : State) (l credit : Nat) (nak : Bool) : State :=
  s.emit (.flit l (sealFlit (List.replicate 288 0) credit 0 ((s.link l).ackField nak)))

/-! ## Sending (R396, R399) -/

/-- The credit that a flit of class c spends: a reserved one before a shared one; VC0 uses no shared credit. -/
def Link.spend (x : Link) (c : Nat) : Option Link :=
  let r := x.credit.get Link.reservedCredits c
  if 0 < r then some { x with credit := x.credit.set Link.reservedCredits c (r - 1) }
  else if 2 ≤ c ∧ 0 < x.shared then some { x with shared := x.shared - 1 }
  else none

/-- A link can take a sequenced flit into its replay buffer of 256. -/
def Link.canSend (x : Link) : Bool := x.st == linkUp && !x.realign && decide (x.replay.length < 256)

/-- The CREDIT field that returns one buffer. -/
def creditField (c : Nat) (shared : Bool) : Nat := c + (if shared then 8 else 0) + 16

/-- A passing flit has left its input buffer: the credit goes back. -/
def State.freeBuffer (s : State) (h : Option (Nat × Nat × Bool)) : State :=
  match h with
  | none => s
  | some (l, c, shared) =>
    (s.modLink l fun x => if shared then x else { x with inUse := x.inUse.set 0 c (x.inUse.get 0 c - 1) }).sendIdle l
      (creditField c shared) false

/-- The first waiting flit of each class, where a credit of the class is there: the flits of a class leave in order. -/
def Link.ready (x : Link) : List FlitWait :=
  (x.waiting.foldl (fun (acc : List FlitWait × List Nat) w =>
    let c := flitClass w.bytes
    if acc.2.contains c then acc else (if (x.spend c).isSome then acc.1 ++ [w] else acc.1, c :: acc.2)) ([], [])).1

/-- The weights of PORT_VC_WT. -/
def Port.weight (g : Port) (vc : Nat) : Nat := if vc = 1 then g.w1 else if vc = 2 then g.w2 else g.w3

/-- The virtual channel, of those with a flit ready, that has the link's next slot: VC0 before all; VC1 to VC3 one flit at a time in turn, each at
most its weight in a round; a slot left unused passes to the next claimant (R395, log 71). -/
def Link.nextVc (x : Link) (g : Port) (vcs : List Nat) : Option (Nat × Link) :=
  if vcs.contains 0 then some (0, x)
  else
    let claims := ((List.range 3).map fun i => (x.served + i) % 3 + 1).filter vcs.contains
    match claims.find? fun v => decide (x.used.get 0 v < g.weight v) with
    | some v => some (v, { x with served := v, used := x.used.modify 0 v (· + 1) })
    | none => claims.head?.map fun v => (v, { x with served := v, used := SMap.set 0 v 1 [] })

/-- A flit leaves on link l, spends its credit and joins the replay buffer. -/
def State.sendFlit (s : State) (l : Nat) (w : FlitWait) : State :=
  let x := s.link l
  let b := sealFlit w.bytes 0 x.txSeq (x.ackField false)
  ((s.modLink l fun _ => { (x.spend (flitClass w.bytes)).getD x with
    txSeq := (x.txSeq + 1) % 4096, replay := x.replay ++ [(x.txSeq, b)] }).emit (.flit l b)).freeBuffer w.held

/-- Waiting flits leave while one can; `n` bounds how many. -/
def State.sendWaiting (l : Nat) : Nat → State → State
  | 0, s => s
  | n + 1, s =>
    let x := s.link l
    if !x.canSend then s
    else match x.nextVc (s.port (l / 8)) (x.ready.map fun w => flitVc w.bytes) with
      | none => s
      | some (v, y) => match x.ready.find? fun w => flitVc w.bytes == v with
        | none => s
        | some w => State.sendWaiting l n ((s.modLink l fun _ => { y with waiting := y.waiting.erase w }).sendFlit l w)

def State.flush (s : State) (l : Nat) : State := State.sendWaiting l (s.link l).waiting.length s

/-! ## Routing (R397, R398) -/

/-- The outgoing links of port p cross the dateline of its axis. -/
def Topo.dateline (t : Topo) (p : Nat) : Bool :=
  t.wrap.getLsbD (p / 2) && t.coord.get (p / 2) == if p % 2 = 1 then t.size.get (p / 2) - 1 else 0

/-- The link of a port that a stream is bound to: lane group STREAM mod 8, or the next that is UP. -/
def State.streamLink (s : State) (p stream : Nat) : Option Nat :=
  ((List.range 8).map fun i => 8 * p + (stream + i) % 8).find? fun l => (s.link l).st == linkUp

/-- A flit goes on towards its destination: DCLASS for the next link, then the link's output. -/
def State.route (s : State) (l : Nat) (f : List Byte) (h : Option (Nat × Nat × Bool)) : State :=
  match s.topo.routePort s.topo.coord (flitDest f) with
  | none => s.freeBuffer h
  | some p => match s.streamLink p (flitStream f) with
    | none => s.freeBuffer h
    | some o =>
      let keep := if p / 2 = l / 8 / 2 then bitsOf (fieldAt f 0 1) 6 1 else 0
      let d := if s.topo.dateline p then 1 else keep
      let b0 := fieldAt f 0 1
      let f := putAt f 0 [BitVec.ofNat 8 (b0 - 64 * bitsOf b0 6 1 + 64 * d)]
      (s.modLink o fun x => { x with waiting := x.waiting ++ [⟨f, h⟩] }).flush o

/-! ## Halo flits (R194, R394) -/

/-- The fields of a WRITE flit on VC2 before the link fields are filled in. -/
def haloFlit (dest : Coord) (line stream slot : Nat) (lines : List (List Byte)) (last : Bool) : List Byte :=
  [BitVec.ofNat 8 (1 + 32 + if last then 128 else 0), BitVec.ofNat 8 (2 ^ lines.length - 1)] ++ leBytes 2 dest.code ++
    leBytes 6 line ++ leBytes 2 stream ++ leBytes 1 slot ++ [0, 0, 0] ++
    lines.flatten ++ List.replicate (64 * (4 - lines.length)) 0 ++
    (lines.zipIdx.flatMap fun x => leBytes 2 (lineWelt (line + x.2) x.1).toNat) ++ List.replicate (2 * (4 - lines.length)) 0 ++
    List.replicate 8 0

/-- Lines to the device that port p faces: flits of up to four lines on VC2, each line with the welt of its address there; a line to a
device whose links are all down is lost with the link (R401). -/
def State.sendHaloLines (s : State) (p line stream slot : Nat) (lines : List (List Byte)) : State :=
  match s.topo.neighbour p, s.streamLink p stream with
  | some dest, some l =>
    let n := ceilDiv lines.length 4
    s.each (List.range n) fun s i =>
      let f := haloFlit dest (line + 4 * i) stream slot ((lines.drop (4 * i)).take 4) (i + 1 == n)
      let f := putAt f 0 [BitVec.ofNat 8 (fieldAt f 0 1 + if s.topo.dateline p then 64 else 0)]
      (s.modLink l fun x => { x with waiting := x.waiting ++ [⟨f, none⟩] }).flush l
  | _, _ => s

end Sys2Proof.Machine
end

