-- ==== Sys2Proof/Machine/Stitch.lean ====
section
/-!
DEFINITION. Stitch exchange (R187 to R196): SEND, RECV and the arrival of a credit. A message is delivered whole; direct and relayed
edges differ in time only (R192, R193). An edge that leaves the device goes through the port that faces the neighbour (R194).
-/
namespace Sys2Proof.Machine

/-! ## Edges (R13, R16, R192, R194) -/

def dirIdx : Dir → Nat
  | .colMinus => 0 | .colPlus => 1 | .rowMinus => 2 | .rowPlus => 3

def dirBack : Dir → Dir
  | .colMinus => .colPlus | .colPlus => .colMinus | .rowMinus => .rowPlus | .rowPlus => .rowMinus

def dirs : List Dir := [.colMinus, .colPlus, .rowMinus, .rowPlus]

/-- What lies across a logical link: a core of the job, a port of the device, or nothing. -/
inductive Edge where
  | core (c : Nat)
  | port (p : Nat)
  | edge
deriving DecidableEq, Repr

/-- The folio pads a convolution in CIRCULAR mode. -/
def FolioDecl.wraps (d : FolioDecl) : Bool := d.convs.any fun c => c.padMode == 3

/-- An edge off the grid that no port takes. -/
def State.wrapOf (s : State) (j : Job) (c : Nat) (d : Dir) : Edge :=
  match s.declOf j with
  | some f => match (if FolioDecl.wraps f then logicalWrap j.cores c d else none) with
    | some e => .core e
    | none => .edge
  | none => .edge

/-- The edge that a job's SEND or RECV names. Off the job's grid, a group job's edge leaves by the port of that direction: ports 0
and 1 for the columns, 2 and 3 for the rows, where they face a member (log 31); else under CIRCULAR padding it wraps (R208). -/
def State.edgeOf (s : State) (j : Job) (c : Nat) (d : Dir) : Edge :=
  match logicalNext j.cores c d with
  | some e => .core e
  | none => match s.groupOf j.terms.group with
    | some g => if (s.topo.facing g).contains (dirIdx d) then .port (dirIdx d) else s.wrapOf j c d
    | none => s.wrapOf j c d

/-! ## Links of a core -/

def CoreSt.link (x : CoreSt) (d : Dir) : StitchPort := x.ports.get StitchPort.empty (dirIdx d)
def CoreSt.modLink (x : CoreSt) (d : Dir) (f : StitchPort → StitchPort) : CoreSt :=
  { x with ports := x.ports.modify StitchPort.empty (dirIdx d) f }

/-- Remove the first entry that `p` picks. -/
def dropFirst {α : Type} (p : α → Bool) : List α → List α
  | [] => []
  | x :: xs => if p x then xs else x :: dropFirst p xs

/-- The rows of register `n` from `row` on, under the byte view (R187). -/
def CoreSt.msgRows (x : CoreSt) (n row rows : Nat) : List (List Byte) :=
  (List.range rows).map fun i => (List.range 128).map fun b => x.tregByte n (128 * (row + i) + b)

/-- A received message enters its destination: rows of a register, or the FIFO of 4 rows with those that wait behind it (R191). -/
def CoreSt.deliver (x : CoreSt) (k : Nat) (dst : RecvDst) (rows : List (List Byte)) : CoreSt :=
  match dst with
  | .treg n row => x.putTreg k n fun e =>
      if row.val ≤ e / 32 ∧ e / 32 < row + rows.length then
        BitVec.ofNat 32 (fieldAt (rows.getD (e / 32 - row) []) (4 * (e % 32)) 4)
      else x.lane n e
  | .fifo =>
    let all := x.fifo ++ x.fifoWait ++ rows.map fun r => (k, r)
    { x with fifo := all.take 4, fifoWait := all.drop 4 }

/-! ## Mailboxes (R193 to R195) -/

/-- The mailbox of the edge that core c of the job receives on from direction `d`. -/
def State.mailbox (s : State) (j : Job) (c : Nat) (d : Dir) : Option Nat :=
  (s.declOf j).bind fun f => mailboxAddr f j.cores j.granules c d

/-- The edge is relayed: its two ends are no stitch neighbours, lie on two devices, or wrap (R192, R194, R208). -/
def Job.relayed (j : Job) (c : Nat) (d : Dir) : Bool :=
  match logicalNext j.cores c d with
  | some e => !stitched c e
  | none => true

/-- The lines of a message: each row is two of 64 bytes (R193). -/
def msgLines (rows : List (List Byte)) : List (List Byte) := rows.flatMap fun r => [r.take 64, r.drop 64]

/-- The rows of a message that lies in a mailbox half. -/
def State.boxRows (s : State) (box rows : Nat) : List (List Byte) := (List.range rows).map fun i => s.devBytes (box + 128 * i) 128

/-- A receive takes its message and is posted no more. -/
def State.receiveMsg (s : State) (k c : Nat) (d : Dir) (r : Posted) (rows : List (List Byte)) : State :=
  s.modCore c fun x => (x.modLink d fun p => { p with posted := dropFirst (· == r) p.posted }).deliver k r.dst rows

/-- A message whose last line lies in its mailbox half is read from there by the receiver, whose check of its lines may fail (R195); on a
core that its job has been preempted from it waits (R196). -/
def State.readBox (s : State) (k c : Nat) (d : Dir) (j : Job) (r : Posted) : State :=
  match r.box with
  | none => s
  | some a =>
    if r.got < 2 * r.rows || !j.onCore c then s
    else match s.badLine a (128 * r.rows) with
      | some l => s.lineFault k cWeltLine (islRsv (homeSlice c)) l
      | none => s.receiveMsg k c d r (s.boxRows a r.rows)

/-! ## The rendezvous (R188) -/

/-- The job's first credit on a link of core c is spent. -/
def State.spendCredit (s : State) (k c : Nat) (d : Dir) : State :=
  s.modCore c fun x => x.modLink d fun p => { p with credits := dropFirst (fun q => q.1 == k) p.credits }

/-- A message of job k leaves core c: it spends a credit and meets the receive first posted by the job on the other side. A relayed message
is written into the mailbox with fresh welts and read from there (R193); to another device it goes as lines on VC2, whose stream and job
slot at the destination are free values (R194, log 61). -/
def State.transfer (s : State) (k c : Nat) (j : Job) (d : Dir) (rows : List (List Byte)) : State :=
  match s.edgeOf j c d with
  | .edge => s.detect k cControl (clusterOf c) 0
  | .port p =>
    let box := ((((s.core c).link d).credits.find? fun q => q.1 == k).map (·.2)).getD 0
    ((s.spendCredit k c d).withFree (s.free + 2)).sendHaloLines p (box / 64) ((Config.freeValue s.free).toNat % 4096)
      ((Config.freeValue (s.free + 1)).toNat % 64) (msgLines rows)
  | .core e =>
    match ((s.core e).link (dirBack d)).posted.find? fun r => r.slot == k with
    | none => s
    | some r =>
      if r.rows ≠ rows.length then s.detect k cControl (clusterOf c) 0
      else
        let s := s.spendCredit k c d
        match r.box with
        | none => s.receiveMsg k e (dirBack d) r rows
        | some a =>
          let s := s.devWrite a rows.flatten
          s.receiveMsg k e (dirBack d) r (s.boxRows a r.rows)

/-- SEND: at once where a credit of the job is present and no earlier SEND of it waits, else in order behind them. -/
def State.sendMsg (s : State) (i : Instr) (r : CoreRef) (o : SendOp) : State :=
  match s.job r.slot with
  | none => s
  | some j =>
    s.issue i r [o.t] fun s =>
    let p := (s.core r.core).link o.dir
    let rows := (s.core r.core).msgRows o.t o.row o.rows
    if s.edgeOf j r.core o.dir == .edge then s.detect r.slot cControl (clusterOf r.core) 0
    else s.checked r o.upset (fun t e => t == o.t.val && decide (o.row.val ≤ e / 32) && decide (e / 32 < o.row.val + o.rows)) 0
        (fun _ => false) fun s =>
      if p.credits.any (fun q => q.1 == r.slot.val) && !(p.sends.any fun w => w.slot == r.slot.val) then
        s.transfer r.slot r.core j o.dir rows
      else s.modCore r.core fun x => x.modLink o.dir fun p => { p with sends := p.sends ++ [⟨r.slot, rows⟩] }

def execSend (c : CoreRef) (o : SendOp) (s : State) : Res := coreRes o.wf (s.sendMsg (.send c o) c o)

/-- A control line on VC2 to the device that port p faces: a credit or its cancellation (R194, R196). R193 gives the words of a control
line no layout and no address: line, address, stream and slot are free values (log 61). -/
def State.sendControlLine (s : State) (p : Nat) : State :=
  let v := fun i => (Config.freeValue (s.free + i)).toNat
  (s.withFree (s.free + 11)).sendHaloLines p (v 0 % 2 ^ 42) (v 1 % 4096) (v 2 % 64)
    [(List.range 8).flatMap fun i => leBytes 8 (v (3 + i))]

/-- A posted receive sends its credit to the other side of the link. -/
def State.sendCredit (s : State) (k c : Nat) (j : Job) (d : Dir) (box : Option Nat) : State :=
  match s.edgeOf j c d with
  | .core e => s.modCore e fun x => x.modLink (dirBack d) fun p => { p with flying := p.flying ++ [(k, box.getD 0)] }
  | .port p => s.sendControlLine p
  | .edge => s

/-- The register that a receive names belongs to its job from now on (R113). -/
def CoreSt.claim (x : CoreSt) (k : Nat) (dst : RecvDst) : CoreSt :=
  match dst with
  | .treg n _ => { x with tregs := x.tregs.modify TReg.empty n fun t => { t with owner := some k } }
  | .fifo => x

/-- The registers that a receive names. -/
def recvRegs (o : RecvOp) : List Nat :=
  match o.dst with
  | .treg n _ => [n.val]
  | .fifo => []

/-- The receive is posted: it takes the mailbox half whose turn it is, and its credit goes to the sender's side. -/
def State.postRecv (s : State) (r : CoreRef) (j : Job) (o : RecvOp) : State :=
  let k := r.slot.val
  let box := if j.relayed r.core o.dir then
      (s.mailbox j r.core o.dir).map (· + 2048 * (((s.core r.core).link o.dir).turn.get 0 k % 2))
    else none
  (s.modCore r.core fun x => (x.modLink o.dir fun p => { p with
    posted := p.posted ++ [⟨k, o.dst, o.rows, box, 0⟩], turn := p.turn.modify 0 k (· + 1) }).claim k o.dst).sendCredit k r.core j o.dir box

/-- A job has two receives posted on a link (R188). -/
def State.linkFull (s : State) (r : CoreRef) (d : Dir) : Bool :=
  decide (2 ≤ ((s.core r.core).link d).posted.countP fun p => p.slot == r.slot.val)

/-- RECV: at most 2 receives of a job posted on a link, a further one waits in issue. An edge to relay for which the folio declares no
exchange has no mailbox; no folio issues a RECV on it. -/
def State.recvMsg (s : State) (i : Instr) (r : CoreRef) (o : RecvOp) : State :=
  match s.job r.slot with
  | none => s
  | some j =>
    s.issue i r (recvRegs o) fun s =>
    if s.edgeOf j r.core o.dir == .edge then s.detect r.slot cControl (clusterOf r.core) 0
    else if j.relayed r.core o.dir && (s.mailbox j r.core o.dir).isNone then s
    else if s.linkFull r o.dir then s.holdCmd (.recv r (recvRegs o) o.dir) i
    else s.postRecv r j o

def execRecv (c : CoreRef) (o : RecvOp) (s : State) : Res := coreRes o.wf (s.recvMsg (.recv c o) c o)

/-- A credit of the job that is in flight towards this side of the link; one from another device arrives whenever its port gives it,
naming the mailbox half at the receiver. -/
def State.creditComing (s : State) (j : Job) (k c : Nat) (d : Dir) (box : Nat) : Option Credit :=
  match ((s.core c).link d).flying.find? fun q => q.1 == k with
  | some q => some q
  | none => match s.edgeOf j c d with
    | .port _ => some (k, box)
    | _ => none

/-- STITCH_CREDIT_ARRIVAL: the credit is present, and the job's first waiting SEND leaves. -/
def State.creditArrives (s : State) (k c : Nat) (d : Dir) (box : Nat) : State :=
  match s.job k with
  | none => s
  | some j => match s.creditComing j k c d box with
    | none => s
    | some q =>
      if !j.cores.contains c then s
      else
        let s := s.modCore c fun x => x.modLink d fun p =>
          { p with flying := dropFirst (fun q => q.1 == k) p.flying, credits := p.credits ++ [q] }
        match ((s.core c).link d).sends.find? fun w => w.slot == k with
        | none => s
        | some w =>
          if !j.onCore c then s
          else (s.modCore c fun x => x.modLink d fun p =>
            { p with sends := dropFirst (fun w => w.slot == k) p.sends }).transfer k c j d w.rows

def execStitchCreditArrival (c : CoreRef) (at' : CreditAt) (s : State) : Res := .next (s.creditArrives c.slot c.core at'.dir at'.box)

/-! ## Halo lines that arrive (R194, R195) -/

/-- The receive of the job whose mailbox half holds an address: core, direction, receive. -/
def State.boxAt (s : State) (j : Job) (k a : Nat) : Option (Nat × Dir × Posted) :=
  (j.cores.flatMap fun c => dirs.flatMap fun d => (((s.core c).link d).posted.filter fun r => r.slot == k &&
    r.box.any fun b => decide (b ≤ a) && decide (a < b + 2048)).map fun r => (c, d, r)).head?

/-- A line has been written into a mailbox: it counts towards its message; one beyond the receive's rows is an internal control fault
(R188). -/
def State.haloLine (s : State) (k a : Nat) : State :=
  match s.job k with
  | none => s
  | some j => match s.boxAt j k a with
    | none => s
    | some (c, d, r) =>
      if 128 * r.rows ≤ a - r.box.getD 0 then s.detect k cControl (clusterOf c) 0
      else
        let r' := { r with got := r.got + 1 }
        (s.modCore c fun x => x.modLink d fun p => { p with posted := p.posted.map fun q => if q == r then r' else q }).readBox k c d j r'

/-! ## Preemption (R196) -/

/-- The receives of job k on core c from direction `d` with no row arrived. -/
def State.idleRecvs (s : State) (k c : Nat) (d : Dir) : List Posted :=
  ((s.core c).link d).posted.filter fun r => r.slot == k && r.got == 0

/-- At preemption the job's receives with no row arrived are withdrawn: their credits are cancelled, on this device and, by VC2, on
another; a credit that another device's receive gave stays (R196). -/
def State.cancelCredits (s : State) (k : Nat) (j : Job) : State :=
  s.each j.cores fun s c => s.each dirs fun s d =>
    match s.edgeOf j c d with
    | .port p => s.each (s.idleRecvs k c d) fun s _ => s.sendControlLine p
    | _ => s.modCore c fun x => x.modLink d fun p =>
        { p with flying := p.flying.filter (·.1 != k), credits := p.credits.filter (·.1 != k) }

/-- The receives that the job has posted are posted again after a preemption; a message that has arrived meanwhile is taken (R196). -/
def State.repost (s : State) (k : Nat) (j : Job) : State :=
  s.each j.cores fun s c => s.each dirs fun s d =>
    s.each (((s.core c).link d).posted.filter fun r => r.slot == k) fun s r =>
      if r.got = 0 then s.sendCredit k c j d r.box else s.readBox k c d j r

end Sys2Proof.Machine
end

