-- ==== Sys2Proof/Machine/JobStart.lean ====
section
/-!
DEFINITION. The start of a job (12): the locations a G job takes and what it displaces (R353, R354), the spill and the resumption
of a victim (R355, R357), and the start barrier of a group (R358 to R360).
-/
namespace Sys2Proof.Machine

/-! ## Taking locations (R353) -/

/-- The S and B jobs that hold locations on core c, in the order in which a G job displaces them: B before S, the most recently
admitted first. -/
def State.victims (s : State) (c k : Nat) : List (Nat × Job × FolioDecl) :=
  sortBy (fun a b => decide (b.2.1.terms.cls < a.2.1.terms.cls) || (a.2.1.terms.cls == b.2.1.terms.cls &&
    decide (b.2.1.admitNo ≤ a.2.1.admitNo))) ((s.onCore c fun j => !j.isG).filter (·.1 != k))

/-- Spread a shortage of `n` units over the victims, each giving at most what `units` says. -/
def spread (units : Nat × Job × FolioDecl → Nat) : Nat → List (Nat × Job × FolioDecl) → List (Nat × Nat)
  | _, [] => []
  | n, x :: xs =>
    let m := Nat.min n (units x)
    if m = 0 then spread units n xs else (x.1, m) :: spread units (n - m) xs

/-- The tile registers that a job has written on a core, and the tiles that it owns. -/
def CoreSt.ownTregs (x : CoreSt) (k : Nat) : List Nat := (List.range 32).filter fun n => (x.tregs.get TReg.empty n).owner == some k
def CoreSt.ownAccs (x : CoreSt) (k : Nat) : List Nat := (List.range 8).filter fun n => (x.accs.get AccTile.empty n).owner == some k

/-- Units of a count that jobs other than k hold on core c, the G jobs that have not started apart. -/
def State.heldUnits (s : State) (c k : Nat) (units : Nat × Job × FolioDecl → Nat) : Nat :=
  ((s.onCore c fun j => !j.unstarted c).filter (·.1 != k) |>.map units).sum

/-- The spill entries for `m` tile registers of victim v: registers it has not written first. -/
def tregSpills (x : CoreSt) (v c units m : Nat) : List Spill :=
  let own := x.ownTregs v
  let spare := Nat.min m (units - own.length)
  List.replicate spare ⟨v, c, .spareTreg, .spare, 0⟩ ++
    (own.take (m - spare)).map fun n => ⟨v, c, .treg n, .treg (x.tregs.get TReg.empty n), 0⟩

def accSpills (x : CoreSt) (v c units m : Nat) : List Spill :=
  let own := x.ownAccs v
  let spare := Nat.min m (units - own.length)
  List.replicate spare ⟨v, c, .spareAcc, .spare, 0⟩ ++
    (own.take (m - spare)).map fun n => ⟨v, c, .acc n, .acc (x.accs.get AccTile.empty n), 0⟩

/-- A displaced location is the victim's no more. -/
def CoreSt.vacate (x : CoreSt) (sp : Spill) : CoreSt :=
  match sp.loc with
  | .treg n => { x with tregs := x.tregs.modify TReg.empty n (TReg.release sp.victim) }
  | .acc n => { x with accs := x.accs.modify AccTile.empty n (AccTile.release sp.victim) }
  | .ctx => { x with ctxs := x.ctxs.set Ctx.empty sp.victim Ctx.empty }
  | _ => x

/-- The well granules that a G job takes on core c: free ones, then those of its victims; with the spill entries. -/
def State.takeWell (s : State) (c k need : Nat) : List Nat × List Spill :=
  let taken := s.wellTaken c
  let free := ((List.range wellGranules).filter fun g => !taken.contains g).take need
  let gHeld := (s.admittedJobs.filter fun kj => kj.2.isG).flatMap fun kj =>
    (kj.2.holds.filter fun h => h.core == c).flatMap (·.well)
  let more := (s.victims c k).flatMap fun x =>
    ((x.2.1.holds.filter fun h => h.core == c).flatMap (·.well)).filterMap fun g =>
      if gHeld.contains g then none else some (x.1, g)
  let got := more.take (need - free.length)
  (free ++ got.map (·.2), got.map fun vg => ⟨vg.1, c, .well vg.2, .well, 0⟩)

/-- The displaced locations of a core one behind the other from byte `off` of the reservation in slice `sl` (log 60). -/
def placeSpills (gs : List (List Nat)) (sl : Nat) : Nat → List Spill → List Spill
  | _, [] => []
  | off, sp :: sps => { sp with addr := reservedAddr gs sl off } :: placeSpills gs sl (off + locBytes sp.loc) sps

/-- The whole lines of `n` bytes from `a` hold these bytes, other bytes zero, with fresh welts (R310). -/
def Mem.putRange (m : Mem) (a n : Nat) (ws : List (Nat × Byte)) : Mem :=
  let out := fun x => decide (x < a) || decide (a + n ≤ x)
  Mem.putBytes { m with bytes := m.bytes.filter fun kv => out kv.1, synd := m.synd.filter fun kv => out (64 * kv.1), errs := m.errs.filter fun kv => out (64 * kv.1) } ws

/-- The spill writes a displaced location of core c (R354): a well granule byte by byte, of another the spec gives no layout, so that its bytes
are free values (log 60). -/
def State.writeSpill (s : State) (sp : Spill) : State :=
  let n := locBytes sp.loc
  match sp.loc with
  | .well g =>
    s.withMem (s.mem.putRange sp.addr n ((wellPart (s.core sp.core).well g).map fun kv => (sp.addr + kv.1 % wellGranule, kv.2)))
  | _ =>
    (s.withMem (s.mem.putRange sp.addr n ((List.range n).map fun i =>
      (sp.addr + i, (Config.freeValue (s.free + i)).truncate 8)))).withFree (s.free + n)

/-- The G job in slot k takes its reserved locations on core c (R353); what it displaces goes to its spill region (R354). -/
def State.takeOnCore (s : State) (k : Nat) (d : FolioDecl) (t : Terms) (c : Nat) : State :=
  let (well, ws) := s.takeWell c k (d.wellKib / 16)
  let vs := s.victims c k
  let x := s.core c
  let short := fun (total need : Nat) (units : Nat × Job × FolioDecl → Nat) => s.heldUnits c k units + need - total
  let unitsOf := fun (v : Nat) (units : Nat × Job × FolioDecl → Nat) => ((vs.find? fun y => y.1 == v).map units).getD 0
  let ts := (spread (s.tregUnits c) (short 32 d.tregs (s.tregUnits c)) vs).flatMap fun vm =>
    tregSpills x vm.1 c (unitsOf vm.1 (s.tregUnits c)) vm.2
  let as := (spread (s.accUnits c) (short 8 (reserveOf t d) (s.accUnits c)) vs).flatMap fun vm =>
    accSpills x vm.1 c (unitsOf vm.1 (s.accUnits c)) vm.2
  let cs := (spread (s.ctxUnits c) (short 8 1 (s.ctxUnits c)) vs).map fun vm =>
    ({ victim := vm.1, core := c, loc := .ctx, data := .ctx (x.ctxs.get Ctx.empty vm.1), addr := 0 } : Spill)
  let gs := ((s.job k).map (·.granules)).getD []
  let cores := ((s.job k).map (·.cores)).getD []
  let n := ((cores.filter fun e => homeSlice e == homeSlice c).idxOf? c).getD 0
  let sps := placeSpills gs (homeSlice c) (spillOff t d cores (homeSlice c) n) (ws ++ ts ++ as ++ cs)
  let s := (s.each sps State.writeSpill).modCore c fun x => sps.foldl CoreSt.vacate x
  let s := s.modJob k fun j => { j with
    holds := j.holds ++ [⟨c, well⟩], spills := j.spills ++ sps,
    awaitSpill := if sps.isEmpty then j.awaitSpill else j.awaitSpill ++ [c] }
  s.each (sps.map (·.victim)).eraseDups fun s v => s.modJob v fun w => { w with displaced := w.displaced ++ [(k, c)] }

/-- The granules that an S or B job takes on its cores at acceptance (R353, R528). -/
def State.takeFree (s : State) (k : Nat) (d : FolioDecl) (cores : List Nat) : State :=
  s.each cores fun s c =>
    let taken := s.wellTaken c
    let well := ((List.range wellGranules).filter fun g => !taken.contains g).take (d.wellKib / 16)
    s.modJob k fun j => { j with holds := j.holds ++ [⟨c, well⟩] }

/-! ## Preemption (R354, R355, R357, R196) -/

/-- A running victim is preempted on every core of the device (R353). -/
def State.preempt (s : State) (v : Nat) : State :=
  match s.job v with
  | some j =>
    if j.st = .running ∧ !j.displaced.isEmpty then
      ((s.modJob v fun j => { j with st := .preempted }).cancelCredits v j).flushBlocks v
    else s
  | none => s

end Sys2Proof.Machine
end

