-- ==== Sys2Proof/Machine/Start.lean ====
section
/-!
DEFINITION. The start of a job: on one device at once, in a group through the barrier of R358 to R360 on VC0 (R416, R417); the end of
a preemption (R355, R357); the start timeout.
-/
namespace Sys2Proof.Machine

/-! ## Beginning (R256, R335, R353) -/

/-- The folio runs phases before step 0. -/
def hasOnce (d : FolioDecl) : Bool := d.phases.any fun p => p.kind != 2

/-- The job runs from its origin: its phases before step 0, or where it has none its initial snapshot and step 0 (R256, R275). -/
def State.fromOrigin (s : State) (k : Nat) (d : FolioDecl) : State :=
  if hasOnce d then s.modJob k fun j => { j with step := none, latches := [], atCut := false }
  else (s.startSnap k 0xFFFFFFFF).beginStep k 0

/-- The job in slot k enters RUNNING with its contexts clear (R135); a G job takes its locations and displaces others (R353); an S or
B job of which a location has been displaced meanwhile is preempted. -/
def State.startJob (s : State) (k : Nat) : State :=
  match s.job k with
  | none => s
  | some j => match s.declOf j with
    | none => s
    | some d =>
      let s := s.modJob k fun j => { j with st := .running, start := none }
      let s := s.setContexts k j.cores fun _ => Ctx.empty
      let s := if j.isG then s.each j.cores fun s c => s.takeOnCore k d j.terms c else s
      let s := s.each (s.jobList.map (·.1)) State.preempt
      s.fromOrigin k d

/-- PREEMPT_SPILL_DONE: the last displaced line of a core has been accepted, and the G job may issue there (R354). -/
def execPreemptSpillDone (slot : Fin 64) (core : Fin 2048) (s : State) : Res :=
  .next (s.modJob slot fun j => { j with awaitSpill := j.awaitSpill.filter (· != core.val) })

/-- VICTIM_RESUME: every displaced part of the job's live state has been restored (R355); its receives are posted again (R196). A victim
of which a restored line failed its welt check faults (R357). -/
def State.resumeVictim (s : State) (k : Nat) : State :=
  match s.job k with
  | none => s
  | some j =>
    if j.st ≠ .preempted ∨ !j.displaced.isEmpty then s
    else match j.lost with
    | l :: _ => s.lineFault k cWeltLine (islRsv ((l - scratchLo) / sliceStride % 16)) l
    | [] =>
      let j := { j with st := .running }
      (((s.setJob k (some j)).repost k j).queueBlocks k).tryBoundary k

def execVictimResume (slot : Fin 64) (s : State) : Res := .next (s.resumeVictim slot)

/-! ## The start barrier (R358 to R360) -/

/-- Entry by entry the larger, a shorter list of phases being filled with zeros. -/
def maxLists : List Nat → List Nat → List Nat
  | [], ys => ys
  | xs, [] => xs
  | x :: xs, y :: ys => Nat.max x y :: maxLists xs ys

def maxTerms (a b : BarrierTerms) : BarrierTerms :=
  { a with phases := maxLists a.phases b.phases, once := Nat.max a.once b.once, step := Nat.max a.step b.step,
           replay := Nat.max a.replay b.replay }

/-- The line of a step block (R253). -/
def StepBlock.bytes (b : StepBlock) : List Byte :=
  leBytes 8 b.seed.toNat ++ leBytes 4 b.sMax ++ leBytes 2 b.schedRows ++ leBytes 1 b.schedCols ++
    leBytes 1 ((if b.pair then 1 else 0) + 16 * b.guideIdx) ++ leBytes 8 b.schedAddr ++ leBytes 8 b.snapAddr ++ leBytes 8 b.snapBytes ++
    leBytes 4 b.snapInterval ++ leBytes 4 b.stopThresh.toNat ++ leBytes 4 b.stopMin ++ leBytes 2 b.stopRun ++ List.replicate 10 0

/-- What R358 compares of a submission. -/
def Terms.same (t : Terms) : GroupTerms :=
  ⟨t.folio, (if t.canonical then 1 else 0) + (if t.compat then 2 else 0), t.cls, t.restarts, (t.stepBlock.map StepBlock.bytes).getD []⟩

/-- The payload of BARRIER_ENTER and START: the times of R359 as 64-bit values, and after them what R358 compares, of which the spec
gives no layout (log 36). -/
def termsBytes (t : BarrierTerms) : List Byte :=
  (t.phases ++ [t.once, t.step, t.replay]).flatMap (leBytes 8) ++ leBytes 4 t.same.folio ++ leBytes 1 t.same.mode ++
    leBytes 1 t.same.cls ++ leBytes 1 t.same.restarts ++ t.same.block

/-- A device's own terms: those of its price, 0 for an S or B job. -/
def Job.ownTerms (j : Job) : BarrierTerms :=
  match j.price with
  | some q => ⟨⟨q.phases, q.once, q.step, q.replayTerm j.terms⟩, j.terms.same⟩
  | none => ⟨⟨[], 0, 0, 0⟩, j.terms.same⟩

/-- The price under the group's maxima (R359): the phases as the group gives them, and the sums the larger of what the message carries
and what these phases give (log 36). -/
def groupPrice (j : Job) (d : FolioDecl) (q : Price) (t : BarrierTerms) : Price :=
  let step := Nat.max t.step (stepSum d t.phases + 2000 + d.pagerNs)
  let q := { q with phases := t.phases, once := Nat.max t.once (onceSum d t.phases), step := step, first := firstNetwork d t.phases }
  { q with replay := some (Nat.max t.replay (q.replayTerm j.terms)) }

/-- This device's part of a group job differs from what rank 0 carries: it refuses with BAD_PARAM, and rank 0 hears of it (R358, R360). -/
def State.refusePart (s : State) (k : Nat) (j : Job) : State :=
  ((s.modJob k fun j => { j with refused := true }).sendGroup j false msgRefuse (leBytes 1 stBadParam ++ [0])).endJob k .cancelled 0 none

/-- START obeyed (R359, R360): P and P_r from the maxima; a bound beyond the deadline cancels, otherwise the STARTED record and the
start; a part whose terms differ from rank 0's refuses. -/
def State.obeyStart (s : State) (k : Nat) (t : BarrierTerms) : State :=
  match s.job k with
  | none => s
  | some j => match s.declOf j, j.price with
    | some d, some q =>
      if t.same ≠ j.terms.same then s.refusePart k j
      else if !j.isG then
        ((s.modJob k fun j => { j with start := none }).sendJob k { j with st := .running } stOk rsStarted 0 0).startJob k
      else
        let q := groupPrice j d q t
        let (p, pr) := q.promise j.terms
        if j.terms.deadlineUs < pr then s.endJob k .cancelled 0 (some (infeasibleDetail p pr))
        else
          let s := s.modJob k fun j => { j with start := none, price := some q, promiseUs := p, boundUs := pr }
          (s.sendJob k { j with st := .running } stOk rsStarted p 0).startJob k
    | _, _ => s

/-- ABORT obeyed (R360). -/
def State.obeyAbort (s : State) (k : Nat) (timeout : Bool) : State :=
  s.endJob k .cancelled (if timeout then rsStartTimeout else rsPeerRefused) none

/-- Rank 0 has decided ABORT: it tells every device and obeys. -/
def State.decideAbort (s : State) (k : Nat) (j : Job) (timeout : Bool) : State :=
  (s.sendGroup j true msgAbort []).obeyAbort k timeout

/-- The barrier goes on once this device and every child in the tree have entered: rank 0 decides START, another member passes the
maximum to its parent. -/
def State.tryBarrier (s : State) (k : Nat) : State :=
  match s.job k with
  | none => s
  | some j => match j.start with
    | none => s
    | some b =>
      if b.decided || !((s.childRanks j).all fun r => (b.entries.lookup r).isSome) then s
      else
        let t := b.entries.foldl (fun t e => maxTerms t e.2) j.ownTerms
        let s := s.modJob k fun j => { j with start := some { b with decided := true } }
        if s.leads j then (s.sendGroup j true msgStart (termsBytes t)).obeyStart k t
        else s.sendGroup j false msgBarrierEnter (termsBytes t)

/-- What is kept of a group's start barrier before acceptance is dropped. -/
def State.dropEarly (s : State) (gid : Nat) : State := s.withTopo { s.topo with early := s.topo.early.filter (·.1 != gid) }

/-- An accepted group job enters the barrier, where the entries of its children may have arrived already; floods of the group's
earlier jobs are forgotten. -/
def State.enterBarrier (s : State) (k : Nat) : State :=
  match s.job k with
  | none => s
  | some j =>
    let gid := j.terms.group
    let es := (s.topo.early.filter (·.1 == gid)).map (·.2)
    let s := (s.dropEarly gid).modJob k fun j => { j with start := some ⟨s.now, es, false⟩ }
    let s := s.withTopo { s.topo with faultSeen := s.topo.faultSeen.filter (·.1 != gid) }
    if es.all fun e => e.2.same == j.terms.same then s.tryBarrier k
    else if s.leads j then s.decideAbort k j false
    else s.sendGroup j false msgRefuse (leBytes 1 stBadParam ++ [0])

/-- START_WAIT_TIMEOUT (R359): counted from the origin for a G job, which prices it there (R344), from the entry for another. -/
def execStartWaitTimeout (slot : Fin 64) (s : State) : Res :=
  .next (match s.job slot with
    | some j => match j.start with
      | some b =>
        let base := if j.isG then j.origin else b.since
        if j.st ≠ .accepted ∨ s.now ≤ base + 1000 * j.terms.startWaitUs then s
        else if s.leads j then (if b.decided then s else s.decideAbort slot j true)
        else s.sendGroup j false msgAbort []
      | none => s
    | none => s)

end Sys2Proof.Machine
end

