-- ==== Sys2Proof/Machine/Jobs.lean ====
section
/-!
DEFINITION. Jobs by command (12, 13): JOB_SUBMIT and its checks (R253, R254, R283, R336, R377, R409, R413), the admission decision and
the jobs that wait (R337, R338, R528), JOB_CANCEL, JOB_STATUS, READ_RESULT and RELEASE_RESULT (R379 to R382, R389, R390).
-/
namespace Sys2Proof.Machine

/-! ## The terms of a submission (R336, R377, R253) -/

/-- The fields of a step block's line (R253). -/
def stepBlockOf (b : List Byte) : StepBlock :=
  { seed := BitVec.ofNat 64 (fieldAt b 0 8), sMax := fieldAt b 8 4, schedRows := fieldAt b 12 2, schedCols := fieldAt b 14 1,
    pair := bitsOf (fieldAt b 15 1) 0 2 == 1, guideIdx := bitsOf (fieldAt b 15 1) 4 4, schedAddr := fieldAt b 16 8,
    snapAddr := fieldAt b 24 8, snapBytes := fieldAt b 32 8, snapInterval := fieldAt b 40 4,
    stopThresh := BitVec.ofNat 32 (fieldAt b 44 4), stopMin := fieldAt b 48 4, stopRun := fieldAt b 52 2 }

/-- A field of a step block outside its range or a reserved one (R253, R254); SCHED_ADDR is not checked without rows (R257). -/
def State.stepBlockBad (s : State) (b : List Byte) : Bool :=
  let x := stepBlockOf b
  decide (x.sMax < 1) || decide (2 ^ 24 < x.sMax) || decide (1024 < x.schedRows) || decide (16 < x.schedCols) ||
    decide (1 < bitsOf (fieldAt b 15 1) 0 4) || (x.pair && decide (x.schedCols ≤ x.guideIdx)) ||
    (x.schedCols != 0 && x.schedRows == 0) || (x.schedRows != 0 && x.schedAddr % 64 != 0) || x.snapAddr % 64 != 0 ||
    (x.schedRows != 0 && (!s.mappedRange x.schedAddr (64 * x.schedRows) || s.region x.schedAddr == some .scratch)) ||
    x.snapBytes % 64 != 0 || decide (x.sMax < x.snapInterval) || decide (x.stopMin < 1) || decide (x.sMax < x.stopMin) ||
    decide (16 < x.stopRun) || !zeroAt b 54 10

/-- The terms that a packet carries, with its step block (R377). -/
def submitTerms (p : Pkt) (b : Option StepBlock) : Terms :=
  { folio := p.arg 0 4, cls := p.arg 4 1, canonical := bitsOf (p.arg 5 1) 0 1 == 1, compat := bitsOf (p.arg 5 1) 1 1 == 1,
    issueShare := p.arg 6 1, memShare := p.arg 7 1, linkShare := p.arg 8 1, accReserve := p.arg 9 1, restarts := p.arg 10 1,
    deadlineUs := p.arg 12 4, group := p.arg 16 4, startWaitUs := p.arg 20 4, stepBlock := b, result := p.arg 32 8,
    resultBytes := p.arg 40 8, completion := p.arg 48 8, input := p.arg 56 8, inputBytes := p.arg 64 8, work := p.arg 72 8 }

def submitBlock (p : Pkt) : Nat := p.arg 24 8

/-- The terms as submitted now: the step block's line is read. -/
def State.termsOf (s : State) (p : Pkt) : Terms :=
  submitTerms p (if submitBlock p = 0 then none else some (stepBlockOf (s.devBytes (submitBlock p) 64)))

/-- The ranges of R336 that need no state. -/
def termsBad (p : Pkt) (t : Terms) : Bool :=
  let out := fun lo hi v => decide (v < lo) || decide (hi < v)
  p.jobId == 0 || decide (2 < t.cls) || decide (2 < p.arg 5 1) || p.arg 11 1 != 0 ||
    (t.cls == 0 && (out 1 16 t.issueShare || out 1 16 t.memShare || decide (16 < t.linkShare) || decide (8 < t.accReserve) ||
      decide (3 < t.restarts))) ||
    (t.cls != 2 && t.deadlineUs == 0) || decide (255 < t.group) || (t.group != 0 && out 1 10000000 t.startWaitUs) ||
    [submitBlock p, t.result, t.resultBytes, t.completion, t.input, t.inputBytes, t.work].any fun a => a % 64 != 0

/-- Check 5 of R370, with the step block's line (R254). -/
def State.submitParams (s : State) (p : Pkt) : Option Refuse :=
  let a := submitBlock p
  (badParam (termsBad p (submitTerms p none))).or <|
    if a = 0 then none
    else (badParam (!s.mappedRange a 64)).or <| match s.badLine a 64 with
      | some l => some (stWelt, 0, BitVec.ofNat 64 (l % 2 ^ 48))
      | none => badParam (s.stepBlockBad (s.devBytes a 64))

/-- A new job in SUBMITTED. -/
def freshJob (id ring : Nat) (seq : Word) (t : Terms) (now : Nat) : Job :=
  { id := id, st := .submitted, ring := ring, seq := seq, terms := t, origin := now, promiseUs := 0, boundUs := 0,
    decided := false, admitNo := 0, cores := [], holds := [], granules := [], windowWays := 0, bindings := [], price := none,
    lanes := [], step := none, nextRow := none, batchRows := [], attended := [], stepsRun := 0, latches := [], atCut := false, done := false, earlyStop := false, stopRun := 0, stopStat := 0,
    peerStats := [], nextStats := [], allStat := none, snap := none, snaps := [], combined := none, peerCommits := [], snapNext := 0, pager := none,
    pagerRemote := [], restartsTaken := 0, restart := none, failedAddrs := [], endReason := 0, endDetail := none, degraded := 0,
    lowest := 0, overrun := false, late := false, frames := 0, start := none, spills := [], displaced := [], awaitSpill := [], refused := false,
    flags := 0, decoded := [], window := [], lost := [], partials := [] }

/-! ## The checks that look at the state -/

/-- The part of R254 that the folio decides. -/
def blockBad (d : FolioDecl) (t : Terms) : Bool :=
  match t.stepBlock with
  | none => false
  | some b =>
    (b.pair && !d.nullCond) || d.snapBytes == 0 || decide (b.snapBytes < 2 * d.snapBytes) ||
      (b.stopRun != 0 && (d.attn.isSome || !(d.stanza.any fun x => x.classes.contains .stopMax)))

/-- G' of R412: the members that share a device's coordinates outside AXES. -/
def groupSpan (g : Group) (axes : Nat) : Nat :=
  (List.range 4).foldl (fun n a => if bitsOf axes a 1 = 1 then n * g.ext.get a else n) 1

/-- R413 at JOB_SUBMIT. -/
def collsBad (g : Option Group) (d : FolioDecl) : Bool :=
  match g with
  | none => false
  | some g => d.phases.any fun p => p.colls.any fun r =>
      let n := groupSpan g r.axes
      r.bytes % (if [1, 2, 3].contains r.op then 64 * n else 64) != 0 || decide (n ≤ r.root)

/-- The ranges of R283. -/
def State.rangesBad (s : State) (d : FolioDecl) (t : Terms) : Bool :=
  let inp := (t.input, t.inputBytes)
  let w := (t.work, d.workBytes)
  let outs := [(t.result, t.resultBytes), w] ++ (t.stepBlock.toList.map fun b => (b.snapAddr, b.snapBytes))
  let others := s.jobList.map (·.2)
  !((linesRange inp && (s.inHbm inp || (decide (farLo ≤ inp.1) && s.mappedRange inp.1 inp.2))) &&
      outs.all fun r => linesRange r && s.inHbm r) ||
    (t.work == 0) != (d.workBytes == 0) || anyOverlap (inp :: outs) ||
    others.any fun o => let theirs := s.writableRanges o
      (outs.any fun r => ((o.terms.input, o.terms.inputBytes) :: theirs).any (rangesHit r)) || theirs.any (rangesHit inp)

/-- The state rule of R409. -/
def State.groupConflict (s : State) (t : Terms) : Bool :=
  t.group != 0 && (match s.topo.group t.group with
    | none => true
    | some g => !g.has s.topo.coord || s.admittedJobs.any fun kj => kj.2.terms.group == t.group)

/-- Checks 7 to 9 of a submission. -/
def State.submitLate (s : State) (p : Pkt) : Option Refuse :=
  let t := s.termsOf p
  (chk s.sys.quiesce.isSome (refuse stConflict rsQuiescing)).or <| match s.folio t.folio with
    | none => some (refuse stBadParam rsUnknownFolio)
    | some f =>
      (badParam (blockBad f.decl t || (t.cls == 0 && t.linkShare == 0 && f.decl.linkTraffic) ||
        collsBad (s.groupOf t.group) f.decl || s.rangesBad f.decl t)).or <|
      (chk s.part.pend.isSome (refuse stConflict 0)).or <|
      (chk (s.slotOf p.jobId).isSome (refuse stConflict rsDuplicate)).or <|
      (chk f.invalid (refuse stConflict rsFolioInvalid)).or <|
      (chk (s.groupConflict t) (refuse stConflict 0)).or <|
      (s.tableNeeds f.decl).or <|
      (chk (t.compat && (f.decl.compatCodes || f.decl.draws.any (· != 0))) (refuse stCompat 0)).or <|
      chk ((List.range 64).all fun k => (s.job k).isSome) (refuse stNoResource rsJobSlots)

/-! ## The new job (R334, R337) -/

/-- The slot that the device gives a job: its choice among the free ones, a free value. -/
def State.pickSlot (s : State) : Nat :=
  let ks := (List.range 64).filter fun k => (s.job k).isNone
  ks.getD (s.free64.toNat % Nat.max 1 ks.length) 0

/-- The holding record of R337. -/
def State.holdingRec (s : State) (n : Nat) (p : Pkt) : State :=
  s.sendRec n { s.cmdRec opJobSubmit p.seq p.jobId stAccepted 0 0xFFFFFFFF 0 with jobState := JobState.submitted.code }

/-- The job in SUBMITTED, owing its decision. -/
def State.submitted (s : State) (n : Nat) (p : Pkt) : State :=
  let k := s.pickSlot
  (s.took.setJob k (some (freshJob p.jobId n p.seq (s.termsOf p) s.now))).owe
    { no := s.sys.fetchNo - 1, ring := n, seq := p.seq, opcode := opJobSubmit, job := p.jobId, kind := .jobSubmit k }

/-! ## The decision (R337, R338, R360, R528) -/

/-- The command that submitted the job in slot k, while its decision is pending. -/
def State.submitOp (s : State) (k : Nat) : Option Op := s.sys.ops.find? fun o => o.kind == .jobSubmit k

/-- A submission is refused after its holding record: its record, its slot freed, REFUSE to rank 0 or ABORT from it
(R337, R360); frames, joins and pool maps that named it end as for a cancelled job (log 20). -/
def State.refuseJob (s : State) (k : Nat) (j : Job) (r : Refuse) : State :=
  let s := (s.setJob k none).modSys fun y => { y with waiting := y.waiting.filter (· != k) }
  let s := match s.submitOp k with
    | some o => s.finishOp o r.1 r.2.1 r.2.2
    | none => s
  let s := (s.endSeqCmds k j).endJobFrames k stConflict 0
  if s.leads j then s.sendGroup j true msgAbort [] else s.sendGroup j false msgRefuse (leBytes 1 r.1 ++ leBytes 1 r.2.1)

/-- The decision record of an accepted job (R338). -/
def decisionDetail (j : Job) : DWord :=
  if j.isG then BitVec.ofNat 64 (satTo 0xFFFFFFFF j.boundUs * 2 ^ 32 + j.cores.length % 4096 * 2 ^ 20) else 0

/-- The job is admitted with its placement: awls stop (R303), what it reserves, the NOT_FINAL seal, its decision record, and its start or the
barrier of its group. -/
def State.acceptJob (s : State) (k : Nat) (j : Job) (d : FolioDecl) (cores : List Nat) (fs : List Folio) (window : Nat)
    (q : Price) : State :=
  let s := s.stopAwls
  let gs := s.takeGranules j.terms d cores
  let (p, pr) := if j.isG then q.promise j.terms else (0, 0)
  let j' : Job := { j with
    st := .accepted, decided := true, admitNo := s.sys.admits, cores := cores, granules := gs, windowWays := window,
    bindings := s.bindTables d, price := some q,
    lanes := (List.range 8).map s.portLanes, promiseUs := p, boundUs := pr }
  let s := (((s.withFolios fs).zeroGranules gs).setJob k (some j')).modSys fun y =>
    { y with admits := y.admits + 1, waiting := y.waiting.filter (· != k) }
  let s := (if j.isG then s else s.takeFree k d cores).queueBlocks k
  let s := s.writeCompletion k j' sealNotFinal
  let s := match s.submitOp k with
    | some o => (s.dropOp o).sendRec o.ring
        { s.cmdRec o.opcode o.seq o.job stAccepted 0 (satTo 0xFFFFFFFF p) (decisionDetail j') with jobState := j'.st.code }
    | none => s
  if s.isGroupJob j' then s.enterBarrier k else s.startJob k

/-- An S or B job joins the jobs that wait; its DEFERRED record is written once (R528). -/
def State.deferJob (s : State) (k : Nat) (j : Job) (reason : Nat) : State :=
  let s := s.modSys fun y => { y with waiting := y.waiting ++ [k] }
  s.sendRec j.ring { s.cmdRec opJobSubmit j.seq j.id stDeferred reason 0xFFFFFFFF 0 with jobState := JobState.submitted.code }

/-- What the checks of an admission answer for the job: those of R326 and R409 again, then R531. -/
def State.judge (s : State) (j : Job) (d : FolioDecl) : Verdict :=
  match s.tableNeeds d with
  | some r => .refused r
  | none => if s.groupConflict j.terms then .refused (refuse stConflict 0) else s.verdict j.terms

/-- The order of arrival of a submission whose decision is pending (R528). -/
def State.arrival (s : State) (k : Nat) : Nat := (s.submitOp k).elim 0 (·.no)

/-- An S or B job that arrived before the one in slot k has no decision yet: its own comes first, so that none passes it (R528). -/
def State.waitsBehind (s : State) (k : Nat) : Bool :=
  s.jobList.any fun x => x.2.st == .submitted && !x.2.isG && !s.sys.waiting.contains x.1 && decide (s.arrival x.1 < s.arrival k)

/-- The decision on a job. None is made while a SET_PARTITION is in progress, which is legal only while no job is admitted (R288).
The REASON of an S or B job that waits only behind an earlier one: the spec names none, a free value. -/
def State.decideJob (s : State) (k : Nat) : State :=
  match s.job k with
  | none => s
  | some j =>
    if j.st ≠ .submitted ∨ s.sys.waiting.contains k = true ∨ s.part.pend.isSome = true ∨ (!j.isG && s.waitsBehind k) = true then s
    else match s.declOf j with
      | none => s.refuseJob k j (refuse stBadParam rsUnknownFolio)
      | some d => match s.judge j d with
        | .refused r => s.refuseJob k j r
        | .wait r => s.deferJob k j r
        | .accepted cores fs window q =>
          if !j.isG && !s.sys.waiting.isEmpty then s.took.deferJob k j (s.free64.toNat % 256)
          else s.acceptJob k j d cores fs window q

/-- ADMISSION_DECISION. -/
def execAdmissionDecision (slot : Fin 64) (s : State) : Res := .next (s.decideJob slot)

/-! ## JOB_SUBMIT (R334, R337) -/

/-- A submission that passes its checks: the first reply is the holding record, or, where the decision is complete within the 4 µs, the
decision itself: which of the two is a free value (R337). -/
def State.submit (s : State) (n : Nat) (p : Pkt) : State :=
  if s.free64.getLsbD 63 then (s.submitted n p).decideJob s.pickSlot
  else (s.submitted n p).holdingRec n p

/-- A group job that is refused at its submission: rank 0 hears of it, or aborts (R360). -/
def State.groupRefused (s : State) (p : Pkt) (r : Refuse) : State :=
  match s.groupOf (p.arg 16 4) with
  | none => s
  | some g =>
    if !g.has s.topo.coord then s
    else if s.topo.isRoot g then s.sendDown (p.arg 16 4) g msgAbort 0 []
    else s.sendUp (p.arg 16 4) g msgRefuse 0 (leBytes 1 r.1 ++ leBytes 1 r.2.1)

/-- JOB_SUBMIT. -/
def execJobSubmit (n : Fin 64) (p : Pkt) (s : State) : Res :=
  ringRes p (if submitBlock p = 0 ∨ s.reach false (submitBlock p) = true then
    let t := s.cmd n opJobSubmit p (s.submitParams p) (s.submitLate p) fun t => t.submit n p
    match (s.submitParams p).or ((s.stateCheck opJobSubmit).or (s.submitLate p)) with
    | some r => if s.fetchable n p && (s.headerCheck n opJobSubmit true (plenOf opJobSubmit) p).isNone then t.groupRefused p r else t
    | none => t
  else s)

/-- The earliest waiting job is tried again (R528). -/
def State.retryWaiting (s : State) : State :=
  if s.part.pend.isSome then s
  else match s.sys.waiting with
  | [] => s
  | k :: _ => match s.job k with
    | none => s
    | some j => match s.declOf j with
      | none => s.refuseJob k j (refuse stBadParam rsUnknownFolio)
      | some d => match s.verdict j.terms with
        | .wait _ => s
        | .refused r => s.refuseJob k j r
        | .accepted cores fs window q => match s.tableNeeds d with
          | some r => if r.2.1 = rsTablePending then s else s.refuseJob k j r
          | none => if s.groupConflict j.terms then s.refuseJob k j (refuse stConflict 0) else s.acceptJob k j d cores fs window q

/-- WAITING_JOB_RETRY. -/
def execWaitingJobRetry (s : State) : Res := .next s.retryWaiting

/-! ## JOB_CANCEL and JOB_STATUS -/

/-- A job is cancelled on every device of its group (R389). -/
def State.cancelJob (s : State) (k reason : Nat) : State :=
  match s.job k with
  | some j => if j.st.final then s else (s.floodFault j.terms.group j.restartsTaken reason s.now).endJob k .cancelled reason none
  | none => s

def State.cancel (s : State) (n : Nat) (p : Pkt) : State :=
  match s.slotOf p.jobId with
  | none => s
  | some k => match s.job k with
    | none => s
    | some j =>
      if j.st = .running then s.accept n opJobCancel p (.jobCancel k) 0
      else (s.cancelJob k 0).reply n opJobCancel p (refuse stOk 0)

/-- JOB_CANCEL. -/
def execJobCancel (n : Fin 64) (p : Pkt) (s : State) : Res :=
  ringRes p (s.cmd n opJobCancel p none (s.jobCheck p fun _ j => chk j.st.final (refuse stConflict 0)) fun t => t.cancel n p)

/-- JOB_CANCEL_DONE: the job stops, and the command is answered as it ends. -/
def execJobCancelDone (op : Nat) (s : State) : Res :=
  .next (match s.opOf op with
    | some o => match o.kind with
      | .jobCancel k => s.cancelJob k 0
      | _ => s
    | none => s)

/-- The check of a command that also has a reply for a released job (R381, R382). -/
def State.knownJob (s : State) (p : Pkt) : Option Refuse :=
  chk ((s.slotOf p.jobId).isNone && !s.sys.released.contains p.jobId) (refuse stBadParam rsUnknownJob)

/-- The record that answers JOB_STATUS: a job faulted under R177 or R330 shows that fault; of a released job the promise and the
DETAIL are free values. -/
def State.statusRec (s : State) (p : Pkt) : Rec :=
  match (s.slotOf p.jobId).bind s.job with
  | some j =>
    let (st, rs) := if j.endDetail.isSome ∧ j.st = .faulted then (stFaulted, j.endReason) else (stOk, 0)
    { s.cmdRec opJobStatus p.seq p.jobId st rs 0 (s.jobDetail j) with promise := j.promiseField }
  | none => { s.cmdRec opJobStatus p.seq p.jobId stOk 0 0 (Config.freeValue (s.free + 1)) with promise := s.free32.toNat }

/-- JOB_STATUS. -/
def execJobStatus (n : Fin 64) (p : Pkt) (s : State) : Res :=
  ringRes p (s.cmd n opJobStatus p none (s.knownJob p) fun t => t.took.took.sendRec n (t.statusRec p))

/-! ## READ_RESULT and RELEASE_RESULT -/

/-- A release of the job in slot k waits for reads. -/
def State.releasing (s : State) (k : Nat) : Bool := s.sys.ops.any fun o => o.kind == .releaseResult k

/-- Reads of the result of slot k in progress. -/
def State.reading (s : State) (k : Nat) : Bool := s.sys.ops.any fun o => match o.kind with
  | .readResult j _ _ _ => j == k
  | _ => false

/-- The outcomes of R380 other than a read. -/
def State.readCheck (s : State) (p : Pkt) : Option Refuse :=
  (s.knownJob p).or <| match s.slotOf p.jobId with
    | none => some (refuse stReleased 0)
    | some k => match s.job k with
      | none => some (refuse stReleased 0)
      | some j =>
        j.boundsEnd.or <|
        (badParam (decide (j.terms.resultBytes < p.arg 8 8 + p.arg 16 8))).or <|
        (chk (s.releasing k) (refuse stReleased 0)).or <|
        if j.st = .complete then none
        else if j.st = .faulted then some (stFaulted, j.endReason, s.jobDetail j)
        else if j.st = .cancelled then some (refuse stConflict 0)
        else some (stNotReady, 0, s.jobDetail j)

/-- READ_RESULT. -/
def execReadResult (n : Fin 64) (p : Pkt) (s : State) : Res :=
  ringRes p (s.cmd n opReadResult p (badParam (p.arg 0 8 % 64 != 0 || p.arg 16 8 % 64 != 0)) (s.readCheck p) fun t =>
    match t.slotOf p.jobId with
    | some k => t.accept n opReadResult p (.readResult k (p.arg 0 8) (p.arg 8 8) (p.arg 16 8)) 0
    | none => t)

/-- READ_RESULT_DONE: the lines before one whose welt fails have been written; such a line ends the command (R380). -/
def execReadResultDone (op : Nat) (s : State) : Res :=
  .next (match s.opOf op with
    | some o => match o.kind with
      | .readResult k dst off n => match s.job k with
        | none => s
        | some j =>
          if !s.hostUp then s
          else
            let a := j.terms.result + off
            let t := s.scan a n
            match s.badLine a n with
            | some l => (t.hostWrite dst (s.devBytes a (l - a))).finishOp o stWelt 0 (BitVec.ofNat 64 (l % 2 ^ 48))
            | none => (t.hostWrite dst (s.devBytes a n)).finishOp o stOk 0 0
      | _ => s
    | none => s)

/-- The release takes effect: the RELEASED seal, the slot freed, the identifier remembered, frames that wait for the job ended
(R381, R382, R431). -/
def State.release (s : State) (k : Nat) (j : Job) : State :=
  let s := (s.writeCompletion k j sealReleased).endJobFrames k stConflict 0
  (s.setJob k none).modSys fun y => { y with released := (y.released ++ [j.id]).drop (y.released.length + 1 - 256) }

/-- The state rule of R381. -/
def State.releaseCheck (s : State) (p : Pkt) : Option Refuse :=
  (s.knownJob p).or <| match (s.slotOf p.jobId).bind s.job with
    | none => some (refuse stReleased 0)
    | some j => chk (!j.st.final) (refuse stConflict 0)

def State.releaseNow (s : State) (n : Nat) (p : Pkt) : State :=
  match s.slotOf p.jobId with
  | none => s
  | some k => match s.job k with
    | none => s
    | some j =>
      if s.reading k then s.accept n opReleaseResult p (.releaseResult k) 0
      else (s.release k j).reply n opReleaseResult p (refuse stOk 0)

/-- RELEASE_RESULT. -/
def execReleaseResult (n : Fin 64) (p : Pkt) (s : State) : Res :=
  ringRes p (s.cmd n opReleaseResult p none (s.releaseCheck p) fun t => t.releaseNow n p)

/-- RELEASE_RESULT_DONE: the reads fetched before have ended; every release that waits replies OK. -/
def execReleaseResultDone (op : Nat) (s : State) : Res :=
  .next (match s.opOf op with
    | some o => match o.kind with
      | .releaseResult k => match s.job k with
        | none => s
        | some j =>
          if s.reading k then s
          else (s.release k j).each (s.sys.ops.filter fun q => q.kind == .releaseResult k) fun s q => s.finishOp q stOk 0 0
      | _ => s
    | none => s)

end Sys2Proof.Machine
end

