-- ==== Sys2Proof/Machine/Restart.lean ====
section
/-!
DEFINITION. The restart of a job (16 R450 to R458): quiet, agreement, restore (R250, R280), barrier, resume with the renewed promise
(R348).
-/
namespace Sys2Proof.Machine

def State.modRestart (s : State) (k : Nat) (f : Restart → Restart) : State :=
  s.modJob k fun j => { j with restart := j.restart.map f }

/-! ## Agreement (R455) -/

/-- The ordinal of a COMMIT message; all ones stands for no committed snapshot. -/
def ordinalBytes (o : Option Nat) : List Byte := leBytes 4 (o.getD 0xFFFFFFFF)
def ordinalOf (n : Nat) : Option Nat := if n = 0xFFFFFFFF then none else some n

/-- The least of two ordinals, none being below every ordinal. -/
def leastOrdinal (a b : Option Nat) : Option Nat :=
  match a, b with
  | some x, some y => some (Nat.min x y)
  | _, _ => none

/-- The job enters FAULTED with the REASON it first reported, or PEER_FAULT (R455). -/
def State.abandonRestart (s : State) (k : Nat) (j : Job) (reason : Nat) : State :=
  s.endJob k .faulted reason (match j.restart with
    | some r => (r.causes.find? fun c => ownDetail c.reason && c.reason == reason).map fun c => noticeDetail c false j.restartsTaken
    | none => none)

def firstReason (r : Restart) : Nat := (r.causes.head?.map (·.reason)).getD rsPeerFault

/-- The combined ordinal is known. -/
def State.obeyAgreement (s : State) (k : Nat) (o : Option Nat) : State :=
  s.modRestart k fun r => { r with stage := .restore, ordinal := o }

/-- Once this device is quiet and every child has sent its ordinal, rank 0 decides and another member passes the least on. -/
def State.tryAgreement (s : State) (k : Nat) : State :=
  match s.job k with
  | none => s
  | some j => match j.restart with
    | none => s
    | some r =>
      if r.stage ≠ .agreement || !((s.childRanks j).all fun c => (r.agree.lookup c).isSome) then s
      else
        let o := r.agree.foldl (fun m x => leastOrdinal m x.2) (j.snaps.head?.map (·.ordinal))
        if s.leads j then (s.sendGroup j true msgCommit (ordinalBytes o)).obeyAgreement k o
        else s.sendGroup j false msgCommit (ordinalBytes o)

/-- Rank 0 has an ABORT to give; another member passes the refusal on (R417, R455). -/
def State.refuseRestart (s : State) (k : Nat) (j : Job) (r : Restart) (status reason : Nat) : State :=
  if s.leads j then (s.sendGroup j true msgAbort []).abandonRestart k j (firstReason r)
  else s.sendGroup j false msgRefuse (leBytes 1 status ++ leBytes 1 reason)

/-- RESTART_QUIET_DONE. -/
def State.quietDone (s : State) (k : Nat) : State :=
  match s.job k with
  | none => s
  | some j => match j.restart with
    | none => s
    | some r =>
      if r.stage ≠ .stopped then s
      else if !s.isGroupJob j then
        (s.modRestart k fun r => { r with quietAt := s.now }).obeyAgreement k (j.snaps.head?.map (·.ordinal))
      else
        let s := s.modRestart k fun r => { r with stage := .agreement, quietAt := s.now }
        if r.causes.any (fun c => !c.restart || s.refusesLink j c) then s.refuseRestart k j r stFaulted (firstReason r) else s.tryAgreement k

def execRestartQuietDone (slot : Fin 64) (s : State) : Res := .next (s.quietDone slot)

/-- RESTART_AGREEMENT_TIMEOUT: neither COMMIT nor ABORT within 100 µs of the device's own quiet (R455). -/
def execRestartAgreementTimeout (slot : Fin 64) (s : State) : Res :=
  .next (match s.job slot with
    | some j => match j.restart with
      | some r =>
        if r.stage = .agreement ∧ r.quietAt + 100000 ≤ s.now then s.abandonRestart slot j rsPeerFault else s
      | none => s
    | none => s)

/-! ## Restore (R250, R280) -/

/-- The pager returns to the snapshot; decisions it already holds keep their records to write; every other join and leave without a
final record is undecided again, in order of arrival. A device other than rank 0 has only the deferred joins of the snapshot (R252). -/
def Pager.restore (g snap : Pager) (leads : Bool) (kept : Nat → Bool) : Pager :=
  let later := (g.decisions.filter fun d => d.final && !kept d.ordinal).map (·.req)
  let reqs := if leads then sortBy (fun a b => decide (a.op ≤ b.op)) (g.queue ++ later) else snap.queue.filter (·.deferred)
  { snap with
    decisions := g.decisions.filter fun d => kept d.ordinal
    queue := reqs.map fun r => { r with deferred := snap.queue.any fun q => q.op == r.op && q.deferred }
    wrote := []
    mapped := g.mapped, poolBase := g.poolBase, tableBase := g.tableBase, n := g.n }

def restorePager (g : Option Pager) (leads : Bool) (x : SnapInfo) : Option Pager :=
  g.map fun g => g.restore (x.pager.getD (Pager.fresh g.poolBase g.tableBase g.n)) leads fun o => decide (o ≤ x.ordinal)

/-- The pager of a job that begins at its origin again: no sequence is admitted and no decision stands. -/
def Pager.atOrigin (leads : Bool) (g : Pager) : Pager := g.restore (Pager.fresh g.poolBase g.tableBase g.n) leads fun _ => false

/-- The page-table entries of the admitted sequences are cleared. -/
def State.clearTable (s : State) (j : Job) : State :=
  match (s.declOf j).bind (·.attn), j.pager with
  | some a, some g => s.each (s.seqTable a g) fun s e => s.setPageEntry g e.1 0
  | _, _ => s

/-- The tensors of a snapshot's body, from address `a`, back into the work range. -/
def State.copyTensors (s : State) (work : Nat) : Nat → List SnapTensor → State
  | _, [] => s
  | a, t :: ts => State.copyTensors (s.devWrite (work + t.off) (s.devBytes a t.bytes)) work (a + 64 * ceilDiv t.bytes 64) ts

/-- The snapshot is restored. -/
def State.restoreSnap (s : State) (k : Nat) (j : Job) (d : FolioDecl) (b : StepBlock) (x : SnapInfo) : State :=
  let a := snapSlot b d x.ordinal
  match s.badLine a (64 + x.bodyBytes) with
  | some l => s.lineFault k cWeltSnapshot islCtl l
  | none =>
    let s := (s.touch a (64 + x.bodyBytes)).copyTensors j.terms.work (a + 64 + d.pagerBytes) d.snapTensors
    let s := match j.pager with
      | some g => (s.clearTable j).each x.table fun s e => s.setPageEntry g e.1 e.2
      | none => s
    let s := s.setContexts k j.cores fun _ => { Ctx.empty with flags := x.flags }
    s.modJob k fun j => { j with
      flags := 0, stopRun := x.stopRun, stopStat := x.stopStat, stepsRun := (x.step + 1).toNat,
      step := if x.step = 0xFFFFFFFF then none else some x.step.toNat,
      snaps := j.snaps.filter fun y => decide (y.ordinal ≤ x.ordinal), snapNext := x.ordinal + 1,
      combined := some x.ordinal, peerCommits := j.peerCommits.map fun c => (c.1, x.ordinal),
      pager := restorePager j.pager (s.leads j) x, pagerRemote := [] }

/-- No snapshot is committed on every device: the job begins at its origin again (R454). -/
def State.restoreOrigin (s : State) (k : Nat) (j : Job) : State :=
  ((s.clearTable j).setContexts k j.cores fun _ => Ctx.empty).modJob k fun j => { j with
    flags := 0, stopRun := 0, stopStat := 0, stepsRun := 0, step := none, snaps := [], snapNext := 0, combined := none,
    peerCommits := [], pager := j.pager.map (Pager.atOrigin (s.leads j)), pagerRemote := [] }

/-- The barrier after the restore goes on once this device and every child have entered (R455). -/
def State.tryRestartBarrier (s : State) (k : Nat) : State :=
  match s.job k with
  | none => s
  | some j => match j.restart with
    | none => s
    | some r =>
      if r.stage ≠ .barrier || !((s.childRanks j).all fun c => r.barrier.contains c) then s
      else if s.leads j then (s.sendGroup j true msgStart []).modRestart k fun r => { r with stage := .resume }
      else s.sendGroup j false msgBarrierEnter []

/-- The restore that the agreement asks for. -/
def State.restoreJob (s : State) (k : Nat) (j : Job) (d : FolioDecl) (r : Restart) : State :=
  match (r.ordinal.bind fun o => j.snaps.find? fun (x : SnapInfo) => x.ordinal == o), j.terms.stepBlock with
  | some x, some b => s.restoreSnap k j d b x
  | _, _ => s.restoreOrigin k j

/-- The restore has ended: the barrier in a group, else the resume; a restore that met a bad line has ended the job. -/
def State.afterRestore (s : State) (k : Nat) : State :=
  match s.job k with
  | none => s
  | some j => match j.restart with
    | none => s
    | some r =>
      if r.stage ≠ RestartStage.restore then s
      else if s.isGroupJob j then (s.modRestart k fun r => { r with stage := .barrier }).tryRestartBarrier k
      else s.modRestart k fun r => { r with stage := .resume }

/-- RESTART_RESTORE_DONE: the restore, which waits until the job's locations are free (R357, R458). -/
def State.restoreDone (s : State) (k : Nat) : State :=
  match s.job k with
  | none => s
  | some j => match j.restart, s.declOf j with
    | some r, some d =>
      if r.stage ≠ RestartStage.restore || !j.displaced.isEmpty then s else (s.restoreJob k j d r).afterRestore k
    | _, _ => s

def execRestartRestoreDone (slot : Fin 64) (s : State) : Res := .next (s.restoreDone slot)

/-! ## Resume (R335, R348) -/

/-- The renewed promise of a G job in µs, counted from its origin (R348); `once` again where the job begins at its origin. -/
def State.renewed (s : State) (j : Job) (q : Price) : Nat :=
  let done := j.stepsRun
  let again := if j.snaps.isEmpty then q.once else 0
  ceilDiv (s.now - j.origin + again + (j.terms.sMax - done) * q.step + q.snaps (j.terms.periodic done) + 2000) 1000

/-- RESTART_RESUME: the restored step issues its first instruction. -/
def State.resumeJob (s : State) (k : Nat) : State :=
  match s.job k with
  | none => s
  | some j => match j.restart, j.price, s.declOf j with
    | some r, some q, some d =>
      if r.stage ≠ .resume then s
      else
        let p := if j.isG then s.renewed j q else 0
        let j' : Job := { j with st := .running, restart := none, promiseUs := p }
        let s := ((s.setJob k (some j')).queueBlocks k).sendJob k j' stOk rsRestarted (satTo 0xFFFFFFFF p) 0
        if j.snaps.isEmpty then s.fromOrigin k d else s.beginStep k j.stepsRun
    | _, _, _ => s

def execRestartResume (slot : Fin 64) (s : State) : Res := .next (s.resumeJob slot)

end Sys2Proof.Machine
end

