-- ==== Sys2Proof/Machine/Ctrl.lean ====
section
/-!
DEFINITION. The control messages of VC0 as they arrive (14 R416 to R418): FAULT, BARRIER_ENTER, START, ABORT, REFUSE, STOP_STAT,
COMMIT and PAGER, for the job of the group that they name.
-/
namespace Sys2Proof.Machine

/-- A message is taken from a link that is UP, for a group that has this device as a member. -/
def State.ctrlGroup (s : State) (m : Ctrl) : Option Group :=
  if (s.link m.link).st = linkUp then (s.topo.group m.group.toNat).filter fun g => g.has s.topo.coord else none

/-- The message comes from this device's parent in the tree of R417. -/
def State.fromParent (s : State) (m : Ctrl) (g : Group) : Bool := s.topo.parentPort g == some (m.link.val / 8)

/-- The job of a group on this device: the admitted one, else one that is not final. -/
def State.groupJob (s : State) (gid : Nat) : Option (Nat × Job) :=
  match s.admittedJobs.find? fun kj => kj.2.terms.group == gid with
  | some x => some x
  | none => s.jobList.find? fun kj => kj.2.terms.group == gid && !kj.2.st.final

/-- The group's admitted job, when the message carries its present restart count. -/
def State.ctrlJob (s : State) (m : Ctrl) : Option (Nat × Job) :=
  (s.admittedJobs.find? fun kj => kj.2.terms.group == m.group.toNat).filter fun kj => kj.2.restartsTaken == m.epoch.toNat

/-- A message from rank 0 goes on to the children (R417). -/
def State.forward (s : State) (m : Ctrl) (g : Group) (msg : Nat) (payload : List Byte) : State :=
  s.sendDown m.group.toNat g msg m.epoch.toNat payload

/-! ## FAULT (R418, R450, R452, R457, R458) -/

/-- What a FAULT does to the job of its group: a cancellation (R378, R386, R389), a split group (R457), or a peer's fault. -/
def State.peerFault (s : State) (m : Ctrl) (reason : Nat) : State :=
  match s.groupJob m.group.toNat with
  | none => s
  | some (k, _) =>
    if reason = 0 ∨ reason = rsQuiescing then s.endJob k .cancelled reason none
    else if reason = cGroupSplit then s.faultJob k [mkCause cGroupSplit islCtl 0] false false
    else s.faultJob k [mkCause rsPeerFault 127 m.src.toNat] false false

/-- FAULT: the first copy for a group and epoch is forwarded on the same terms and handed to the fault logic; later copies and those
below the job's present count are dropped. -/
def State.takeFault (s : State) (m : Ctrl) (reason count : Nat) : State :=
  let (gid, e) := (m.group.toNat, m.epoch.toNat)
  match s.ctrlGroup m with
  | none => s
  | some _ =>
    let old := match s.groupJob gid with
      | some (_, j) => decide (e < j.restartsTaken)
      | none => false
    if old || s.topo.faultSeen.contains (gid, e) then s
    else ((s.floodFault gid e reason count).dropEarly gid).peerFault m reason

def execFault (m : Ctrl) (reason : BitVec 8) (count : BitVec 48) (s : State) : Res :=
  .next (s.takeFault m reason.toNat count.toNat)

/-! ## The barriers (R359, R360, R455) -/

/-- A child's entry into the start barrier. -/
def State.childEnters (s : State) (k rank : Nat) (t : BarrierTerms) : State :=
  (s.modJob k fun j => { j with start := j.start.map fun b =>
    { b with entries := b.entries.filter (·.1 != rank) ++ [(rank, t)] } }).tryBarrier k

/-- BARRIER_ENTER: for the job's start, before or after this device's own acceptance, or for its restart. An entry that differs in what
R358 compares is a refusal (R360). -/
def State.takeBarrier (s : State) (m : Ctrl) (rank : Nat) (t : BarrierTerms) : State :=
  match s.ctrlGroup m with
  | none => s
  | some _ => match s.ctrlJob m with
    | some (k, j) =>
      if j.restart.isSome then (s.modRestart k fun r => { r with barrier := rank :: r.barrier }).tryRestartBarrier k
      else if j.start.isNone then s
      else if t.same ≠ j.terms.same then
        (if s.leads j then s.decideAbort k j false else s.sendGroup j false msgRefuse (leBytes 1 stBadParam ++ [0]))
      else s.childEnters k rank t
    | none =>
      if m.epoch ≠ 0 then s
      else s.withTopo { s.topo with
        early := s.topo.early.filter (fun e => !(e.1 == m.group.toNat && e.2.1 == rank)) ++ [(m.group.toNat, rank, t)] }

def execBarrierEnter (m : Ctrl) (rank : Nat) (t : BarrierTimes) (same : GroupTerms) (s : State) : Res :=
  .next (s.takeBarrier m rank ⟨t, same⟩)

/-- START from rank 0. -/
def State.takeStart (s : State) (m : Ctrl) (t : BarrierTerms) : State :=
  match s.ctrlGroup m with
  | none => s
  | some g =>
    if !s.fromParent m g then s
    else
      let s := s.forward m g msgStart (termsBytes t)
      match s.ctrlJob m with
      | none => s
      | some (k, j) =>
        if j.start.isSome then s.obeyStart k t
        else s.modRestart k fun r => if r.stage = .barrier then { r with stage := .resume } else r

def execStart (m : Ctrl) (t : BarrierTerms) (s : State) : Res := .next (s.takeStart m t)

/-- Rank 0's ABORT reaches the job: a start is cancelled (R360), a restart ends in FAULTED (R455). -/
def State.obeyAnyAbort (s : State) (m : Ctrl) (timeout : Bool) : State :=
  match s.ctrlJob m with
  | none => s
  | some (k, j) => match j.restart with
    | some r => s.abandonRestart k j (firstReason r)
    | none => if j.start.isSome then s.obeyAbort k timeout else s

/-- An ABORT or REFUSE from below: rank 0 decides, another member passes it on. -/
def State.abortFromBelow (s : State) (m : Ctrl) (g : Group) (msg : Nat) (payload : List Byte) (timeout : Bool) : State :=
  if !s.topo.isRoot g then s.sendUp m.group.toNat g msg m.epoch.toNat payload
  else match s.ctrlJob m with
    | none => (s.sendDown m.group.toNat g msgAbort m.epoch.toNat []).dropEarly m.group.toNat
    | some (k, j) => match j.restart with
      | some r => if r.stage = .stopped ∨ r.stage = .agreement then s.refuseRestart k j r 0 0 else s
      | none => if j.start.any fun b => !b.decided then s.decideAbort k j timeout else s

def State.takeAbort (s : State) (m : Ctrl) (timeout : Bool) : State :=
  match s.ctrlGroup m with
  | none => s
  | some g =>
    if s.fromParent m g then ((s.forward m g msgAbort []).dropEarly m.group.toNat).obeyAnyAbort m timeout
    else s.abortFromBelow m g msgAbort [] timeout

def execAbort (m : Ctrl) (timeout : Bool) (s : State) : Res := .next (s.takeAbort m timeout)

/-- REFUSE passes unchanged towards rank 0. -/
def State.takeRefuse (s : State) (m : Ctrl) (status reason : Nat) : State :=
  match s.ctrlGroup m with
  | none => s
  | some g => s.abortFromBelow m g msgRefuse (leBytes 1 status ++ leBytes 1 reason) false

def execRefuse (m : Ctrl) (status reason : BitVec 8) (s : State) : Res := .next (s.takeRefuse m status.toNat reason.toNat)

/-! ## Steps (R252, R265, R279) -/

/-- STOP_STAT: a child's part, which may come before this device begins the step, or rank 0's combined statistic. -/
def State.takeStat (s : State) (m : Ctrl) (rank step : Nat) (stat : Word) : State :=
  match s.ctrlGroup m with
  | none => s
  | some g =>
    let down := s.fromParent m g
    let s := if down then s.forward m g msgStopStat (leBytes 4 step ++ leBytes 4 stat.toNat) else s
    match s.ctrlJob m with
    | none => s
    | some (k, j) =>
      if j.step ≠ some step then
        (if down || j.step.elim 0 (· + 1) != step then s
         else s.modJob k fun j => { j with nextStats := j.nextStats.filter (·.1 != rank) ++ [(rank, stat)] })
      else if down then (s.modJob k fun j => { j with allStat := some stat }).tryBoundary k
      else ((s.modJob k fun j => { j with
        peerStats := j.peerStats.filter (·.1 != rank) ++ [(rank, stat)] }).combineStat k).tryBoundary k

def execStopStat (m : Ctrl) (rank : Nat) (step : Nat) (stat : Word) (s : State) : Res := .next (s.takeStat m rank step stat)

/-- A child's commit notice, or in a restart its part of the agreement. -/
def State.childCommits (s : State) (k : Nat) (j : Job) (rank ordinal : Nat) : State :=
  if j.restart.any fun r => r.stage == .stopped || r.stage == .agreement then
    (s.modRestart k fun r => { r with agree := r.agree.filter (·.1 != rank) ++ [(rank, ordinalOf ordinal)] }).tryAgreement k
  else
    let before := s.treeCommit j
    (s.modJob k fun j => { j with peerCommits := j.peerCommits.filter (·.1 != rank) ++ [(rank, ordinal)] }).passCommit k before

/-- Rank 0's combined ordinal. -/
def State.rootCommits (s : State) (k : Nat) (j : Job) (ordinal : Nat) : State :=
  match j.restart with
  | some r => if r.stage = .agreement then s.obeyAgreement k (ordinalOf ordinal) else s
  | none => (s.modJob k fun j => { j with combined := some ordinal }).writeSnap k

/-- COMMIT. -/
def State.takeCommit (s : State) (m : Ctrl) (rank ordinal : Nat) : State :=
  match s.ctrlGroup m with
  | none => s
  | some g =>
    let down := s.fromParent m g
    let s := if down then s.forward m g msgCommit (leBytes 4 ordinal) else s
    match s.ctrlJob m with
    | none => s
    | some (k, j) => if down then s.rootCommits k j ordinal else s.childCommits k j rank ordinal

def execCommit (m : Ctrl) (rank : Nat) (ordinal : Nat) (s : State) : Res := .next (s.takeCommit m rank ordinal)

/-- PAGER: the decisions of rank 0, applied at the same boundary. -/
def State.takePager (s : State) (m : Ctrl) (ds : List PagerDecision) : State :=
  match s.ctrlGroup m with
  | none => s
  | some g =>
    if !s.fromParent m g then s
    else
      let s := s.forward m g msgPager (newsBytes ds)
      match s.ctrlJob m with
      | none => s
      | some (k, _) => (s.modJob k fun j => { j with pagerRemote := j.pagerRemote ++ [ds] }).tryBoundary k

def execPager (m : Ctrl) (ds : List PagerDecision) (s : State) : Res := .next (s.takePager m ds)

end Sys2Proof.Machine
end

