-- ==== Sys2Proof/Machine/Links.lean ====
section
/-!
DEFINITION. The torus links (14): TOPO_SET and GROUP_DEFINE (R403, R407), LINK_TRAIN (R405, R406), flits with their credits, replay
and routing (R394 to R399), reductions in the forwarding path (R411), and the removal of lanes (R400, R401).
-/
namespace Sys2Proof.Machine

/-! ## A link's state (R419, R505) -/

/-- A link changes STATE (IRQ_EVENT.LINK); outside UP no lane is active. -/
def State.linkState (s : State) (l st : Nat) : State :=
  let s' := s.modLink l fun x => { x with
    st := st, tx := if st = linkUp then x.tx else 0, rx := if st = linkUp then x.rx else 0, realign := false }
  if (s.link l).st = st then s' else s'.event 4

/-- A link that begins afresh: sequence numbers, credits, buffers. -/
def Link.fresh (x : Link) : Link :=
  { x with rxSeq := 0, txSeq := 0, replay := [], credit := [], shared := Link.sharedCredits, inUse := [], realign := false,
           waiting := [], served := 0, used := [] }

/-! ## TOPO_SET and GROUP_DEFINE -/

def Coord.at4 (p : Pkt) (off : Nat) : Coord := ⟨p.arg off 1, p.arg (off + 1) 1, p.arg (off + 2) 1, p.arg (off + 3) 1⟩

/-- The ranges of R403. -/
def topoBad (p : Pkt) : Bool :=
  let (size, at0, wrap) := (Coord.at4 p 0, Coord.at4 p 4, p.arg 8 1)
  decide (15 < wrap) || !zeroAt p.body 9 7 || (List.range 4).any fun a =>
    size.get a == 0 || decide (axisMax a < size.get a) || decide (size.get a ≤ at0.get a) ||
      (bitsOf wrap a 1 == 1 && decide (size.get a < 2))

/-- Every link goes DOWN and every group is deleted (R403). -/
def State.setTopo (s : State) (size at0 : Coord) (wrap : BitVec 4) : State :=
  let s := s.each (List.range 64) fun s l => (s.linkState l 0).modLink l fun x => { x.fresh with flight := 0 }
  s.withTopo ⟨size, at0, wrap, [], [], [], []⟩

/-- TOPO_SET. -/
def execTopoSet (n : Fin 64) (p : Pkt) (s : State) : Res :=
  ringRes p (s.cmd n opTopoSet p (badParam (topoBad p))
    (chk (s.jobList.any fun kj => kj.2.terms.group != 0) (refuse stConflict 0)) fun t =>
      (t.setTopo (Coord.at4 p 0) (Coord.at4 p 4) (BitVec.ofNat 4 (p.arg 8 1))).reply n opTopoSet p (refuse stOk 0))

def isPow2 (n : Nat) : Bool := (List.range 17).any fun k => 2 ^ k == n

/-- The extent rule and the diameter of R407. -/
def Topo.boxOk (t : Topo) (g : Group) : Bool :=
  (List.range 4).all (fun a =>
    let (e, o, n) := (g.ext.get a, g.org.get a, t.size.get a)
    (e == n && o == 0) || (isPow2 e && decide (e ≤ n) && o % e == 0 && decide (o + e ≤ n))) && decide (t.diameter g ≤ 24)

/-- GROUP_DEFINE. -/
def execGroupDefine (n : Fin 64) (p : Pkt) (s : State) : Res :=
  let (gid, g) := (p.arg 0 1, ({ org := Coord.at4 p 4, ext := Coord.at4 p 8 } : Group))
  let drop := g.ext == ⟨0, 0, 0, 0⟩
  ringRes p (s.cmd n opGroupDefine p (badParam (gid == 0 || !zeroAt p.body 1 3 || !zeroAt p.body 12 4))
    ((badParam (!drop && !s.topo.boxOk g)).or
      (chk (s.jobList.any fun kj => kj.2.terms.group == gid) (refuse stConflict 0)))
    fun t => (t.withTopo { t.topo with groups := t.topo.groups.set none gid (if drop then none else some g) }).reply n
      opGroupDefine p (refuse stOk 0))

/-! ## LINK_TRAIN -/

def maskPorts (m : Nat) : List Nat := (List.range 8).filter fun p => bitsOf m p 1 == 1

/-- A port without a neighbour, or one that carries a group of an admitted job (R376, R406). -/
def State.trainConflict (s : State) (m : Nat) : Bool :=
  (maskPorts m).any fun p => (s.topo.neighbour p).isNone || s.admittedJobs.any fun kj =>
    match s.groupOf kj.2.terms.group with
    | some g => (s.topo.facing g).contains p
    | none => false

/-- The links that LINK_TRAIN takes into training. -/
def State.toTrain (s : State) (m : Nat) (retrain : Bool) : List Nat :=
  ((maskPorts m).flatMap fun p => (List.range 8).map (8 * p + ·)).filter fun l => retrain || (s.link l).st != linkUp

def State.train (s : State) (n : Nat) (p : Pkt) : State :=
  let (m, retrain) := (p.arg 0 1, p.arg 1 1 == 1)
  (s.each (s.toTrain m retrain) fun s l => (s.linkState l 1).modLink l Link.fresh).accept n opLinkTrain p
    (.linkTrain (BitVec.ofNat 8 m) retrain) 0

/-- LINK_TRAIN. -/
def execLinkTrain (n : Fin 64) (p : Pkt) (s : State) : Res :=
  ringRes p (s.cmd n opLinkTrain p (badParam (decide (1 < p.arg 1 1) || !zeroAt p.body 2 6))
    (chk (s.trainConflict (p.arg 0 1)) (refuse stConflict 0)) fun t => t.train n p)

/-- The peer's identity is that of the device across the link (R404, R406). -/
def State.wired (s : State) (l : Nat) (r : TrainResult) : Bool :=
  let t := s.topo
  r.peerSizes == [t.size.x, t.size.y, t.size.z, t.size.w] && r.peerWrap == t.wrap &&
    (match t.neighbour (l / 8) with
     | some c => r.peerCoord.toNat == c.code
     | none => false) && r.peerPort.val == (if l / 8 % 2 = 0 then l / 8 + 1 else l / 8 - 1) && r.peerGroup.val == l % 8

/-- The step of R405 at which the link fails, as a CAUSE; 0 when it trains. -/
def State.trainCause (s : State) (l : Nat) (r : TrainResult) : Nat :=
  if !r.light then 1
  else if r.rxLanes = 0 then 2
  else if !r.fec then 3
  else if !s.wired l r then 4
  else if 50 < r.flightNs then 5
  else if !r.peerDone || r.txLanes == 0 then 6
  else 0

/-- LINK_PEER (R419). -/
def peerWord (r : TrainResult) : Nat := r.peerGroup.val * 2 ^ 19 + r.peerPort.val * 2 ^ 16 + r.peerCoord.toNat

/-- A link that was in training comes UP or goes DOWN with its CAUSE. -/
def State.trained (s : State) (l : Nat) (r : TrainResult) : State :=
  let c := s.trainCause l r
  if c ≠ 0 then (s.modLink l fun x => { x with cause := c }).linkState l 0
  else (s.modLink l fun x => { x with tx := r.txLanes, rx := r.rxLanes, flight := r.flightNs, peer := peerWord r }).linkState
    l linkUp

/-- Every link in training ends; one of which nothing was found in training fails with TIMEOUT. -/
def State.trainDone (s : State) (o : Op) (m : Nat) (rs : List TrainResult) : State :=
  let ls := (maskPorts m).flatMap fun p => (List.range 8).map (8 * p + ·)
  let s := s.each (ls.filter fun l => (s.link l).st == 1) fun s l =>
    match rs.find? fun r => r.link.val == l with
    | some r => s.trained l r
    | none => (s.modLink l fun x => { x with cause := 6 }).linkState l 0
  s.finishOp o stOk 0 (BitVec.ofNat 64 ((ls.filter fun l => (s.link l).st == linkUp).map fun l => 2 ^ l).sum)

/-- LINK_TRAIN_DONE. -/
def execLinkTrainDone (op : Nat) (rs : List TrainResult) (s : State) : Res :=
  .next (match s.opOf op with
    | some o => match o.kind with
      | .linkTrain m _ => s.trainDone o m.toNat rs
      | _ => s
    | none => s)

/-! ## Lanes (R400, R401) -/

/-- LINK_DOWN or LINK_DEGRADED for each admitted job whose group has a member across the port (R401, R449). -/
def State.linkFaults (s : State) (l : Nat) (down : Bool) (was : Nat) : State :=
  let p := l / 8
  let now := s.portLanes p
  s.each (s.admittedJobs.map (·.1)) fun s k =>
    match s.job k with
    | none => s
    | some j =>
      let priced := j.lanes.getD p 0 - 1
      let across := match s.groupOf j.terms.group with
        | some g => (s.topo.facing g).contains p
        | none => false
      if !across then s
      else if down then s.detect k cLinkDown (islPort p) l
      else if now < priced ∧ priced ≤ was then s.detect k cLinkDegraded (islPort p) l
      else s

/-- Lanes leave an UP link; one whose direction loses its last lane goes DOWN with CAUSE LANES_LOST. -/
def State.dropLanes (s : State) (l : Nat) (tx rx : BitVec 4) (realign : Bool) : State :=
  let x := s.link l
  let was := s.portLanes (l / 8)
  let gone := (popcount4 x.tx - popcount4 tx) + (popcount4 x.rx - popcount4 rx)
  let s := s.modLink l fun y => { y with tx := tx, rx := rx, drops := satTo 0xFFFF (y.drops + gone), realign := realign }
  let down := tx == 0 || rx == 0
  let s := if down then (s.modLink l fun y => { y with cause := 7 }).linkState l 0 else s
  if gone = 0 then s else s.linkFaults l down was

/-- A lane leaves the receive direction, and the link realigns. -/
def State.dropRx (s : State) (l lane : Nat) : State :=
  let x := s.link l
  if x.st ≠ linkUp ∨ x.rx.getLsbD lane = false then s
  else s.dropLanes l x.tx (x.rx &&& ~~~ ((1 : BitVec 4) <<< lane)) true

/-- LANE_LOCK_LOSS: symbol lock lost for more than 1 µs. -/
def execLaneLockLoss (l : Fin 64) (lane : Fin 4) (s : State) : Res := .next (s.dropRx l lane)

/-- LANE_SYMBOL_LIMIT: more than 16,384 corrected symbols within 2^20 codewords. -/
def execLaneSymbolLimit (l : Fin 64) (lane : Fin 4) (s : State) : Res := .next (s.dropRx l lane)

/-- The active receive lanes with the most corrected symbols in the current window. -/
def Link.worstLanes (x : Link) (symbols : List Nat) : List Nat :=
  let act := (List.range 4).filter fun n => x.rx.getLsbD n
  let top := act.foldl (fun m n => Nat.max m (symbols.getD n 0)) 0
  act.filter fun n => symbols.getD n 0 == top

/-- LANE_UNCORRECTABLE_RUN: 16 consecutive uncorrectable codewords; among lanes with equally many corrected symbols the choice is a
free value. -/
def execLaneUncorrectableRun (l : Fin 64) (symbols : List Nat) (s : State) : Res :=
  let ws := (s.link l).worstLanes symbols
  .next (s.took.dropRx l (ws.getD (s.free64.toNat % Nat.max 1 ws.length) 0))

/-! ## Receiving (R393, R396, R399) -/

/-- What the FEC layer counted (R419). -/
def Link.countFec (x : Link) (f : FlitRx) : Link :=
  { x with corr := satTo 0xFFFF (x.corr + f.correctedCw),
           uncorr := satTo 0xFFFF (x.uncorr + if f.uncorrectable then 1 else 0),
           sym := (List.range 4).foldl (fun m n => m.modify 0 n fun v => satTo (1024 * 256 - 1) (v + f.symbols.getD n 0)) x.sym }

/-- CREDIT: buffers returned by the peer. -/
def Link.takeCredit (x : Link) (f : List Byte) : Link :=
  let v := fieldAt f 14 2
  let n := bitsOf v 4 5
  if bitsOf v 3 1 = 1 then { x with shared := Nat.min Link.sharedCredits (x.shared + n) }
  else { x with credit := x.credit.modify Link.reservedCredits (v % 8) fun c => Nat.min Link.reservedCredits (c + n) }

/-- The flits before an acknowledged sequence number leave the replay buffer; acknowledgements are cumulative. -/
def ackReplay (ack : Nat) (r : List (Nat × List Byte)) : List (Nat × List Byte) :=
  r.filter fun x => decide ((x.1 + 4096 - ack % 4096) % 4096 < 2048)

/-- ACK and NAK: a NAK starts a replay from the expected flit. -/
def State.takeAck (s : State) (l : Nat) (f : List Byte) : State :=
  let v := fieldAt f 282 2
  if bitsOf v 15 1 = 0 then s
  else
    let s := s.modLink l fun x => { x with replay := ackReplay (v % 4096) x.replay }
    if bitsOf v 14 1 = 0 then s
    else
      let s := s.modLink l fun x => { x with replays := satTo 0xFFFF (x.replays + 1) }
      s.each (s.link l).replay fun s x => s.emit (.flit l x.2)

/-- A flit is discarded: NAK with the expected sequence number. -/
def State.discardFlit (s : State) (l : Nat) : State := s.sendIdle l 0 true

/-- The link fields of an accepted flit take effect, and flits that waited for them leave. -/
def State.linkFields (s : State) (l : Nat) (f : List Byte) : State :=
  ((s.modLink l fun x => x.takeCredit f).takeAck l f).flush l

/-- A sequenced flit is accepted: the next number is expected, and the flit takes an input buffer, a reserved one first; `use` says
where it goes, and is given the buffer. -/
def State.receive (s : State) (l : Nat) (f : FlitRx) (use : State → Option (Nat × Nat × Bool) → State) : State :=
  if (s.link l).st ≠ linkUp ∨ (s.link l).realign = true then s
  else
    let s := s.modLink l fun x => x.countFec f
    if f.uncorrectable || !flitCrcOk f.bytes || flitSeq f.bytes != (s.link l).rxSeq then s.discardFlit l
    else
      let c := flitClass f.bytes
      let shared := decide (Link.reservedCredits ≤ (s.link l).inUse.get 0 c)
      let s := s.modLink l fun x => { x with
        rxSeq := (x.rxSeq + 1) % 4096, inUse := if shared then x.inUse else x.inUse.set 0 c (x.inUse.get 0 c + 1) }
      use (s.linkFields l f.bytes) (some (l, c, shared))

/-! ## Delivery (R195, R309 to R311) -/

/-- The admitted job in a slot. -/
def State.admittedIn (s : State) (k : Nat) : Option Nat := (s.admittedJobs.find? fun kj => kj.1 == k).map (·.1)

/-- A line that fails its welt at a port meets the job that it is for, or nothing (R451). -/
def State.badArrival (s : State) (f : List Byte) (p line : Nat) : State :=
  match s.admittedIn (flitJob f) with
  | some k => s.lineFault k cWeltLine (islPort p) (64 * line)
  | none => s

/-- The job's flits are discarded while it restarts (R452, R455). -/
def State.stoppedSlot (s : State) (k : Nat) : Bool := (s.job k).any fun j => j.st == .restarting

/-- One line of a WRITE: its welt is checked, and it is written with that welt. A line of a collective or halo exchange is written for
the job of its slot, in HBM only inside the job's ranges (R283, R395). -/
def State.deliverLine (s : State) (f : List Byte) (p k : Nat) : State :=
  let line := flitLineNo f + k
  if lineWelt line (flitLine f k) ≠ flitWelt f k then s.badArrival f p line
  else if (s.region (64 * line)).isNone then s.control (s.admittedIn (flitJob f)) (islPort p)
  else if flitVc f ≠ 3 ∧ s.mayWrite (flitJob f) (64 * line) = false then s
  else
    let s := s.devWrite (64 * line) (flitLine f k)
    if flitVc f = 2 then s.haloLine (flitJob f) (64 * line) else s

/-- A WRITE at its destination. -/
def State.deliver (s : State) (f : List Byte) (p : Nat) : State :=
  if s.stoppedSlot (flitJob f) then s else s.each (flitLines f) fun s k => s.deliverLine f p k

/-- A flit that passes through, without the lines that fail their check on arrival (R310); of their job there is no slot here (R451). -/
def passing (f : List Byte) : List Byte :=
  let good := (flitLines f).filter fun k => lineWelt (flitLineNo f + k) (flitLine f k) == flitWelt f k
  putAt f 1 [BitVec.ofNat 8 ((good.map fun k => 2 ^ k).sum)]

/-- WRITE_FLIT. -/
def State.writeFlit (s : State) (l : Nat) (f : FlitRx) : State :=
  s.receive l f fun s h =>
    if flitDest f.bytes = s.topo.coord then (s.deliver f.bytes (l / 8)).freeBuffer h else s.route l (passing f.bytes) h

/-- A flit as received is one the row names: 288 bytes, and of its type where the CRC holds. -/
def flitIs (f : FlitRx) (ty : Nat) : Bool := f.wf && (!flitCrcOk f.bytes || flitType f.bytes == ty)

def execWriteFlit (l : Fin 64) (f : FlitRx) (s : State) : Res :=
  if flitIs f 1 then .next (s.writeFlit l f) else .fault .illFormed

/-- IDLE_FLIT: credits and acknowledgements (R394, R399). -/
def State.idleFlit (s : State) (l : Nat) (f : FlitRx) : State :=
  if (s.link l).st ≠ linkUp ∨ (s.link l).realign = true then s
  else
    let s := s.modLink l fun x => x.countFec f
    if f.uncorrectable || !flitCrcOk f.bytes then s.discardFlit l else s.linkFields l f.bytes

def execIdleFlit (l : Fin 64) (f : FlitRx) (s : State) : Res :=
  if flitIs f 0 then .next (s.idleFlit l f) else .fault .illFormed

/-! ## Reductions (R411) -/

/-- BF16 SUM of two encodings: the exact sum rounded once, ties to even; MAX under R120. -/
def bf16Sum (a b : Nat) : Nat :=
  (convert 1 false 0 ((decode32 (BitVec.ofNat 32 (a * 65536))).addExact (decode32 (BitVec.ofNat 32 (b * 65536))))).enc
def bf16Max (a b : Nat) : Nat := (fmax (BitVec.ofNat 32 (a * 65536)) (BitVec.ofNat 32 (b * 65536))).toNat / 65536

/-- Two lines combined by an arithmetic code of R413. -/
def reduceLine (arith : Nat) (a b : List Byte) : List Byte :=
  if arith % 2 = 0 then
    (List.range 16).flatMap fun i =>
      let (x, y) := (BitVec.ofNat 32 (fieldAt a (4 * i) 4), BitVec.ofNat 32 (fieldAt b (4 * i) 4))
      leBytes 4 (if arith = 0 then addW x y else fmax x y).toNat
  else
    (List.range 32).flatMap fun i =>
      let (x, y) := (fieldAt a (2 * i) 2, fieldAt b (2 * i) 2)
      leBytes 2 (if arith = 1 then bf16Sum x y else bf16Max x y)

/-- A line's combination with the local operand line, or the line whose welt fails: the arriving one, or the local one. -/
def State.reduced (s : State) (f : List Byte) (k : Nat) : Option (List Byte) :=
  let line := flitLineNo f + k
  if lineWelt line (flitLine f k) ≠ flitWelt f k ∨ s.lineBad line = true then none
  else some (reduceLine (flitArith f) (s.devBytes (64 * line) 64) (flitLine f k))

/-- A flit with line k replaced, and a welt from the result. -/
def putFlitLine (f : List Byte) (k : Nat) (d : List Byte) : List Byte :=
  putAt (putAt f (16 + 64 * k) d) (272 + 2 * k) (leBytes 2 (lineWelt (flitLineNo f + k) d).toNat)

/-- In canonical order two partial sums meet in the tree of R68 over the ranks `ps`: they are all of two neighbouring entries (R69, R408). -/
def treeStep (ps a b : List Nat) : Bool :=
  let entry := fun m x => ps.filter fun r => r / 2 ^ m == x
  let all := fun (xs ys : List Nat) => xs.all ys.contains && ys.all xs.contains
  (List.range 14).any fun m =>
    let (x, y) := (a.headD 0 / 2 ^ m, b.headD 0 / 2 ^ m)
    x != y && x / 2 == y / 2 && all a (entry m x) && all b (entry m y)

/-- In compatibility mode the contributions before this rank come in, and this one's is added to them (R70). -/
def chainStep (ps : List Nat) (own : Nat) (a b : List Nat) : Bool :=
  let before := ps.filter (· < own)
  a == [own] && before.all b.contains && b.all before.contains

/-- The ranks whose contributions the local operand line holds. -/
def Job.heldRanks (j : Job) (own line : Nat) : List Nat := own :: (j.partials.lookup line).getD []

/-- The flit's lines are next in the order of the job's mode; MAX has none (R412). -/
def State.inOrder (s : State) (f : List Byte) (src : RedSrc) : Bool :=
  match s.job (flitJob f) with
  | none => true
  | some j => match s.groupOf j.terms.group with
    | none => true
    | some g =>
      let ps := (s.topo.peers g src.axes.toNat).map g.rank
      let own := g.rank s.topo.coord
      decide (2 ≤ flitArith f) || !(j.terms.compat || j.terms.canonical) || (flitLines f).all fun k =>
        let a := j.heldRanks own (flitLineNo f + k)
        if j.terms.compat then chainStep ps own a src.ranks else treeStep ps a src.ranks

/-- The local operand lines hold the flit's contributions too, until all members' are in them. -/
def Job.gather (j : Job) (members own : Nat) (lines ranks : List Nat) : Job :=
  { j with partials := lines.foldl (fun ps line =>
      let have' := ((ps.lookup line).getD []) ++ ranks
      let rest := ps.filter (·.1 != line)
      if members ≤ (own :: have').eraseDups.length then rest else (line, have') :: rest) j.partials }

def State.gathered (s : State) (f : List Byte) (src : RedSrc) : State :=
  match s.job (flitJob f) with
  | none => s
  | some j => match s.groupOf j.terms.group with
    | none => s
    | some g => s.modJob (flitJob f) fun j =>
        j.gather (s.topo.peers g src.axes.toNat).length (g.rank s.topo.coord) ((flitLines f).map (flitLineNo f + ·)) src.ranks

/-- The reduction of a REDUCE flit at this port; the local operand line has the address of the flit's line. -/
def State.reduceNow (s : State) (w : RedWait) : State :=
  let (f, h, l) := (w.bytes, w.held, w.link)
  let p := l / 8
  let ks := flitLines f
  if s.stoppedSlot (flitJob f) then s.freeBuffer h
  else if ks.any fun k => (s.region (64 * (flitLineNo f + k))).isNone then
    (s.control (s.admittedIn (flitJob f)) (islPort p)).freeBuffer h
  else match ks.find? fun k => (s.reduced f k).isNone with
    | some k => (s.badArrival f p (flitLineNo f + k)).freeBuffer h
    | none =>
      if w.disagree then
        let s := s.modPort p fun x => { x with redFail := satTo 0xFFFFFFFF (x.redFail + 1) }
        (match s.admittedIn (flitJob f) with
          | some k => s.detect k cReduce (islPort p) l
          | none => s.charge (islPort p) (chargeWeight cReduce)).freeBuffer h
      else
        let g := ks.foldl (fun g k => putFlitLine g k ((s.reduced f k).getD [])) f
        if flitDest f = s.topo.coord then
          ((s.each (ks.filter fun k => s.mayWrite (flitJob f) (64 * (flitLineNo f + k))) fun s k =>
            s.devWrite (64 * (flitLineNo f + k)) (flitLine g k)).gathered f w.src).freeBuffer h
        else s.route l g h

/-- A flit waits that is not next in its job's order (R412); one of a stopped job is discarded at once (R455). -/
def State.redWaits (s : State) (w : RedWait) : Bool := !s.stoppedSlot (flitJob w.bytes) && !s.inOrder w.bytes w.src

/-- Flits whose turn has come; `n` bounds how many. -/
def State.redGo : Nat → State → State
  | 0, s => s
  | n + 1, s => match s.topo.reds.find? fun w => !s.redWaits w with
    | none => s
    | some w => State.redGo n ((s.withTopo { s.topo with reds := s.topo.reds.erase w }).reduceNow w)

/-- A REDUCE flit is combined when its turn has come, and those that waited for it after it. -/
def State.reduceHere (s : State) (w : RedWait) : State :=
  if s.redWaits w then s.withTopo { s.topo with reds := s.topo.reds ++ [w] }
  else State.redGo s.topo.reds.length (s.reduceNow w)

/-- REDUCE_FLIT. -/
def execReduceFlit (l : Fin 64) (f : FlitRx) (u : RedUse) (s : State) : Res :=
  if flitIs f 2 then .next (s.receive l f fun s h => s.reduceHere ⟨l, f.bytes, h, u.disagree, u.src⟩) else .fault .illFormed

/-- LANE_REALIGN_DONE: both ends have realigned; a lane that the peer's receive direction has lost leaves TX_LANES, and flits that
waited leave. -/
def execLaneRealignDone (l : Fin 64) (peerRx : BitVec 4) (s : State) : Res :=
  .next (let x := s.link l
    if x.st ≠ linkUp then s else (s.dropLanes l (x.tx &&& peerRx) x.rx false).flush l)

end Sys2Proof.Machine
end

