-- ==== Sys2Proof/Machine/Burnish.lean ====
section
/-!
DEFINITION. Islands over time (01 R25 to R30, 12 R343, 16 R461 to R468): floors, monitors, burnish passes, the margin report,
service hours; power, temperature and references (19 R512 to R521).
-/
namespace Sys2Proof.Machine

def islandCount : Nat := 100
def hourNs : Nat := 3600000000000
def fourHours : Nat := 4 * hourNs

/-- The islands are clocked: from CONFIG_LOAD on. -/
def State.clocked (s : State) : Bool := s.boot.st != .off && s.boot.st != .fuseLoad

/-! ## Floors and headroom (R28, R29, R343, R464, R519, R521) -/

/-- A G job admitted before a lowering has neither ended nor passed its deadline (R343). -/
def State.stillHolds (s : State) (admitNos : List Nat) : Bool :=
  s.admittedJobs.any fun kj => kj.2.isG && admitNos.contains kj.2.admitNo &&
    decide (s.now ≤ kj.2.origin + 1000 * kj.2.terms.deadlineUs)

/-- ISL_FLOOR (R29, R343). -/
def State.islFloor (s : State) (i : Nat) : Nat :=
  (s.island i).held.foldl (fun m h => if s.stillHolds h.2 then Nat.max m h.1 else m) (s.island i).admFloor

/-- charged(i) (R464). -/
def State.charged (s : State) (i : Nat) : Nat :=
  (((s.island i).charges.filter fun c => decide (s.now - c.1 < fourHours)).map (·.2)).sum

/-- HEADROOM_OFF (R464, R467). -/
def State.headroomOff (s : State) (i : Nat) : Bool := decide (2 ≤ s.charged i)

/-- The frequency of an island that completed `c` cycles in the interval: between its floor and 1,400 MHz (R27), at its floor under
R464, and not above the frequency before while headroom is withdrawn (R519, R521). -/
def State.freqOf (s : State) (i c : Nat) : Nat :=
  let f := s.islFloor i
  let top := if s.headroomOff i then f
    else if (s.island i).noHead || s.pins.thermL then Nat.max f (s.island i).freq else 1400
  Nat.max f (Nat.min c top)

/-- ISL_FREQ_UPDATE: `cycles` by island. -/
def execIslFreqUpdate (cycles : List Nat) (s : State) : Res :=
  .next (if s.clocked then s.each (List.range islandCount) fun t i => t.modIsl i fun x => { x with freq := s.freqOf i (cycles.getD i 0) }
    else s)

/-- POWER_SAMPLE: the mean over 100 µs would exceed 1,400 W (R519). -/
def execPowerSample (milliwatts : Nat) (s : State) : Res :=
  .next (if s.clocked then s.each (List.range islandCount) fun t i => t.modIsl i fun x =>
      { x with noHead := decide (1400000 < milliwatts) }
    else s)

/-! ## Hours and plan (R465, R468) -/

/-- The service hours h: the base and whole hours since its write. -/
def State.serviceHours (s : State) : Option Nat := s.integ.hours.map fun h => h.1 + (s.now - h.2) / hourNs

/-- A write of SERVICE_HOURS. -/
def State.writeHours (s : State) (value : Word) : State :=
  if s.integ.hours.isSome then s else s.modInteg fun g => { g with hours := some (value.toNat % 2 ^ 31, s.now) }

/-- SERVICE_HOURS. -/
def execServiceHours (value : Word) (s : State) : Res := .next (s.write fun s => s.writeHours value)

def planHours : Nat := 61320

/-- f < plan(i), exactly: with D = SHIP − 1,200, f lies below 1,200 + D (1 − sqrt (h / 61,320)) when x = 1,200 + D − f is positive
and D² h < x² · 61,320. -/
def belowPlan (ship : Nat) (h : Option Nat) (f : Nat) : Bool :=
  match h with
  | none => decide (f < 1200)
  | some h =>
    let d := ship - 1200
    let x := ship - f
    decide (0 < x) && decide (d * d * Nat.min h planHours < x * x * planHours)

/-- plan(i) rounded down: the highest whole frequency not above it. -/
def planFloor (ship : Nat) (h : Option Nat) : Nat :=
  (List.range (ship - 1200)).foldl (fun m k =>
    let v := 1201 + k
    let atOrBelow := match h with
      | none => false
      | some h => decide ((ship - 1200) * (ship - 1200) * Nat.min h planHours ≤ (ship - v) * (ship - v) * planHours)
    if atOrBelow then v else m) 1200

def State.ship (s : State) (i : Nat) : Nat := s.fuses.ship.get 1260 i

/-- proj < plan(i) (R463, R465). -/
def State.behind (s : State) (i proj : Nat) : Bool := belowPlan (s.ship i) s.serviceHours proj

/-! ## A pass (R462 to R465) -/

/-- The cap of the k-th measurement before evidence: a multiple of 5; the last reading stands for further ones. -/
def capOf (r : Readings) (k : Nat) : Nat := 5 * (r.getD k (r.getLastD 0) / 5)

/-- cap after evidence, and proj. -/
def capAfter (charged cap : Nat) : Nat := cap - 5 * (charged - 3)
def projOf (charged : Nat) (r : Readings) (k : Nat) : Nat := capAfter charged (capOf r k) - 10

/-- Raise the offset while proj lies below the plan: the measurement and the offset it ends on. `n` bounds the steps. -/
def raiseOffset (behind : Nat → Bool) (proj : Nat → Nat) : Nat → Nat → Int → Nat × Int
  | 0, k, off => (k, off)
  | n + 1, k, off => if behind (proj k) && decide (off < 10) then raiseOffset behind proj n (k + 1) (off + 1) else (k, off)

/-- Lower the offset while proj lies 25 MHz or more above the plan; a step too far is taken back. -/
def lowerOffset (behind : Nat → Bool) (proj : Nat → Nat) : Nat → Nat → Int → Nat × Int
  | 0, k, off => (k, off)
  | n + 1, k, off =>
    if !(decide (25 ≤ proj k) && !behind (proj k - 25) && decide (-6 < off)) then (k, off)
    else if behind (proj (k + 1)) then (k + 2, off)
    else lowerOffset behind proj n (k + 1) (off - 1)

/-- The steps of R463 on the offset. -/
def passOffset (idle : Bool) (behind : Nat → Bool) (proj : Nat → Nat) (off : Int) : Nat × Int :=
  if behind (proj 0) then raiseOffset behind proj 16 0 off
  else if idle then lowerOffset behind proj 16 0 off else (0, off)

/-- A pass lowers the floor of admission at once; ISL_FLOOR keeps the old value for the G jobs admitted before (R343, R505). -/
def State.lowerFloor (s : State) (i proj : Nat) : State :=
  let old := s.islFloor i
  let gs := (s.admittedJobs.filter fun kj => kj.2.isG).map (·.2.admitNo)
  (s.modIsl i fun x => { x with admFloor := proj, held := x.held ++ (if gs.isEmpty then [] else [(old, gs)]) }).event 3

/-- MARGIN_EXHAUSTED at an island (R464, R465). -/
def State.exhausted (s : State) (i : Nat) : State :=
  let s := s.modIsl i fun x => { x with status := 3 }
  if s.integ.holds.contains (cMarginExhausted, i) then s else s.hold cMarginExhausted i 0

/-- The decision of a pass on the floor (R463). -/
def State.decideFloor (s : State) (i proj : Nat) (idle : Bool) : State :=
  if proj < 1200 then s.exhausted i
  else if proj < (s.island i).admFloor then s.lowerFloor i proj
  else if idle ∧ (s.island i).admFloor + 10 ≤ proj then s.modIsl i fun x => { x with admFloor := Nat.min 1400 proj }
  else s

/-- One pass of island i with its readings (R463). -/
def State.pass (s : State) (i : Nat) (idle : Bool) (r : Readings) : State :=
  let c := s.charged i
  let (k, off) := passOffset idle (s.behind i) (projOf c r) (s.island i).offset
  let proj := projOf c r k
  let st := if s.serviceHours.isNone then 2 else if s.behind i proj then 1 else 0
  let s := s.modIsl i fun x => { x with
    offset := off, cap := capAfter c (capOf r k), capRaw := capOf r k, proj := some proj, live := !idle, status := st,
    lastPass := some s.now, dueAt := none,
    firstProj := some (x.firstProj.getD proj), firstAt := if x.firstProj.isSome then x.firstAt else s.now }
  (s.modInteg fun g => { g with passes := g.passes + 1 }).decideFloor i proj idle

/-- BURNISH_DUE: four hours after the last pass (R462). -/
def execBurnishDue (i : Fin 100) (s : State) : Res :=
  .next (match (s.island i).lastPass with
    | some t => if t + fourHours ≤ s.now ∧ (s.island i).dueAt = none then s.modIsl i fun x => { x with dueAt := some s.now } else s
    | none => s)

/-- HST and CTL run idle mode only in the first pass (R462). -/
def busyIsland (i : Nat) : Bool := i == islHst || i == islCtl

/-- Whether an idle-mode pass may run: it is due, no admitted job has work at the island; or MARGIN_EXHAUSTED holds the device on
that island's account (R459, R462). -/
def State.mayIdle (s : State) (i : Nat) : Bool :=
  s.integ.holds.contains (cMarginExhausted, i) ||
    ((s.island i).dueAt.isSome && (s.jobsAt i).isEmpty && !busyIsland i)

/-- BURNISH_IDLE_PASS. A pass takes at least one measurement. -/
def execBurnishIdlePass (i : Fin 100) (r : Readings) (s : State) : Res :=
  if r.isEmpty then .fault .illFormed else .next (if s.mayIdle i then s.pass i true r else s)

/-- Whether a due pass runs in live mode: it has waited four hours, or the island is HST or CTL (R462). -/
def State.mayLive (s : State) (i : Nat) : Bool :=
  match (s.island i).dueAt with
  | some d => decide (d + fourHours ≤ s.now) || busyIsland i
  | none => false

/-- BURNISH_LIVE_PASS. -/
def execBurnishLivePass (i : Fin 100) (r : Readings) (s : State) : Res :=
  if r.isEmpty then .fault .illFormed else .next (if s.mayLive i then s.pass i false r else s)

/-! ## BURNISH_RUN -/

def maskIslands (m : Nat) : List Nat := (List.range islandCount).filter fun i => bitsOf m i 1 == 1

/-- BURNISH_RUN. -/
def execBurnishRun (n : Fin 64) (p : Pkt) (s : State) : Res :=
  ringRes p (s.cmd n opBurnishRun p (badParam (!zeroAt p.body 13 3 || decide (2 ^ islandCount ≤ p.arg 0 13))) none fun t =>
    t.accept n opBurnishRun p (.burnishRun (maskIslands (p.arg 0 13))) 0)

/-- The readings of an island among those of a run. -/
def readingsOf (r : List (Fin 100 × Readings)) (i : Nat) : Readings := ((r.find? fun x => x.1.val == i).map (·.2)).getD []

/-- The passes of a BURNISH_RUN: idle mode where no admitted job has work at the island. -/
def State.burnishRun (s : State) (is : List Nat) (r : List (Fin 100 × Readings)) : State :=
  s.each is fun s i => s.pass i ((s.jobsAt i).isEmpty && !busyIsland i) (readingsOf r i)

/-- BURNISH_RUN_DONE; every named island has been measured. -/
def execBurnishRunDone (op : Nat) (r : List (Fin 100 × Readings)) (s : State) : Res :=
  match s.opOf op with
  | some o => match o.kind with
    | .burnishRun is =>
      if is.any fun i => decide (i < islandCount) && (readingsOf r i).isEmpty then .fault .illFormed
      else .next ((s.burnishRun is r).finishOp o stOk 0 0)
    | _ => .next s
  | none => .next s

/-! ## The margin report (R466) -/

def reportBytes : Nat := 3264

/-- HOURS_LEFT: the line through this boot's first and last pass, from the last one; all ones when it does not fall. -/
def Island.hoursLeft (x : Island) : Nat :=
  match x.firstProj, x.proj, x.lastPass with
  | some a, some b, some t => if b < a then satTo 0xFFFFFFFF ((b - 1200) * (t - x.firstAt) / ((a - b) * hourNs)) else 0xFFFFFFFF
  | _, _, _ => 0xFFFFFFFF

/-- The STATUS and OFFSET codes. -/
def Island.offsetBits (x : Island) (w : Nat) : Nat := (x.offset % (2 ^ w : Nat)).toNat

/-- The entry of an island; PASS_AGE_S before the first pass is a free value `age`. -/
def State.marginEntry (s : State) (age : Word) (i : Nat) : List Byte :=
  let x := s.island i
  leBytes 1 i ++ leBytes 1 x.status ++ leBytes 2 (s.islFloor i) ++ leBytes 2 x.admFloor ++ leBytes 2 x.capRaw ++
    leBytes 2 (planFloor (s.ship i) s.serviceHours) ++ leBytes 1 (x.offsetBits 8) ++ leBytes 1 (if x.live then 1 else 0) ++
    leBytes 4 (match x.lastPass with
      | some t => (s.now - t) / 1000000000
      | none => age.toNat) ++
    leBytes 4 (satTo 0xFFFFFFFF x.chargedTotal) ++ leBytes 4 (satTo 0xFFFFFFFF x.warnings) ++ leBytes 2 (satTo 0xFFFF x.timingErrs) ++
    leBytes 4 x.hoursLeft ++ [0, 0]

/-- The report. -/
def State.marginBytes (s : State) : List Byte :=
  sealWelt 22 <|
    leBytes 4 0x4D520001 ++ leBytes 4 (s.serviceHours.getD 0xFFFFFFFF) ++ leBytes 6 s.now ++ leBytes 2 100 ++
    leBytes 4 s.integ.passes ++ List.replicate 44 0 ++ (List.range islandCount).flatMap (s.marginEntry s.free32)

/-- A destination of a report: DST and its host flag lie at these offsets (R376). -/
def State.reportDst (s : State) (p : Pkt) (dst flags reserved bytes : Nat) : Option Refuse :=
  badParam (decide (1 < p.arg flags 1) || !zeroAt p.body (flags + 1) reserved ||
    !s.lineRange (p.arg flags 1 == 1) (p.arg dst 8) bytes)

/-- MARGIN_REPORT. -/
def execMarginReport (n : Fin 64) (p : Pkt) (s : State) : Res :=
  ringRes p (s.cmd n opMarginReport p (s.reportDst p 0 8 7 reportBytes) none fun t =>
    t.accept n opMarginReport p (.marginReport (p.arg 0 8) (p.arg 8 1 == 1)) 0)

/-- MARGIN_REPORT_DONE. -/
def execMarginReportDone (op : Nat) (s : State) : Res :=
  .next (match s.opOf op with
    | some o => match o.kind with
      | .marginReport dst host =>
        if s.reach host dst then (s.took.dstWrite host dst s.marginBytes).finishOp o stOk 0 (BitVec.ofNat 64 reportBytes) else s
      | _ => s
    | none => s)

/-! ## Timing faults (R25, R461, R464, R530) -/

/-- A running frame at a video island ends (R447, R530). -/
def State.endVideo (s : State) (i reason : Nat) : State :=
  if 96 ≤ i ∧ i < 100 then s.abandonFrame (i - 96) reason else s

/-- CROSSING_STALL: `src` sends and `dst` receives. -/
def State.crossingStall (s : State) (src dst : Nat) : State :=
  let ks := (s.jobsAt src ++ s.jobsAt dst).eraseDups
  let s := s.detectAll ks cCrossingStall dst (dst * 256 + src)
  (s.endVideo src cCrossingStall).endVideo dst cCrossingStall

def execCrossingStall (src dst : Fin 100) (s : State) : Res := .next (if s.clocked then s.crossingStall src dst else s)

/-- An ERROR of an in-situ monitor is charged and noted (R449, R464, R466). -/
def State.noteTiming (s : State) (i : Nat) : State :=
  let atFloor := decide ((s.island i).freq ≤ s.islFloor i)
  (s.charge i (chargeWeight cTimingError)).modIsl i fun x => { x with
    timingErrs := x.timingErrs + 1, timingAtFloor := x.timingAtFloor ++ if atFloor then [s.now] else [] }

/-- Two TIMING_ERROR events within 4 hours at the floor, the last one now (R464). -/
def State.timingTwice (s : State) (i : Nat) : Bool :=
  let ts := (s.island i).timingAtFloor.filter fun t => decide (s.now - t < fourHours)
  decide (2 ≤ ts.length) && ts.contains s.now

/-- The causes of TIMING_ERROR for the job in slot k among the islands with an ERROR. -/
def State.timingCauses (s : State) (is : List Nat) (k : Nat) : List Cause :=
  (is.filter fun i => (s.jobsAt i).contains k).map fun i => mkCause cTimingError i 0

/-- MONITOR_SAMPLE. -/
def State.monitorSample (s : State) (warnings : List (Fin 100 × Nat)) (errors : List Nat) : State :=
  let s := s.each warnings fun s w => s.modIsl w.1 fun x => { x with warnings := x.warnings + w.2 }
  let s := s.each errors State.noteTiming
  let hit := s.admittedJobs.map fun kj => (kj.1, s.timingCauses errors kj.1)
  let s := s.each hit fun s kc => s.faultJob kc.1 kc.2 false true
  let s := s.each errors fun s i => s.endVideo i cTimingError
  s.each errors fun s i => if s.timingTwice i then s.exhausted i else s

/-- Particles have struck device memory since the last sample (R451, log 68). -/
def State.struck (s : State) (strikes : List (Nat × StoreErr)) : State :=
  s.withMem { s.mem with errs := strikes ++ s.mem.errs.filter fun e => !strikes.any (·.1 == e.1) }

def execMonitorSample (warnings : List (Fin 100 × Nat)) (hits : SampleHits) (s : State) : Res :=
  .next (if s.clocked then (s.monitorSample warnings (hits.errors.map (·.val)).eraseDups).struck hits.strikes else s)

/-! ## Temperature, rails and references (R449, R512, R513, R517, R521) -/

/-- THERMAL_FAULT. -/
def execThermalFault (i : Fin 100) (s : State) : Res := .next (s.hold cThermal i 0)

/-- THERM_L driven or released. -/
def State.driveThermL (s : State) (low : Bool) : State :=
  if s.pins.thermL = low then s else (s.withPins { s.pins with thermL := low }).emit (.thermL low)

/-- THERM_L_ASSERT; `i` is the sensor that reached 100 °C. -/
def execThermLAssert (_i : Fin 100) (s : State) : Res := .next (if s.boot.st = .off then s else s.driveThermL true)

/-- THERM_L_RELEASE. -/
def execThermLRelease (s : State) : Res := .next (if s.boot.st = .off then s else s.driveThermL false)

/-- POWER_FAULT, whichever the rail. -/
def execPowerFault (_r : Rail) (s : State) : Res := .next (s.hold cPower islCtl 0)

/-- SYSCLK_LOSS. -/
def execSysclkLoss (s : State) : Res := .next (s.hold cClock islCtl 0)

/-- An UP link loses every receive lane and goes DOWN (R400, R512). -/
def State.loseLink (s : State) (l : Nat) : State :=
  (s.modLink l fun y => { y with drops := satTo 0xFFFF (y.drops + popcount4 y.rx), cause := 7 }).linkState l 0

/-- LINK_DOWN of the links for each job whose group has a member across one: one event with all its causes (R401, R450). -/
def State.downCauses (s : State) (j : Job) (ls : List Nat) : List Cause :=
  (ls.filter fun l => match s.groupOf j.terms.group with
    | some g => (s.topo.facing g).contains (l / 8)
    | none => false).map fun l => mkCause cLinkDown (islPort (l / 8)) l

/-- OPTCLK_LOSS. -/
def State.optclkLoss (s : State) : State :=
  let ls := (List.range 64).filter fun l => (s.link l).st == linkUp
  let s := s.each ls State.loseLink
  s.each (s.admittedJobs.map fun kj => (kj.1, s.downCauses kj.2 ls)) fun s kc => s.faultJob kc.1 kc.2 false true

def execOptclkLoss (s : State) : Res := .next s.optclkLoss

end Sys2Proof.Machine
end

