-- ==== Sys2Proof/Machine/Crypto.lean ====
section
/-!
DEFINITION. The algorithms that 17 R477, R478, R481 and R482 name by their standards: SHA-384 and SHA-256 (FIPS 180-4), ECDSA over
P-384 (FIPS 186-5), and LMS with LMOTS_SHA256_N32_W8 (RFC 8554). PRESUMED: their definitions stand in those standards (log 16).
-/
namespace Sys2Proof.Machine

/-! ## SHA-2 -/

/-- The primes below 410, of which there are 80. -/
def shaPrimes : List Nat :=
  (List.range 410).filter fun n => decide (1 < n) && [2, 3, 5, 7, 11, 13, 17, 19].all fun d => d == n || n % d != 0

/-- The largest r' ≥ r with r' ^ k at most v that differs from r in its low bits only. -/
def rootFrom (k v : Nat) : Nat → Nat → Nat
  | 0, r => r
  | bit + 1, r => rootFrom k v bit (if (r + 2 ^ bit) ^ k ≤ v then r + 2 ^ bit else r)

/-- The first 64 bits of the fractional part of the k-th root of n. -/
def rootFraction (k n : Nat) : Nat := rootFrom k (n * 2 ^ (64 * k)) 69 0 % 2 ^ 64

/-- The round constants, of 64 bits, from the cube roots of the primes; those of SHA-256 are the upper halves of the first 64. -/
def shaRound : List Nat := shaPrimes.map (rootFraction 3)

/-- The first hash values, from the square roots of eight primes after the first `skip`: SHA-256 starts from the upper halves of those of the first
eight, SHA-384 from those of the next eight. -/
def shaStart (skip : Nat) : List Nat := ((shaPrimes.drop skip).take 8).map (rootFraction 2)

/-- Rotation to the right and shift to the right in a word of w bits. -/
def rotr (w x n : Nat) : Nat := x / 2 ^ n + x % 2 ^ n * 2 ^ (w - n)
def shr (x n : Nat) : Nat := x / 2 ^ n

/-- The shifts of a variant of SHA-2: two rotations and a shift for each small sigma, three rotations for each large one. -/
structure Sha where
  w : Nat
  rounds : Nat
  s0 : Nat × Nat × Nat
  s1 : Nat × Nat × Nat
  e0 : Nat × Nat × Nat
  e1 : Nat × Nat × Nat
deriving DecidableEq, Repr

def sha256Shape : Sha := ⟨32, 64, (7, 18, 3), (17, 19, 10), (2, 13, 22), (6, 11, 25)⟩
def sha512Shape : Sha := ⟨64, 80, (1, 8, 7), (19, 61, 6), (28, 34, 39), (14, 18, 41)⟩

def Sha.small (h : Sha) (c : Nat × Nat × Nat) (x : Nat) : Nat := rotr h.w x c.1 ^^^ rotr h.w x c.2.1 ^^^ shr x c.2.2
def Sha.large (h : Sha) (c : Nat × Nat × Nat) (x : Nat) : Nat := rotr h.w x c.1 ^^^ rotr h.w x c.2.1 ^^^ rotr h.w x c.2.2

/-- The message schedule, newest word first: `n` more words. -/
def Sha.extend (h : Sha) : Nat → List Nat → List Nat
  | 0, ws => ws
  | n + 1, ws =>
    h.extend n (((h.small h.s1 (ws.getD 1 0) + ws.getD 6 0 + h.small h.s0 (ws.getD 14 0) + ws.getD 15 0) % 2 ^ h.w) :: ws)

/-- The eight working variables after a round with schedule word and constant. -/
def Sha.round (h : Sha) (v : List Nat) (wk : Nat × Nat) : List Nat :=
  let g := fun i => v.getD i 0
  let ch := (g 4 &&& g 5) ^^^ ((2 ^ h.w - 1 - g 4) &&& g 6)
  let maj := (g 0 &&& g 1) ^^^ (g 0 &&& g 2) ^^^ (g 1 &&& g 2)
  let t1 := g 7 + h.large h.e1 (g 4) + ch + wk.2 + wk.1
  let t2 := h.large h.e0 (g 0) + maj
  [(t1 + t2) % 2 ^ h.w, g 0, g 1, g 2, (g 3 + t1) % 2 ^ h.w, g 4, g 5, g 6]

def Sha.constants (h : Sha) : List Nat := (shaRound.take h.rounds).map fun k => k / 2 ^ (64 - h.w)

/-- A big-endian number, and its bytes. -/
def beNat (bs : List Byte) : Nat := bs.foldl (fun n b => 256 * n + b.toNat) 0
def beBytes (n v : Nat) : List Byte := (leBytes n v).reverse

/-- Blocks of `n` bytes. -/
def chunks (n : Nat) (bs : List Byte) : List (List Byte) := (List.range (ceilDiv bs.length n)).map fun k => (bs.drop (n * k)).take n

/-- One block of 16 words. -/
def Sha.block (h : Sha) (v : List Nat) (b : List Byte) : List Nat :=
  let ws := (h.extend (h.rounds - 16) ((chunks (h.w / 8) b).map beNat).reverse).reverse
  let r := (ws.zip h.constants).foldl h.round v
  (v.zip r).map fun x => (x.1 + x.2) % 2 ^ h.w

/-- Padding to whole blocks: a 1 bit, zeros, the length in bits in the last w / 4 bytes. -/
def Sha.padded (h : Sha) (bs : List Byte) : List Byte :=
  let blk := 2 * h.w
  let tail := h.w / 4
  let z := (blk - (bs.length + 1 + tail) % blk) % blk
  bs ++ [0x80] ++ List.replicate z 0 ++ beBytes tail (8 * bs.length)

def Sha.hash (h : Sha) (iv : List Nat) (out : Nat) (bs : List Byte) : List Byte :=
  (((chunks (2 * h.w) (h.padded bs)).foldl h.block iv).flatMap (beBytes (h.w / 8))).take out

def sha256 (bs : List Byte) : List Byte := sha256Shape.hash ((shaStart 0).map fun x => x / 2 ^ 32) 32 bs
def sha384 (bs : List Byte) : List Byte := sha512Shape.hash (shaStart 8) 48 bs

/-! ## ECDSA over P-384 -/

def p384P : Nat := 2 ^ 384 - 2 ^ 128 - 2 ^ 96 + 2 ^ 32 - 1
def p384N : Nat := 0xffffffffffffffffffffffffffffffffffffffffffffffffc7634d81f4372ddf581a0db248b0a77aecec196accc52973
def p384B : Nat := 0xb3312fa7e23ee7e4988e056be3f82d19181d9c6efe8141120314088f5013875ac656398d8a2ed19d2a85c8edd3ec2aef
def p384Gx : Nat := 0xaa87ca22be8b05378eb1c71ef320ad746e1d3b628ba79b9859f741e082542a385502f25dbf55296c3a545e3872760ab7
def p384Gy : Nat := 0x3617de4a96262c6f5d9e98bf9292dc29f8f41dbd289a147ce9da3113b5f0b8c00a60b1ce1d7e819d7a431d7c90ea0e5f

/-- b to the power of the low `n` bits of e, modulo m. -/
def modPow (m b e : Nat) : Nat → Nat
  | 0 => 1 % m
  | n + 1 =>
    let r := modPow m (b * b % m) (e / 2) n
    if e % 2 = 1 then r * b % m else r

/-- The inverse modulo a prime of 384 bits. -/
def modInv (m a : Nat) : Nat := modPow m (a % m) (m - 2) 384

/-- A point of the curve; none is the point at infinity. -/
abbrev EcPoint := Option (Nat × Nat)

def ecSub (a b : Nat) : Nat := (a + (p384P - b % p384P)) % p384P

/-- The third point of a line with slope l through two points with these coordinates. -/
def ecChord (l x1 y1 x2 : Nat) : Nat × Nat :=
  let x3 := ecSub (ecSub (l * l) x1) x2
  (x3, ecSub (l * ecSub x1 x3) y1)

def ecAdd (a b : EcPoint) : EcPoint :=
  match a, b with
  | none, q => q
  | q, none => q
  | some (x1, y1), some (x2, y2) =>
    if x1 = x2 then
      if (y1 + y2) % p384P = 0 then none
      else some (ecChord ((3 * x1 * x1 + p384P - 3) * modInv p384P (2 * y1) % p384P) x1 y1 x1)
    else some (ecChord (ecSub y2 y1 * modInv p384P (ecSub x2 x1) % p384P) x1 y1 x2)

/-- The multiple by the low `n` bits of k. -/
def ecMul (q : EcPoint) (k : Nat) : Nat → EcPoint
  | 0 => none
  | n + 1 =>
    let r := ecMul (ecAdd q q) (k / 2) n
    if k % 2 = 1 then ecAdd r q else r

/-- An uncompressed point of 97 bytes on the curve (R477). -/
def ecDecode (bs : List Byte) : EcPoint :=
  let x := beNat (sliceAt bs 1 48)
  let y := beNat (sliceAt bs 49 48)
  if fieldAt bs 0 1 = 4 ∧ x < p384P ∧ y < p384P ∧ y * y % p384P = (x * x * x + (p384P - 3) * x + p384B) % p384P then some (x, y)
  else none

/-- The ECDSA signature r, s, each 48 bytes big-endian, over a message's SHA-384 hash verifies under a public key (R477). -/
def ecdsaOk (pub sig hash : List Byte) : Bool :=
  let r := beNat (sliceAt sig 0 48)
  let s := beNat (sliceAt sig 48 48)
  match ecDecode pub with
  | none => false
  | some q =>
    if r = 0 ∨ p384N ≤ r ∨ s = 0 ∨ p384N ≤ s then false
    else
      let w := modInv p384N s
      match ecAdd (ecMul (some (p384Gx, p384Gy)) (beNat hash * w % p384N) 384) (ecMul (some q) (r * w % p384N) 384) with
      | some (x, _) => x % p384N == r
      | none => false

/-! ## LMS_SHA256_M32_H20 with LMOTS_SHA256_N32_W8 -/

def lmsTypeM32H20 : Nat := 8
def lmotsTypeN32W8 : Nat := 4

/-- The bytes of a Winternitz chain from step `a`, `n` steps on. -/
def otsChain (key : List Byte) (i : Nat) : Nat → Nat → List Byte → List Byte
  | 0, _, t => t
  | n + 1, j, t => otsChain key i n (j + 1) (sha256 (key ++ beBytes 2 i ++ beBytes 1 j ++ t))

/-- The hash that is signed and its checksum: 34 digits of 8 bits. -/
def otsDigits (q : List Byte) : List Nat :=
  let ds := q.map fun b => b.toNat
  let c := (ds.map fun d => 255 - d).sum
  ds ++ [c / 256, c % 256]

/-- The one-time public key that a signature leads to: `key` is I and the leaf number. -/
def otsCandidate (key c : List Byte) (y : Nat → List Byte) (msg : List Byte) : List Byte :=
  let q := sha256 (key ++ [0x81, 0x81] ++ c ++ msg)
  let zs := (otsDigits q).zipIdx.flatMap fun d => otsChain key d.2 (255 - d.1) d.1 (y d.2)
  sha256 (key ++ [0x80, 0x80] ++ zs)

/-- The root that a node leads to by `n` further nodes of a path. -/
def lmsClimb (ident : List Byte) : Nat → Nat → List Byte → List (List Byte) → List Byte
  | 0, _, t, _ => t
  | n + 1, node, t, ps =>
    let p := ps.headD []
    let lr := if node % 2 = 1 then p ++ t else t ++ p
    lmsClimb ident n (node / 2) (sha256 (ident ++ beBytes 4 (node / 2) ++ [0x83, 0x83] ++ lr)) (ps.drop 1)

/-- The LMS signature of 1,772 bytes over a message verifies under a public key of 56 bytes (R477). -/
def lmsOk (pub sig msg : List Byte) : Bool :=
  let ident := sliceAt pub 8 16
  let q := beNat (sliceAt sig 0 4)
  let key := ident ++ beBytes 4 q
  let kc := otsCandidate key (sliceAt sig 8 32) (fun i => sliceAt sig (40 + 32 * i) 32) msg
  let leaf := sha256 (ident ++ beBytes 4 (2 ^ 20 + q) ++ [0x82, 0x82] ++ kc)
  let root := lmsClimb ident 20 (2 ^ 20 + q) leaf ((List.range 20).map fun i => sliceAt sig (1132 + 32 * i) 32)
  beNat (sliceAt pub 0 4) == lmsTypeM32H20 && beNat (sliceAt pub 4 4) == lmotsTypeN32W8 && beNat (sliceAt sig 4 4) == lmotsTypeN32W8 &&
    beNat (sliceAt sig 1128 4) == lmsTypeM32H20 && decide (q < 2 ^ 20) && root == sliceAt pub 24 32

end Sys2Proof.Machine
end

