-- ==== Sys2Proof/Machine/Boot.lean ====
section
/-!
DEFINITION. Boot, firmware and identity (17 R471 to R487, 10 R299, 18 R489, 19 R516, R517, R526), and their ring commands ATTEST and
FW_STAGE.
-/
namespace Sys2Proof.Machine

/-! ## Power and reset (R471, R475, R516, R517, R526) -/

/-- Boot state of a device without power good or in reset; the strap stays as sampled. -/
def Boot.off (mode : BitVec 2) : Boot :=
  { Boot.atConfigLoad with st := .off, reading := false, mode := mode }

/-- Everything is discarded but the fuses and what lies outside the device: the flash, the host's memory, the terminals. -/
def State.discard (s : State) : State :=
  let t := { State.reset with
    pending := s.pending, fuses := s.fuses, flash := s.flash, boot := Boot.off s.boot.mode, clk := ⟨0, 0, false⟩,
    host := { HostSide.atReset with mem := s.host.mem }, pins := s.pins, free := s.free, out := s.out }
  (t.driveFaultL false).driveThermL false

/-- Step 1 of a boot begins (R473). -/
def State.beginBoot (s : State) : State :=
  if s.pins.pwrgood && s.pins.resetL && s.boot.st == .off then s.modBoot fun b => { b with st := .fuseLoad } else s

/-- PWRGOOD_RISE: the strap is sampled (R471). -/
def execPwrgoodRise (bootMode : BitVec 2) (s : State) : Res :=
  .next (if s.pins.pwrgood then s
    else ((s.withPins { s.pins with pwrgood := true }).modBoot fun b => { b with mode := bootMode }).beginBoot)

/-- PWRGOOD_FALL. -/
def execPwrgoodFall (s : State) : Res := .next (s.withPins { s.pins with pwrgood := false }).discard

/-- RESET_L_ASSERT: low for 1 µs. -/
def execResetLAssert (s : State) : Res := .next (s.withPins { s.pins with resetL := false }).discard

/-- RESET_L_RISE. -/
def execResetLRise (s : State) : Res := .next (s.withPins { s.pins with resetL := true }).beginBoot

/-! ## LOCKED (R478, R479, R487) -/

def lockFuse : Nat := 1
def lockStrap : Nat := 2
def lockFormat : Nat := 3
def lockEcdsa : Nat := 4
def lockLms : Nat := 5
def lockRevoked : Nat := 6
def lockRollback : Nat := 7
def lockHostTimeout : Nat := 8
def lockRead : Nat := 9

def State.lock (s : State) (cause : Nat) : State :=
  (s.modBoot fun b => { b with st := .locked, lockCause := cause, hostWait := false, reading := false }).driveFaultL true

/-! ## Steps 1 and 2 (R473, R476, R489) -/

def slotBytes : Nat := 0x2000000
def identityAt : Nat := 0x4000000
def pathTableAt : Nat := identityAt + 0x10000

/-- Where the image slot begins (R472). -/
def slotBase (b : Bool) : Nat := if b then slotBytes else 0

/-- CONFIG_LOAD is entered: the counter starts from 0 (R31), and the image is read or waited for. -/
def State.enterConfigLoad (s : State) : State :=
  (s.withClk ⟨0, 0, true⟩).modBoot fun b => { b with
    st := .configLoad, slotB := b.mode == 2, hostWait := b.mode == 1, hostWaitAt := 0, reading := b.mode != 1,
    readFrom := slotBase (b.mode == 2), readAt := 0 }

/-- FUSE_LOAD_DONE: `bad` when a field cannot be recovered. -/
def execFuseLoadDone (bad : Bool) (s : State) : Res :=
  .next (if s.boot.st ≠ .fuseLoad then s
    else
      let s := (s.modBoot fun b => { b with leaf := Nat.min 8192 s.fuses.bootCount }).withClk ⟨0, 0, true⟩
      if bad then s.lock lockFuse
      else if s.boot.mode = 3 then s.lock lockStrap
      else s.enterConfigLoad)

/-- UCIE_TRAINING_DONE: the modules that trained and their common rate, both 0 where none did (R489). -/
def execUcieTrainingDone (modules : BitVec 4) (rate : BitVec 6) (s : State) : Res :=
  if (modules = 0 ∧ rate ≠ 0) ∨ (modules ≠ 0 ∧ !hostRates.contains rate.toNat) then .fault .illFormed
  else .next (if s.boot.st = .off then s else s.modHost fun h => { h with modules := modules, rate := rate.toNat })

/-- The GO of the host boot registers (R476, R487). -/
def State.hostBootGo (s : State) : State :=
  if s.boot.st ≠ .configLoad || !s.boot.hostWait then s
  else if s.boot.hostLen = 0 ∨ slotBytes < s.boot.hostLen then s.lock lockFormat
  else s.modBoot fun b => { b with
    hostWait := false, reading := true, readAt := s.now, readFrom := b.hostAddrHi.toNat * 2 ^ 32 + b.hostAddrLo,
    readLen := b.hostLen }

/-- HOST_BOOT_GO: a write of 1 to HOST_BOOT_CTL.GO. -/
def execHostBootGo (s : State) : Res := .next (s.write State.hostBootGo)

/-- HOST_WAIT_TIMEOUT: 10 s without GO (R476). -/
def execHostWaitTimeout (s : State) : Res :=
  .next (if s.boot.hostWait ∧ s.boot.hostWaitAt + 10000000000 ≤ s.now then s.lock lockHostTimeout else s)

def State.flashBytes (s : State) (a n : Nat) : List Byte := (List.range n).map fun k => s.flash.get 0xFF (a + k)

def Boot.fromHost (b : Boot) : Bool := b.mode == 1

/-- The bound of step 2 in ns (R473). -/
def Boot.readBound (b : Boot) : Nat := if b.fromHost then 20000000 else 90000000

/-- The image as read: from flash as many bytes as its header says, at least the header and at most a slot. -/
def State.imageRead (s : State) : List Byte :=
  if s.boot.fromHost then s.hostBytes s.boot.readFrom s.boot.readLen
  else s.flashBytes s.boot.readFrom (Nat.max 512 (Nat.min slotBytes (leNat (s.flashBytes (s.boot.readFrom + 8) 4))))

/-- IMAGE_READ_DONE. -/
def execImageReadDone (s : State) : Res :=
  .next (if s.boot.st = .configLoad && s.boot.reading && decide (s.now ≤ s.boot.readAt + s.boot.readBound) &&
      (!s.boot.fromHost || s.hostUp) then
      s.modBoot fun b => { b with st := .verify, reading := false, image := s.imageRead }
    else s)

/-- IMAGE_READ_TIMEOUT: the read has missed its bound (R478). -/
def execImageReadTimeout (s : State) : Res :=
  .next (if s.boot.st = .configLoad ∧ s.boot.reading ∧ s.boot.readAt + s.boot.readBound ≤ s.now then s.lock lockRead else s)

/-! ## Step 3: the checks of an image (R477, R478) -/

def imgBodyBytes (m : List Byte) : Nat := fieldAt m 12 4
def imgSvn (m : List Byte) : Nat := fieldAt m 16 1
def imgHeader (m : List Byte) : List Byte := sliceAt m 0 512
def imgBody (m : List Byte) : List Byte := (m.drop 512).take (imgBodyBytes m)
def imgEcdsaPub (m : List Byte) : List Byte := sliceAt m 80 97
def imgLmsPub (m : List Byte) : List Byte := sliceAt m 177 56
def imgTail : Nat := 512 + 96 + 1772

/-- Check 1. -/
def imgFormatOk (m : List Byte) : Bool :=
  let n := imgBodyBytes m
  fieldAt m 0 4 == 0x54484932 && fieldAt m 4 2 == 1 && decide (fieldAt m 6 2 < 2) && fieldAt m 8 4 == imgTail + n &&
    m.length == imgTail + n && decide (imgTail + n ≤ slotBytes) && n % 64 == 0 && decide (imgSvn m ≤ 128) &&
    zeroAt m 19 1 && zeroAt m 233 279 && decide (fieldAt m 20 4 < n)

/-- Check 2. -/
def imgKeysOk (f : Fuses) (m : List Byte) : Bool :=
  let (e, l) := (fieldAt m 17 1, fieldAt m 18 1)
  decide (e < 4) && decide (l < 4) && !f.ecdsaRevoked.getLsbD e && !f.lmsRevoked.getLsbD l &&
    f.ecdsaHash.getD e [] == sha384 (imgEcdsaPub m) && f.lmsHash.getD l [] == sha384 (imgLmsPub m)

/-- The checks in their order with their causes. -/
def imgChecks (f : Fuses) (m : List Byte) : List (Bool × Nat) :=
  let a := 512 + imgBodyBytes m
  [(imgFormatOk m, lockFormat), (imgKeysOk f m, lockRevoked), (decide (f.svn ≤ imgSvn m), lockRollback),
   (sha384 (imgBody m) == sliceAt m 32 48, lockFormat),
   (ecdsaOk (imgEcdsaPub m) (sliceAt m a 96) (sha384 (imgHeader m)), lockEcdsa),
   (lmsOk (imgLmsPub m) (sliceAt m (a + 96) 1772) (imgHeader m), lockLms)]

/-- The cause of the first check that fails. -/
def imgFault (f : Fuses) (m : List Byte) : Option Nat := ((imgChecks f m).find? fun c => !c.1).map (·.2)

/-- VERIFY_DONE. -/
def execVerifyDone (s : State) : Res :=
  .next (if s.boot.st = .verify && !s.boot.verified then
      match imgFault s.fuses s.boot.image with
      | some c => s.lock c
      | none =>
        let m := s.boot.image
        s.modBoot fun b => { b with
          verified := true, measure := sha384 (imgHeader m), imageSvn := imgSvn m, ecdsaIdx := fieldAt m 17 1,
          lmsIdx := fieldAt m 18 1 }
    else s)

/-! ## Step 4: identity and ratchet (R480, R482 to R484) -/

/-- DEVICE_ID (R482). -/
def deviceId : List Byte := sha384 (sliceAt Config.devicePub 0 97)

/-- The device certificate holds under the vendor keys of the image, and its keys are the device's own (R482). -/
def certOk (m cert : List Byte) : Bool :=
  let body := sliceAt cert 0 256
  ecdsaOk (imgEcdsaPub m) (sliceAt cert 256 96) (sha384 body) && lmsOk (imgLmsPub m) (sliceAt cert 352 1772) body &&
    sliceAt cert 16 97 == sliceAt Config.devicePub 0 97 && sliceAt cert 113 56 == sliceAt Config.longTermPub 0 56

/-- The path leads leaf q to the long-term public key of the certificate (R483). -/
def pathOk (cert path : List Byte) (q : Nat) : Bool :=
  lmsClimb (sliceAt cert 121 16) 20 (2 ^ 20 + q) (Config.longTermLeaf q) ((List.range 20).map fun i => sliceAt path (32 * i) 32) ==
    sliceAt cert 137 32

/-- The boot certificate (R485). -/
def bootCertOf (q : Nat) (path : List Byte) : List Byte :=
  let body := leBytes 4 0x42430001 ++ leBytes 2 128 ++ leBytes 2 q ++ sliceAt (Config.subtreePub q) 0 56 ++ deviceId ++
    List.replicate 16 0
  body ++ sliceAt (Config.deviceSign (sha384 body)) 0 96 ++ sliceAt (Config.longTermSign q body) 0 1132 ++ path

def State.deviceCert (s : State) : List Byte := s.flashBytes identityAt 2124
def State.pathEntry (s : State) (q : Nat) : List Byte := s.flashBytes (pathTableAt + 640 * q) 640

/-- Whether the boot has an identity; `fuseOk` is the read-back of fuse q (R484). -/
def State.identityOk (s : State) (fuseOk : Bool) : Bool :=
  decide (s.boot.leaf < 8192) && fuseOk && certOk s.boot.image s.deviceCert && pathOk s.deviceCert (s.pathEntry s.boot.leaf) s.boot.leaf

/-- The boot fuse is blown; whether one that fails its read-back counts as blown is a free value. -/
def State.blowBoot (s : State) (fuseOk : Bool) : State :=
  if 8192 ≤ s.boot.leaf then s
  else if fuseOk || s.free64.getLsbD 0 then s.took.withFuses { s.fuses with bootCount := s.boot.leaf + 1 }
  else s.took

/-- The identity of the boot: both certificates kept as read, or none. -/
def State.makeIdentity (s : State) (ok : Bool) : State :=
  s.modBoot fun b => { b with
    identityOff := !ok, deviceCert := if ok then s.deviceCert else [],
    bootCert := if ok then bootCertOf b.leaf (s.pathEntry b.leaf) else [] }

/-- The ratchet is asked for (R480). -/
def State.ratchets (s : State) : Bool := (fieldAt s.boot.image 6 2) % 2 == 1 && decide (s.fuses.svn < s.boot.imageSvn)

/-- The ratchet; after a failed read-back the count of blown fuses is a free value between the two. -/
def State.ratchet (s : State) (ok : Bool) : State :=
  let (a, b) := (s.fuses.svn, s.boot.imageSvn)
  s.took.withFuses { s.fuses with svn := if ok then b else a + s.free64.toNat % (b - a + 1) }

/-- RELEASE_DONE: `bootFuseOk` and `ratchetOk` are the read-backs. -/
def State.releaseBoot (s : State) (bootFuseOk ratchetOk : Bool) : State :=
  let id := s.identityOk bootFuseOk
  let s := (s.blowBoot bootFuseOk).makeIdentity id
  if s.ratchets && !ratchetOk then (s.ratchet false).lock lockFuse
  else (if s.ratchets then s.ratchet true else s).modBoot fun b => { b with st := .training }

def execReleaseDone (bootFuseOk ratchetOk : Bool) (s : State) : Res :=
  .next (if s.boot.st = .verify && s.boot.verified then s.releaseBoot bootFuseOk ratchetOk else s)

/-! ## Steps 5 and 6 (R299, R462, R474, R483, R494) -/

def pinRates : List Nat := [120, 112, 104, 96, 80, 64]

/-- The rate that every channel reaches, beginning at the cap; `best` is the highest rate of each channel (R299). -/
def trainedRate (cap : Nat) (best : List Nat) : Option Nat :=
  pinRates.find? fun r => decide (r ≤ cap) && (List.range 192).all fun c => decide (r ≤ best.getD c 0)

/-- HBM_TRAINING_DONE: `cap` is that of the configuration image, in units of 0.1 Gbit/s; `report` is what the stack
reports for each channel: temperature and whether it requests doubled refresh (R305). -/
def State.trainHbm (s : State) (cap : Nat) (best : List Nat) (report : List (BitVec 8 × Bool)) : State :=
  match trainedRate cap best with
  | none => ((s.withPart { s.part with cap := cap }).modBoot fun b => { b with hbmFail := true }).driveFaultL true
  | some r =>
    let s := ((s.withPart { s.part with cap := cap, rate := r }).modBoot fun b => { b with trained := true }).modHost fun h =>
      { h with memActive := true }
    s.each (List.range 192) fun s c => s.modChan c fun g =>
      let x := report.getD c (0, false)
      { g with trained := true, temp := x.1.toNat, refresh2x := x.2 }

def execHbmTrainingDone (cap : Nat) (best : List Nat) (report : List (BitVec 8 × Bool)) (s : State) : Res :=
  if 120 < cap then .fault .illFormed
  else .next (if s.boot.st = .training && !s.boot.trained && !s.boot.hbmFail then s.trainHbm cap best report else s)

/-- SUBTREE_READY. -/
def execSubtreeReady (s : State) : Res :=
  .next (if s.scribesRun && !s.boot.identityOff then s.modBoot fun b => { b with subtreeReady := true } else s)

/-- The first pass on every island; READY unless one of them put the device into FAULT_HOLD (R474). -/
def State.firstBurnish (s : State) (r : List Readings) : State :=
  let s := s.each (List.range islandCount) fun s i => s.pass i true (r.getD i [])
  if s.boot.st = .training then (s.modBoot fun b => { b with st := .ready }).event 0 else s

/-- FIRST_BURNISH_DONE; every island has been measured. -/
def execFirstBurnishDone (r : List Readings) (s : State) : Res :=
  if (List.range islandCount).any fun i => (r.getD i []).isEmpty then .fault .illFormed
  else .next (if s.boot.st = .training && s.boot.trained then s.firstBurnish r else s)

/-! ## ATTEST (R484, R485) -/

def attestBytes : Nat := 7140

/-- Reports that are owed. -/
def State.attestsDue (s : State) : List Op := s.sys.ops.filter fun o => match o.kind with
  | .attest _ _ _ => true
  | _ => false

/-- The destination of a report. -/
def State.attestParams (s : State) (p : Pkt) : Option Refuse :=
  let (dst, fl) := (p.arg 32 8, p.arg 40 1)
  badParam (decide (1 < fl) || !zeroAt p.body 41 7 || dst % 64 != 0 || (fl == 0 && !s.mappedRange dst attestBytes))

/-- ATTEST. -/
def execAttest (n : Fin 64) (p : Pkt) (s : State) : Res :=
  ringRes p (s.cmd n opAttest p (s.attestParams p)
    (chk (s.boot.identityOff || decide (32768 ≤ s.boot.reports + s.attestsDue.length)) (refuse stNoResource rsAttestExhausted))
    fun t => t.accept n opAttest p (.attest (sliceAt p.body 0 32) (p.arg 32 8) (p.arg 40 1 == 1)) 0)

/-- The report body. -/
def State.reportBody (s : State) (nonce : List Byte) : List Byte :=
  let b := s.boot
  leBytes 4 0x41540001 ++ leBytes 2 256 ++ leBytes 1 s.devState.code ++ leBytes 1 (b.mode.toNat + if b.slotB then 4 else 0) ++
    leBytes 2 b.leaf ++ [0, 0] ++ leBytes 4 b.reports ++ leBytes 6 s.now ++ [0, 0] ++ leBytes 1 b.imageSvn ++
    leBytes 1 s.fuses.svn ++ leBytes 1 b.ecdsaIdx ++ leBytes 1 b.lmsIdx ++ leBytes 2 s.inServiceCores.length ++
    leBytes 1 s.part.rate ++ leBytes 1 (if b.staged then 1 else 0) ++ sliceAt nonce 0 32 ++ deviceId ++ sliceAt b.measure 0 48 ++
    sliceAt b.stagedMeasure 0 48 ++ List.replicate 48 0

/-- The report with its signatures and certificates. -/
def State.report (s : State) (nonce : List Byte) : List Byte :=
  let body := s.reportBody nonce
  body ++ sliceAt (Config.deviceSign (sha384 body)) 0 96 ++ sliceAt (Config.subtreeSign s.boot.leaf s.boot.reports body) 0 2668 ++
    sliceAt s.boot.bootCert 0 1996 ++ sliceAt s.boot.deviceCert 0 2124

/-- ATTEST_DONE: once the subtree is built, in the order of fetch. -/
def execAttestDone (op : Nat) (s : State) : Res :=
  .next (match s.opOf op with
    | some o => match o.kind with
      | .attest nonce dst host =>
        if s.boot.subtreeReady && s.reach host dst && s.attestsDue.all fun q => decide (op ≤ q.no) then
          ((s.dstWrite host dst (s.report nonce)).modBoot fun b => { b with reports := b.reports + 1 }).finishOp o stOk 0
            (BitVec.ofNat 64 attestBytes)
        else s
      | _ => s
    | none => s)

/-! ## FW_STAGE (R481) -/

def State.staging (s : State) : Bool := s.sys.ops.any fun o => match o.kind with
  | .fwStage _ _ _ => true
  | _ => false

/-- FW_STAGE. -/
def execFwStage (n : Fin 64) (p : Pkt) (s : State) : Res :=
  let (img, bytes, host) := (p.arg 0 8, p.arg 8 8, p.arg 16 1 == 1)
  ringRes p (s.cmd n opFwStage p
    (badParam (img % 64 != 0 || bytes == 0 || decide (1 < p.arg 16 1) || !zeroAt p.body 17 7 || (!host && !s.mappedRange img bytes)))
    (chk s.staging (refuse stConflict 0))
    fun t => t.accept n opFwStage p (.fwStage img bytes host) 0)

/-- The slot that was not booted, erased and programmed. -/
def State.programSlot (s : State) (m : List Byte) : State :=
  let base := slotBase (!s.boot.slotB)
  let kept := s.flash.filter fun kv => !(decide (base ≤ kv.1) && decide (kv.1 < base + slotBytes))
  s.withFlash (m.zipIdx.foldl (fun f bk => f.set 0xFF (base + bk.2) bk.1) kept)

/-- FW_STAGE once the image has been read. -/
def State.stageImage (s : State) (o : Op) (m : List Byte) : State :=
  match imgFault s.fuses m with
  | some c => s.finishOp o stAuth 0 (BitVec.ofNat 64 c)
  | none =>
    let s := if s.boot.fromHost then s
      else (s.programSlot m).modBoot fun b => { b with staged := true, stagedMeasure := sha384 (imgHeader m) }
    s.finishOp o stOk 0 (BitVec.ofNat 64 (imgSvn m))

/-- FW_STAGE_DONE. -/
def execFwStageDone (op : Nat) (s : State) : Res :=
  .next (match s.opOf op with
    | some o => match o.kind with
      | .fwStage img bytes host =>
        if !s.reach host img then s
        else if !host && (s.badLine img bytes).isSome then (s.scan img bytes).finishOp o stWelt 0 0
        else (s.when (!host) (·.touch img bytes)).stageImage o (s.srcBytes host img (Nat.min bytes (slotBytes + 1)))
      | _ => s
    | none => s)

end Sys2Proof.Machine
end

