-- ==== Sys2Proof/Machine/Operands.lean ====
section
/-!
DEFINITION. The operands of the outer-product engine and the matrix-vector path (03, R48 to R53, R73 to R77, R101, R114, R191), and
the packing of rows that drains and stores write (R49, R50, R66, R130, R173).
-/
namespace Sys2Proof.Machine

/-! ## Operand sources (R75) -/

/-- Bytes that `n` elements of `bits` bits take when packed under R49; 6-bit rows take whole groups. -/
def packedBytes (bits n : Nat) : Nat := if bits = 6 then 3 * ceilDiv n 4 else ceilDiv (n * bits) 8

/-- Where operand bytes come from: the well from a base, a register with the register of its scales, or rows taken from the stitch
receive FIFO: its elements' rows, and after them the rows of its scale bytes. -/
inductive OpBytes where
  | well (base : Int)
  | treg (n : Nat)
  | fifo (bytes scales : List Byte)
deriving DecidableEq, Repr

/-- The context scale byte of an operand whose page scale is settled. -/
def opCtxScale (o : Operand) : Byte :=
  match o.scale with
  | .byte b => b
  | _ => 127

/-- An operand that names a page scale takes it from the descriptor under way (R239). -/
def CoreSt.settle (x : CoreSt) (k : Nat) (o : Operand) : Operand :=
  match o.scale, x.descs.get [] k with
  | .pageK, d :: _ => { o with scale := .byte d.kScale }
  | .pageV, d :: _ => { o with scale := .byte d.vScale }
  | _, _ => o

/-- A page scale is named only while a page is under way. -/
def CoreSt.pageOk (x : CoreSt) (k : Nat) (o : Operand) : Bool :=
  match o.scale with
  | .byte _ => true
  | _ => !(x.descs.get [] k).isEmpty

/-- The scale byte of element `i` (of `count`) at contraction index `k` (R48, R50, R53, R114). -/
def opScale (x : CoreSt) (o : Operand) (src : OpBytes) (count i k : Nat) : Byte :=
  if !mxCode o.fmt then (if fmtCtx o.fmt then opCtxScale o else 127)
  else match src with
    | .well _ => x.well.get 0 (o.scaleBase + i * o.scaleStride + k / 32)
    | .treg n => x.tregByte (n + 1) (k / 32 * count + i)
    | .fifo _ scales => scales.getD (k / 32 * count + i) 0

/-- The stored element `i` at contraction index `k`. Registers and the FIFO hold the vectors of consecutive indices end to end
(R114); the well holds vectors at a stride, or each element's contraction innermost. -/
def opStored (x : CoreSt) (o : Operand) (src : OpBytes) (count i k : Nat) : Nat :=
  let bits := fmtBits o.fmt
  match src with
  | .well base =>
    if o.kMajor then elemAt o.fmt (fun b => x.well.get 0 (base + (k * o.stride + b : Nat)).toNat) i
    else elemAt o.fmt (fun b => x.well.get 0 (base + (i * o.stride + b : Nat)).toNat) k
  | .treg n => bitsAt (x.tregByte n) ((k * count + i) * bits) bits
  | .fifo bs _ => bitsAt (fun b => bs.getD b 0) ((k * count + i) * bits) bits

/-- The elements of an operand that are read: within its declared bounds and within the tile's (R76, R170). -/
def opInBounds (o : Operand) (lim i : Nat) : Bool := decide (o.lo ≤ i) && decide (i < Nat.min o.bound lim)

/-- Element `i` at contraction index `k` in the internal form; one that is not read is a zero (R76). -/
def opValue (x : CoreSt) (o : Operand) (src : OpBytes) (count lim i k : Nat) : Fp :=
  if opInBounds o lim i then internal o.fmt (opScale x o src count i k) (opStored x o src count i k) else Fp.zero

/-- A span of well bytes from an address that may lie below the well: one below is no local address (R284). -/
def wellSpan (a : Int) (n : Nat) : Nat × Nat := if a < 0 then (wellBytes, n + 1) else (a.toNat, n)

/-- The well bytes that an operand of contraction length `len` reads, as spans (R76, R170). -/
def opSpans (o : Operand) (count lim len : Nat) : List (Nat × Nat) :=
  match o.src with
  | .well base =>
    let bits := fmtBits o.fmt
    let els := (List.range count).filter (opInBounds o lim)
    if els.isEmpty || len == 0 then []
    else if o.kMajor then (List.range len).map fun k =>
      wellSpan (base + (k * o.stride + o.lo * bits / 8 : Nat)) (packedBytes bits (Nat.min o.bound lim) - o.lo * bits / 8)
    else els.map (fun i => wellSpan (base + (i * o.stride : Nat)) (packedBytes bits len)) ++
      if mxCode o.fmt then els.map fun i => (o.scaleBase + i * o.scaleStride, ceilDiv len 32) else []
  | _ => []

/-- The tile registers that an operand is read from (R114). -/
def opRegs (o : Operand) : List Nat :=
  match o.src with
  | .treg n => if mxCode o.fmt then [n.val, n.val + 1] else [n.val]
  | _ => []

/-- Whether element `e` of register `t` holds a bit that the operand reads (R76, R114, R137). -/
def opReads (o : Operand) (count lim len t e : Nat) : Bool :=
  match o.src with
  | .treg n =>
    let bits := fmtBits o.fmt
    let at' := fun (i k : Nat) => (k * count + i) * bits
    let es := (List.range count).filter (opInBounds o lim)
    (t == n.val && (List.range len).any fun k => es.any fun i => decide (at' i k / 32 ≤ e) && decide (e ≤ (at' i k + bits - 1) / 32)) ||
      (mxCode o.fmt && t == n.val + 1 && (List.range (ceilDiv len 32)).any fun g => es.any fun i => (g * count + i) / 4 == e)
  | _ => false

/-- An operand held in a register lies within its 2,048 bytes (R112, R114). -/
def opFits (o : Operand) (count len : Nat) : Bool :=
  match o.src with
  | .treg _ => decide (packedBytes (fmtBits o.fmt) (len * count) ≤ 2048)
  | _ => true

/-! ## The stitch receive FIFO (R191) -/

/-- The rows of job k in the FIFO and behind it. -/
def CoreSt.fifoRows (x : CoreSt) (k : Nat) : List FifoRow := (x.fifo ++ x.fifoWait).filter fun r => r.1 == k

/-- Take the first `n` rows of job k; waiting rows move up into the 4 places. -/
def CoreSt.takeFifo (x : CoreSt) (k n : Nat) : CoreSt :=
  let drop := fun (acc : List FifoRow × Nat) (r : FifoRow) =>
    if r.1 = k ∧ acc.2 < n then (acc.1, acc.2 + 1) else (acc.1 ++ [r], acc.2)
  let rest := ((x.fifo ++ x.fifoWait).foldl drop ([], 0)).1
  { x with fifo := rest.take 4, fifoWait := rest.drop 4 }

/-- Rows of the FIFO that the elements, and those that the scale bytes, of an operand of contraction length `len` take: the scale bytes
come from the same source (R75), in the order of R114, in rows of their own behind the elements' (log 56). -/
def opElemRows (o : Operand) (count len : Nat) : Nat := ceilDiv (packedBytes (fmtBits o.fmt) (len * count)) 128
def opScaleRows (o : Operand) (count len : Nat) : Nat := if mxCode o.fmt then ceilDiv (count * ceilDiv len 32) 128 else 0
def opFifoRows (o : Operand) (count len : Nat) : Nat :=
  match o.src with
  | .fifo => opElemRows o count len + opScaleRows o count len
  | _ => 0

/-- The source of an operand, `skip` rows of the job's FIFO being another operand's. -/
def opBytes (x : CoreSt) (k : Nat) (o : Operand) (count len skip : Nat) : OpBytes :=
  match o.src with
  | .well base => .well base
  | .treg n => .treg n
  | .fifo =>
    let rows := (x.fifoRows k).drop skip
    let n := opElemRows o count len
    .fifo ((rows.take n).flatMap (·.2)) (((rows.drop n).take (opScaleRows o count len)).flatMap (·.2))

/-! ## Packing output rows (R49, R66, R130, R173) -/

/-- The bytes of a row of encodings of `bits` bits from bit 0 of its first byte (R49). -/
def packRow (bits : Nat) (encs : List Nat) : List Byte :=
  let v := encs.foldr (fun e acc => acc * 2 ^ bits + e % 2 ^ bits) 0
  leBytes (packedBytes bits encs.length) v

/-- A row converted to an output format byte: element bytes, scale byte, flags. An MX row is one whole block of 32 with encoding 0
beyond its in-bounds elements, its scale from those alone (R66, R173). -/
def convertRow (fmt scale : Byte) (xs : List Fp) : List Byte × Option Byte × Half :=
  let c : BitVec 4 := fmt.truncate 4
  if mxCode c then
    let (sc, encs, sat, nan) := convMxBlock c xs
    (packRow (fmtBits c) (encs ++ List.replicate (32 - encs.length) 0), some sc, flagIf sat flCvtSat ||| flagIf nan flCvtNan)
  else
    let cs := xs.map (convert c (fmt.getLsbD 4) scale)
    (packRow (fmtBits c) (cs.map Conv.enc), none, cs.foldl (fun h r => h ||| r.flags) 0)

end Sys2Proof.Machine
end

