-- ==== Sys2Proof/Machine/CoreMem.lean ====
section
/-!
DEFINITION. Loads and stores (R127 to R130), with the page scale and the append-only rule of a store into a KV page (R229, R230).
-/
namespace Sys2Proof.Machine

/-! ## Rows -/

/-- The rows that have an active lane. -/
def Ctx.liveRows (x : Ctx) (p : Nat) : List Nat := (List.range 16).filter fun i => !(x.rowLanes p i).isEmpty

def MemRef.base : MemRef → Nat
  | .well a => a
  | .dev a => a
def MemRef.isDev : MemRef → Bool
  | .well _ => false
  | .dev _ => true

/-- The format code of a load or store. -/
def lsCode (o : LdStOp) : BitVec 4 := o.fmt.truncate 4

/-- Base and stride, with those of the scales of an MX format, are multiples of 8 (R127). -/
def lsAligned (o : LdStOp) (mx : Bool) : Bool :=
  let base := MemRef.base o.addr
  base % 8 == 0 && o.stride % 8 == 0 && (!mx || (o.scaleBase % 8 == 0 && o.scaleStride % 8 == 0))

/-- The spans of a load of `width` bytes a row. -/
def rowSpans (o : LdStOp) (width : Nat) (rows : List Nat) : List (Nat × Nat) :=
  rows.map fun i => (MemRef.base o.addr + i * o.stride, width)

/-- The bytes that the active lanes read, with a scale byte a row for MX: an inactive lane reads none (R118). -/
def lsSpans (x : Ctx) (o : LdStOp) : List (Nat × Nat) :=
  let bits := fmtBits (lsCode o)
  let rows := x.liveRows o.m.pred
  rows.flatMap (fun i => (x.rowLanes o.m.pred i).map fun e =>
    (MemRef.base o.addr + i * o.stride + e % 32 * bits / 8, (e % 32 * bits + bits - 1) / 8 - e % 32 * bits / 8 + 1)) ++
    if mxCode (lsCode o) then rows.map fun i => (o.scaleBase + i * o.scaleStride, 1) else []

/-- A byte that a load reads. -/
def State.lsByte (s : State) (c : Nat) (o : LdStOp) (a : Nat) : Byte :=
  match o.addr with
  | .well _ => (s.core c).well.get 0 a
  | .dev _ => s.devByte a

/-- A read of the spans of a load, from the well or from device addresses. -/
def State.lsRead (s : State) (r : CoreRef) (o : LdStOp) (u : Upset) (ps : List (Nat × Nat)) (go : State → State) : State :=
  match o.addr with
  | .well _ => s.readWell r u ps go
  | .dev _ => s.readDevice r ps go

/-! ## Loads (R128) -/

/-- LD.fmt. -/
def State.load (s : State) (i : Instr) (r : CoreRef) (o : LdStOp) (u : Upset) : State :=
  let c := lsCode o
  s.issue i r [o.t] fun s =>
  if !lsAligned o (mxCode c) then s.detect r.slot cControl (clusterOf r.core) 0
  else s.lsRead r o u (lsSpans (s.ctx r.core r.slot) o) fun t =>
    t.modCore r.core fun y => y.putVec r.slot o.t o.m fun e =>
      let row := MemRef.base o.addr + e / 32 * o.stride
      let sc := if mxCode c then s.lsByte r.core o (o.scaleBase + e / 32 * o.scaleStride) else if fmtCtx c then o.scale else 127
      loadElem c sc o.intDst (elemAt c (fun b => s.lsByte r.core o (row + b)) (e % 32))

def execLd (c : CoreRef) (o : LdStOp) (u : Upset) (s : State) : Res := coreRes o.wf (s.load (.ld c o u) c o u)

/-- LDR: the 128 bytes of each active row, unconverted; other rows are kept or zeroed. -/
def State.loadRaw (s : State) (i : Instr) (r : CoreRef) (o : LdStOp) (u : Upset) : State :=
  let rows := (s.ctx r.core r.slot).liveRows o.m.pred
  s.issue i r [o.t] fun s =>
  if !lsAligned o false then s.detect r.slot cControl (clusterOf r.core) 0
  else s.lsRead r o u (rowSpans o 128 rows) fun t =>
    t.modCore r.core fun y => y.putTreg r.slot o.t fun e =>
      let a := MemRef.base o.addr + e / 32 * o.stride + 4 * (e % 32)
      if rows.contains (e / 32) then BitVec.ofNat 32 (leNat ((List.range 4).map fun b => s.lsByte r.core o (a + b)))
      else if o.m.zero then 0 else y.lane o.t e

def execLdr (c : CoreRef) (o : LdStOp) (u : Upset) (s : State) : Res := coreRes o.wf (s.loadRaw (.ldr c o u) c o u)

/-! ## KV pages (R225, R226, R229, R230) -/

/-- A place in a page of the job's pool: slot, V plane, offset in the plane, attention layer, sequence slot and page (R225, R226). -/
structure PagePlace where
  slot : Nat
  v : Bool
  off : Nat
  layer : Nat
  seq : Nat
  page : Nat
deriving DecidableEq, Repr

/-- The header line of a page slot. -/
def headerAt (a : AttnDecl) (g : Pager) (slot : Nat) : Nat := g.poolBase + slot * a.slotBytes

/-- What a device address is in the pool: a place in a plane of an allocated page, or none. -/
def State.pagePlace (s : State) (a : AttnDecl) (g : Pager) (addr : Nat) : Option PagePlace :=
  let slot := (addr - g.poolBase) / a.slotBytes
  let off := (addr - g.poolBase) % a.slotBytes
  let hd := headerAt a g slot
  let field := fun (o : Nat) => leNat (s.devBytes (hd + o) 2)
  let vAt := 64 + a.kb (field 10)
  if addr < g.poolBase ∨ g.n ≤ slot ∨ off < 64 ∨ g.owned.get false slot = false then none
  else some { slot := slot, v := decide (vAt ≤ off), off := if vAt ≤ off then off - vAt else off - 64, layer := field 10,
              seq := field 8, page := leNat (s.devBytes (hd + 16) 4) }

/-- The format code of the plane. -/
def PagePlace.code (x : PagePlace) (a : AttnDecl) : BitVec 4 := if x.v then (a.layer x.layer).vFmt else (a.layer x.layer).kFmt

/-- The token position of a byte of a plane; the scale plane of MX keys lies behind the elements (R225). -/
def PagePlace.token (x : PagePlace) (a : AttnDecl) : Nat :=
  let d := (a.layerList[x.layer]?.map fun y => y.1.d).getD 64
  let bytes := d * fmtBits (x.code a) / 8
  if x.off < 64 * bytes then x.off / Nat.max 1 bytes else (x.off - 64 * bytes) / Nat.max 1 (d / 32)

/-- The byte has been written while its sequence is admitted: in an earlier step, or in this one (R230). -/
def PagePlace.written (x : PagePlace) (a : AttnDecl) (g : Pager) : Bool :=
  let off := if x.v then x.off + 64 + a.kb x.layer else x.off + 64
  g.wrote.contains (x.slot, off) || match g.seqs.get none x.seq with
    | some e => decide (64 * x.page + x.token a < e.tokens)
    | none => false

/-- The folio's attention and the mapped pool of a job. -/
def State.poolOf (s : State) (k : Nat) : Option (AttnDecl × Pager) :=
  (s.job k).bind fun j => match (s.declOf j).bind (·.attn), j.pager with
    | some a, some g => if g.mapped then some (a, g) else none
    | _, _ => none

/-- The place that a row of a store into the pool begins at, where the plane holds the store's format. -/
def State.rowPlace (s : State) (k : Nat) (o : LdStOp) (i : Nat) : Option (AttnDecl × PagePlace) :=
  match o.addr with
  | .well _ => none
  | .dev base => (s.poolOf k).bind fun x => (s.pagePlace x.1 x.2 (base + i * o.stride)).bind fun p =>
      if p.code x.1 = lsCode o then some (x.1, p) else none

/-- The first write into a fresh plane fixes its page scale from the values that it puts there (R229). -/
def State.fixScale (s : State) (k : Nat) (p : PagePlace) (xs : List Fp) : State :=
  match s.poolOf k with
  | some (a, g) =>
    if g.scaled.contains (p.slot, p.v) ∨ fmtCtx (p.code a) = false then s
    else (s.devWrite (headerAt a g p.slot + if p.v then 3 else 1) [pageScale (p.code a) (a.layer p.layer).headroom xs]).modJob k fun j =>
      { j with pager := some { g with scaled := (p.slot, p.v) :: g.scaled } }
  | none => s

/-- The planes of a store's rows are fixed, each from the values of the rows that lie in it. -/
def State.fixScales (s : State) (k : Nat) (o : LdStOp) (rows : List (Nat × List Fp)) : State :=
  s.each rows fun t r => match s.rowPlace k o r.1 with
    | some (_, p) => t.fixScale k p (rows.flatMap fun q => match s.rowPlace k o q.1 with
        | some (_, p') => if p'.slot = p.slot ∧ p'.v = p.v then q.2 else []
        | none => [])
    | none => t

/-- The format byte and scale of a row's conversion: the instruction's, or, in a page, the SAT bit of the layer and the scale of the
plane (R229). -/
def State.rowFmt (s : State) (k : Nat) (o : LdStOp) (i : Nat) : Byte × Byte :=
  match s.rowPlace k o i, s.poolOf k with
  | some (a, p), some (_, g) =>
    (BitVec.ofNat 8 ((lsCode o).toNat + if (a.layer p.layer).sat then 16 else 0),
     if fmtCtx (lsCode o) then s.devByte (headerAt a g p.slot + if p.v then 3 else 1) else o.scale)
  | _, _ => (o.fmt, o.scale)

/-- The page header lines that a store's rows read, and write at a first write (R226). -/
def State.rowHeaders (s : State) (k : Nat) (o : LdStOp) (rows : List Nat) : List Nat :=
  rows.filterMap fun i => (s.rowPlace k o i).bind fun x => (s.poolOf k).map fun y => headerAt x.1 y.2 x.2.slot

/-- The bytes of a store that are written: those of a page, once each (R230). -/
def State.appendOnly (s : State) (k : Nat) (ws : List (Nat × Byte)) : List (Nat × Byte) :=
  match s.poolOf k with
  | none => ws
  | some (a, g) => ws.filter fun w => match s.pagePlace a g w.1 with
    | some p => !p.written a g
    | none => true

/-- The bytes of the pool's planes that a store has written are kept account of (R230). -/
def State.noteWrites (s : State) (k : Nat) (ws : List (Nat × Byte)) : State :=
  match s.poolOf k with
  | none => s
  | some (a, g) =>
    let new := (ws.filter fun w => (s.pagePlace a g w.1).isSome).map fun w =>
      ((w.1 - g.poolBase) / a.slotBytes, (w.1 - g.poolBase) % a.slotBytes)
    if new.isEmpty then s else s.modJob k fun j => { j with pager := some { g with wrote := new ++ g.wrote } }

/-- A store into the well, or to device addresses. -/
def State.lsWrite (s : State) (r : CoreRef) (o : LdStOp) (ws : List (Nat × Byte)) : State :=
  match o.addr with
  | .well _ => s.writeWell r ws
  | .dev _ => (s.writeDevice r (s.appendOnly r.slot ws)).noteWrites r.slot (s.appendOnly r.slot ws)

/-! ## Stores (R130) -/

/-- The value of a lane as a store converts it (R64). -/
def storeValue (o : LdStOp) (w : Word) : Fp := if o.intDst then intSource (lsCode o) w else decode32 w

/-- The bytes of one row of a plain store: a byte is written when an element in it is active; its inactive elements are encoding 0
(R130). -/
def storeRow (c : BitVec 4) (base : Nat) (encs : List (Option Nat)) : List (Nat × Byte) :=
  let bits := fmtBits c
  let bs := packRow bits (encs.map (·.getD 0))
  bs.zipIdx.filterMap fun b =>
    let lo := 8 * b.2 / bits
    let hi := (8 * b.2 + 7) / bits
    if ((List.range (hi + 1)).drop lo).any fun i => ((encs[i]?).join).isSome then some (base + b.2, b.1) else none

/-- The bytes that a store writes in row `i`, and the flags of its conversions. -/
def storeBytes (x : Ctx) (y : CoreSt) (o : LdStOp) (fmt scale : Byte) (i : Nat) : List (Nat × Byte) × Half :=
  let c : BitVec 4 := fmt.truncate 4
  let base := MemRef.base o.addr + i * o.stride
  let active := x.rowLanes o.m.pred i
  let place := fun (bs : List Byte) => bs.zipIdx.map fun b => (base + b.2, b.1)
  if mxCode c then
    let (sc, encs, sat, nan) := convMxBlock c (active.map fun e => storeValue o (y.lane o.t e))
    let at0 := fun j => match (active.zip encs).lookup (32 * i + j) with
      | some n => n
      | none => 0
    (place (packRow (fmtBits c) ((List.range 32).map at0)) ++ [(o.scaleBase + i * o.scaleStride, sc)],
     flagIf sat flCvtSat ||| flagIf nan flCvtNan)
  else
    let cv := fun (e : Nat) => convert c (fmt.getLsbD 4) scale (storeValue o (y.lane o.t e))
    (storeRow c base ((List.range 32).map fun j => if x.act o.m.pred (32 * i + j) then some (cv (32 * i + j)).enc else none),
     active.foldl (fun h e => h ||| (cv e).flags) 0)

/-- ST. -/
def State.store (s : State) (i : Instr) (r : CoreRef) (o : LdStOp) (u : Upset) : State :=
  let x := s.ctx r.core r.slot
  let y := s.core r.core
  let rows := x.liveRows o.m.pred
  s.issue i r [o.t] fun s =>
  if !lsAligned o (mxCode (lsCode o)) then s.detect r.slot cControl (clusterOf r.core) 0
  else s.checked r u (fun t e => t == o.t.val && s.active r o.m e) 0 (fun _ => false) fun s =>
    match (s.rowHeaders r.slot o rows).findSome? fun a => s.badLine a 64 with
    | some l => s.lineFault r.slot cWeltLine (islRsv (homeSliceOf l)) l
    | none =>
      let s := s.fixScales r.slot o (rows.map fun i => (i, (x.rowLanes o.m.pred i).map fun e => storeValue o (y.lane o.t e)))
      let out := rows.map fun i => storeBytes x y o (s.rowFmt r.slot o i).1 (s.rowFmt r.slot o i).2 i
      (s.modCore r.core fun z => z.raise r.slot (out.foldl (fun h p => h ||| p.2) 0)).lsWrite r o (out.flatMap (·.1))

def execSt (c : CoreRef) (o : LdStOp) (u : Upset) (s : State) : Res := coreRes o.wf (s.store (.st c o u) c o u)

/-- STR: the 128 bytes of each active row, unconverted. -/
def State.storeRaw (s : State) (i : Instr) (r : CoreRef) (o : LdStOp) (u : Upset) : State :=
  let y := s.core r.core
  let rows := (s.ctx r.core r.slot).liveRows o.m.pred
  s.issue i r [o.t] fun s =>
  if !lsAligned o false then s.detect r.slot cControl (clusterOf r.core) 0
  else s.checked r u (fun t e => t == o.t.val && rows.contains (e / 32)) 0 (fun _ => false) fun s =>
    s.lsWrite r o (rows.flatMap fun i => (List.range 128).map fun b =>
      (MemRef.base o.addr + i * o.stride + b, y.tregByte o.t (128 * i + b)))

def execStr (c : CoreRef) (o : LdStOp) (u : Upset) (s : State) : Res := coreRes o.wf (s.storeRaw (.str c o u) c o u)

end Sys2Proof.Machine
end

