-- ==== Sys2Proof/Machine/Tiler.lean ====
section
/-!
DEFINITION. The tiler (06, 07): the output tiles of a contraction and their bounds (R168 to R172, R176, R201, R203), the order in which
updates and drains are issued (R68, R70, R182, R183, R205), what an operand of a convolution reads (R204, R206, R207, R210, R211) and where
a depth-to-space drain writes (R210, R212). The tiler issues no instruction that departs from this (log 64).
-/
namespace Sys2Proof.Machine

/-! ## Sizes -/

/-- A size under the latched bounds of a phase instance (R175). -/
def latched (b : List (Nat × Nat)) : DimSrc → Nat
  | .const n => n
  | .dyn d => (b.lookup d).getD 0

/-- Input channels of a group after regrouping, and output channels of a group, f² as many where the drain writes depth to space
(R202, R210, R212). -/
def convCgi (c : ConvDecl) : Nat := c.f * c.f * c.cin / c.g
def convCgo (c : ConvDecl) : Nat := (if c.d2s then c.f * c.f * c.cout else c.cout) / c.g

/-- Output tiles along one output row, and across the channels of one group (R201). -/
def convWt (c : ConvDecl) (b : List (Nat × Nat)) : Nat := ceilDiv (c.outCols (latched b c.w)) 16
def convCt (c : ConvDecl) : Nat := ceilDiv (convCgo c) 32

/-- An output tile's rows and columns in bounds, its contraction length, and the indices of a run, which no update leaves (R168, R170,
R205; with regrouping each block of channels is a run, R211). -/
structure Extent where
  rows : Nat
  cols : Nat
  k : Nat
  run : Nat
deriving DecidableEq, Repr

/-- The grid of output tiles of a contraction: tile rows and tile columns. A convolution's tile rows are the tiles of each output row in
turn, its tile columns those of each group (R168, R201). -/
def tileGrid (d : FolioDecl) (b : List (Nat × Nat)) : ContrBody → Nat × Nat
  | .mat m n _ => (ceilDiv (latched b m) 16, ceilDiv (latched b n) 32)
  | .mv m _ => (ceilDiv (latched b m) 64, 1)
  | .conv i => match d.convs[i]? with
    | none => (0, 0)
    | some c => (c.outRows (latched b c.h) * convWt c b, c.g * convCt c)

/-- The extent of tile (ti, tj): full tiles and, last along a dimension, the remainder (R168). -/
def tileExtent (d : FolioDecl) (b : List (Nat × Nat)) (ti tj : Nat) : ContrBody → Extent
  | .mat m n k => ⟨Nat.min 16 (latched b m - 16 * ti), Nat.min 32 (latched b n - 32 * tj), latched b k, latched b k⟩
  | .mv m k => ⟨Nat.min 64 (latched b m - 64 * ti), 1, latched b k, latched b k⟩
  | .conv i => match d.convs[i]? with
    | none => ⟨0, 0, 0, 0⟩
    | some c => ⟨Nat.min 16 (c.outCols (latched b c.w) - 16 * (ti % Nat.max 1 (convWt c b))),
        Nat.min 32 (convCgo c - 32 * (tj % Nat.max 1 (convCt c))), c.kh * c.kw * convCgi c, if c.f = 1 then convCgi c else c.cin⟩

/-- Tile (ti, tj) is one of the owner's (R168, R182). -/
def TileShare.has (x : TileShare) (ti tj : Nat) : Bool :=
  decide (x.r0 ≤ ti) && decide (ti < x.r0 + x.rn) && decide (x.c0 ≤ tj) && decide (tj < x.c0 + x.cn)

/-- What the tiler plans for an output tile: nothing that the folio declares, an output that is not this core's or this phase's, or its
extent, the owner's share, and the contraction. -/
inductive Tiled where
  | undeclared
  | never
  | plan (e : Extent) (share : TileShare) (body : ContrBody)
deriving DecidableEq, Repr

/-- The owner that a core is in its job's logical grid: 64 times its column plus its row (R192). -/
def ownerOf (cores : List Nat) (c : Nat) : Nat :=
  match logicalPos cores c with
  | some x => 64 * x.1 + x.2
  | none => 0

/-- The plan for the output tile that an instruction of the phase names. -/
def tiled (d : FolioDecl) (cores : List Nat) (c : Nat) (r : PhaseRun) (p : TileAt) : Tiled :=
  match d.contrs[p.op]? with
  | none => .undeclared
  | some x =>
    let (m, n) := tileGrid d r.bounds x.body
    let share := if x.share.isEmpty then some (⟨0, 0, m, 0, n⟩ : TileShare) else x.share.find? fun y => y.owner == ownerOf cores c
    match share with
    | some y =>
      if x.phase = r.phase ∧ p.ti < m ∧ p.tj < n ∧ TileShare.has y p.ti p.tj = true then
        .plan (tileExtent d r.bounds p.ti p.tj x.body) { y with rn := Nat.min y.rn (m - y.r0), cn := Nat.min y.cn (n - y.c0) } x.body
      else .never
    | none => .never

/-! ## Segments and blocks (R68, R70, R182, R183) -/

/-- The contraction is cut at every multiple of the segment length. -/
def PhaseRun.cuts (r : PhaseRun) (t : Terms) : Bool := r.rung == 3 || t.canonical || t.compat

/-- The end of the segment that index `i` of a contraction of length `k` lies in. -/
def PhaseRun.segEnd (r : PhaseRun) (t : Terms) (k i : Nat) : Nat := if r.cuts t then Nat.min k ((i / r.seg + 1) * r.seg) else k

/-- The segments of a contraction of length `k`. -/
def PhaseRun.segs (r : PhaseRun) (t : Terms) (k : Nat) : Nat := if r.cuts t then Nat.max 1 (ceilDiv k r.seg) else 1

/-- Parked sums that hold all segments before them: SK outside canonical order (R183). -/
def PhaseRun.running (r : PhaseRun) (t : Terms) : Bool := r.rung == 3 && !t.canonical

/-- The segments of an output tile whose sums are parked. -/
def PhaseRun.parkedSegs (r : PhaseRun) (p : TileAt) : Nat :=
  ((r.parked.filter fun x => x.pos == p).map fun x => x.chunk + 1).foldl Nat.max 0

/-- Rows and columns of a rung's block; in SK a block row (R179, R182, R183). -/
def blockShape (rung cn : Nat) : Nat × Nat :=
  if rung = 0 then (2, 2) else if rung = 1 then (2, 1) else if rung = 2 then (1, 1) else (1, Nat.max 1 cn)

/-- The place of a tile's block in the order of visits: row-major (R182). -/
def blockOf (rung : Nat) (y : TileShare) (ti tj : Nat) : Nat :=
  let (h, w) := blockShape rung y.cn
  (ti - y.r0) / h * ceilDiv y.cn w + (tj - y.c0) / w

/-- The tiles of a share. -/
def shareTiles (y : TileShare) : List (Nat × Nat) :=
  (List.range y.rn).flatMap fun i => (List.range y.cn).map fun j => (y.r0 + i, y.c0 + j)

/-- The last update of an output tile has been issued, or its result drained. -/
def PhaseRun.issued (r : PhaseRun) (k : Nat) (p : TileAt) : Bool :=
  r.drained.contains p || r.tiles.any fun w => w.pos == p && w.next == k

/-- A new segment of an output tile may begin: every tile of an earlier block has had its updates, and in SK the block row's tiles take
this segment in ascending column (R182, R183). -/
def PhaseRun.turn (r : PhaseRun) (y : TileShare) (k : Nat) (p : TileAt) : Bool :=
  let g := r.parkedSegs p
  let at' := fun (x : Nat × Nat) => ({ p with ti := x.1, tj := x.2 } : TileAt)
  !r.drained.contains p && !(r.tiles.any fun w => w.pos == p) &&
    (shareTiles y).all fun x =>
      if blockOf r.rung y x.1 x.2 < blockOf r.rung y p.ti p.tj then r.issued k (at' x)
      else if r.rung = 3 ∧ x.1 = p.ti then
        (if x.2 < p.tj then decide (g < r.parkedSegs (at' x)) || r.issued k (at' x)
         else x.2 == p.tj || decide (g ≤ r.parkedSegs (at' x)))
      else true

/-! ## Convolutions (R203 to R207, R210, R211) -/

/-- What index `k` of an output tile reads in the input: row, column for tile row 0, channel, and the columns from one tile row to the
next. -/
structure TapAt where
  row : Int
  col : Int
  chan : Nat
  step : Nat
deriving DecidableEq, Repr

def convTap (c : ConvDecl) (b : List (Nat × Nat)) (ti tj k : Nat) : TapAt :=
  let cgi := Nat.max 1 (convCgi c)
  let wt := Nat.max 1 (convWt c b)
  let (tap, ch) := (k / cgi, k % cgi)
  let row : Int := (ti / wt * c.sy + tap / Nat.max 1 c.kw * c.dy : Nat) - (c.pt : Int)
  let col : Int := (16 * (ti % wt) * c.sx + tap % Nat.max 1 c.kw * c.dx : Nat) - (c.pl : Int)
  if c.f = 1 then ⟨row, col, tj / Nat.max 1 (convCt c) * convCgi c + ch, c.sx⟩
  else
    let v := ch / Nat.max 1 c.cin
    ⟨c.f * row - (c.o : Int) + (v / c.f : Nat), c.f * col - (c.o : Int) + (v % c.f : Nat), ch % Nat.max 1 c.cin, c.f * c.sx⟩

/-- Tile row `i` of a tap lies within the operand's bounds: within the input, or, under a padding mode whose fill has been made,
anywhere (R207, R208, R210). -/
def tapRead (c : ConvDecl) (b : List (Nat × Nat)) (x : TapAt) (i : Nat) : Bool :=
  c.padMode != 0 || (decide (0 ≤ x.row) && decide (x.row < (latched b c.h : Nat)) && decide (0 ≤ x.col + (i * x.step : Nat)) &&
    decide (x.col + (i * x.step : Nat) < (latched b c.w : Nat)))

/-- Bytes from input position (0, 0) to what the tap reads first. -/
def tapOff (c : ConvDecl) (fmt : BitVec 4) (x : TapAt) : Int :=
  x.row * (c.inRow : Nat) + x.col * (c.inPos : Nat) + (x.chan * fmtBits fmt / 8 : Nat)

/-- The operand of a tap reads the tile rows that it may read, from the place where the input descriptor, moved by the tap's offset, puts
them, its position stride multiplied by the stride of the convolution (R206). -/
def tapOperand (c : ConvDecl) (b : List (Nat × Nat)) (x : TapAt) (rows : Nat) (o : Operand) (desc : Int) : Bool :=
  ((List.range rows).all fun i => opInBounds o rows i == tapRead c b x i) && match o.src with
    | .well base => !o.kMajor && base == desc + tapOff c o.fmt x && o.stride == x.step * c.inPos
    | _ => true

/-- The well address of input position (0, 0) that the first update of a tile gives. -/
def tapDesc (c : ConvDecl) (x : TapAt) (o : Operand) : Int :=
  match o.src with
  | .well base => base - tapOff c o.fmt x
  | _ => 0

/-- The indices that an update may carry from index `i` on: to the end of the run and of the segment; a convolution's updates from the
well carry all of them (R205). -/
def lenOk (body : ContrBody) (e : Extent) (segEnd i len : Nat) (fromWell : Bool) : Bool :=
  let stop := Nat.min segEnd ((i / Nat.max 1 e.run + 1) * Nat.max 1 e.run)
  match body with
  | .conv _ => decide (len ≤ stop - i) && (!fromWell || len == stop - i)
  | _ => decide (len ≤ stop - i)

/-! ## Updates and drains -/

/-- The operand A of an update of a convolution's tile reads what its index asks for, under a padding mode once the halo has been filled
(R208). -/
def updateReads (d : FolioDecl) (r : PhaseRun) (body : ContrBody) (p : TileAt) (rows i : Nat) (a : Option Operand) (desc : Int) : Bool :=
  match body, a with
  | .conv n, some o => match d.convs[n]? with
    | some c => (c.padMode == 0 || r.filled.contains n) && tapOperand c r.bounds (convTap c r.bounds p.ti p.tj i) rows o desc
    | none => false
  | _, _ => true

/-- The descriptor base of a tile that begins at index `i`. -/
def updateDesc (d : FolioDecl) (r : PhaseRun) (body : ContrBody) (p : TileAt) (i : Nat) (a : Option Operand) : Int :=
  match body, a with
  | .conv n, some o => match d.convs[n]? with
    | some c => tapDesc c (convTap c r.bounds p.ti p.tj i) o
    | none => 0
  | _, _ => 0

def fromWell (a : Option Operand) : Bool :=
  match a with
  | some o => match o.src with
    | .well _ => true
    | _ => false
  | none => true

/-- An update of `len` indices of tile `p` in accumulator `acc`, `rows` by `cols` in bounds: the instance with the tile's progress, none
where the tiler issues no such update. A tile that the folio does not declare is cut at segments only. -/
def PhaseRun.update (r : PhaseRun) (d : FolioDecl) (t : Terms) (pl : Tiled) (p : TileAt) (acc : Nat) (clear : Bool) (len rows cols : Nat)
    (a : Option Operand) : Option PhaseRun :=
  let others := r.tiles.filter fun w => w.acc != acc
  match pl with
  | .never => none
  | .undeclared =>
    let w := if clear then some (⟨acc, p, 0, 0, 0⟩ : TileWork) else r.tiles.find? fun w => w.acc == acc
    match w with
    | none => some r
    | some w => if r.cuts t ∧ r.seg < w.next + len then none else some { r with tiles := others ++ [{ w with next := w.next + len }] }
  | .plan e y body =>
    if rows ≠ e.rows ∨ cols ≠ e.cols then none
    else if clear then
      let i := Nat.min e.k (r.parkedSegs p * r.seg)
      let desc := updateDesc d r body p i a
      if r.turn y e.k p && decide (others.length < rungNeed r.rung) && lenOk body e (r.segEnd t e.k i) i len (fromWell a) &&
          updateReads d r body p rows i a desc then
        some { r with tiles := others ++ [⟨acc, p, i, i + len, desc⟩] }
      else none
    else match r.tiles.find? fun w => w.acc == acc with
      | none => none
      | some w =>
        if w.pos == p && lenOk body e (r.segEnd t e.k w.start) w.next len (fromWell a) && updateReads d r body p rows w.next a w.desc then
          some { r with tiles := others ++ [{ w with next := w.next + len }] }
        else none

/-- Where a depth-to-space drain of tile (ti, tj) writes: for each tile row and each of its segments, the offset of the original position,
none outside the tensor (R210, R212). -/
def d2sOffs (c : ConvDecl) (b : List (Nat × Nat)) (fmt : BitVec 4) (ti tj rows cols : Nat) : List (Option Nat) :=
  let wt := Nat.max 1 (convWt c b)
  let n := Nat.max 1 c.cout
  (List.range rows).flatMap fun i => (List.range (ceilDiv cols n)).map fun g =>
    let ch := 32 * (tj % Nat.max 1 (convCt c)) + g * n
    let v := ch / n
    let y : Int := (c.f * (ti / wt) + v / c.f : Nat) - (c.o : Int)
    let x : Int := (c.f * (16 * (ti % wt) + i) + v % c.f : Nat) - (c.o : Int)
    if 0 ≤ y ∧ y < (c.outH : Nat) ∧ 0 ≤ x ∧ x < (c.outW : Nat) then
      some (y.toNat * c.outRow + x.toNat * c.outPos + ch % n * fmtBits fmt / 8)
    else none

/-- The destination of a tile's last drain: depth-to-space segments where the folio names them. -/
def drainDstOk (d : FolioDecl) (b : List (Nat × Nat)) (body : ContrBody) (o : DrainOp) : Bool :=
  let segs := fun (c : ConvDecl) => match o.dst with
    | .segments _ cout offs _ => cout == c.cout && offs == d2sOffs c b (o.outFmt.truncate 4) o.pos.ti o.pos.tj o.rows o.cols
    | _ => false
  match body with
  | .conv n => match d.convs[n]? with
    | some c => !c.d2s || segs c
    | none => false
  | _ => true

/-- The place where a drain parks a partial sum in FP32, or in INT32 for an integer tile (R183). -/
def parkAt (o : DrainOp) (int : Bool) : Option (Nat × Nat) :=
  match o.dst with
  | .well base stride _ _ => if (o.outFmt.truncate 4 : BitVec 4) = 0 ∧ o.int32 = int then some (base, stride) else none
  | _ => none

/-- The parked sum of an output tile as it lies in the well: element (i, j). -/
def CoreSt.parkedLane (x : CoreSt) (q : Parked) (e : Nat) : Word :=
  BitVec.ofNat 32 (leNat ((List.range 4).map fun b => x.well.get 0 (q.base + e / 32 * q.stride + 4 * (e % 32) + b)))

/-- The register that a drain names holds the sum parked before (R90, R183). -/
def CoreSt.heldIsParked (x : CoreSt) (r : PhaseRun) (o : DrainOp) : Bool :=
  match o.held, r.parked.find? fun q => q.pos == o.pos with
  | some h, some q => (List.range 512).all fun e => decide (o.rows ≤ e / 32) || decide (o.cols ≤ e % 32) || x.lane h e == x.parkedLane q e
  | _, _ => false

/-- A drain: the instance with the tile parked or done, none where the tiler issues no such drain. Every segment of a contraction that is
cut but one is parked; outside canonical order SK adds what is parked as held values; the operation's own held values come last, by a
vector addition (R61, R183). -/
def PhaseRun.drain (r : PhaseRun) (d : FolioDecl) (t : Terms) (pl : Tiled) (x : CoreSt) (o : DrainOp) (int : Bool) : Option PhaseRun :=
  let rest := r.tiles.filter fun w => w.acc != o.tile.val
  match pl with
  | .never => none
  | .undeclared => some { r with tiles := rest }
  | .plan e _ body => match r.tiles.find? fun w => w.acc == o.tile.val && w.pos == o.pos with
    | none => none
    | some w =>
      let c := r.parkedSegs o.pos
      let last := c + 1 == r.segs t e.k
      let final : PhaseRun :=
        { r with tiles := rest, drained := r.drained ++ [o.pos], parked := r.parked.filter fun q => q.pos != o.pos }
      if o.cols ≠ e.cols ∨ (o.rows ≠ e.rows ∧ e.rows ≤ 16) ∨ w.next ≠ r.segEnd t e.k w.start then none
      else if r.segs t e.k = 1 then (if drainDstOk d r.bounds body o then some final else none)
      else if r.running t then
        if (c == 0 && o.held.isNone) || (c != 0 && x.heldIsParked r o) then
          if last then (if drainDstOk d r.bounds body o then some final else none)
          else (parkAt o int).map fun a =>
            { r with tiles := rest, parked := (r.parked.filter fun q => q.pos != o.pos) ++ [⟨o.pos, c, a.1, a.2, int⟩] }
        else none
      else if o.held.isNone then (parkAt o int).map fun a =>
        { r with tiles := rest, parked := r.parked ++ [⟨o.pos, c, a.1, a.2, int⟩] }
      else none

/-! ## Combining chunk sums (R68, R70, R106, R183) -/

/-- Combine by the tree of R68, a lower index on the left, or from left to right (R70). -/
def combineBy {α : Type} (canonical : Bool) (zero : α) (f : α → α → α) (xs : List α) : α :=
  if canonical then tree zero f xs
  else match xs with
    | [] => zero
    | y :: ys => ys.foldl f y

/-- An instruction of the tiler is issued in the phase instance that runs, with the instance as it leaves it; where none runs the tiler
has no plan to keep. -/
def State.planned (s : State) (r : CoreRef) (p : TileAt) (go : PhaseRun → FolioDecl → Job → Tiled → Option PhaseRun) : Option (Option PhaseRun) :=
  match s.job r.slot with
  | none => none
  | some j => match s.declOf j, (s.core r.core).runs.get none r.slot with
    | some d, some q => if q.ended then some (some q) else (go q d j (tiled d j.cores r.core q p)).map some
    | _, _ => some none

/-- The instance as the tiler's instruction leaves it. -/
def State.setRun (s : State) (r : CoreRef) (q : Option PhaseRun) : State :=
  match q with
  | none => s
  | some q => s.modCore r.core fun x => { x with runs := x.runs.set none r.slot (some q) }

end Sys2Proof.Machine
end

