-- ==== Sys2Proof/Machine/CoreOpe.lean ====
section
/-!
DEFINITION. The outer-product engine and the matrix-vector path (03): updates (R73 to R83, R101, R102), checksums (R94 to R96, R104),
drains with their comparisons (R87 to R93, R97 to R100, R105), and the registers of R108.
-/
namespace Sys2Proof.Machine

def State.tile (s : State) (c n : Nat) : AccTile := (s.core c).accs.get AccTile.empty n

/-! ## Accumulation (R56 to R61, R74) -/

/-- The contraction of two sequences of products onto `c0` in FP32 (R56 to R58). -/
def accFp (len : Nat) (a b : Nat → Fp) (c0 : Word) : Word :=
  (List.range len).foldl (fun c k => addW c (round32 ((a k).mulExact (b k)))) c0

/-- The integer of an integer operand (R60). -/
def intOf (x : Fp) : Int := x.toDy.roundInt

/-- The contraction in saturating INT32, and whether it saturated (R60). -/
def accInt (len : Nat) (a b : Nat → Fp) (c0 : Word) : Word × Bool :=
  (List.range len).foldl (fun c k =>
    let v := clamp32 (c.1.toInt + intOf (a k) * intOf (b k))
    (BitVec.ofInt 32 v.1, c.2 || v.2)) (c0, false)

/-! ## Checksum sums (R94 to R96, R104) -/

/-- A sum in the extended form (R94). -/
def extSum (xs : List Fp) : Fp := tree Fp.zero (fun x y => (x.addExact y).roundTo 24) xs

/-- An FP32 checksum entry after the indices whose operand sums are `al`, the other operand being `v` (R95). -/
def sumFp (al : List Fp) (v : Nat → Fp) (q : DWord) : DWord :=
  ((al.zipIdx.foldl (fun (c : Word) x => addW c (round32 (x.1.mulExact (v x.2)))) (q.truncate 32)) : Word).zeroExtend 64

/-- An integer checksum entry (R96). -/
def sumInt (al : List Int) (v : Nat → Fp) (q : DWord) : DWord :=
  al.zipIdx.foldl (fun c x => c + BitVec.ofInt 64 (x.1 * intOf (v x.2))) q

/-! ## The tile after an update -/

/-- An operand pair accumulates in INT32: both codes are integers with factor 1 (R60, R79). -/
def intPair (a b : Operand) : Bool :=
  fmtInt a.fmt && fmtInt b.fmt && opCtxScale a == 127 && opCtxScale b == 127

/-- A cleared tile (R74, R95). -/
def AccTile.cleared (k : Nat) (mv int : Bool) : AccTile :=
  { AccTile.empty with mv := mv, int := int, owner := some k }

/-- An outer-product update of contraction length `len` with operand values `a i k` and `b j k`, `rows` by `cols` in bounds: the
elements out of bounds hold +0 (R171), and zero-filled indices count (R76, R95). -/
def AccTile.update (t : AccTile) (rank len rows cols : Nat) (a b : Nat → Nat → Fp) : AccTile :=
  let inTile := fun (e : Nat) => decide (e / 32 < rows) && decide (e % 32 < cols)
  let ks := List.range len
  if t.int then
    let r := fun e => if inTile e then accInt len (a (e / 32)) (b (e % 32)) (t.elems.get 0 e) else (t.elems.get 0 e, false)
    let al := ks.map fun k => ((List.range 16).map fun i => intOf (a i k)).sum
    let be := ks.map fun k => ((List.range 32).map fun j => intOf (b j k)).sum
    { t with elems := SMap.ofFn 0 512 fun e => (r e).1
             rowS := SMap.ofFn 0 32 fun j => sumInt al (b j) (t.rowS.get 0 j)
             colS := SMap.ofFn 0 16 fun i => sumInt be (a i) (t.colS.get 0 i)
             n := t.n + rank * ceilDiv len rank
             sat := t.sat || (List.range 512).any fun e => (r e).2 }
  else
    let al := ks.map fun k => extSum ((List.range 16).map fun i => a i k)
    let alm := ks.map fun k => extSum ((List.range 16).map fun i => (a i k).absv)
    let be := ks.map fun k => extSum ((List.range 32).map fun j => b j k)
    let bem := ks.map fun k => extSum ((List.range 32).map fun j => (b j k).absv)
    { t with elems := SMap.ofFn 0 512 fun e =>
               if inTile e then accFp len (a (e / 32)) (b (e % 32)) (t.elems.get 0 e) else t.elems.get 0 e
             rowS := SMap.ofFn 0 32 fun j => sumFp al (b j) (t.rowS.get 0 j)
             rowM := SMap.ofFn 0 32 fun j => sumFp alm (fun k => (b j k).absv) (t.rowM.get 0 j)
             colS := SMap.ofFn 0 16 fun i => sumFp be (a i) (t.colS.get 0 i)
             colM := SMap.ofFn 0 16 fun i => sumFp bem (fun k => (a i k).absv) (t.colM.get 0 i)
             n := t.n + rank * ceilDiv len rank }

/-- A matrix-vector update: W[r][k] and x[k] (R101, R102, R104). -/
def AccTile.updateMv (t : AccTile) (len : Nat) (w : Nat → Nat → Fp) (x : Nat → Fp) : AccTile :=
  let ks := List.range len
  let om := ks.map fun k => extSum ((List.range 64).map fun r => w r k)
  let omm := ks.map fun k => extSum ((List.range 64).map fun r => (w r k).absv)
  { t with elems := SMap.ofFn 0 512 fun e => if e < 64 then accFp len (w e) x (t.elems.get 0 e) else t.elems.get 0 e
           rowS := t.rowS.set 0 0 (sumFp om x (t.rowS.get 0 0))
           rowM := t.rowM.set 0 0 (sumFp omm (fun k => (x k).absv) (t.rowM.get 0 0))
           n := t.n + len }

/-- Accumulating onto a tile of the other accumulator type: the spec gives the sums no meaning, so the elements are free values. -/
def AccTile.freed (t : AccTile) (int : Bool) (free : Nat) : AccTile :=
  { t with int := int, elems := SMap.ofFn 0 512 fun e => (Config.freeValue (free + e)).truncate 32 }

/-- Job k may direct an update at the tile: its own (R81), or a free one that it clears within its grant (R180). -/
def CoreSt.tileOk (x : CoreSt) (k n : Nat) (clear : Bool) : Bool :=
  match (x.accs.get AccTile.empty n).owner with
  | some o => o == k
  | none => clear && decide (x.tilesOf k < ((x.runs.get none k).elim 0 (·.grant)))

/-- The tile that an update starts from. -/
def State.tileFor (s : State) (r : CoreRef) (n : Nat) (clear mv int : Bool) : AccTile :=
  let t := s.tile r.core n
  if clear then AccTile.cleared r.slot mv int else if t.int == int then t else t.freed int s.free

/-- The tile written; ACC_SAT is raised when this update saturated, of which the tile's saturation bit keeps account (R82, R96). -/
def State.putTile (s : State) (r : CoreRef) (n : Nat) (sat : Bool) (t : AccTile) : State :=
  s.modCore r.core fun x =>
    { x with accs := x.accs.set AccTile.empty n { t with sat := sat || t.sat } }.raise r.slot (flagIf t.sat flAccSat)

/-- The free values that an update may have taken. -/
def State.tookMany (s : State) (n : Nat) : State := s.withFree (s.free + n)

/-- An update of the other kind onto a tile, CLEAR being 0, is a control fault (R83). -/
def State.modeClash (s : State) (c n : Nat) (clear mv : Bool) : Bool := !clear && (s.tile c n).mv != mv

/-- OUTER_PRODUCT_UPDATE, one that the tiler's plan for its output tile has room for (R168, R182, R183, R205). -/
def State.outerProduct (s : State) (i : Instr) (r : CoreRef) (o : OpuOp) (u : Upset) : State :=
  let x := s.core r.core
  let o := { o with a := x.settle r.slot o.a, b := x.settle r.slot o.b }
  let regs := opRegs o.a ++ opRegs o.b
  let fa := opFifoRows o.a 16 o.len
  let rows := fa + opFifoRows o.b 32 o.len
  if !x.pageOk r.slot o.a || !x.pageOk r.slot o.b || !x.tileOk r.slot o.tile o.clear || !opFits o.a 16 o.len || !opFits o.b 32 o.len ||
      decide ((x.fifoRows r.slot).length < rows) then s
  else s.issue i r regs fun s =>
    match s.planned r o.pos fun q d j pl => q.update d j.terms pl o.pos o.tile o.clear o.len o.rows o.cols (some o.a) with
    | none => s
    | some q =>
    if s.modeClash r.core o.tile o.clear false then s.detect r.slot cControl (clusterOf r.core) 0
    else s.checked r u (fun t e => opReads o.a 16 o.rows o.len t e || opReads o.b 32 o.cols o.len t e) 0 (fun _ => false) fun s =>
    s.readWell r u (opSpans o.a 16 o.rows o.len ++ opSpans o.b 32 o.cols o.len) fun s =>
      let a := opBytes x r.slot o.a 16 o.len 0
      let b := opBytes x r.slot o.b 32 o.len fa
      let t := s.tileFor r o.tile o.clear false (intPair o.a o.b)
      let t' := { t with sat := false }.update (fmtRank o.a.fmt o.b.fmt) o.len o.rows o.cols (opValue x o.a a 16 o.rows) (opValue x o.b b 32 o.cols)
      ((((s.tookMany 512).modCore r.core fun x => x.takeFifo r.slot rows).setRun r q).putTile r o.tile t.sat t')

def execOuterProductUpdate (c : CoreRef) (o : OpuOp) (u : Upset) (s : State) : Res := 
  coreRes o.wf (s.outerProduct (.outerProductUpdate c o u) c o u)

/-- The registers that hold x (R101). -/
def mvRegs (o : MvOp) : List Nat := (List.range (ceilDiv o.len 1024)).map (o.x.val + ·)

/-- MATRIX_VECTOR_UPDATE. -/
def State.matrixVector (s : State) (i : Instr) (r : CoreRef) (o : MvOp) (u : Upset) : State :=
  let x := s.core r.core
  let regs := mvRegs o
  if !x.tileOk r.slot o.tile o.clear || decide (32 < o.x.val + regs.length) then s
  else s.issue i r regs fun s =>
    match s.planned r o.pos fun q d j pl => q.update d j.terms pl o.pos o.tile o.clear o.len o.rows 1 none with
    | none => s
    | some q =>
    if s.modeClash r.core o.tile o.clear true then s.detect r.slot cControl (clusterOf r.core) 0
    else s.checked r u (fun t e => decide (o.x.val ≤ t) && decide (((t - o.x.val) * 512 + e) * 2 < o.len)) 0 (fun _ => false) fun s =>
    s.readWell r u (if o.rows = 0 then [] else (List.range o.len).map fun k => (o.wBase + 128 * k, 2 * o.rows)) fun s =>
      let w := fun (i k : Nat) => if i < o.rows then internal 1 127 (leNat [x.well.get 0 (o.wBase + 128 * k + 2 * i),
        x.well.get 0 (o.wBase + 128 * k + 2 * i + 1)]) else Fp.zero
      let v := fun (k : Nat) => internal 1 127 (bitsAt (x.tregByte (o.x.val + k / 1024)) (k % 1024 * 16) 16)
      let t := s.tileFor r o.tile o.clear true false
      ((s.tookMany 512).setRun r q).putTile r o.tile t.sat ({ t with sat := false }.updateMv o.len w v)

def execMatrixVectorUpdate (c : CoreRef) (o : MvOp) (u : Upset) (s : State) : Res := 
  coreRes o.wf (s.matrixVector (.matrixVectorUpdate c o u) c o u)

/-! ## The comparisons of a drain (R97 to R99, R104) -/

/-- What a comparison finds. -/
inductive Check where
  | pass | skip | fail
deriving DecidableEq, Repr

/-- tol of R97. -/
def tolOf (n w : Nat) (m : Fp) : Dy := (Dy.ofInt (n + w + 8)).mul (((m.toDy.absd).scale (-23)).add ⟨1, -144⟩)

/-- An FP32 comparison (R97, R99). -/
def checkFp (n w : Nat) (s q m : Word) : Check :=
  let (x, y, z) := (decode32 s, decode32 q, decode32 m)
  if !x.isFin || !y.isFin || !z.isFin then .skip
  else if (tolOf n w z).lt ((x.toDy.sub y.toDy).absd) then .fail else .pass

/-- The sum of tile elements by a pairwise tree in FP32, or exactly (R97). -/
def treeFp (xs : List Word) : Word := tree 0 addW xs
def treeInt (xs : List Word) : DWord := xs.foldl (fun c x => c + x.signExtend 64) 0

/-- Comparison of a line of elements with its entry. -/
def AccTile.compare (t : AccTile) (w : Nat) (xs : List Word) (s m : DWord) : Check :=
  if t.int then (if t.sat then .skip else if treeInt xs = s then .pass else .fail)
  else checkFp t.n w (treeFp xs) (s.truncate 32) (m.truncate 32)

def AccTile.rowCheck (t : AccTile) (i : Nat) : Check :=
  t.compare 32 ((List.range 32).map fun j => t.elems.get 0 (32 * i + j)) (t.colS.get 0 i) (t.colM.get 0 i)
def AccTile.colCheck (t : AccTile) (j : Nat) : Check :=
  t.compare 16 ((List.range 16).map fun i => t.elems.get 0 (32 * i + j)) (t.rowS.get 0 j) (t.rowM.get 0 j)
def AccTile.mvCheck (t : AccTile) : Check :=
  t.compare 64 ((List.range 64).map (t.elems.get 0)) (t.rowS.get 0 0) (t.rowM.get 0 0)

/-- The comparisons of a drain in the order in which they complete, each with AXIS and INDEX of R108: rows before columns
(R87). DESIGN CHOICE (log 57): of the rows, and of the columns, R87 gives one instant for all; the lowest index comes first. -/
def AccTile.checks (t : AccTile) : List (Check × Nat × Nat) :=
  if t.mv then [(t.mvCheck, 0, 0)]
  else (List.range 16).map (fun i => (t.rowCheck i, 1, i)) ++ (List.range 32).map fun j => (t.colCheck j, 0, j)

/-- OPE_FAIL_INFO takes the lower core of two failures in one cycle (R109). -/
def opeBefore (a b : Word) : Bool := decide (bitsOf a.toNat 0 5 < bitsOf b.toNat 0 5)

/-- OPE_FAIL_INFO (R108, R109). -/
def State.opeInfo (s : State) (c : Nat) (dup mv : Bool) (axis index tile : Nat) (same : Bool) : State :=
  s.modClu (clusterOf c) fun g =>
    let q := failRecord opeBefore g.opeInfo g.opeFresh same (BitVec.ofNat 32 (2 ^ 31 + (if dup then 2 ^ 17 else 0) +
      (if mv then 2 ^ 16 else 0) + axis * 2 ^ 15 + index * 2 ^ 10 + tile * 2 ^ 7 + c % 32))
    { g with
      opeInfo := q.1, opeFresh := q.2 }

def State.countChecks (s : State) (c fails skips : Nat) : State :=
  s.modClu (clusterOf c) fun g => { g with
    opeFail := satTo 0xFFFFFFFF (g.opeFail + fails), opeSkip := satTo 0xFFFFFFFF (g.opeSkip + skips) }

/-- The comparisons of a drain are made: skips and failures counted, the first failure recorded, and a mismatch, or the disagreement
of the duplicated logic at a row, faults the owner (R91, R97 to R100, R109). DESIGN CHOICE (log 57): where a row's duplicate disagrees
and a comparison fails as well, the duplicate counts as the first; INDEX of a DUPLICATE is the row, in MV mode too. -/
def State.compareTile (s : State) (r : CoreRef) (n : Nat) (t : AccTile) (dup : Option Nat) (same : Bool) : State :=
  let fails := t.checks.filter (·.1 == .fail)
  let s := s.countChecks r.core (fails.length + if dup.isSome then 1 else 0) (t.checks.countP (·.1 == .skip))
  match dup, fails with
  | some row, _ =>
    (s.opeInfo r.core true t.mv 0 row n same).detect r.slot cDuplicate (clusterOf r.core) (coreWhere r.core n 0)
  | none, f :: _ =>
    (s.opeInfo r.core false t.mv f.2.1 f.2.2 n same).detect r.slot cChecksum (clusterOf r.core) (coreWhere r.core n 0)
  | none, [] => s

/-! ## The drain (R87 to R92, R102, R105, R131, R170, R173, R212) -/

/-- An element after the held value is added (R90, R61), with what that raises. -/
def heldAdd (t : AccTile) (held : Option Word) (e : Nat) : FW :=
  let c := t.elems.get 0 e
  match held with
  | none => FW.of c
  | some h => if t.int then addKind .accI32 c h else FW.of (addW c h)

/-- The value that conversion takes: an INT32 element converts as R64 says. -/
def drainValue (t : AccTile) (fmt : Byte) (w : Word) : Fp := if t.int then intSource (fmt.truncate 4) w else decode32 w

/-- One drained row: its elements before the bound, with the flags of held additions. -/
def AccTile.drainRow (t : AccTile) (x : CoreSt) (o : DrainOp) (i : Nat) : List FW :=
  (List.range o.cols).map fun j => heldAdd t (o.held.map fun n => x.lane n (32 * i + j)) (32 * i + j)

/-- Rows that the drain writes: those in bounds, of rows 0 and 1 in MV mode, and before a row whose duplicate disagrees. -/
def drainRows (t : AccTile) (o : DrainOp) (dup : Option Nat) : List Nat :=
  List.range (Nat.min (if t.mv then Nat.min 2 o.rows else o.rows) (dup.getD 16))

/-- Cut a list into pieces of `n`. -/
def pieces {α : Type} (n : Nat) (l : List α) : List (List α) :=
  (List.range (ceilDiv l.length n)).map fun k => (l.drop (k * n)).take n

/-- Elements of a drained row as they leave the tile: converted to the output format, or as INT32 (R63, R87). -/
def drainConv (o : DrainOp) (t : AccTile) (row : List Word) : List Byte × Option Byte × Half :=
  if o.int32 && t.int then (row.flatMap fun w => leBytes 4 w.toNat, none, 0)
  else convertRow o.outFmt o.outScale (row.map (drainValue t o.outFmt))

/-- The well bytes of one drained row, and the flags of its conversion. -/
def drainBytes (o : DrainOp) (t : AccTile) (i : Nat) (row : List Word) : List (Nat × Byte) × Half :=
  let place := fun (a : Nat) (bs : List Byte) => bs.zipIdx.map fun b => (a + b.2, b.1)
  match o.dst with
  | .well base stride sb ss =>
    let (bs, sc, h) := drainConv o t row
    (place (base + i * stride) bs ++ (sc.map fun v => (sb + i * ss, v)).toList, h)
  | .treg _ =>
    let (bs, _, h) := drainConv o t row
    (place (128 * i) bs, h)
  | .segments base cout offs scales =>
    let segs := pieces cout row
    let n := ceilDiv o.cols cout
    (segs.zipIdx.flatMap fun g => match (offs[i * n + g.2]?).join with
      | some off => place (base + off) (drainConv o t g.1).1 ++
          (((drainConv o t g.1).2.1).map fun v => (scales.getD (i * n + g.2) 0, v)).toList
      | none => [],
     segs.zipIdx.foldl (fun h g => match (offs[i * n + g.2]?).join with
      | some _ => h ||| (drainConv o t g.1).2.2
      | none => h) 0)

/-- Bytes written into a register under the byte view, the rest of it kept (R131). -/
def CoreSt.putBytes (x : CoreSt) (k n : Nat) (ws : List (Nat × Byte)) : CoreSt :=
  x.putTreg k n fun e =>
    (List.range 4).foldl (fun w b => match ws.lookup (4 * e + b) with
      | some v => (w &&& ~~~((0xFF : Word) <<< (8 * b))) ||| (v.zeroExtend 32 <<< (8 * b))
      | none => w) (x.lane n e)

/-- The rows of a drain written, its flags raised, its tile given back where it is released (R81). -/
def State.drainWrites (s : State) (r : CoreRef) (o : DrainOp) (t : AccTile) (dup : Option Nat) : State :=
  let x := s.core r.core
  let rows := (drainRows t o dup).map fun i => (i, t.drainRow x o i)
  let out := rows.map fun iv => drainBytes o t iv.1 (iv.2.map (·.1))
  let flags := rows.foldl (fun h iv => iv.2.foldl (fun h v => h ||| v.2) h) (out.foldl (fun h p => h ||| p.2) 0)
  let ws := out.flatMap (·.1)
  let s := match o.dst with
    | .treg n => s.modCore r.core fun x => x.putBytes r.slot n ws
    | _ => s.writeWell r ws
  s.modCore r.core fun x => { x.raise r.slot flags with
    accs := if o.release then x.accs.set AccTile.empty o.tile { t with owner := none } else x.accs }

/-- The registers that a drain names. -/
def drainRegs (o : DrainOp) : List Nat :=
  (o.held.map (·.val)).toList ++ match o.dst with
    | .treg n => [n.val]
    | _ => []

/-- The well bytes that a drain writes lie within the well (R284). -/
def drainInWell (o : DrainOp) (t : AccTile) (x : CoreSt) : Bool :=
  match o.dst with
  | .treg _ => true
  | _ => (drainRows t o none).all fun i =>
      ((drainBytes o t i ((t.drainRow x o i).map (·.1))).1).all fun w => decide (w.1 < wellBytes)

/-- DRAIN. The rows are written while the comparisons run (R93): a mismatch faults the job after them. -/
def State.drainTile (s : State) (i : Instr) (r : CoreRef) (o : DrainOp) (u : Upset) : State :=
  let t := s.tile r.core o.tile
  if t.owner != some r.slot.val then s
  else s.issue i r (drainRegs o) fun s =>
    match s.planned r o.pos fun q d j pl => q.drain d j.terms pl (s.core r.core) o t.int with
    | none => s
    | some q =>
    if !drainInWell o t (s.core r.core) then s.detect r.slot cControl (clusterOf r.core) 0
    else s.checked r u (fun n e => o.held.map Fin.val == some n && (drainRows t o none).contains (e / 32) && decide (e % 32 < o.cols))
        0 (fun _ => false) fun s =>
      let dup := match u with
        | .duplicate row _ => if (drainRows t o none).contains row.val then some row.val else none
        | _ => none
      let same := match u with
        | .duplicate _ same => same
        | .coincides => true
        | _ => false
      ((s.drainWrites r o t dup).setRun r q).compareTile r o.tile t dup same

def execDrain (c : CoreRef) (o : DrainOp) (u : Upset) (s : State) : Res := coreRes o.wf (s.drainTile (.drain c o u) c o u)

end Sys2Proof.Machine
end

