-- ==== Sys2Proof/Machine/CoreVector.lean ====
section
/-!
DEFINITION. The vector engine's instructions (04): arithmetic, selection, integer and logic, conversion, copy and broadcast,
reductions, predicate logic, the length register and the flag word, depthwise accumulation; STOPMAX (R265), pooling and resampling
(07), which run on the same lanes.
-/
namespace Sys2Proof.Machine

/-! ## Shapes -/

/-- One source. -/
def State.vec1 (s : State) (i : Instr) (r : CoreRef) (o : Vec1) (u : Upset) (arith : Bool) (f : Word → FW) : State :=
  s.vecOp i r u [o.a] o.d o.m arith fun x i => f (x.lane o.a i)
/-- Two sources. -/
def State.vec2 (s : State) (i : Instr) (r : CoreRef) (o : Vec2) (u : Upset) (arith : Bool) (f : Word → Word → FW) : State :=
  s.vecOp i r u [o.a, o.b] o.d o.m arith fun x i => f (x.lane o.a i) (x.lane o.b i)
/-- Three sources. -/
def State.vec3 (s : State) (i : Instr) (r : CoreRef) (o : Vec3) (u : Upset) (f : Word → Word → Word → FW) : State :=
  s.vecOp i r u [o.a, o.b, o.c] o.d o.m true fun x i => f (x.lane o.a i) (x.lane o.b i) (x.lane o.c i)

/-! ## Arithmetic (R119) -/

def execAdd (c : CoreRef) (o : Vec2) (k : AccAdd) (u : Upset) (s : State) : Res :=
  .next (s.vec2 (.add c o k u) c o u (k != .accI32) (addKind k))
def execSub (c : CoreRef) (o : Vec2) (u : Upset) (s : State) : Res := .next (s.vec2 (.sub c o u) c o u true fun a b => (fsub a b).fw)
def execMul (c : CoreRef) (o : Vec2) (u : Upset) (s : State) : Res := .next (s.vec2 (.mul c o u) c o u true fun a b => (fmul a b).fw)
def execFma (c : CoreRef) (o : Vec3) (u : Upset) (s : State) : Res := .next (s.vec3 (.fma c o u) c o u fun a b d => (ffma a b d).fw)
def execFms (c : CoreRef) (o : Vec3) (u : Upset) (s : State) : Res := .next (s.vec3 (.fms c o u) c o u fun a b d => (ffms a b d).fw)
def execAbs (c : CoreRef) (o : Vec1) (u : Upset) (s : State) : Res := .next (s.vec1 (.abs c o u) c o u true fun a => FW.of (fabs a))
def execNeg (c : CoreRef) (o : Vec1) (u : Upset) (s : State) : Res := .next (s.vec1 (.neg c o u) c o u true fun a => FW.of (fneg a))

/-! ## Selection (R120) -/

def execMin (c : CoreRef) (o : Vec2) (u : Upset) (s : State) : Res := .next (s.vec2 (.min c o u) c o u false fun a b => FW.of (fmin a b))
def execMax (c : CoreRef) (o : Vec2) (u : Upset) (s : State) : Res := .next (s.vec2 (.max c o u) c o u false fun a b => FW.of (fmax a b))
def execCmp (c : CoreRef) (cc : Cond) (p : Fin 8) (a b : Fin 32) (m : Mask) (u : Upset) (s : State) : Res :=
  .next (s.vecPred (.cmp c cc p a b m u) c u [a, b] p m fun x i => cmpCond cc (x.lane a i) (x.lane b i))
def execSel (c : CoreRef) (o : Vec2) (p : Fin 8) (u : Upset) (s : State) : Res :=
  .next (s.vecOp (.sel c o p u) c u [o.a, o.b] o.d o.m false fun x i =>
    FW.of (if (x.ctxs.get Ctx.empty c.slot).predBit p i then x.lane o.a i else x.lane o.b i))

/-! ## Integer and logic (R121) -/

def execIadd (c : CoreRef) (o : Vec2) (u : Upset) (s : State) : Res := .next (s.vec2 (.iadd c o u) c o u false fun a b => FW.of (a + b))
def execIsub (c : CoreRef) (o : Vec2) (u : Upset) (s : State) : Res := .next (s.vec2 (.isub c o u) c o u false fun a b => FW.of (a - b))
def execIadds (c : CoreRef) (o : Vec2) (u : Upset) (s : State) : Res := .next (s.vec2 (.iadds c o u) c o u false fun a b => isatFw (sadd a b))
def execIsubs (c : CoreRef) (o : Vec2) (u : Upset) (s : State) : Res := .next (s.vec2 (.isubs c o u) c o u false fun a b => isatFw (ssub a b))
def execAnd (c : CoreRef) (o : Vec2) (u : Upset) (s : State) : Res := .next (s.vec2 (.and c o u) c o u false fun a b => FW.of (a &&& b))
def execOr (c : CoreRef) (o : Vec2) (u : Upset) (s : State) : Res := .next (s.vec2 (.or c o u) c o u false fun a b => FW.of (a ||| b))
def execXor (c : CoreRef) (o : Vec2) (u : Upset) (s : State) : Res := .next (s.vec2 (.xor c o u) c o u false fun a b => FW.of (a ^^^ b))
def execShl (c : CoreRef) (o : Vec2) (u : Upset) (s : State) : Res := .next (s.vec2 (.shl c o u) c o u false fun a b => FW.of (a <<< (b.toNat % 32)))
def execShr (c : CoreRef) (o : Vec2) (u : Upset) (s : State) : Res := .next (s.vec2 (.shr c o u) c o u false fun a b => FW.of (a >>> (b.toNat % 32)))
def execSar (c : CoreRef) (o : Vec2) (u : Upset) (s : State) : Res := .next (s.vec2 (.sar c o u) c o u false fun a b => FW.of (a.sshiftRight (b.toNat % 32)))

/-! ## Conversion (R122) -/

def execCvtI2f (c : CoreRef) (o : Vec1) (u : Upset) (s : State) : Res := .next (s.vec1 (.cvtI2f c o u) c o u false fun a => FW.of (i2f a))
def execCvtF2i (c : CoreRef) (o : Vec1) (u : Upset) (s : State) : Res := .next (s.vec1 (.cvtF2i c o u) c o u false cvtF2i)
def execRnd (c : CoreRef) (o : Vec1) (fmt : Byte) (u : Upset) (s : State) : Res :=
  coreRes (rndFmtOk fmt) (s.vec1 (.rnd c o fmt u) c o u false (rndFw fmt))

/-! ## Copy and broadcast (R124) -/

def execMov (c : CoreRef) (o : Vec1) (u : Upset) (s : State) : Res := .next (s.vec1 (.mov c o u) c o u false FW.of)
def execBcr (c : CoreRef) (o : Vec1) (row : Fin 16) (u : Upset) (s : State) : Res :=
  .next (s.vecFrom (.bcr c o row u) c u [o.a] (fun i => [(o.a.val, 32 * row.val + i % 32)]) o.d o.m false fun x i => FW.of (x.lane o.a (32 * row + i % 32)))
def execBcc (c : CoreRef) (o : Vec1) (col : Fin 32) (u : Upset) (s : State) : Res :=
  .next (s.vecFrom (.bcc c o col u) c u [o.a] (fun i => [(o.a.val, i / 32 * 32 + col.val)]) o.d o.m false fun x i => FW.of (x.lane o.a (i / 32 * 32 + col)))
def execBcs (c : CoreRef) (d : Fin 32) (v : Scalar) (m : Mask) (u : Upset) (s : State) : Res :=
  .next (s.vecOp (.bcs c d v m u) c u [] d m false fun x _ => FW.of ((x.ctxs.get Ctx.empty c.slot).scalar v))

/-! ## Reductions (R123) -/

/-- A reduction along rows or columns: each lane within LEN takes its row's or column's result, the others the mask mode. -/
def State.reduction (s : State) (i : Instr) (r : CoreRef) (o : Vec1) (u : Upset) (arith byRow : Bool) (f : List Word → FW) : State :=
  s.issue i r [o.d, o.a] fun s =>
    s.checked r u (fun t e => t == o.a.val && s.active r o.m e) o.d (fun e => arith && s.active r o.m e) fun s =>
    s.modCore r.core fun x =>
      let c := x.ctxs.get Ctx.empty r.slot
      let lanes := fun i => if byRow then c.rowLanes o.m.pred (i / 32) else c.colLanes o.m.pred (i % 32)
      let res := fun i => f ((lanes i).map (x.lane o.a))
      let heads := if byRow then (List.range 16).map (32 * ·) else List.range 32
      (x.putTreg r.slot o.d fun i => if c.inLen i then (res i).1 else if o.m.zero then 0 else x.lane o.d i).raise r.slot
        (heads.foldl (fun h i => h ||| (res i).2) 0)

/-- The sum of R123. A NaN gives the NaN of R119 even where it is the only element. -/
def sumOf : List Word → FW
  | [x] => FW.of (if (decode32 x).isNan then nan32 else x)
  | l => FW.treeSum (l.map FW.of)
def maxOf : List Word → FW
  | [] => FW.of (inf32 true)
  | x :: xs => FW.of (xs.foldl fmax (fmax x x))
def minOf : List Word → FW
  | [] => FW.of (inf32 false)
  | x :: xs => FW.of (xs.foldl fmin (fmin x x))

def execRsum (c : CoreRef) (o : Vec1) (u : Upset) (s : State) : Res := .next (s.reduction (.rsum c o u) c o u true true sumOf)
def execRmax (c : CoreRef) (o : Vec1) (u : Upset) (s : State) : Res := .next (s.reduction (.rmax c o u) c o u false true maxOf)
def execRmin (c : CoreRef) (o : Vec1) (u : Upset) (s : State) : Res := .next (s.reduction (.rmin c o u) c o u false true minOf)
def execCsum (c : CoreRef) (o : Vec1) (u : Upset) (s : State) : Res := .next (s.reduction (.csum c o u) c o u true false sumOf)
def execCmax (c : CoreRef) (o : Vec1) (u : Upset) (s : State) : Res := .next (s.reduction (.cmax c o u) c o u false false maxOf)
def execCmin (c : CoreRef) (o : Vec1) (u : Upset) (s : State) : Res := .next (s.reduction (.cmin c o u) c o u false false minOf)

/-! ## Predicate logic (R116, R117) -/

/-- A predicate instruction. -/
def State.predLogic (s : State) (i : Instr) (r : CoreRef) (d : Nat) (m : Mask) (f : Ctx → Nat → Bool) : State :=
  s.issue i r [] fun s => s.modCore r.core fun x => x.putPred r.slot d m (f (x.ctxs.get Ctx.empty r.slot))

def execPand (c : CoreRef) (d a b : Fin 8) (m : Mask) (s : State) : Res :=
  .next (s.predLogic (.pand c d a b m) c d m fun x i => x.predBit a i && x.predBit b i)
def execPor (c : CoreRef) (d a b : Fin 8) (m : Mask) (s : State) : Res :=
  .next (s.predLogic (.por c d a b m) c d m fun x i => x.predBit a i || x.predBit b i)
def execPnot (c : CoreRef) (d a : Fin 8) (m : Mask) (s : State) : Res := .next (s.predLogic (.pnot c d a m) c d m fun x i => !x.predBit a i)

/-! ## Context (R115, R134) -/

/-- An instruction that changes only the job's context on its core. -/
def State.ctxOp (s : State) (i : Instr) (r : CoreRef) (f : Ctx → Ctx) : State :=
  s.issue i r [] fun s => s.modCore r.core fun x => x.modCtx r.slot f

/-- SETLEN; a scalar value out of range is a bounds error (R115, R177). -/
def State.setLen (s : State) (i : Instr) (r : CoreRef) (src : LenSrc) : State :=
  match src with
  | .imm rows cols => s.ctxOp i r fun x => { x with rows := rows, cols := cols }
  | .reg v => s.issue i r [] fun s =>
    let w := ((s.ctx r.core r.slot).scalar v).toNat
    if 16 < bitsOf w 0 5 ∨ 32 < bitsOf w 8 6 then
      s.detect r.slot rsBounds (clusterOf r.core)
        (boundsDetail (((s.core r.core).runs.get none r.slot).elim 0 (·.phase)) 15 w)
    else s.modCore r.core fun x => x.modCtx r.slot fun y => { y with rows := bitsOf w 0 5, cols := bitsOf w 8 6 }

def execSetLen (c : CoreRef) (src : LenSrc) (s : State) : Res := coreRes src.wf (s.setLen (.setLen c src) c src)

/-- FLAGRD: the flag word into a scalar register (R134). -/
def execFlagRd (c : CoreRef) (d : Fin 16) (s : State) : Res :=
  .next (s.ctxOp (.flagRd c d) c fun x => { x with sregs := x.sregs.set 0 d (x.flags.zeroExtend 32) })
/-- FLAGCLR: the bits of its mask are cleared, on that core only (R134). -/
def execFlagClr (c : CoreRef) (mask : Half) (s : State) : Res :=
  .next (s.ctxOp (.flagClr c mask) c fun x => { x with flags := x.flags &&& ~~~mask })

/-! ## STOPMAX (R265) -/

def execStopMax (c : CoreRef) (ts : Fin 32) (m : Mask) (u : Upset) (s : State) : Res :=
  .next (s.issue (.stopMax c ts m u) c [ts.val] fun s =>
    s.checked c u (fun t e => t == ts.val && s.active c m e) 0 (fun _ => false) fun s => s.modCore c.core fun x => x.modCtx c.slot fun y => { y with
      stopAcc := ((List.range 512).filter (y.act m.pred)).foldl (fun a i => fmax a (fabs (x.lane ts i))) y.stopAcc })

/-! ## The depthwise path (R139, R140, R215 to R217) -/

/-- Register and element of row `y`, column `j` of the window registers from `w` on, stacked (R139). -/
def windowAt (w y j : Nat) : Nat × Nat := (w + y / 16, 32 * (y % 16) + j)

def CoreSt.window (x : CoreSt) (w y j : Nat) : Word := x.lane (windowAt w y j).1 (windowAt w y j).2

/-- The contraction indices of DWA in ascending k, as filter row, filter column and channel. -/
def dwaTaps (o : DwaOp) : List (Nat × Nat × Nat) :=
  (List.range o.kh).flatMap fun ty => (List.range o.kw).flatMap fun tx => (List.range o.cg).map fun u => (ty, tx, u)

/-- One lane of DWA (R140): products rounded to FP32, added in ascending k from +0, the bias last; the flags of its additions and
products are none, being accumulation (R527). -/
def CoreSt.dwaLane (x : CoreSt) (o : DwaOp) (lane : Nat) : FW :=
  let i := lane / 32
  let j := lane % 32
  let sum := (dwaTaps o).zipIdx.foldl (fun (acc : Word) t =>
    let k := t.2
    let a := x.window (o.w + o.q * t.1.1) (i * o.s + t.1.2.1) (j / o.cg * o.cg + t.1.2.2)
    let b := x.lane (o.wt + k / 16) (32 * (k % 16) + j)
    addW acc (mulW a b)) 0
  FW.of (match o.bias with
    | some n => addW sum (x.lane n j)
    | none => sum)

/-- The elements that one lane of DWA reads. -/
def dwaSrc (o : DwaOp) (lane : Nat) : List (Nat × Nat) :=
  (dwaTaps o).zipIdx.flatMap (fun t =>
    [windowAt (o.w + o.q * t.1.1) (lane / 32 * o.s + t.1.2.1) (lane % 32 / o.cg * o.cg + t.1.2.2),
     (o.wt + t.2 / 16, 32 * (t.2 % 16) + lane % 32)]) ++
    match o.bias with
    | some n => [(n.val, lane % 32)]
    | none => []

def dwaReads (o : DwaOp) : List Nat :=
  (List.range (o.q * o.kh)).map (o.w + ·) ++ (List.range (ceilDiv (o.cg * o.kh * o.kw) 16)).map (o.wt + ·) ++
    (match o.bias with
     | some n => [n.val]
     | none => [])

/-- (ROWS - 1) × s + kw ≤ 16 × q (R139, R215): no valid folio issues an instruction that breaks it. -/
def Ctx.windowFits (x : Ctx) (s kw q : Nat) : Bool := x.rows == 0 || decide ((x.rows - 1) * s + kw ≤ 16 * q)

def execDwa (c : CoreRef) (o : DwaOp) (u : Upset) (s : State) : Res :=
  coreRes o.wf (if !(s.ctx c.core c.slot).windowFits o.s o.kw o.q then s
    else s.vecFrom (.dwa c o u) c u (dwaReads o) (dwaSrc o) o.d o.m true fun x i => x.dwaLane o i)

/-- The included elements of output lane `i` in ascending ty × kw + tx (R216). -/
def poolTaps (o : PoolOp) (bounds : Word) (i : Nat) : List (Nat × Nat) :=
  let v0 := bitsOf bounds.toNat 0 6
  let v1 := bitsOf bounds.toNat 8 6
  ((List.range o.kh).flatMap fun ty => (List.range o.kw).map fun tx => (ty, tx)).filter fun t =>
    bounds.getLsbD (16 + t.1) && decide (v0 ≤ i * o.s + t.2) && decide (i * o.s + t.2 < v1)

def CoreSt.poolVals (x : CoreSt) (k : Nat) (o : PoolOp) (lane : Nat) : List Word :=
  (poolTaps o ((x.ctxs.get Ctx.empty k).scalar o.bounds) (lane / 32)).map fun t =>
    x.window (o.w + o.q * t.1) (lane / 32 * o.s + t.2) (lane % 32)

/-- POOL.MAX of one lane (R217). -/
def poolMax (l : List Word) : FW := maxOf l
/-- POOL.AVG of one lane (R217). -/
def poolAvg (area : Option Nat) (l : List Word) : FW :=
  if l.isEmpty then FW.of 0
  else FW.div ((l.map FW.of).foldl FW.add (FW.of 0)) (FW.of (i2f (BitVec.ofNat 32 (area.getD l.length))))

/-- The elements that one lane of a pooling instruction reads. -/
def poolSrc (o : PoolOp) (bounds : Word) (lane : Nat) : List (Nat × Nat) :=
  (poolTaps o bounds (lane / 32)).map fun t => windowAt (o.w + o.q * t.1) (lane / 32 * o.s + t.2) (lane % 32)

def State.pool (s : State) (i : Instr) (c : CoreRef) (o : PoolOp) (u : Upset) (arith : Bool) (f : List Word → FW) : State :=
  if !(s.ctx c.core c.slot).windowFits o.s o.kw o.q then s
  else s.vecFrom i c u ((List.range (o.q * o.kh)).map (o.w + ·)) (poolSrc o ((s.ctx c.core c.slot).scalar o.bounds)) o.d o.m arith fun x i => f (x.poolVals c.slot o i)

def execPoolMax (c : CoreRef) (o : PoolOp) (u : Upset) (s : State) : Res := coreRes o.wf (s.pool (.poolMax c o u) c o u false poolMax)
def execPoolAvg (c : CoreRef) (o : PoolOp) (u : Upset) (s : State) : Res :=
  coreRes o.wf (s.pool (.poolAvg c o u) c o u true (poolAvg (if o.countPad then some (o.kh * o.kw) else none)))

/-! ## Resampling (R218, R219) -/

/-- lerp of R219. -/
def lerp (a c : FW) (w : Word) : FW :=
  if cmpCond .eq a.1 c.1 then (a.1, a.2 ||| c.2)
  else
    let d := FW.sub c a
    let r := ffma w d.1 a.1
    (r.bits, d.2 ||| r.flags)

/-- The first window row read and the weight of phase j (R219). -/
def bilPhase (f j b : Nat) : Nat × Word :=
  if f = 2 then (if j = 0 then (b, 0x3F400000) else (b + 1, 0x3E800000))
  else match j with
    | 0 => (b, 0x3F200000)
    | 1 => (b, 0x3F600000)
    | 2 => (b + 1, 0x3E000000)
    | _ => (b + 1, 0x3EC00000)

def CoreSt.bilLane (x : CoreSt) (o : ResampleOp) (lane : Nat) : FW :=
  let j := lane % 32
  let (y, w) := bilPhase o.f (lane / 32 % o.f) (lane / 32 / o.f)
  let h := fun (reg : Nat) => lerp (FW.of (x.window reg y j)) (FW.of (x.window reg (y + 1) j)) w
  lerp (h o.upper) (h o.lower) o.wy

/-- The elements that one lane of RS.BIL reads. -/
def bilSrc (o : ResampleOp) (lane : Nat) : List (Nat × Nat) :=
  let y := (bilPhase o.f (lane / 32 % o.f) (lane / 32 / o.f)).1
  [o.upper.val, o.lower.val].flatMap fun r => [windowAt r y (lane % 32), windowAt r (y + 1) (lane % 32)]

def resampleReads (o : ResampleOp) (both : Bool) : List Nat :=
  (List.range o.q).map (o.upper.val + ·) ++ if both then (List.range o.q).map (o.lower.val + ·) else []

def execRsNear (c : CoreRef) (o : ResampleOp) (u : Upset) (s : State) : Res :=
  coreRes o.wf (s.vecFrom (.rsNear c o u) c u (resampleReads o false)
    (fun i => [windowAt o.upper (1 + i / 32 / o.f) (i % 32)]) o.d o.m false fun x i => FW.of (x.window o.upper (1 + i / 32 / o.f) (i % 32)))
def execRsBil (c : CoreRef) (o : ResampleOp) (u : Upset) (s : State) : Res :=
  coreRes o.wf (s.vecFrom (.rsBil c o u) c u (resampleReads o true) (bilSrc o) o.d o.m true fun x i => x.bilLane o i)

end Sys2Proof.Machine
end

