-- ==== Sys2Proof/Machine/Philox.lean ====
section
/-!
DEFINITION. The noise generator: Philox-4x32-10 (R270), its counter and key (R268), the normal values (R271) and their
compatibility forms (R274).
-/
namespace Sys2Proof

/-- A counter or an output block. -/
structure Quad where
  x0 : Word
  x1 : Word
  x2 : Word
  x3 : Word
deriving DecidableEq, Repr

/-- One round of R270. -/
def philoxRound (c : Quad) (k0 k1 : Word) : Quad :=
  let p0 := 0xD2511F53 * c.x0.toNat
  let p1 := 0xCD9E8D57 * c.x2.toNat
  let hi (p : Nat) := BitVec.ofNat 32 (p / 2 ^ 32)
  ⟨hi p1 ^^^ c.x1 ^^^ k0, BitVec.ofNat 32 p1, hi p0 ^^^ c.x3 ^^^ k1, BitVec.ofNat 32 p0⟩

/-- Ten rounds, the key advancing before each but the first (R270). -/
def philox (c : Quad) (k0 k1 : Word) : Quad :=
  ((List.range 10).foldl (fun (s : Quad × Word × Word) _ =>
    (philoxRound s.1 s.2.1 s.2.2, s.2.1 + 0x9E3779B9, s.2.2 + 0xBB67AE85)) (c, k0, k1)).1

/-- One pair of words to two normal values (R271); in compatibility mode only the first is used (R274). -/
def normalPair (compat : Bool) (ua ub : Word) : Word × Word :=
  let x : Word :=
    if compat then round32 (.fin false (ua.toNat / 2 ^ 8 + 1) (-24))
    else round32 (.fin false (2 * (ua.toNat / 2 ^ 9) + 1) (-24))
  let t := mulW 0xBFB17218 (sfu compat .log2 x).bits
  let r := if compat ∧ x = one32 then 0 else mulW t (sfu compat .rsqrt t).bits
  let q := ub.toNat / 2 ^ 30
  let v := round32 (.fin false (ub.toNat / 2 ^ 8 % 2 ^ 22) (-22))
  let co := (sfu compat .gcos v).bits
  let si := (sfu compat .gsin v).bits
  let ng (w : Word) := w ^^^ 0x80000000
  let cc := if q = 0 then co else if q = 1 then ng si else if q = 2 then ng co else si
  let ss := if q = 0 then si else if q = 1 then co else if q = 2 then ng si else ng co
  (mulW r cc, mulW r ss)

/-- The normal value of element index `e` (R268 to R271, R274). -/
def normalValue (compat : Bool) (seed : DWord) (step : Word) (tensor : BitVec 16) (draw : BitVec 8) (e : Nat) : Word :=
  let b := if compat then e / 2 else e / 4
  let c3 := if compat then tensor.toNat else draw.toNat * 2 ^ 16 + tensor.toNat
  let u := philox ⟨BitVec.ofNat 32 b, BitVec.ofNat 32 (b / 2 ^ 32 % 2 ^ 16), step, BitVec.ofNat 32 c3⟩
    (seed.truncate 32) (BitVec.ofNat 32 (seed.toNat / 2 ^ 32))
  if compat then
    (if e % 2 = 0 then (normalPair true u.x0 u.x1).1 else (normalPair true u.x2 u.x3).1)
  else
    let p := if e % 4 < 2 then normalPair false u.x0 u.x1 else normalPair false u.x2 u.x3
    if e % 2 = 0 then p.1 else p.2

end Sys2Proof
end

