-- ==== Sys2Proof/Machine/CoreSfu.lean ====
section
/-!
DEFINITION. The special function unit's instructions (05): SF.* (R144 to R153, R166), the guarded softmax and normalisation
statistics (R154 to R167), and NZ.NORM (R268 to R274).
-/
namespace Sys2Proof.Machine

/-! ## Special functions -/

def State.special (s : State) (i : Instr) (r : CoreRef) (o : Vec1) (u : Upset) (fn : SfFn) : State :=
  let compat := s.isCompat r.slot
  s.vec1 i r o u true fun a => (sfu compat fn a).fw

def execSfExp2 (c : CoreRef) (o : Vec1) (u : Upset) (s : State) : Res := .next (s.special (.sfExp2 c o u) c o u .exp2)
def execSfExp (c : CoreRef) (o : Vec1) (u : Upset) (s : State) : Res := .next (s.special (.sfExp c o u) c o u .exp)
def execSfLog2 (c : CoreRef) (o : Vec1) (u : Upset) (s : State) : Res := .next (s.special (.sfLog2 c o u) c o u .log2)
def execSfLog (c : CoreRef) (o : Vec1) (u : Upset) (s : State) : Res := .next (s.special (.sfLog c o u) c o u .log)
def execSfRcp (c : CoreRef) (o : Vec1) (u : Upset) (s : State) : Res := .next (s.special (.sfRcp c o u) c o u .rcp)
def execSfRsqrt (c : CoreRef) (o : Vec1) (u : Upset) (s : State) : Res := .next (s.special (.sfRsqrt c o u) c o u .rsqrt)
def execSfTanh (c : CoreRef) (o : Vec1) (u : Upset) (s : State) : Res := .next (s.special (.sfTanh c o u) c o u .tanh)
def execSfSigm (c : CoreRef) (o : Vec1) (u : Upset) (s : State) : Res := .next (s.special (.sfSigm c o u) c o u .sigm)
def execSfErf (c : CoreRef) (o : Vec1) (u : Upset) (s : State) : Res := .next (s.special (.sfErf c o u) c o u .erf)
def execSfSoftplus (c : CoreRef) (o : Vec1) (u : Upset) (s : State) : Res := .next (s.special (.sfSoftplus c o u) c o u .softplus)
def execSfGelu (c : CoreRef) (o : Vec1) (u : Upset) (s : State) : Res := .next (s.special (.sfGelu c o u) c o u .gelu)
def execSfSilu (c : CoreRef) (o : Vec1) (u : Upset) (s : State) : Res := .next (s.special (.sfSilu c o u) c o u .silu)

/-! ## Row states (R154, R156, R159) -/

/-- Column `j` of row `i` of a state register. -/
def CoreSt.cell (x : CoreSt) (n i j : Nat) : Word := x.lane n (32 * i + j)

/-- Rows within ROWS of register `n` take the listed columns; everything else of it stays. `f` gives a row's columns and flags. -/
def CoreSt.putRows (x : CoreSt) (k n : Nat) (f : Nat → List Word × Half) : CoreSt :=
  let rows := (x.ctxs.get Ctx.empty k).rows
  (x.putTreg k n fun e =>
    if e / 32 < rows then ((f (e / 32)).1)[e % 32]?.getD (x.lane n e) else x.lane n e).raise k
      ((List.range rows).foldl (fun h i => h ||| (f i).2) 0)

/-- The active elements of a row of register `n`, ascending. -/
def CoreSt.rowVals (x : CoreSt) (k n p i : Nat) : List Word := ((x.ctxs.get Ctx.empty k).rowLanes p i).map (x.lane n)

def isNanW (w : Word) : Bool := (decode32 w).isNan
def isInfW (w : Word) : Bool := (decode32 w).isInf
def isZeroW (w : Word) : Bool := (decode32 w).isZero

/-- An instruction over row states: the registers it names, the elements `rd t e` it reads (R137), and those that it computes, named
by their register `dst` and element (R146). -/
def State.rowOp (s : State) (i : Instr) (r : CoreRef) (u : Upset) (regs : List Nat) (rd : Nat → Nat → Bool) (dst : Nat)
    (elem : Nat → Bool) (f : CoreSt → CoreSt) : State :=
  s.issue i r regs fun s => s.checked r u rd dst elem fun s => s.modCore r.core f

/-- The ACC instructions that a job's reduction mode gives each row of a chunk of a statistic, none outside canonical and compatibility
order (R163). -/
def chunkAccs (t : Terms) : Option Nat := if t.compat then some 8 else if t.canonical then some 64 else none

/-- Another ACC may feed the state register: its chunk is not complete and has not had its last group (R163). -/
def State.accOpen (s : State) (r : CoreRef) (ta : Nat) : Bool :=
  match (s.job r.slot).bind fun j => chunkAccs j.terms with
  | some n => decide ((s.ctx r.core r.slot).stat.get 0 ta < n)
  | none => true

/-- The ACC is counted; one with COLS below 32 takes the statistic's last group (R163). -/
def CoreSt.fed (x : CoreSt) (k ta : Nat) : CoreSt :=
  x.modCtx k fun c => { c with stat := c.stat.set 0 ta (if c.cols < 32 then 64 else c.stat.get 0 ta + 1) }

/-- A statistic begins (R156, R159). -/
def CoreSt.unfed (x : CoreSt) (k ta : Nat) : CoreSt := x.modCtx k fun c => { c with stat := c.stat.set 0 ta 0 }

/-- Reads of the active elements of `ts` and of the first `cols` columns of the row states `ta`. -/
def State.rowReads (s : State) (r : CoreRef) (m : Mask) (ts ta cols t e : Nat) : Bool :=
  (t == ts && s.active r m e) || (t == ta && s.inRows r cols e)

/-! ## Softmax (R156 to R158, R162) -/

/-- gexp of R157. DESIGN CHOICE (log 58): the table has no row for +∞ against a finite m, nor for a NaN m, which a Ta that did not take
in Ts can give; there it is SF.EXP of the difference, and no flag. -/
def gexp (compat : Bool) (x m : Word) : Word :=
  let a := decode32 x
  let b := decode32 m
  if a.isNan then 0
  else if b == .inf true then 0
  else if b == .inf false then (if a == .inf false then one32 else 0)
  else if a == .inf true then 0
  else (sfu compat .exp (subW x m)).bits

/-- g of R158: the maximum with each NaN taken as minus infinity, minus infinity for an empty row. -/
def rowMax (l : List Word) : Word := l.foldl (fun g x => if isNanW x then g else fmax g x) (inf32 true)

/-- A row's sum: the tree of R123, in compatibility mode sequential (R165). -/
def rowSum (compat : Bool) (l : List FW) : FW := if compat then FW.seqSum l else FW.treeSum l

def nanSeen (l : List Word) : Half := flagIf (l.any isNanW) flStatNan

/-- SMX.INIT: the columns of R156, the others +0. -/
def smxInitRow : List Word := [inf32 true, 0, one32] ++ List.replicate 29 0

def execSmxInit (c : CoreRef) (ta : Fin 32) (s : State) : Res :=
  .next (s.rowOp (.smxInit c ta) c .none [ta] (fun _ _ => false) ta (fun _ => false) fun x =>
    (x.putRows c.slot ta fun _ => (smxInitRow, 0)).unfed c.slot ta)

/-- SMX.ACC of one row: the new m, l, r, and its flags. -/
def smxAccRow (compat : Bool) (m l : Word) (xs : List Word) : List Word × Half :=
  let m' := fmax m (rowMax xs)
  let r := gexp compat m m'
  let es := xs.map fun x => FW.of (gexp compat x m')
  let l' := FW.add (FW.mul (FW.of l) (FW.of r)) (rowSum compat es)
  ([m', l'.1, r], l'.2 ||| nanSeen xs)

/-- DESIGN CHOICE (log 58): a check failure names Te, the first of the two destinations; with Te = Ta the columns 0 to 2 of the row
states are written over e. -/
def execSmxAcc (c : CoreRef) (te ta ts : Fin 32) (m : Mask) (u : Upset) (s : State) : Res :=
  let compat := s.isCompat c.slot
  .next (if !s.accOpen c ta then s
    else s.rowOp (.smxAcc c te ta ts m u) c u [te, ta, ts] (s.rowReads c m ts ta 2) te (s.active c m) fun x =>
    let row := fun i => smxAccRow compat (x.cell ta i 0) (x.cell ta i 1) (x.rowVals c.slot ts m.pred i)
    ((x.putLanes c.slot te m fun e => gexp compat (x.lane ts e) ((row (e / 32)).1.headD 0)).putRows c.slot ta row).fed c.slot ta)

def execSmxExp (c : CoreRef) (te ts ta : Fin 32) (m : Mask) (u : Upset) (s : State) : Res :=
  let compat := s.isCompat c.slot
  .next (s.rowOp (.smxExp c te ts ta m u) c u [te, ts, ta] (s.rowReads c m ts ta 1) te (s.active c m) fun x =>
    let nan := (List.range 16).any fun i => (x.rowVals c.slot ts m.pred i).any isNanW
    (x.putLanes c.slot te m fun e => gexp compat (x.lane ts e) (x.cell ta (e / 32) 0)).raise c.slot (flagIf nan flStatNan))

/-- SMX.NORM of one lane. -/
def smxNormLane (compat : Bool) (e l : Word) : FW :=
  if isZeroW l then FW.of 0 else FW.mul (FW.of e) (sfu compat .rcp l).fw

def execSmxNorm (c : CoreRef) (td te ta : Fin 32) (m : Mask) (u : Upset) (s : State) : Res :=
  let compat := s.isCompat c.slot
  .next (s.rowOp (.smxNorm c td te ta m u) c u [td, te, ta] (s.rowReads c m te ta 2) td (s.active c m) fun x =>
    x.putVec c.slot td m fun e => smxNormLane compat (x.lane te e) (x.cell ta (e / 32) 1))

def smxMergeRow (compat : Bool) (ma la mb lb : Word) : List Word × Half :=
  let m := fmax ma mb
  let l := FW.add (FW.mul (FW.of la) (FW.of (gexp compat ma m))) (FW.mul (FW.of lb) (FW.of (gexp compat mb m)))
  ([m, l.1, gexp compat ma m], l.2)

def execSmxMerge (c : CoreRef) (ta tb : Fin 32) (u : Upset) (s : State) : Res :=
  let compat := s.isCompat c.slot
  .next (s.rowOp (.smxMerge c ta tb u) c u [ta, tb] (fun t e => (t == ta.val || t == tb.val) && s.inRows c 2 e) ta
    (s.inRows c 3) fun x => x.putRows c.slot ta fun i =>
    smxMergeRow compat (x.cell ta i 0) (x.cell ta i 1) (x.cell tb i 0) (x.cell tb i 1))

/-! ## Normalisation (R159 to R162, R167) -/

/-- A normalisation row state (R159). -/
structure NrmRow where
  c : Word
  s1 : Word
  s2 : Word
  n : Word
  pinf : Word
  ninf : Word
  mode : Word
deriving DecidableEq, Repr

def NrmRow.cols (r : NrmRow) : List Word := [r.c, r.s1, r.s2, r.n, r.pinf, r.ninf, r.mode]

def CoreSt.nrmRow (x : CoreSt) (n i : Nat) : NrmRow :=
  ⟨x.cell n i 0, x.cell n i 1, x.cell n i 2, x.cell n i 3, x.cell n i 4, x.cell n i 5, x.cell n i 6⟩

/-- NRM.INIT (R159). -/
def nrmInitRow (zeroShift : Bool) : List Word :=
  [0, 0, 0, 0, 0, 0, if zeroShift then 1 else 0] ++ List.replicate 25 0

def execNrmInit (c : CoreRef) (ta : Fin 32) (zeroShift : Bool) (s : State) : Res :=
  .next (s.rowOp (.nrmInit c ta zeroShift) c .none [ta] (fun _ _ => false) ta (fun _ => false) fun x =>
    (x.putRows c.slot ta fun _ => (nrmInitRow zeroShift, 0)).unfed c.slot ta)

/-- NRM.ACC of one row (R160; R167 in compatibility mode). -/
def nrmAccRow (compat : Bool) (r : NrmRow) (xs : List Word) : List Word × Half :=
  let f := xs.filter fun x => !isNanW x && !isInfW x
  let cnt := fun (p : Word → Bool) => BitVec.ofNat 32 (xs.countP p)
  let c := if compat then 0 else if r.n == 0 && r.mode == 0 then f.headD r.c else r.c
  let d := f.map fun x => FW.sub (FW.of x) (FW.of c)
  let s1 := if compat then (f.map FW.of).foldl FW.add (FW.of r.s1) else FW.add (FW.of r.s1) (FW.treeSum d)
  let s2 := if compat then (f.map fun x => FW.mul (FW.of x) (FW.of x)).foldl FW.add (FW.of r.s2)
    else FW.add (FW.of r.s2) (FW.treeSum (d.map fun y => FW.mul y y))
  let r' : NrmRow := { r with
    c := c, s1 := s1.1, s2 := s2.1, n := r.n + BitVec.ofNat 32 f.length,
    pinf := r.pinf + cnt (fun x => decode32 x == .inf false), ninf := r.ninf + cnt (fun x => decode32 x == .inf true) }
  (r'.cols, s1.2 ||| s2.2 ||| nanSeen xs)

def execNrmAcc (c : CoreRef) (ta ts : Fin 32) (m : Mask) (u : Upset) (s : State) : Res :=
  let compat := s.isCompat c.slot
  .next (if !s.accOpen c ta then s
    else s.rowOp (.nrmAcc c ta ts m u) c u [ta, ts] (s.rowReads c m ts ta 7) ta (s.active c m) fun x => (x.putRows c.slot ta fun i =>
    nrmAccRow compat (x.nrmRow ta i) (x.rowVals c.slot ts m.pred i)).fed c.slot ta)

/-- Mean and variance of a row (R161; R167 in compatibility mode). DESIGN CHOICE (log 58): the INT32 count n enters div as CVT.I2F makes
it FP32, which rounds a count beyond 2^24; so does nb in `nrmMergeRow`. -/
def nrmFinRow (compat : Bool) (r : NrmRow) : List Word × Half :=
  let pos := fun (w : Word) => decide (0 < w.toInt)
  let inf := inf32 false
  if pos r.pinf && r.ninf == 0 then ([inf, inf], 0)
  else if pos r.ninf && r.pinf == 0 then ([inf32 true, inf], 0)
  else if pos r.pinf then ([0, inf], 0)
  else if r.n == 0 then ([0, 0], 0)
  else
    let n := FW.of (i2f r.n)
    if r.mode == 1 then
      let v := FW.div (FW.of r.s2) n
      ([0, v.1], v.2)
    else
      let q := FW.div (FW.of r.s1) n
      if compat then
        let v := FW.div (FW.sub (FW.of r.s2) (FW.div (FW.mul (FW.of r.s1) (FW.of r.s1)) n)) n
        ([q.1, fmax 0 v.1], q.2 ||| v.2)
      else
        let mean := FW.add (FW.of r.c) q
        let v := FW.div (FW.sub (FW.of r.s2) (FW.mul (FW.of r.s1) q)) n
        ([mean.1, fmax 0 v.1], mean.2 ||| v.2)

/-- DESIGN CHOICE (log 58): the instruction takes no mask mode; the lanes of Td other than columns 0 and 1 of the rows within ROWS are
kept. -/
def execNrmFin (c : CoreRef) (td ta : Fin 32) (u : Upset) (s : State) : Res :=
  let compat := s.isCompat c.slot
  .next (s.rowOp (.nrmFin c td ta u) c u [td, ta] (fun t e => t == ta.val && s.inRows c 7 e) td (s.inRows c 2) fun x =>
     x.putRows c.slot td fun i => nrmFinRow compat (x.nrmRow ta i))

/-- NRM.MERGE of one row (R162). -/
def nrmMergeRow (a b : NrmRow) : List Word × Half :=
  let a' : NrmRow := { a with n := a.n + b.n, pinf := a.pinf + b.pinf, ninf := a.ninf + b.ninf }
  if b.n == 0 then (a'.cols, 0)
  else if a.n == 0 then (NrmRow.cols { a' with c := b.c, s1 := b.s1, s2 := b.s2 }, 0)
  else
    let nb := FW.of (i2f b.n)
    let dl := FW.sub (FW.of b.c) (FW.of a.c)
    let s1b := FW.of b.s1
    let s2 := FW.add (FW.of a.s2) (FW.add (FW.add (FW.of b.s2) (FW.mul (FW.mul (FW.of 0x40000000) dl) s1b))
      (FW.mul (FW.mul dl dl) nb))
    let s1 := FW.add (FW.of a.s1) (FW.add s1b (FW.mul dl nb))
    (NrmRow.cols { a' with s1 := s1.1, s2 := s2.1 }, s1.2 ||| s2.2)

def execNrmMerge (c : CoreRef) (ta tb : Fin 32) (u : Upset) (s : State) : Res :=
  .next (s.rowOp (.nrmMerge c ta tb u) c u [ta, tb] (fun t e => (t == ta.val || t == tb.val) && s.inRows c 7 e) ta
    (s.inRows c 7) fun x => x.putRows c.slot ta fun i =>
    nrmMergeRow (x.nrmRow ta i) (x.nrmRow tb i))

/-! ## The order of merges (R162, R163) -/

/-- The entries 2j and 2j + 1 of a list. -/
def pairsOf {α : Type} : List α → List (α × α)
  | x :: y :: l => (x, y) :: pairsOf l
  | _ => []

/-- The entries 2j of a list. -/
def evens {α : Type} : List α → List α
  | [] => []
  | [x] => [x]
  | x :: _ :: l => x :: evens l

/-- The merges of the pairwise tree of R68, in order, each into its left operand; `fuel` bounds its levels. -/
def treeMerges {α : Type} : Nat → List α → List (α × α)
  | 0, _ => []
  | n + 1, l => pairsOf l ++ treeMerges n (evens l)

/-- The merges of chunk states into the first one: the tree of R68 keyed by chunk index, in compatibility mode left to right (R163, R165).
-/
def merges {α : Type} (compat : Bool) (l : List α) : List (α × α) :=
  if compat then match l with
    | [] => []
    | x :: xs => xs.map fun y => (x, y)
  else treeMerges l.length l

/-! ## Noise (R268, R269, R272) -/

/-- The step field of R268. -/
def stepField (j : Job) : Word :=
  match j.step with
  | some n => BitVec.ofNat 32 (n + 1)
  | none => 0

/-- The element index of a lane (R272). -/
def Ctx.noiseIndex (x : Ctx) (sa lane : Nat) : Nat :=
  let base := (x.sregs.get 0 sa).toNat + 2 ^ 32 * ((x.sregs.get 0 (sa + 1)).toNat % 2 ^ 16)
  (base + lane / 32 * (x.sregs.get 0 (sa + 2)).toNat + lane % 32) % 2 ^ 48

/-- NZ.NORM; a job without a step block has no SEED, so its seed is a free value. -/
def State.noise (s : State) (c : CoreRef) (o : NoiseOp) (u : Upset) : State :=
  match s.job c.slot with
  | none => s
  | some j =>
    let (s', seed) := match j.terms.stepBlock with
      | some b => (s, b.seed)
      | none => (s.took, s.free64)
    s'.vecOp (.nzNorm c o u) c u [] o.d o.m true fun x i =>
      FW.of (normalValue j.terms.compat seed (stepField j) o.tensor o.draw ((x.ctxs.get Ctx.empty c.slot).noiseIndex o.sa i))

def execNzNorm (c : CoreRef) (o : NoiseOp) (u : Upset) (s : State) : Res := coreRes o.wf (s.noise c o u)

end Sys2Proof.Machine
end

