-- ==== Sys2Proof/Machine/Motion.lean ====
section
/-!
DEFINITION. The encoder's motion search (15): predictor candidates (R437), their costs, the exhaustive and the sub-sample search (R438),
on luma samples given as functions of their place.
-/
namespace Sys2Proof.Machine

/-- Superblock rows and columns, and units of 16 × 16. -/
def VidCfg.sbRows (c : VidCfg) : Nat := ceilDiv c.height 64
def VidCfg.sbCols (c : VidCfg) : Nat := ceilDiv c.width 64
def VidCfg.unitRows (c : VidCfg) : Nat := ceilDiv c.height 16
def VidCfg.unitCols (c : VidCfg) : Nat := ceilDiv c.width 16

def clampTo (lo hi v : Int) : Int := min hi (max lo v)

/-- A vector in eighth samples. -/
structure Mv where
  x : Int
  y : Int
deriving DecidableEq, Repr

/-- Vectors are clamped to ±16,383 eighth samples (R438). -/
def Mv.clamp (v : Mv) : Mv := ⟨clampTo (-16383) 16383 v.x, clampTo (-16383) 16383 v.y⟩

def unitVec (u : UnitResult) : Mv := ⟨u.mvX.toInt, u.mvY.toInt⟩

/-- Luma samples by column and row. -/
abbrev Luma := Nat → Nat → Nat

/-! ## The Hadamard transform (R438, R444) -/

/-- The one-dimensional Hadamard transform of four values. -/
def hadamard4 (v : List Int) : List Int :=
  let (a, b, c, d) := (v.getD 0 0, v.getD 1 0, v.getD 2 0, v.getD 3 0)
  [a + b + c + d, a - b + c - d, a + b - c - d, a - b - c + d]

/-- The sum of the magnitudes of a 4 × 4 Hadamard transform's coefficients. -/
def hadamardSum (v : Nat → Nat → Int) : Nat :=
  let rows := (List.range 4).map fun y => hadamard4 ((List.range 4).map fun x => v x y)
  ((List.range 4).map fun x => ((hadamard4 (rows.map fun r => r.getD x 0)).map Int.natAbs).sum).sum

/-- The same over the sixteen 4 × 4 blocks of a unit. -/
def hadamardUnit (v : Nat → Nat → Int) : Nat :=
  ((List.range 16).map fun b => hadamardSum fun x y => v (4 * (b % 4) + x) (4 * (b / 4) + y)).sum

/-! ## Prediction at a vector -/

/-- The standard's regular eight-tap filter at `k` eighths of a sample (PRESUMED from the AV1 specification, log 70). -/
def regularTaps (k : Nat) : List Int :=
  ([[0, 0, 0, 128, 0, 0, 0, 0], [0, 2, -10, 122, 18, -4, 0, 0], [0, 2, -14, 110, 38, -10, 2, 0], [0, 2, -16, 94, 58, -12, 2, 0],
    [0, 2, -14, 76, 76, -14, 2, 0], [0, 2, -12, 58, 94, -16, 2, 0], [0, 2, -10, 38, 110, -14, 2, 0],
    [0, 0, -4, 18, 122, -10, 2, 0]]).getD k []

def round2 (v : Int) (n : Nat) : Int := (v + 2 ^ (n - 1)) / 2 ^ n

/-- The filter's sum over eight samples. -/
def tapped (k : Nat) (p : Nat → Int) : Int := ((regularTaps k).zipIdx.map fun t => t.1 * p t.2).sum

/-- A sample of a picture extended beyond its edges by repetition. -/
def VidCfg.extended (c : VidCfg) (p : Luma) (x y : Int) : Int :=
  p (clampTo 0 (c.width - 1 : Nat) x).toNat (clampTo 0 (c.height - 1 : Nat) y).toNat

/-- The prediction of the sample at (x, y) by a vector: horizontal filter, then vertical, with the standard's two roundings (log 70). -/
def VidCfg.predict (c : VidCfg) (p : Luma) (v : Mv) (x y : Nat) : Int :=
  let (qx, qy) := (8 * (x : Int) + v.x, 8 * (y : Int) + v.y)
  let r := if c.depth = 12 then 5 else 3
  let row := fun (j : Nat) => round2 (tapped (qx % 8).toNat fun k => c.extended p (qx / 8 + k - 3) (qy / 8 + j - 3)) r
  clampTo 0 (2 ^ c.depth - 1) (round2 (tapped (qy % 8).toNat row) (14 - r))

/-- The difference of a unit's samples from their prediction. -/
def VidCfg.diff (c : VidCfg) (cur ref : Luma) (ux uy : Nat) (v : Mv) (x y : Nat) : Int :=
  c.extended cur (16 * ux + x : Nat) (16 * uy + y : Nat) - c.predict ref v (16 * ux + x) (16 * uy + y)

def VidCfg.sad (c : VidCfg) (cur ref : Luma) (ux uy : Nat) (v : Mv) : Nat :=
  ((List.range 256).map fun i => (c.diff cur ref ux uy v (i % 16) (i / 16)).natAbs).sum
def VidCfg.satd (c : VidCfg) (cur ref : Luma) (ux uy : Nat) (v : Mv) : Nat := hadamardUnit (c.diff cur ref ux uy v)

/-! ## The search of one reference (R438) -/

def bitlen (n : Nat) : Nat := if n = 0 then 0 else Nat.log2 n + 1

/-- λ × (bitlen(|dx|) + bitlen(|dy|) + 2), the offsets from the candidate in integer samples, rounded towards zero at a sub-sample position
(DESIGN CHOICE, log 70). -/
def rate (lambda : Nat) (cand v : Mv) : Nat :=
  lambda * (bitlen ((v.x - cand.x).natAbs / 8) + bitlen ((v.y - cand.y).natAbs / 8) + 2)

/-- The first element of least cost, with its cost. -/
def firstLeast {α : Type} (cost : α → Nat) : List α → Option (α × Nat)
  | [] => none
  | a :: as => some (as.foldl (fun m b => let k := cost b; if k < m.2 then (b, k) else m) (a, cost a))

/-- Offsets within ±n on each axis in raster order. -/
def around (n : Nat) : List (Int × Int) :=
  (List.range (2 * n + 1)).flatMap fun j => (List.range (2 * n + 1)).map fun i => ((i : Nat) - (n : Int), (j : Nat) - (n : Int))

/-- The best of the positions around a vector at a step that the unit may take, ties to the earlier in raster order. -/
def bestAround (cost : Mv → Nat) (ok : Mv → Bool) (n : Nat) (step : Int) (v : Mv) : Option (Mv × Nat) :=
  firstLeast cost (((around n).map fun d => (⟨v.x + step * d.1, v.y + step * d.2⟩ : Mv).clamp).filter ok)

/-- A candidate rounded to integer samples (R438). -/
def Mv.integer (v : Mv) : Mv := ⟨8 * ((v.x + 4) / 8), 8 * ((v.y + 4) / 8)⟩

/-- The whole prediction of a unit lies at least 8 samples inside the first `cols` superblock columns, where they end inside the picture
(R442, log 70). -/
def VidCfg.inside (c : VidCfg) (cols ux : Nat) (v : Mv) : Bool :=
  decide (c.sbCols ≤ cols) || cols != 0 && decide (8 * ((16 * ux + 24 : Nat) : Int) + v.x ≤ ((512 * cols : Nat) : Int))

/-- A unit's search in one reference among the vectors it may take: the number of the winning candidate, the vector and its cost. -/
def VidCfg.search (c : VidCfg) (cur ref : Luma) (ok : Mv → Bool) (lambda ux uy : Nat) (cands : List (Nat × Mv)) :
    Option (Nat × Mv × Nat) :=
  let cs := (cands.map fun k => (k.1, k.2.integer.clamp)).foldl (fun acc k => if acc.any (·.2 == k.2) then acc else acc ++ [k]) []
  (firstLeast (fun (k : Nat × Mv) => c.sad cur ref ux uy k.2 + rate lambda k.2 k.2) cs).bind fun w =>
    let (n, cand) := w.1
    let fine := fun (v : Mv) => c.satd cur ref ux uy v + rate lambda cand v
    (bestAround (fun v => c.sad cur ref ux uy v + rate lambda cand v) ok 16 8 cand).map fun whole =>
      let r := [4, 2, 1].foldl (fun (b : Mv × Nat) step => (bestAround fine ok 1 step b.1).getD b) whole
      (n, r.1, r.2)

/-! ## The units of a frame (R434, R437) -/

/-- The tile of a unit: its column and its row of tiles. -/
def VidCfg.tileOf (c : VidCfg) (ux uy : Nat) : Nat × Nat :=
  let w := ceilDiv c.sbCols (Nat.max 1 c.tileCols)
  (ux / 4 / Nat.max 1 w, if c.tgRows = 0 then 0 else uy / 4 / c.tgRows)

/-- The place of a unit in its superblock in the order of the standard's partitions (PRESUMED, log 70). -/
def zOrder (ux uy : Nat) : Nat := ux % 2 + 2 * (uy % 2) + 4 * (ux / 2 % 2) + 8 * (uy / 2 % 2)

/-- The units in coding order: superblocks in raster order, within each the partitions' order; of two tiles neither sees the other. -/
def VidCfg.unitOrder (c : VidCfg) : List (Nat × Nat) :=
  (List.range c.sbRows).flatMap fun sy => (List.range c.sbCols).flatMap fun sx =>
    ((List.range 16).flatMap fun z => (List.range 16).filterMap fun i =>
      if zOrder (i % 4) (i / 4) = z then some (4 * sx + i % 4, 4 * sy + i / 4) else none).filter fun u =>
        decide (u.1 < c.unitCols) && decide (u.2 < c.unitRows)

/-- What a unit's candidates are taken from beside the units coded before it; `limit` is the number of superblock columns that the
unit's prediction must lie in, by reference and superblock column (R442). -/
structure SearchIn where
  cur : Luma
  refs : List RefPic
  gmv : Mv
  hint : Nat → Option Mv
  lambda : Nat
  intra : Nat → Bool
  limit : Nat → Nat → Option Nat

/-- Luma samples of a reference. -/
def RefPic.sample (c : VidCfg) (r : RefPic) : Luma := fun x y => r.luma.getD (y * c.width + x) 0

/-- The candidates of a unit for a reference, in the order of R437; a unit searched against no reference gives none (log 70). -/
def VidCfg.candidates (c : VidCfg) (w : SearchIn) (r : RefPic) (done : List ((Nat × Nat) × UnitResult)) (ux uy : Nat) :
    List (Nat × Mv) :=
  let near := fun (n : Nat) (ok : Bool) (x y : Nat) =>
    if ok && c.tileOf x y == c.tileOf ux uy then
      match done.lookup (x, y) with
      | some u => if u.intra then [] else [(n, unitVec u)]
      | none => []
    else []
  near 0 (decide (0 < ux)) (ux - 1) uy ++ near 1 (decide (0 < uy)) ux (uy - 1) ++
    near 2 (decide (0 < uy) && decide (ux + 1 < c.unitCols)) (ux + 1) (uy - 1) ++
    near 3 (decide (0 < ux) && decide (0 < uy)) (ux - 1) (uy - 1) ++
    (match if r.key then none else r.units[uy * c.unitCols + ux]? with
     | some u => if u.intra then [] else [(4, unitVec u)]
     | none => []) ++
    [(5, w.gmv)] ++
    (match w.hint (uy * c.unitCols + ux) with
     | some v => [(6, v)]
     | none => []) ++ [(7, ⟨0, 0⟩)]

/-- A unit's chosen vector over the active references: the least cost, the lower reference of two equal (log 70). -/
def VidCfg.searchUnit (c : VidCfg) (w : SearchIn) (done : List ((Nat × Nat) × UnitResult)) (ux uy : Nat) : UnitResult :=
  let found := w.refs.zipIdx.filterMap fun r =>
    let ok := fun v => (w.limit r.2 (ux / 4)).all fun cols => c.inside cols ux v
    (c.search w.cur (r.1.sample c) ok w.lambda ux uy (c.candidates w r.1 done ux uy)).map fun k => (r.2 + 1, k)
  match if w.intra (uy * c.unitCols + ux) then none else firstLeast (fun k => k.2.2.2) found with
  | some ((n, k), _) => ⟨k.1 == 6, false, n, BitVec.ofInt 16 k.2.1.x, BitVec.ofInt 16 k.2.1.y⟩
  | none => ⟨false, true, 0, 0, 0⟩

/-- The search results of a frame's units, in raster order. -/
def VidCfg.searchFrame (c : VidCfg) (w : SearchIn) : List UnitResult :=
  let done := c.unitOrder.foldl (fun done u => (u, c.searchUnit w done u.1 u.2) :: done) []
  (List.range c.unitRows).flatMap fun uy => (List.range c.unitCols).map fun ux => (done.lookup (ux, uy)).getD ⟨false, true, 0, 0, 0⟩

end Sys2Proof.Machine
end

