-- ==== Sys2Proof/Machine/Video.lean ====
section
/-!
DEFINITION. The video engines (15): sessions (R425, R426), frames and their queue (R427 to R431), rate control (R440 to R442),
complexity and statistics (R443, R444), the output ring (R434 to R436) and final records (R445, R446). What the AV1 coder and decoder
produce are operands of the commands (log 10).
-/
namespace Sys2Proof.Machine

/-! ## Sessions (R425, R426) -/

/-- The session number of session i of engine e (log 14). -/
def sessNo (e i : Nat) : Nat := 8 * e + i

def State.session (s : State) (n : Nat) : Option Session := if n < 32 then (s.engine (n / 8)).sess.get none (n % 8) else none
def State.setSession (s : State) (n : Nat) (v : Option Session) : State :=
  s.modEngine (n / 8) fun g => { g with sess := g.sess.set none (n % 8) v }
def State.modSession (s : State) (n : Nat) (f : Session → Session) : State :=
  s.modEngine (n / 8) fun g => { g with sess := g.sess.modify none (n % 8) (Option.map f) }

/-- The fields of CONFIG (R425). -/
def vidCfgOf (b : List Byte) : VidCfg :=
  { encode := fieldAt b 0 1 == 1, profile := fieldAt b 1 1, depth := fieldAt b 2 1, mono := fieldAt b 3 1 == 1,
    width := fieldAt b 4 2, height := fieldAt b 6 2, fpsNum := fieldAt b 8 2, fpsDen := fieldAt b 10 2, tileCols := fieldAt b 12 1,
    tgRows := fieldAt b 13 1, rc := fieldAt b 14 1, refs := fieldAt b 15 1, kbps := fieldAt b 16 4, vbvKbits := fieldAt b 20 4,
    qMin := fieldAt b 24 1, qMax := fieldAt b 25 1, qInit := fieldAt b 26 1, stats := bitsOf (fieldAt b 27 1) 0 1 == 1,
    keyInterval := fieldAt b 28 2, girPeriod := fieldAt b 30 2, opPoint := fieldAt b 32 1,
    outHost := bitsOf (fieldAt b 33 1) 0 1 == 1, work := fieldAt b 40 8, workMib := fieldAt b 48 4, outKib := fieldAt b 52 4,
    outAddr := fieldAt b 56 8, progress := fieldAt b 64 8 }

/-- DIR, PROFILE, DEPTH and CHROMA lie within R422. -/
def vidComboOk (b : List Byte) : Bool :=
  let (d, p, z, c) := (fieldAt b 0 1, fieldAt b 1 1, fieldAt b 2 1, fieldAt b 3 1)
  decide (c ≤ 1) && ((decide (d ≤ 1) && p == 0 && (z == 8 || z == 10)) || (d == 1 && p == 2 && z == 12))

/-- Tile groups of a frame (R434). -/
def VidCfg.groups (c : VidCfg) : Nat := if c.tgRows = 0 then 1 else ceilDiv c.sbRows c.tgRows
/-- Bytes of a sample (R428). -/
def VidCfg.sample (c : VidCfg) : Nat := if c.depth = 8 then 1 else 2
/-- The frame store size F of R426 in MiB, rounded up. -/
def VidCfg.storeMib (c : VidCfg) : Nat :=
  ceilDiv (9 * (64 * c.sbCols) * (64 * c.sbRows) * (if c.mono then 2 else 3) * c.sample) (16 * mib)

/-- The fields of CONFIG outside their ranges (R425, R426). -/
def State.vidCfgBad (s : State) (b : List Byte) : Bool :=
  let c := vidCfgOf b
  let out := fun lo hi v => decide (v < lo) || decide (hi < v)
  let lo := if c.encode then 64 else 1
  out lo 8192 c.width || out lo 4352 c.height || (!c.mono && (c.width % 2 == 1 || c.height % 2 == 1)) || decide (2 < c.rc) ||
    out 1 3 c.refs || (c.rc != 0 && c.kbps == 0) || (c.rc == 1 && c.vbvKbits == 0) || decide (c.qMax < c.qMin) ||
    out c.qMin c.qMax c.qInit || decide (1 < fieldAt b 27 1) || decide (1 < fieldAt b 33 1) || !zeroAt b 34 6 ||
    !zeroAt b 72 56 || c.girPeriod == 1 || decide (120 < c.girPeriod) || c.work % 64 != 0 ||
    decide (hbmBytes < c.work + c.workMib * mib) ||
    (if c.encode then
      c.fpsNum == 0 || c.fpsDen == 0 || !([1, 2, 4, 8].contains c.tileCols) || decide (64 < c.tgRows) ||
        decide (4096 * c.tileCols < c.width) || decide (128 < c.tileCols * c.groups) || decide (c.outKib < 64) ||
        c.outAddr % 64 != 0 || c.progress % 64 != 0 || (!c.outHost && !s.mappedRange c.outAddr (c.outKib * 1024))
    else decide (31 < c.opPoint))

/-- Check 5 of VIDEO_OPEN. -/
def State.openParams (s : State) (p : Pkt) : Option Refuse :=
  let a := p.arg 0 8
  let b := s.devBytes a 128
  (badParam (decide (3 < p.arg 8 1) || !zeroAt p.body 9 7 || a % 64 != 0 || !s.mappedRange a 128)).or <|
  (match s.badLine a 128 with
    | some l => some (stWelt, 0, BitVec.ofNat 64 (l % 2 ^ 48))
    | none => none).or <|
  (chk (!vidComboOk b) (refuse stBadFormat 0)).or (badParam (s.vidCfgBad b))

/-- The sessions of an engine that are not open. -/
def State.closedSessions (s : State) (e : Nat) : List Nat := (List.range 8).filter fun i => ((s.engine e).sess.get none i).isNone

/-- The refusals for want of a resource. -/
def State.openLate (s : State) (p : Pkt) : Option Refuse :=
  let c := vidCfgOf (s.devBytes (p.arg 0 8) 128)
  chk (decide (c.workMib < ((if c.encode then c.refs else 8) + 1) * c.storeMib) || (s.closedSessions (p.arg 8 1)).isEmpty)
    (refuse stNoResource 0)

/-- A session as it opens: the level starts at half the buffer (R440). -/
def freshSession (c : VidCfg) : Session :=
  { cfg := c, produced := 0, cons := 0, consHi := 0, prodHi := 0, level := (c.vbvKbits * 1000 / 2 : Nat), prevComp := [], prevQ := [],
    prevSpent := 0, prevBudget := 0, coded := 0, sinceKey := 0, closing := none, refs := [] }

/-- VIDEO_OPEN. -/
def execVideoOpen (n : Fin 64) (p : Pkt) (s : State) : Res :=
  ringRes p (if s.reach false (p.arg 0 8) then s.cmd n opVideoOpen p (s.openParams p) (s.openLate p) fun t =>
    let no := sessNo (p.arg 8 1) ((t.closedSessions (p.arg 8 1)).headD 0)
    (t.setSession no (some (freshSession (vidCfgOf (t.devBytes (p.arg 0 8) 128))))).reply n opVideoOpen p
      (stOk, 0, BitVec.ofNat 64 no)
  else s)

/-! ## Frames (R427 to R431) -/

/-- Bytes of a picture at a pitch (R428). -/
def VidCfg.pictureBytes (c : VidCfg) (pitch : Nat) : Nat := if c.mono then pitch * c.height else pitch * c.height * 3 / 2
/-- A row of the hint field or of the statistics, padded to whole lines. -/
def VidCfg.rowBytes (c : VidCfg) (entry : Nat) : Nat := 64 * ceilDiv (c.unitCols * entry) 64

/-- The fields of a frame descriptor (R427). -/
def frameOf (b : List Byte) (op sess index : Nat) (slot : Option Nat) : Frame :=
  let fl := fieldAt b 12 2
  { op := op, sess := sess, index := index, slot := slot, src := fieldAt b 0 8, size := fieldAt b 8 4,
    forceKey := bitsOf fl 0 1 == 1, hintPresent := bitsOf fl 1 1 == 1, srcHost := bitsOf fl 2 1 == 1,
    dstHost := bitsOf fl 3 1 == 1, dst := fieldAt b 16 8, dstPitch := fieldAt b 24 4, statsAddr := fieldAt b 32 8,
    hint := fieldAt b 40 8, gmvX := BitVec.ofNat 16 (fieldAt b 48 2), gmvY := BitVec.ofNat 16 (fieldAt b 50 2) }

def VidCfg.pitchBad (c : VidCfg) (pitch : Nat) : Bool := pitch % 128 != 0 || decide (pitch < c.width * c.sample)

/-- A field of the descriptor outside its range (R282, R427). -/
def State.frameBad (s : State) (c : VidCfg) (b : List Byte) : Bool :=
  let f := frameOf b 0 0 0 none
  let off := fun (host : Bool) a n => !host && !s.mappedRange a n
  decide (15 < fieldAt b 12 2) || !zeroAt b 14 2 || !zeroAt b 28 4 || !zeroAt b 52 12 || f.statsAddr % 64 != 0 ||
    if c.encode then
      c.pitchBad f.size || off f.srcHost f.src (c.pictureBytes f.size) || f.dst != 0 || (f.statsAddr != 0 && !c.stats) ||
        (f.statsAddr != 0 && off false f.statsAddr (c.unitRows * c.rowBytes 8)) ||
        (f.hintPresent && (f.hint % 64 != 0 || off false f.hint (c.unitRows * c.rowBytes 4)))
    else
      f.size == 0 || decide (2 ^ 28 < f.size) || off f.srcHost f.src f.size || c.pitchBad f.dstPitch ||
        off f.dstHost f.dst (c.pictureBytes f.dstPitch) || f.statsAddr != 0

/-- Frames in an engine's queue, the running one included (R429, R448). -/
def Engine.queued (g : Engine) : Nat := g.queue.length + if g.run.isSome then 1 else 0

/-- A job that a frame may wait for has a declared video output (R430). -/
def State.frameJobCheck (s : State) (p : Pkt) : Option Refuse :=
  if p.jobId = 0 then none
  else s.jobCheck p fun _ j => badParam (match s.declOf j with
    | some d => d.videoFrames.isEmpty
    | none => true)

/-- The descriptor's line, the session, the job, and room in the queue. -/
def State.frameLate (s : State) (p : Pkt) : Option Refuse :=
  let a := p.arg 8 8
  (chk s.sys.quiesce.isSome (refuse stConflict rsQuiescing)).or <| match s.session (p.arg 0 2) with
    | none => some (refuse stConflict 0)
    | some x =>
      (badParam (s.frameBad x.cfg (s.devBytes a 64))).or <|
      (chk x.closing.isSome (refuse stConflict 0)).or <|
      (s.frameJobCheck p).or (chk (decide (32 ≤ (s.engine (p.arg 0 2 / 8)).queued)) (refuse stNoResource 0))

def State.frameParams (s : State) (p : Pkt) : Option Refuse :=
  let a := p.arg 8 8
  (badParam (!zeroAt p.body 2 2 || a % 64 != 0 || !s.mappedRange a 64)).or <| match s.badLine a 64 with
    | some l => some (stWelt, 0, BitVec.ofNat 64 (l % 2 ^ 48))
    | none => none

/-- A frame whose job has already ended ends at once (R431). -/
def State.endLateFrames (s : State) (slot : Option Nat) : State :=
  match slot.bind s.job with
  | some j =>
    if j.st = .faulted then s.endFrames (fun f => f.slot == slot) stFaulted j.endReason
    else if j.st = .cancelled then s.endFrames (fun f => f.slot == slot) stConflict 0
    else s
  | none => s

/-- VIDEO_FRAME. -/
def execVideoFrame (n : Fin 64) (p : Pkt) (s : State) : Res :=
  ringRes p (if s.reach false (p.arg 8 8) then s.cmd n opVideoFrame p (s.frameParams p) (s.frameLate p) fun t =>
    let no := p.arg 0 2
    let slot := if p.jobId = 0 then none else t.slotOf p.jobId
    let f := frameOf (t.devBytes (p.arg 8 8) 64) (t.sys.fetchNo - 1) no (p.arg 4 4) slot
    ((t.modEngine (no / 8) fun g => { g with queue := g.queue ++ [f] }).accept n opVideoFrame p
      (.videoFrame (no / 8) no) 0).endLateFrames slot
  else s)

/-- VIDEO_CLOSE. -/
def execVideoClose (n : Fin 64) (p : Pkt) (s : State) : Res :=
  let no := p.arg 0 2
  ringRes p (s.cmd n opVideoClose p (badParam (!zeroAt p.body 2 6))
    (chk (!(s.session no).any fun x => x.closing.isNone) (refuse stConflict 0)) fun t =>
      (t.modSession no fun x => { x with closing := some (t.sys.fetchNo - 1) }).accept n opVideoClose p (.videoClose (no / 8) no) 0)

/-- VIDEO_CLOSE_DONE: every frame of the session has written its final record (R445). -/
def execVideoCloseDone (op : Nat) (s : State) : Res :=
  .next (match s.opOf op with
    | some o => match o.kind with
      | .videoClose e no =>
        if (s.engine e).queue.any (·.sess == no) || (s.engine e).run.any (·.f.sess == no) then s
        else (s.setSession no none).finishOp o stOk 0 0
      | _ => s
    | none => s)

/-! ## Complexity (R444) -/

/-- The luma sample at (x, y), the picture's edge replicated. -/
def State.luma (s : State) (c : VidCfg) (f : Frame) (x y : Nat) : Nat :=
  let a := f.src + Nat.min y (c.height - 1) * f.size + Nat.min x (c.width - 1) * c.sample
  leNat (s.srcBytes f.srcHost a c.sample) % 2 ^ c.depth

/-- The complexity of the unit at column ux and row uy of units. -/
def State.unitComplexity (s : State) (c : VidCfg) (f : Frame) (ux uy : Nat) : Nat :=
  let px := (List.range 256).map fun i => s.luma c f (16 * ux + i % 16) (16 * uy + i / 16)
  let mean : Int := px.sum / 256
  let at_ := fun x y => (px.getD (16 * y + x) 0 : Int) - mean
  satTo 0xFFFF (hadamardUnit at_ / 2 ^ (c.depth - 8 + 2))

/-- The complexities of a frame's units in raster order, and the sums of its superblock rows. -/
def State.complexities (s : State) (c : VidCfg) (f : Frame) : List Nat :=
  (List.range c.unitRows).flatMap fun uy => (List.range c.unitCols).map fun ux => s.unitComplexity c f ux uy
def rowSums (c : VidCfg) (us : List Nat) : List Nat :=
  (List.range c.sbRows).map fun r => ((us.drop (4 * r * c.unitCols)).take (4 * c.unitCols)).sum

/-! ## Rate control (R440 to R442) -/

def VidCfg.perFrame (c : VidCfg) : Int := ((c.kbps * 1000 * c.fpsDen / c.fpsNum : Nat) : Int)

/-- The budget of a frame (R440). -/
def Session.budget (x : Session) (key : Bool) : Int :=
  let c := x.cfg
  let half : Int := ((c.vbvKbits * 1000 / 2 : Nat) : Int)
  let b := if c.rc = 1 then c.perFrame - (x.level - half) / 8 else c.perFrame
  max (if key then 4 * b else b) (c.perFrame / 4)

/-- base_q_idx of a frame (R441). -/
def Session.baseQ (x : Session) : Nat :=
  let c := x.cfg
  if c.rc = 0 ∨ x.coded = 0 then c.qInit
  else
    let mean := x.prevQ.sum / Nat.max 1 x.prevQ.length
    let m : Int := if x.prevBudget < x.prevSpent then mean + 8 else if 2 * x.prevSpent < x.prevBudget then mean - 8 else mean
    (clampTo c.qMin c.qMax m).toNat

/-- The first frame of a session, a forced one, and every multiple of KEY_INTERVAL frames after the last key frame (R442). -/
def Session.isKey (x : Session) (f : Frame) : Bool :=
  x.coded == 0 || f.forceKey || (x.cfg.keyInterval != 0 && (x.sinceKey + 1) % x.cfg.keyInterval == 0)

/-- The quantiser of superblock row r (R441): `comp` are the frame's complexity sums, rows 0 to r being analysed. -/
def rowQ (c : VidCfg) (first : Bool) (prevComp : List Nat) (r : RunFrame) (row : Nat) : Nat :=
  let before := if row = 0 then r.baseQ else r.q.getD (row - 1) 0
  if c.rc = 0 ∨ row < 2 then before
  else
    let seen := (r.comp.take (row + 1)).sum
    let rest := if first then (seen / (row + 1)) * (c.sbRows - row - 1) else (prevComp.drop (row + 1)).sum
    let planned := r.budget * ((r.comp.take (row - 1)).sum : Nat) / ((Nat.max (seen + rest) 1 : Nat) : Int)
    let d := (((r.spent.take (row - 1)).sum : Nat) - planned) * 32 / max r.budget 1
    let lim : Int := if c.rc = 1 then 8 else 4
    (clampTo c.qMin c.qMax (before + min lim (max (-lim) d))).toNat

/-! ## FRAME_START (R429, R430) -/

/-- The frame's job has released it (R430). -/
def State.released (s : State) (f : Frame) : Bool :=
  match f.slot with
  | none => true
  | some k => match s.job k with
    | some j => decide (f.index < j.frames)
    | none => false

/-- The first frame that may start: the first of its session, and not waiting. -/
def State.nextFrame (s : State) : List Frame → List Nat → Option Frame
  | [], _ => none
  | f :: fs, seen => if !seen.contains f.sess && s.released f then some f else s.nextFrame fs (f.sess :: seen)

/-- The state of a frame as it starts. -/
def State.openFrame (s : State) (x : Session) (f : Frame) : RunFrame :=
  if !x.cfg.encode then ⟨f, false, 0, 0, 0, [], [], [], [], 0, 0, []⟩
  else
    let key := x.isKey f
    let us := s.complexities x.cfg f
    { f := f, key := key, nth := if key then 0 else x.sinceKey + 1, baseQ := x.baseQ, budget := if x.cfg.rc = 0 then 0 else x.budget key,
      units := us, comp := rowSums x.cfg us, q := [], spent := [], bytes := 0, group := 0, tail := [] }

/-- FRAME_START. -/
def State.startFrame (s : State) (e : Nat) : State :=
  let g := s.engine e
  if g.run.isSome then s
  else match s.nextFrame g.queue [] with
    | none => s
    | some f => match s.session f.sess with
      | none => s
      | some x => s.modEngine e fun g => { g with queue := g.queue.filter (·.op != f.op), run := some (s.openFrame x f) }

def execFrameStart (e : Fin 4) (s : State) : Res := .next (s.startFrame e)

/-! ## Tile groups (R434 to R436) -/

/-- The OBU_PADDING of n bytes: header with a size field, size, payload with its trailing bits. -/
def paddingObu (n : Nat) : List Byte :=
  if n = 0 then []
  else [0x7A, BitVec.ofNat 8 (n - 2)] ++ if n = 2 then [] else (List.range (n - 3)).map Config.padByte ++ [0x80]

/-- Padding to the next 64-byte boundary, or the one after it when 1 byte would remain (R435). -/
def padTo64 (n : Nat) : Nat := if n % 64 = 0 then 0 else if n % 64 = 63 then 65 else 64 - n % 64

/-- Superblock rows of tile group g. -/
def VidCfg.groupRows (c : VidCfg) (g : Nat) : List Nat :=
  if c.tgRows = 0 then List.range c.sbRows else (List.range c.sbRows).filter fun r => r / c.tgRows == g

/-- The progress line (R436). -/
def State.progressLine (s : State) (x : Session) (r : RunFrame) : List Byte :=
  let fl := (if r.group + 1 = x.cfg.groups then 1 else 0) + if r.key then 2 else 0
  sealWelt 22 (leBytes 8 x.produced ++ leBytes 4 r.f.index ++ leBytes 2 r.group ++ leBytes 1 fl ++ [0] ++ leBytes 6 s.now ++ [0, 0] ++
    List.replicate 40 0)

/-- The addresses that an engine forms for a running frame are mapped, as they were when they were submitted (R282). -/
def State.frameMapped (s : State) (c : VidCfg) (f : Frame) : Bool :=
  let ok := fun (host : Bool) a n => host || s.mappedRange a n
  if c.encode then
    ok f.srcHost f.src (c.pictureBytes f.size) && ok c.outHost c.outAddr (c.outKib * 1024) &&
      (f.statsAddr == 0 || ok false f.statsAddr (c.unitRows * c.rowBytes 8)) &&
      (!f.hintPresent || ok false f.hint (c.unitRows * c.rowBytes 4))
  else ok f.srcHost f.src f.size && ok f.dstHost f.dst (c.pictureBytes f.dstPitch)

/-- An address that is no longer mapped is an internal control fault at the video island (R282); its frame is abandoned (log 69). -/
def State.frameControl (s : State) (e : Nat) (r : RunFrame) : State :=
  (s.abandonFrame e cControl).control (r.f.slot.filter fun k => (s.job k).any fun j => j.st.admitted) (islVid e)

/-- Lines leave for the output ring while it has room for a whole one (R435). -/
def State.writeLines (no : Nat) : Nat → State → List Byte → State × List Byte
  | 0, s, bs => (s, bs)
  | n + 1, s, bs => match s.session no with
    | none => (s, bs)
    | some x =>
      if bs.isEmpty ∨ x.cfg.outKib * 1024 < x.produced + 64 - x.cons then (s, bs)
      else
        let s := s.dstWrite x.cfg.outHost (x.cfg.outAddr + x.produced % (x.cfg.outKib * 1024)) (bs.take 64)
        State.writeLines no n (s.modSession no fun x => { x with produced := x.produced + 64 }) (bs.drop 64)

/-- What waits of the running frame's tile group is written; with its last line the progress line follows. -/
def State.pumpOut (s : State) (e : Nat) : State :=
  match (s.engine e).run with
  | none => s
  | some r =>
    if r.tail.isEmpty then s
    else
      let (s, bs) := State.writeLines r.f.sess (r.tail.length / 64) s r.tail
      let r' := { r with tail := bs }
      let s := if bs.isEmpty then match s.session r.f.sess with
          | some x => s.hostWrite x.cfg.progress (s.progressLine x r)
          | none => s
        else s
      s.modEngine e fun g => { g with run := some (if bs.isEmpty then { r' with group := r.group + 1 } else r') }

/-- The rows of a tile group are coded: each takes its quantiser and spends its bits. -/
def codeRows (c : VidCfg) (first : Bool) (prevComp : List Nat) (r : RunFrame) (rows : List (Nat × Nat)) : RunFrame :=
  rows.foldl (fun r rb => { r with q := r.q ++ [rowQ c first prevComp r rb.1], spent := r.spent ++ [rb.2] }) r

/-- A size in the standard's leb128 code (PRESUMED, log 10); `k` bounds its bytes. -/
def leb128 : Nat → Nat → List Byte
  | 0, _ => []
  | k + 1, n => if n < 128 then [BitVec.ofNat 8 n] else BitVec.ofNat 8 (n % 128 + 128) :: leb128 k (n / 128)

/-- An OBU with a size field (R422). -/
def obu (type : Nat) (body : List Byte) : List Byte := BitVec.ofNat 8 (8 * type + 2) :: leb128 8 body.length ++ body

/-- The OBUs of a tile group (R424): before a frame's first one a temporal delimiter, a key frame's sequence header, and the frame header;
a frame of one tile group is one OBU_FRAME. -/
def VidCfg.groupObus (c : VidCfg) (r : RunFrame) (b : GroupBits) : List Byte :=
  if r.group ≠ 0 then obu 4 b.tiles
  else obu 2 [] ++ (if r.key then obu 1 b.sequence else []) ++
    if c.groups = 1 then obu 6 (b.header ++ b.tiles) else obu 3 b.header ++ obu 4 b.tiles

/-- What the coder gives for a tile group: no part empty that the group needs, and the sequence header of the session's profile, which is
its first three bits (R422, log 10). -/
def VidCfg.bitsOk (c : VidCfg) (r : RunFrame) (b : GroupBits) : Bool :=
  !b.tiles.isEmpty && (r.group != 0 || (!b.header.isEmpty && (!r.key || fieldAt b.sequence 0 1 / 32 == c.profile && !b.sequence.isEmpty)))

/-- TILE_GROUP_EMIT: the next tile group of the running encode; `rowBits` are the bits of its rows. -/
def State.emitGroup (s : State) (e : Nat) (bits : GroupBits) (rowBits : List Nat) : State :=
  match (s.engine e).run with
  | none => s
  | some r => match s.session r.f.sess with
    | none => s
    | some x =>
      let rows := x.cfg.groupRows r.group
      if !s.frameMapped x.cfg r.f then s.frameControl e r
      else if !x.cfg.encode || !r.tail.isEmpty || decide (x.cfg.groups ≤ r.group) || rows.length != rowBits.length || !x.cfg.bitsOk r bits then s
      else
        let payload := x.cfg.groupObus r bits
        let bs := payload ++ paddingObu (padTo64 payload.length)
        let r' := codeRows x.cfg (r.key || x.coded == 0) x.prevComp r (rows.zip rowBits)
        (s.modEngine e fun g => { g with run := some { r' with bytes := r.bytes + bs.length, tail := bs } }).pumpOut e

def execTileGroupEmit (e : Fin 4) (bits : GroupBits) (rowBits : List Nat) (s : State) : Res := .next (s.emitGroup e bits rowBits)

/-! ## Search and statistics (R437 to R439, R443) -/

/-- The unit's superblock column lies in the refresh band of the n-th frame after the last key frame (R442). -/
def refreshed (c : VidCfg) (r : RunFrame) (col : Nat) : Bool :=
  r.key || (c.girPeriod != 0 && let k := (r.nth - 1) % c.girPeriod
    decide (k * c.sbCols / c.girPeriod ≤ col) && decide (col < (k + 1) * c.sbCols / c.girPeriod))

/-- The superblock columns of reference `i`, counted from the newest, that the current cycle has refreshed, where a unit of column `col`
must stay inside them (R442). -/
def refreshLimit (c : VidCfg) (r : RunFrame) (refs : List RefPic) (i col : Nat) : Option Nat :=
  let k := (r.nth - 1) % c.girPeriod
  if r.key || c.girPeriod == 0 || decide (k * c.sbCols / c.girPeriod ≤ col) then none
  else if refs[i]?.any (·.key) then none
  else if k ≤ i then some 0
  else some ((k - i) * c.sbCols / c.girPeriod)

/-- The hint field's entry of a unit (R439). -/
def State.hintOf (s : State) (c : VidCfg) (f : Frame) (i : Nat) : Option Mv :=
  if !f.hintPresent then none
  else
    let w := leNat (s.devBytes (f.hint + i / c.unitCols * c.rowBytes 4 + 4 * (i % c.unitCols)) 4)
    if w = 0x80008000 then none
    else some (Mv.clamp ⟨(BitVec.ofNat 16 w).toInt, (BitVec.ofNat 16 (w / 65536)).toInt⟩)

/-- The chosen vectors of a frame's units (R437, R438); a unit of a key frame, or in the refresh band, is searched against no reference. -/
def State.searched (s : State) (x : Session) (r : RunFrame) : List UnitResult :=
  let c := x.cfg
  c.searchFrame {
    cur := s.luma c r.f, refs := x.refs, gmv := ⟨r.f.gmvX.toInt, r.f.gmvY.toInt⟩, hint := s.hintOf c r.f,
    lambda := Nat.max 1 (r.baseQ / 4), intra := fun i => refreshed c r (i % c.unitCols / 4), limit := refreshLimit c r x.refs }

def statEntry (c : VidCfg) (r : RunFrame) (i : Nat) (u : UnitResult) : Nat :=
  let v := if u.intra then 0 else u.ref % 8 * 2 ^ 48 + u.mvY.toNat * 2 ^ 16 + u.mvX.toNat
  (if u.hintUsed then 2 ^ 53 else 0) + (if refreshed c r (i % c.unitCols / 4) then 2 ^ 52 else 0) + (if u.intra then 2 ^ 51 else 0) +
    r.units.getD i 0 * 2 ^ 32 + v

def statBytes (c : VidCfg) (r : RunFrame) (us : List UnitResult) : List Byte :=
  (List.range c.unitRows).flatMap fun y =>
    let row := (List.range c.unitCols).flatMap fun x =>
      let i := y * c.unitCols + x
      leBytes 8 (statEntry c r i (us.getD i ⟨false, true, 0, 0, 0⟩))
    row ++ List.replicate (c.rowBytes 8 - row.length) 0

/-! ## FRAME_DONE (R445, R446) -/

/-- The first input line of the frame whose welt fails: its source, its hint field. -/
def State.frameBadLine (s : State) (c : VidCfg) (f : Frame) : Option Nat :=
  (if f.srcHost then none else s.badLine f.src (if c.encode then c.pictureBytes f.size else f.size)).or
    (if c.encode && f.hintPresent then s.badLine f.hint (c.unitRows * c.rowBytes 4) else none)

/-- The engine has read the frame's input (R302). -/
def State.readFrame (s : State) (c : VidCfg) (f : Frame) : State :=
  let s := if f.srcHost then s else s.touch f.src (if c.encode then c.pictureBytes f.size else f.size)
  if c.encode && f.hintPresent then s.touch f.hint (c.unitRows * c.rowBytes 4) else s

/-- A frame ends in error and does not become a reference. -/
def State.failFrame (s : State) (e : Nat) (r : RunFrame) (st : Nat) (detail : DWord) : State :=
  (s.modEngine e fun g => { g with
    run := none,
    errWelt := if st = stWelt then satTo 0xFFFF (g.errWelt + 1) else g.errWelt,
    errStream := if st = stBadFormat then satTo 0xFFFF (g.errStream + 1) else g.errStream }).frameFinal e r.f st 0 detail

/-- A coded frame's rate-control state and its DETAIL; with its search results it is the newest of the REFS references, and a key
frame, which refreshes them all, the only one (R424, R438, log 70). -/
def State.finishEncode (s : State) (e : Nat) (x : Session) (r : RunFrame) (recon : List Nat) : State :=
  let c := x.cfg
  let us := s.searched x r
  let level := if c.rc = 0 then x.level else max 0 (x.level + (8 * r.bytes : Nat) - c.perFrame)
  let tooLong := c.rc == 1 && decide (2 * ((c.vbvKbits * 1000 / 2 : Nat) : Int) < level)
  let detail := BitVec.ofNat 64 (r.bytes % 2 ^ 32 * 2 ^ 32 + r.baseQ * 2 ^ 24 + (if tooLong then 4 else 0) + (if r.key then 2 else 0) + 1)
  let s := if r.f.statsAddr = 0 then s else s.devWrite r.f.statsAddr (statBytes c r us)
  let s := s.modSession r.f.sess fun x => { x with
    level := level, prevComp := r.comp, prevQ := r.q, prevSpent := (r.spent.sum : Nat), prevBudget := r.budget, coded := x.coded + 1,
    sinceKey := r.nth, refs := (⟨r.key, recon, us⟩ :: if r.key then [] else x.refs).take c.refs }
  (s.modEngine e fun g => { g with run := none }).frameFinal e r.f stOk 0 detail

/-- A decoded frame, with its picture at DST when it showed one. -/
def State.finishDecode (s : State) (e : Nat) (r : RunFrame) (key : Bool) (pic : Option (List Byte)) : State :=
  let s := match pic with
    | some bs => s.dstWrite r.f.dstHost r.f.dst bs
    | none => s
  (s.modEngine e fun g => { g with run := none }).frameFinal e r.f stOk 0
    (BitVec.ofNat 64 ((if key then 2 else 0) + if pic.isSome then 1 else 0))

/-- FRAME_DONE. -/
def State.frameDone (s : State) (e : Nat) (fin : FrameEnd) (recon : List Nat) : State :=
  match (s.engine e).run with
  | none => s
  | some r => match s.session r.f.sess with
    | none => s
    | some x => if !s.frameMapped x.cfg r.f then s.frameControl e r else match s.frameBadLine x.cfg r.f with
      | some a => (s.lineReport (some a)).failFrame e r stWelt (BitVec.ofNat 64 (a % 2 ^ 48))
      | none => match fin with
        | .weltFail a => s.failFrame e r stWelt (BitVec.ofNat 64 (a % 2 ^ 48))
        | .encoded => if x.cfg.encode && r.group == x.cfg.groups then (s.readFrame x.cfg r.f).finishEncode e x r recon else s
        | .decoded key pic => if x.cfg.encode then s else (s.readFrame x.cfg r.f).finishDecode e r key pic
        | .badStream bit => if x.cfg.encode then s else s.failFrame e r stBadFormat (BitVec.ofNat 64 (bit % 2 ^ 32))

def execFrameDone (e : Fin 4) (r : FrameEnd) (recon : List Nat) (s : State) : Res := .next (s.frameDone e r recon)

end Sys2Proof.Machine
end

