-- ==== Sys2Proof/Machine/Regs.lean ====
section
/-!
DEFINITION. BAR0 (18): what every register reads as, what a read clears or latches (R6, R500), what a write does; interrupts (R504,
R505), and the mailbox (R506 to R508).
-/
namespace Sys2Proof.Machine

/-! ## Bit fields -/

def bit (b : Bool) (n : Nat) : Nat := if b then 2 ^ n else 0
def fld (v w n : Nat) : Nat := v % 2 ^ w * 2 ^ n

/-- A register of a block of equal parts at `base`, `stride` apart: part and offset within it. -/
def inBlock (base stride count off : Nat) : Option (Nat × Nat) :=
  if base ≤ off ∧ off < base + stride * count then some ((off - base) / stride, (off - base) % stride) else none

/-! ## Values of the registers -/

/-- SWF_SLOT (R328). -/
def State.swfSlot (s : State) (n : Nat) : Nat :=
  let cls := n / 2
  let two := (s.table (2 * cls)).isSome && (s.table (2 * cls + 1)).isSome
  let waited := (s.tableWait.get none cls).isSome && s.olderSlot cls == n
  bit (s.table n).isSome 31 + bit (s.tableReferenced n) 30 + bit (two && s.olderSlot cls == n) 29 + bit waited 28 +
    match s.table n with
    | some t => fld t.fmt 4 16 + fld t.gen 16 0
    | none => 0

def State.countCls (s : State) (cls : Nat) : Nat := s.admittedJobs.countP fun kj => kj.2.terms.cls == cls

def leastOf (top : Nat) (xs : List Nat) : Nat := xs.foldl Nat.min top

def State.gJobs (s : State) : List Job := (s.admittedJobs.map (·.2)).filter Job.isG

/-- DUCTUS_JOBS, DUCTUS_FLOOR, DUCTUS_SHARE, DUCTUS_SPILL (R361). -/
def State.ductusJobs (s : State) : Nat :=
  fld (64 - s.jobList.length) 8 24 + fld (s.countCls 2) 8 16 + fld (s.countCls 1) 8 8 + fld (s.countCls 0) 8 0

def State.ductusFloor (s : State) : Nat :=
  let f := fun lo n => s.minFloor ((List.range n).map (lo + ·)) / 5
  fld (f 80 20) 9 18 + fld (f 64 16) 9 9 + fld (f 0 64) 9 0

def State.ductusShare (s : State) : Nat :=
  let onC := fun c => s.onCore c Job.isG
  let issue := leastOf 16 (s.inServiceCores.map fun c => 16 - ((onC c).map fun x => x.2.1.terms.issueShare).sum)
  let ctx := leastOf 8 (s.inServiceCores.map fun c => 8 - (onC c).length)
  fld ctx 4 24 + fld (16 - (s.gJobs.map fun j => j.terms.linkShare).sum) 5 16 +
    fld (16 - (s.gJobs.map fun j => j.terms.memShare).sum) 5 8 + fld issue 5 0

def State.ductusSpill (s : State) : Nat := fld (leastOf s.sliceGranules ((List.range 16).map fun sl => (s.freeGranules sl).length)) 16 0

def State.hstLink (s : State) : Nat :=
  bit s.host.memEn 18 + bit s.host.cacheEn 17 + bit s.host.memActive 16 + fld s.host.rate 6 8 + s.host.modules.toNat

/-- The identity and global control block (R503). -/
def State.identReg (s : State) (o : Nat) : Nat :=
  if o = 0x00 then 0x96400000
  else if o = 0x04 then fld s.fuses.major 4 4 + fld s.fuses.minor 4 0
  else if o = 0x08 then s.devState.code
  else if o = 0x10 then s.irq.mask.toNat % 2 ^ 32
  else if o = 0x14 then s.irq.mask.toNat / 2 ^ 32
  else if o = 0x18 then s.irq.event.toNat
  else if o = 0x1C then fld s.irq.eventEn.toNat 5 16 + fld s.irq.holdoffUs 16 0
  else if o = 0x20 then s.now % 2 ^ 32
  else if o = 0x24 then s.clk.latchHi.toNat
  else if o = 0x30 then fld s.inServiceCores.length 12 0
  else if o = 0x34 then s.hstLink
  else if o = 0x38 then fld s.host.replays 16 16 + fld s.host.retrains 8 8 + fld s.host.poisoned 8 0
  else if o = 0x40 then bit s.part.pend.isSome 31 + fld s.part.folioGib 8 8 + fld s.part.scratch 3 0
  else if o = 0x44 then fld s.part.cap 8 8 + fld s.part.rate 8 0
  else if o = 0x50 then fld s.part.farBaseLo 2 30
  else if o = 0x54 then s.part.farBaseHi.toNat
  else if o = 0x58 then fld s.part.farGib 15 0
  else if o = 0x5C then fld s.part.farLat 16 16 + fld s.part.farGbs 16 0
  else if 0x60 ≤ o ∧ o < 0x70 then s.swfSlot ((o - 0x60) / 4)
  else if o = 0x70 then s.ductusJobs
  else if o = 0x74 then s.ductusFloor
  else if o = 0x78 then s.ductusShare
  else if o = 0x7C then s.ductusSpill
  else if 0x100 ≤ o ∧ o < 0x200 then (s.fuses.coreMap.get 0xFFFFFFFF ((o - 0x100) / 4)).toNat
  else 0

/-- The mailbox block (R506 to R508). -/
def State.mbxReg (s : State) (o : Nat) : Nat :=
  if o < 0x40 then (s.mbx.packet.get 0 (o / 4)).toNat
  else if o < 0x60 then (s.mbx.reply.get 0 ((o - 0x40) / 4)).toNat
  else if o = 0x60 then bit s.mbx.busy 31 + bit s.mbx.overrun 1
  else if 0x80 ≤ o ∧ o < 0xA0 then
    (if s.scribesRun then 2 ^ 31 + fld (s.mbx.heartbeat.get 0 ((o - 0x80) / 4)) 24 0 else 0)
  else 0

/-- A ring block (R362). -/
def State.ringReg (s : State) (n o : Nat) : Nat :=
  let g := s.ring n
  if o = 0x00 then bit g.rqHbm 2 + bit g.sqHbm 1 + bit g.enable 0
  else if o = 0x04 then fld g.rqLog2 5 8 + fld g.sqLog2 5 0
  else if o = 0x08 then g.sqBase % 2 ^ 32
  else if o = 0x0C then fld (g.sqBase / 2 ^ 32) 32 0
  else if o = 0x10 then g.rqBase % 2 ^ 32
  else if o = 0x14 then fld (g.rqBase / 2 ^ 32) 32 0
  else if o = 0x18 then g.tail.toNat
  else if o = 0x1C then g.sqHead.toNat
  else if o = 0x20 then g.rqTail.toNat
  else if o = 0x24 then g.rqHead.toNat
  else if o = 0x28 then
    fld g.stalls 16 16 + bit (!g.backlog.isEmpty) 3 + bit (s.ringBusy n) 2 + bit g.cfgErr 1 + bit g.doorbellErr 0
  else 0

/-- A cluster block (R108, R142). -/
def State.clusterReg (s : State) (c o : Nat) : Nat :=
  let g := s.cluster c
  if o = 0x200 then satTo 0xFFFFFFFF g.opeFail
  else if o = 0x204 then satTo 0xFFFFFFFF g.opeSkip
  else if o = 0x208 then g.opeInfo.toNat
  else if o = 0x210 then satTo 0xFFFFFFFF g.vecFail
  else if o = 0x214 then g.vecInfo.toNat
  else 0

/-- A channel block (R305). -/
def State.chanReg (s : State) (c o : Nat) : Nat :=
  let g := s.chan c
  if o = 0x000 then fld g.temp 8 8 + bit g.refresh2x 1 + bit g.trained 0
  else if o = 0x004 then fld (satTo 0xFFFF g.uncorr) 16 16 + fld (satTo 0xFFFF g.corr) 16 0
  else if o = 0x100 then bit g.run 31 + bit g.loop 5 + fld g.op 2 3 + fld g.pattern 3 0
  else if o = 0x104 then g.value.toNat
  else if o = 0x108 then fld g.base 25 0
  else if o = 0x10C then fld g.len 26 0
  else if o = 0x110 then fld g.done 32 0
  else if o = 0x114 then fld g.errCnt 32 0
  else if o = 0x118 then g.errLine.toNat
  else if o = 0x120 then g.errBits.toNat % 2 ^ 32
  else if o = 0x124 then g.errBits.toNat / 2 ^ 32
  else 0

/-- A link block (R419). -/
def State.linkReg (s : State) (l o : Nat) : Nat :=
  let x := s.link l
  let lane := fun n => fld (satTo 0xFF (x.sym.get 0 n / 1024)) 8 (8 * n)
  if o = 0x00 then fld x.flight 8 24 + fld x.cause 4 20 + fld x.rx.toNat 4 16 + fld x.tx.toNat 4 12 + fld x.st 2 0
  else if o = 0x04 then fld x.peer 32 0
  else if o = 0x08 then fld (satTo 0xFFFF x.uncorr) 16 16 + fld (satTo 0xFFFF x.corr) 16 0
  else if o = 0x0C then fld (satTo 0xFFFF x.drops) 16 16 + fld (satTo 0xFFFF x.replays) 16 0
  else if o = 0x10 then lane 3 + lane 2 + lane 1 + lane 0
  else 0

/-- A port block (R420). -/
def State.portReg (s : State) (p o : Nat) : Nat :=
  let g := s.port p
  if o = 0x0 then fld g.w3 4 16 + fld g.w2 4 8 + fld g.w1 4 0
  else if o = 0x4 then bit (s.topo.dateline p) 10 + bit (s.topo.neighbour p).isSome 9 + ((s.upLinks p).map fun l => 2 ^ l).sum
  else if o = 0x8 then satTo 0xFFFFFFFF g.redFail
  else 0

/-- RSV_WAYS (R312). -/
def State.rsvWays (s : State) : Nat :=
  let (st, fo) := (s.stagingHeld, residentWays s.folios)
  fld (waysFor s.part.scratch - st - fo) 8 24 + fld st 8 16 + fld fo 8 8

/-- A video block (R448). -/
def State.vidReg (s : State) (e o : Nat) : Nat :=
  let g := s.engine e
  if o = 0x0 then
    fld (g.queue.length + if g.run.isSome then 1 else 0) 6 16 + bit g.run.isSome 8 +
      ((List.range 8).map fun i => bit (g.sess.get none i).isSome i).sum
  else if o = 0x4 then fld g.count 32 0
  else if o = 0x8 then fld (satTo 0xFFFF g.errWelt) 16 16 + fld (satTo 0xFFFF g.errStream) 16 0
  else if 0x100 ≤ o ∧ o < 0x180 then
    match g.sess.get none ((o - 0x100) / 16) with
    | none => 0
    | some x =>
      if o % 16 = 0 then fld x.cons 32 0
      else if o % 16 = 4 then fld (x.cons / 2 ^ 32) 32 0
      else if o % 16 = 8 then fld x.produced 32 0
      else x.prodHi.toNat
  else 0

/-- A FAULT_LOG entry (R469). -/
def LogEntry.bytes (e : LogEntry) : List Byte :=
  leBytes 6 e.count ++ leBytes 1 e.reason ++ leBytes 1 e.island ++ leBytes 4 (e.job % 2 ^ 27) ++ leBytes 1 e.epoch ++
    leBytes 1 (if e.hold then 1 else 0) ++ [0, 0] ++ leBytes 8 e.loc ++ List.replicate 8 0

/-- BURN_STAT (R467). -/
def State.burnStat (s : State) (i : Nat) : Nat :=
  let x := s.island i
  fld (satTo 255 (s.charged i)) 8 24 + fld (x.offsetBits 5) 5 19 + fld x.status 3 16 + bit (s.headroomOff i) 15 + bit x.live 14 +
    fld x.cap 11 0

/-- The integrity and ageing block (R29, R467 to R469). -/
def State.integReg (s : State) (o : Nat) : Nat :=
  if o < 800 then (if o % 8 = 0 then fld (s.islFloor (o / 8)) 11 0 else fld (s.island (o / 8)).freq 11 0)
  else if 0x400 ≤ o ∧ o < 0x590 then s.burnStat ((o - 0x400) / 4)
  else if o = 0x600 then bit s.integ.hours.isSome 31 + fld (s.serviceHours.getD 0) 31 0
  else if o = 0x604 then bit s.integ.hold 31 + fld s.integ.reason 8 0
  else if o = 0x608 then satTo 0xFFFFFFFF s.integ.faults
  else if o = 0x60C then fld s.integ.logTotal 16 0
  else if 0x1000 ≤ o ∧ o < 0x1800 then
    match s.integ.log.get none ((o - 0x1000) / 32) with
    | some e => fieldAt e.bytes (o % 32) 4
    | none => 0
  else 0

/-- The security block (R487). -/
def State.bootReg (s : State) (o : Nat) : Nat :=
  let b := s.boot
  if o = 0x00 then
    fld b.lockCause 8 24 + bit b.hbmFail 19 + bit b.identityOff 18 + bit b.subtreeReady 17 + bit b.hostWait 16 + bit b.slotB 7 +
      fld b.mode.toNat 2 5 + s.devState.code
  else if o = 0x04 then fld b.reports 16 16 + fld b.leaf 14 0
  else if o = 0x08 then fld b.imageSvn 8 16 + fld s.fuses.svn 8 8 + fld s.fuses.lmsRevoked.toNat 4 4 + fld s.fuses.ecdsaRevoked.toNat 4 0
  else if o = 0x10 then fld b.hostAddrLo 32 0
  else if o = 0x14 then b.hostAddrHi.toNat
  else if o = 0x18 then fld b.hostLen 26 0
  else 0

/-- A vector is pending: a mask of the function holds it while records wait (R504). -/
def State.pendingBit (s : State) (v : Nat) : Bool :=
  decide (v < 64) && !s.vectorOpen v && (s.ring v).rqTail != (s.ring v).rqHead

/-- The MSI-X table and the pending-bit array (R491, R504; log 5). -/
def State.msixReg (s : State) (o : Nat) : Nat :=
  if o < 16 * 65 then
    let e := s.vector (o / 16)
    if o % 16 = 0 then e.addrLo.toNat else if o % 16 = 4 then e.addrHi.toNat else if o % 16 = 8 then e.data.toNat else bit e.mask 0
  else if 0x8000 ≤ o ∧ o < 0x800C then
    ((List.range 32).map fun i => bit (s.pendingBit (8 * (o - 0x8000) + i)) i).sum
  else 0

/-- What the 4-byte register at an offset of BAR0 reads as; a reserved offset reads 0 (R500, R502). -/
def State.regAt (s : State) (off : Nat) : Nat :=
  let off := off / 4 * 4
  if off < 0x1000 then s.identReg off
  else if off < 0x2000 then s.mbxReg (off - 0x1000)
  else match inBlock 0x10000 0x100 64 off with
  | some (n, o) => s.ringReg n o
  | none => match inBlock 0x100000 0x1000 64 off with
  | some (n, o) => s.clusterReg n o
  | none => match inBlock 0x200000 0x400 192 off with
  | some (n, o) => s.chanReg n o
  | none => match inBlock 0x300000 0x800 64 off with
  | some (n, o) => s.linkReg n o
  | none => match inBlock 0x340000 0x1000 8 off with
  | some (n, o) => s.portReg n o
  | none => match inBlock 0x400000 0x1000 16 off with
  | some (_, o) => if o = 0 then s.rsvWays else 0
  | none => match inBlock 0x500000 0x10000 4 off with
  | some (n, o) => s.vidReg n o
  | none =>
    if 0x600000 ≤ off ∧ off < 0x602000 then s.integReg (off - 0x600000)
    else if 0x700000 ≤ off ∧ off < 0x701000 then s.bootReg (off - 0x700000)
    else if 0x7F0000 ≤ off ∧ off < 0x800000 then s.msixReg (off - 0x7F0000)
    else 0

/-! ## What a read clears or latches (R6, R35, R448) -/

def validOff (w : Word) : Word := w &&& 0x7FFFFFFF

/-- The effect of a read of the 4-byte register at an offset. -/
def State.readEffect (s : State) (off : Nat) : State :=
  if off = 0x20 then s.withClk { s.clk with latchHi := BitVec.ofNat 32 (s.now / 2 ^ 32) }
  else if off = 0x38 then s.modHost fun h => { h with replays := 0, retrains := 0, poisoned := 0 }
  else match inBlock 0x100000 0x1000 64 off with
  | some (n, o) =>
    if o = 0x208 then s.modClu n fun g => { g with opeInfo := validOff g.opeInfo }
    else if o = 0x214 then s.modClu n fun g => { g with vecInfo := validOff g.vecInfo }
    else s
  | none => match inBlock 0x200000 0x400 192 off with
  | some (n, o) => if o = 4 then s.modChan n fun g => { g with corr := 0, uncorr := 0 } else s
  | none => match inBlock 0x300000 0x800 64 off with
  | some (n, o) =>
    if o = 0x08 then s.modLink n fun x => { x with corr := 0, uncorr := 0 }
    else if o = 0x0C then s.modLink n fun x => { x with drops := 0, replays := 0 }
    else if o = 0x10 then s.modLink n fun x => { x with sym := [] }
    else s
  | none => match inBlock 0x500000 0x10000 4 off with
  | some (e, o) =>
    if o = 8 then s.modEngine e fun g => { g with errWelt := 0, errStream := 0 }
    else if 0x100 ≤ o ∧ o < 0x180 ∧ o % 16 = 8 then
      s.modSession (sessNo e ((o - 0x100) / 16)) fun x => { x with prodHi := BitVec.ofNat 32 (x.produced / 2 ^ 32) }
    else s
  | none => s

/-- A read of the register at an offset, 4 bytes wide, or by the 8-byte access that covers it; what it returns goes to the host's
terminals (R36, R500). -/
def State.regRead (s : State) (off : Nat) (wide : Bool) : State :=
  if !s.regsRead then s
  else if !wide then (s.readEffect off).emit (.regRead off (BitVec.ofNat 64 (s.regAt off)))
  else
    let a := off / 8 * 8
    let t := s.readEffect a
    (t.readEffect (a + 4)).emit (.regRead a (BitVec.ofNat 64 (s.regAt a + t.regAt (a + 4) * 2 ^ 32)))

def offCluster (cl o : Nat) : Nat := 0x100000 + 0x1000 * cl + o
def offChan (c o : Nat) : Nat := 0x200000 + 0x400 * c + o
def offLink (l o : Nat) : Nat := 0x300000 + 0x800 * l + o
def offVid (e o : Nat) : Nat := 0x500000 + 0x10000 * e + o

/-- CTL_COUNT_LO. -/
def execCtlCountLo (wide : Bool) (s : State) : Res := .next (s.regRead 0x20 wide)

/-- VID_RING_PROD_LO. -/
def execVidRingProdLo (e : Fin 4) (i : Fin 8) (wide : Bool) (s : State) : Res := .next (s.regRead (offVid e (0x108 + 16 * i.val)) wide)

/-- OPE_FAIL_INFO. -/
def execOpeFailInfo (cl : Fin 64) (wide : Bool) (s : State) : Res := .next (s.regRead (offCluster cl 0x208) wide)

/-- VEC_FAIL_INFO. -/
def execVecFailInfo (cl : Fin 64) (wide : Bool) (s : State) : Res := .next (s.regRead (offCluster cl 0x214) wide)

/-- HBM_CH_ECC. -/
def execHbmChEcc (c : Fin 192) (wide : Bool) (s : State) : Res := .next (s.regRead (offChan c 0x004) wide)

/-- LINK_FEC. -/
def execLinkFec (l : Fin 64) (wide : Bool) (s : State) : Res := .next (s.regRead (offLink l 0x08) wide)

/-- LINK_REPLAY. -/
def execLinkReplay (l : Fin 64) (wide : Bool) (s : State) : Res := .next (s.regRead (offLink l 0x0C) wide)

/-- LINK_LANE_SYM. -/
def execLinkLaneSym (l : Fin 64) (wide : Bool) (s : State) : Res := .next (s.regRead (offLink l 0x10) wide)

/-- VID_ERR. -/
def execVidErr (e : Fin 4) (wide : Bool) (s : State) : Res := .next (s.regRead (offVid e 8) wide)

/-- HST_LINK_ERR. -/
def execHstLinkErr (wide : Bool) (s : State) : Res := .next (s.regRead 0x38 wide)

/-! ## The mailbox (R507) -/

/-- The opcode and the packet that MBX_PACKET holds. -/
def State.mbxPacket (s : State) : Nat × Pkt :=
  let b := (List.range 16).flatMap fun i => leBytes 4 (s.mbx.packet.get 0 i).toNat
  (fieldAt b 0 2, { slots := BitVec.ofNat 8 (fieldAt b 2 1), flags := BitVec.ofNat 8 (fieldAt b 3 1), seq := BitVec.ofNat 32 (fieldAt b 4 4),
                    job := BitVec.ofNat 32 (fieldAt b 8 4), plen := BitVec.ofNat 16 (fieldAt b 12 2),
                    welt := BitVec.ofNat 16 (fieldAt b 14 2), body := b.drop 16 })

/-- Checks 1 to 4 of a mailbox packet (R370, R507). -/
def mbxHeader (op : Nat) (p : Pkt) : Option Refuse :=
  if p.slots ≠ 1 then some (refuse stBadParam rsPacketSize)
  else if !p.weltOk op then some (refuse stWelt 0)
  else if !([opEcho, opQueryState, opJobStatus].contains op) then some (refuse stBadOpcode 0)
  else if !p.headerOk (plenOf op) then some (refuse stBadParam rsPacketSize)
  else none

/-- Checks 6 and 7. -/
def State.mbxLate (s : State) (op : Nat) (p : Pkt) : Option Refuse :=
  (s.stateCheck op).or (if op = opJobStatus then s.knownJob p else none)

/-- The record of a mailbox command that passes its checks. -/
def State.mbxRec (s : State) (op : Nat) (p : Pkt) : Rec :=
  if op = opEcho then s.cmdRec op p.seq p.jobId stOk 0 0 (echoDetail p)
  else if op = opQueryState then s.cmdRec op p.seq p.jobId stOk 0 0 s.queryDetail
  else s.statusRec p

/-- The record stands in MBX_REPLY, PHASE 1 (R371). -/
def State.mbxWrite (s : State) (r : Rec) : State :=
  let b := s.recBytes r 6 0
  s.withMbx { s.mbx with
    busy := false, reply := SMap.setMany 0 (fun i => BitVec.ofNat 32 (fieldAt b (4 * i) 4)) (List.range 8) s.mbx.reply }

/-- A write of GO; `stall` is the FIRMWARE_STALL record of a command whose timer expires (R375). -/
def State.mbxGo (s : State) (stall : Option (Nat × Pkt → Rec)) : State :=
  if s.mbx.busy then s.withMbx { s.mbx with overrun := true }
  else
    let (op, p) := s.mbxPacket
    let t := s.modSys fun y => { y with fetchNo := y.fetchNo + 1 }
    match mbxHeader op p, stall with
    | some r, _ => t.mbxWrite (s.cmdRec op p.seq p.jobId r.1 r.2.1 0 r.2.2)
    | none, some f => t.mbxWrite (f (op, p))
    | none, none => match s.mbxLate op p with
      | some r => t.mbxWrite (s.cmdRec op p.seq p.jobId r.1 r.2.1 0 r.2.2)
      | none => t.took.took.mbxWrite (s.mbxRec op p)

/-- GO. -/
def execGo (s : State) : Res := .next (s.write fun s => s.mbxGo none)

/-! ## Interrupt registers (R504, R505) -/

/-- The mask takes a value; a ring whose bit is cleared may send its message. -/
def State.setIrqMask (s : State) (v : DWord) : State :=
  let old := s.irq.mask
  (s.withIrq { s.irq with mask := v }).each (List.range 64) fun s n =>
    if old.getLsbD n && !v.getLsbD n then s.ringUnmasked n else s

def State.writeIrqMask (s : State) (hi : Bool) (v : Word) : State :=
  s.setIrqMask (if hi then v ++ s.irq.mask.truncate 32 else (s.irq.mask >>> 32).truncate 32 ++ v)

/-- IRQ_MASK. -/
def execIrqMask (hi : Bool) (value : Word) (s : State) : Res := .next (s.write fun s => s.writeIrqMask hi value)

/-- A vector's MSI-X mask takes a value. -/
def State.setVectorMask (s : State) (v : Nat) (m : Bool) : State :=
  let e := s.vector v
  let t := s.withIrq { s.irq with table := s.irq.table.set MsixEntry.atReset v { e with mask := m } }
  if e.mask && !m && decide (v < 64) then t.ringUnmasked v else t

/-- MSIX_MASK_CLEAR: the mask of a vector, or the function mask. -/
def State.clearMsixMask (s : State) (v : Option (Fin 65)) : State :=
  match v with
  | some v => s.write fun s => s.setVectorMask v false
  | none =>
    if s.irq.funcMask then (s.withIrq { s.irq with funcMask := false }).each (List.range 64) State.ringUnmasked else s

def execMsixMaskClear (v : Option (Fin 65)) (s : State) : Res := .next (s.clearMsixMask v)

def State.writeIrqEvent (s : State) (value : Word) : State :=
  s.withIrq { s.irq with event := s.irq.event &&& ~~~ (value.truncate 5) }

/-- IRQ_EVENT. -/
def execIrqEvent (value : Word) (s : State) : Res := .next (s.write fun s => s.writeIrqEvent value)

/-- IRQ_HOLDOFF_EXPIRY: the holdoff of a ring that has held a message back ends. -/
def State.holdoffEnds (s : State) (n : Nat) : State :=
  if !(s.ring n).held || s.inHoldoff n then s
  else (s.modRing n fun g => { g with held := false }).ringUnmasked n

def execIrqHoldoffExpiry (n : Fin 64) (s : State) : Res := .next (s.holdoffEnds n)

/-! ## Output rings of video sessions (R434, R448) -/

/-- A write of CONS_LO; a value below the present one or above PRODUCED is ignored, and space freed lets a waiting group go on. -/
def State.writeCons (s : State) (e i : Nat) (lo : Word) : State :=
  match s.session (sessNo e i) with
  | some x =>
    let v := x.consHi.toNat * 2 ^ 32 + lo.toNat
    if x.cons ≤ v ∧ v ≤ x.produced then (s.modSession (sessNo e i) fun x => { x with cons := v }).pumpOut e else s
  | none => s

/-- VID_RING_CONS_LO. -/
def execVidRingConsLo (e : Fin 4) (i : Fin 8) (value : Word) (s : State) : Res := .next (s.write fun s => s.writeCons e i value)

/-! ## Writes -/

/-- Bits [hi:lo] of an address register. -/
def putLo (a : Nat) (v : Word) : Nat := a / 2 ^ 32 * 2 ^ 32 + v.toNat / 64 * 64
def putHi (a : Nat) (v : Word) : Nat := a % 2 ^ 32 + v.toNat * 2 ^ 32

/-- Writes of the identity and global control block. -/
def State.writeIdent (s : State) (o : Nat) (v : Word) : State :=
  let far := fun (f : Part → Part) => if s.admittedJobs.isEmpty then s.withPart (f s.part) else s
  if o = 0x10 then s.writeIrqMask false v
  else if o = 0x14 then s.writeIrqMask true v
  else if o = 0x18 then s.writeIrqEvent v
  else if o = 0x1C then s.withIrq { s.irq with eventEn := (v >>> 16).truncate 5, holdoffUs := v.toNat % 2 ^ 16 }
  else if o = 0x50 then far fun g => { g with farBaseLo := v.toNat / 2 ^ 30 }
  else if o = 0x54 then far fun g => { g with farBaseHi := v }
  else if o = 0x58 then far fun g => { g with farGib := Nat.min 16384 (v.toNat % 2 ^ 15) }
  else if o = 0x5C then s.withPart { s.part with farLat := v.toNat / 2 ^ 16, farGbs := v.toNat % 2 ^ 16 }
  else s

/-- Writes of the mailbox block. -/
def State.writeMbx (s : State) (o : Nat) (v : Word) : State :=
  if o < 0x40 then (if s.mbx.busy then s else s.withMbx { s.mbx with packet := s.mbx.packet.set 0 (o / 4) v })
  else if o = 0x60 then
    (s.when (v.getLsbD 1) fun s => s.withMbx { s.mbx with overrun := false }).when (v.getLsbD 0) fun s => s.mbxGo none
  else s

/-- Writes of a ring block; sizes and bases only while ENABLE is 0 (R363). -/
def State.writeRing (s : State) (n o : Nat) (v : Word) : State :=
  let cfg := fun (f : Ring → Ring) => s.modRing n fun g => if g.enable then g else f g
  if o = 0x00 then s.writeRingCtl n v
  else if o = 0x04 then cfg fun g => { g with sqLog2 := v.toNat % 32, rqLog2 := v.toNat / 256 % 32 }
  else if o = 0x08 then cfg fun g => { g with sqBase := putLo g.sqBase v }
  else if o = 0x0C then cfg fun g => { g with sqBase := putHi g.sqBase v }
  else if o = 0x10 then cfg fun g => { g with rqBase := putLo g.rqBase v }
  else if o = 0x14 then cfg fun g => { g with rqBase := putHi g.rqBase v }
  else if o = 0x18 then s.modRing n fun g => g.writeDoorbell v
  else if o = 0x24 then s.modRing n fun g => { g with rqHead := v }
  else if o = 0x28 then s.modRing n fun g => { g with
    doorbellErr := g.doorbellErr && !v.getLsbD 0, cfgErr := g.cfgErr && !v.getLsbD 1 }
  else s

/-- Writes of a channel block (R305). -/
def State.writeChan (s : State) (c o : Nat) (v : Word) : State :=
  if (s.chan c).run then (if o = 0x100 ∧ v.getLsbD 30 then s.stopAwl c else s)
  else if o = 0x100 then s.modChan c fun g => { g with
    loop := v.getLsbD 5, op := v.toNat / 8 % 4, pattern := v.toNat % 8 }
  else if o = 0x104 then s.modChan c fun g => { g with value := v }
  else if o = 0x108 then s.modChan c fun g => { g with base := v.toNat % 2 ^ 25 }
  else if o = 0x10C then s.modChan c fun g => { g with len := v.toNat % 2 ^ 26 }
  else s

/-- A weight of PORT_VC_WT; a written 0 is taken as 1 (R420). -/
def vcWeight (v : Word) (lo : Nat) : Nat := Nat.max 1 (bitsOf v.toNat lo 4)

/-- Writes of a port block; ignored while a G job with a nonzero LINK_SHARE is admitted (R415). -/
def State.writePort (s : State) (p o : Nat) (v : Word) : State :=
  if o ≠ 0 || s.gJobs.any fun j => j.terms.linkShare != 0 then s
  else s.modPort p fun g => { g with w1 := vcWeight v 0, w2 := vcWeight v 8, w3 := vcWeight v 16 }

/-- Writes of a video block (R448). -/
def State.writeVid (s : State) (e o : Nat) (v : Word) : State :=
  if 0x100 ≤ o ∧ o < 0x180 ∧ o % 16 = 0 then s.writeCons e ((o - 0x100) / 16) v
  else if 0x100 ≤ o ∧ o < 0x180 ∧ o % 16 = 4 then s.modSession (sessNo e ((o - 0x100) / 16)) fun x => { x with consHi := v }
  else s

/-- Writes of the host boot registers, while HOST_WAIT (R476). -/
def State.writeBoot (s : State) (o : Nat) (v : Word) : State :=
  if s.boot.st ≠ .configLoad || !s.boot.hostWait then s
  else if o = 0x10 then s.modBoot fun b => { b with hostAddrLo := v.toNat / 64 * 64 }
  else if o = 0x14 then s.modBoot fun b => { b with hostAddrHi := v }
  else if o = 0x18 then s.modBoot fun b => { b with hostLen := v.toNat % 2 ^ 26 }
  else if o = 0x1C ∧ v.getLsbD 0 then s.hostBootGo
  else s

/-- Writes of the MSI-X table (log 5). -/
def State.writeMsix (s : State) (o : Nat) (v : Word) : State :=
  if 16 * 65 ≤ o then s
  else
    let k := o / 16
    let put := fun (f : MsixEntry → MsixEntry) => s.withIrq { s.irq with table := s.irq.table.modify MsixEntry.atReset k f }
    if o % 16 = 0 then put fun e => { e with addrLo := v &&& ~~~ 3 }
    else if o % 16 = 4 then put fun e => { e with addrHi := v }
    else if o % 16 = 8 then put fun e => { e with data := v }
    else s.setVectorMask k (v.getLsbD 0)

/-- A write of the 4-byte register at an offset; a register or field that takes none is left alone (R6, R8, R500, R502). -/
def State.regPut (s : State) (off : Nat) (v : Word) : State :=
  if off < 0x1000 then s.writeIdent off v
  else if off < 0x2000 then s.writeMbx (off - 0x1000) v
  else match inBlock 0x10000 0x100 64 off with
  | some (n, o) => s.writeRing n o v
  | none => match inBlock 0x200000 0x400 192 off with
  | some (n, o) => s.writeChan n o v
  | none => match inBlock 0x340000 0x1000 8 off with
  | some (n, o) => s.writePort n o v
  | none => match inBlock 0x500000 0x10000 4 off with
  | some (n, o) => s.writeVid n o v
  | none =>
    if off = 0x600600 then s.writeHours v
    else if 0x700000 ≤ off ∧ off < 0x701000 then s.writeBoot (off - 0x700000) v
    else if 0x7F0000 ≤ off ∧ off < 0x800000 then s.writeMsix (off - 0x7F0000) v
    else s

def bar0Bytes : Nat := 0x800000

/-- REGISTER_WRITE: 4 bytes, or 8 bytes with the register at the offset first (R500). -/
def State.regWrite (s : State) (off : Nat) (wide : Bool) (v : DWord) : State :=
  if off % (if wide then 8 else 4) ≠ 0 ∨ bar0Bytes ≤ off then s
  else
    let t := s.regPut off (v.truncate 32)
    if wide then t.regPut (off + 4) ((v >>> 32).truncate 32) else t

def execRegisterWrite (off : Nat) (wide : Bool) (value : DWord) (s : State) : Res :=
  .next (s.write fun s => s.regWrite off wide value)

end Sys2Proof.Machine
end

