-- ==== Sys2Proof/Machine/Mgmt.lean ====
section
/-! DEFINITION. The management ports: I3C (16 R470) and JTAG (16 R479); their framing is the standards' (log 6). -/
namespace Sys2Proof.Machine

/-! ## I3C -/

def integBase : Nat := 0x600000
def integSpan : Nat := 0x2000

/-- The byte of the integrity and ageing block at the pointer; 0 beyond it. -/
def State.i3cByte (s : State) (ptr : Nat) : Byte :=
  if ptr < integSpan then BitVec.ofNat 8 (s.regAt (integBase + ptr / 4 * 4) / 256 ^ (ptr % 4)) else 0

/-- The bytes that follow a pointer are written there; only SERVICE_HOURS takes them, as a whole. -/
def State.i3cPut (s : State) (ptr : Nat) (bs : List Byte) : State :=
  if ptr ≤ 0x600 ∧ 0x604 ≤ ptr + bs.length then s.writeHours (BitVec.ofNat 32 (fieldAt bs (0x600 - ptr) 4)) else s

/-- A private write: 4 bytes of pointer, then data. One shorter than a pointer does nothing. -/
def State.i3cWrite (s : State) (bytes : List Byte) : State :=
  if bytes.length < 4 then s
  else
    let ptr := fieldAt bytes 0 4
    let data := bytes.drop 4
    (s.i3cPut ptr data).withMgmt { s.mgmt with ptr := ptr + data.length }

/-- I3C_PRIVATE_WRITE: the port works from CONFIG_LOAD on. -/
def execI3cPrivateWrite (bytes : List Byte) (s : State) : Res := .next (if s.clocked then s.i3cWrite bytes else s)

/-- A private read of n bytes. -/
def State.i3cRead (s : State) (n : Nat) : State :=
  (s.emit (.i3cRead ((List.range n).map fun k => s.i3cByte (s.mgmt.ptr + k)))).withMgmt { s.mgmt with ptr := s.mgmt.ptr + n }

/-- I3C_PRIVATE_READ. -/
def execI3cPrivateRead (n : Nat) (s : State) : Res := .next (if s.clocked then s.i3cRead n else s)

/-- I3C_ADDRESS_ASSIGN. -/
def execI3cAddressAssign (addr : BitVec 7) (s : State) : Res :=
  .next (if s.clocked then s.withMgmt { s.mgmt with addr := some addr } else s)

/-! ## JTAG -/

/-- What a scan of 32 bits through the selected register shifts out: BYPASS delays by one bit, IDCODE ends in a 1, the boundary
register's cells are free values. -/
def State.jtagOut (s : State) (ir : JtagIr) (dr : Word) : Word :=
  match ir with
  | .bypass | .other => dr <<< 1
  | .idcode => (Config.idcode ++ (1 : BitVec 1) : BitVec 32)
  | .sample | .preload | .extest => s.free32

/-- JTAG_ACCESS, in any state. -/
def execJtagAccess (ir : JtagIr) (dr : Word) (s : State) : Res :=
  .next ((s.took.withMgmt { s.mgmt with jtagIr := ir }).emit (.jtag (s.jtagOut ir dr)))

end Sys2Proof.Machine
end

