-- ==== Sys2Proof/Machine/Attention.lean ====
section
/-!
DEFINITION. Attention (08): the rows of a query tile (R224), the scribe's descriptors and a core's queue of them (R234 to R236, R240), a
page's scores, weights and outputs (R237, R239, R241), the combination of chunks (R238) and the final division.
-/
namespace Sys2Proof.Machine

/-! ## Query tiles (R222 to R224) -/

/-- The phase of an attention layer. -/
def attnPhase (a : AttnDecl) (l : Nat) : AttnPhase := (a.layerList[l]?.map (·.1)).getD a.first
/-- The query heads of a KV head's group. -/
def groupSize (p : AttnPhase) : Nat := p.hq / Nat.max 1 p.hkv

/-- Row `i` of query tile `t` of a share of `n` positions: position in the share and head in the group, none out of bounds (R224). -/
def tileRow (g n t i : Nat) : Option (Nat × Nat) :=
  if g ≤ 16 then
    let per := 16 / Nat.max 1 g
    let pos := t * per + i / Nat.max 1 g
    if i < per * g ∧ pos < n then some (pos, i % Nat.max 1 g) else none
  else
    let tiles := ceilDiv g 16
    let head := 16 * (t % tiles) + i
    if t / tiles < n ∧ head < g then some (t / tiles, head) else none

/-- The query tiles of a share. -/
def queryTiles (g n : Nat) : Nat := if g ≤ 16 then ceilDiv n (16 / Nat.max 1 g) else n * ceilDiv g 16

/-! ## The scribe (R234 to R236, R240) -/

/-- What stops the scribe at a page: a page-table line or a header that fails its check, or an entry that names no slot of the pool
(R236, R282, R310). -/
def State.pageFault (s : State) (a : AttnDecl) (g : Pager) (o : AttendOp) (e : SeqEnt) (p : Nat) : Option (Nat × Nat) :=
  if ceilDiv (seqAfter e) 64 ≤ p then none
  else
    let i := pageIndex a o.seq o.layer o.head p
    let v := s.pageEntry g i
    match s.badLine (g.tableBase + 4 * i) 4 with
    | some l => some (cWeltLine, l)
    | none =>
      if v < 2 ^ 31 ∨ g.n ≤ v % 2 ^ 24 then some (cControl, 0)
      else (s.badLine (s.pageAt a g o.seq o.layer o.head p) 64).map fun l => (cWeltLine, l)

/-- The scribe keeps a core's queue of 8 descriptors filled (R236); `n` bounds how many it emits. -/
def State.emitDescs (c k : Nat) (a : AttnDecl) (g : Pager) (o : AttendOp) (e : SeqEnt) : Nat → State → State
  | 0, s => s
  | n + 1, s =>
    let ds := (s.core c).descs.get [] k
    match (s.core c).runs.get none k with
    | none => s
    | some q =>
      if 8 ≤ ds.length ∨ o.pages ≤ q.emitted then s
      else match s.pageFault a g o e (o.page0 + q.emitted) with
        | some f => s.lineFault k f.1 islCtl f.2
        | none =>
          let i := pageIndex a o.seq o.layer o.head (o.page0 + q.emitted)
          let s := if ceilDiv (seqAfter e) 64 ≤ o.page0 + q.emitted then s
            else (s.touch (g.tableBase + 4 * i) 4).touch (s.pageAt a g o.seq o.layer o.head (o.page0 + q.emitted)) 64
          State.emitDescs c k a g o e n (s.modCore c fun x => { x with
            descs := x.descs.set [] k (ds ++ [s.pageDesc a g o.seq o.layer o.head (o.page0 + q.emitted) e])
            runs := x.runs.set none k (some { q with emitted := q.emitted + 1 }) })

/-- Pages of a chunk by the job's mode (R238). -/
def chunkPages (t : Terms) : Option Nat := if t.compat then some 4 else if t.canonical then some 32 else none

/-- The keys of a share: in canonical and compatibility order one chunk, else at any page boundary; the step takes every sequence through
P_step pages (R238, R240). -/
def pagesOk (t : Terms) (pStep : Nat) (o : AttendOp) : Bool :=
  decide (1 ≤ o.pages) && decide (o.page0 + o.pages ≤ pStep) && match chunkPages t with
    | some n => o.page0 % n == 0 && o.pages == Nat.min n (pStep - o.page0)
    | none => true

/-- A share is under way on the core. -/
def PhaseRun.sharing (q : PhaseRun) (ds : List PageDesc) : Bool :=
  match q.share with
  | some o => decide (q.emitted < o.pages) || !ds.isEmpty
  | none => false

/-- The scribe begins a share of an attention phase on a core. -/
def State.attend (s : State) (r : CoreRef) (j : Job) (q : PhaseRun) (o : AttendOp) : State :=
  match s.poolOf r.slot with
  | none => s
  | some (a, g) => match g.seqs.get none o.seq with
    | none => s
    | some e =>
      let p := attnPhase a o.layer
      if decide (a.layers ≤ o.layer) || p.phase != q.phase || decide (p.hkv ≤ o.head) || o.npos == 0 ||
          decide (seqAfter e < o.pos0 + o.npos) || !pagesOk j.terms g.pStep o || q.sharing ((s.core r.core).descs.get [] r.slot) then s
      else
        State.emitDescs r.core r.slot a g o e 8
          (s.setRun r (some { q with share := some o, emitted := 0, fetched := false, pageTiles := [] }))

/-! ## A page (R237, R239, R241) -/

/-- The bytes of a plane that the first TOKENS positions take, from the plane's start: elements, and the scales of MX keys (R225, R234). -/
def planeSpans (fmt : BitVec 4) (d tokens : Nat) : List (Nat × Nat) :=
  (0, packedBytes (fmtBits fmt) (tokens * d)) :: if mxCode fmt then [(64 * d * fmtBits fmt / 8, tokens * d / 32)] else []

/-- The core fetches the planes of the page into its well (R234). -/
def State.fetchPage (s : State) (r : CoreRef) (d : Nat) (o : AttendOp) (x : PageDesc) (go : State → State) : State :=
  let k := planeSpans x.kFmt d x.tokens
  let v := planeSpans x.vFmt d x.tokens
  if x.pad then go s
  else s.readDevice r ((k.map fun p => (x.kAddr + p.1, p.2)) ++ v.map fun p => (x.vAddr + p.1, p.2)) fun s =>
    let ws := (k.flatMap fun p => (List.range p.2).map fun b => (o.kWell + p.1 + b, s.devByte (x.kAddr + p.1 + b))) ++
      v.flatMap fun p => (List.range p.2).map fun b => (o.vWell + p.1 + b, s.devByte (x.vAddr + p.1 + b))
    if ws.any fun w => decide (wellBytes ≤ w.1) then s.detect r.slot cControl (clusterOf r.core) 0
    else go (s.writeWell r ws)

/-- Element `k` of token `n` of a plane in the well; beyond TOKENS it is a zero (R76, R239, R240). -/
def planeValue (x : CoreSt) (fmt : BitVec 4) (scale : Byte) (tokens base d n k : Nat) : Fp :=
  let at' := fun (b : Nat) => x.well.get 0 (base + b)
  let sc := if mxCode fmt then at' (64 * d * fmtBits fmt / 8 + n * (d / 32) + k / 32) else scale
  if n < tokens then internal fmt sc (elemAt fmt at' (n * d + k)) else Fp.zero

/-- Element `k` of a query row. -/
def queryValue (x : CoreSt) (o : AttnRegs) (pos head k : Nat) : Fp :=
  let sc := if mxCode o.qFmt then x.well.get 0 (o.qsBase + pos * o.qsPos + head * o.qsHead + k / 32)
    else if fmtCtx o.qFmt then o.qScale else 127
  internal o.qFmt sc (elemAt o.qFmt (fun b => x.well.get 0 (o.q + pos * o.qPos + head * o.qHead + b)) k)

/-- The bias: minus infinity at or beyond the sequence's length and at masked positions (R237, R241). -/
def biasOf (mask len query key : Nat) : Word := if len ≤ key ∨ (mask = 1 ∧ query < key) then inf32 true else 0

/-- One row of a query tile: m, l, r, its columns of O, and the flags raised. -/
structure AttnRow where
  m : Word
  l : Word
  r : Word
  o : List Word
  flags : Half
deriving DecidableEq, Repr

/-- The loop body of R237 on 32 tokens of the page: softmax update, rescale, and P·V with O as held values. DEDUCED (log 66): a page is
two such halves, the softmax instruction taking 32 columns. -/
def attnBlock (compat : Bool) (z : List FW) (v : Nat → Nat → Fp) (w : AttnRow) : AttnRow :=
  let q := smxAccRow compat w.m w.l (z.map (·.1))
  let m := q.1.headD 0
  let r := q.1.getD 2 0
  let p := z.map fun x => rndFw 1 (gexp compat x.1 m)
  let o := w.o.zipIdx.map fun x =>
    let y := fmul x.1 r
    (addW (accFp z.length (fun n => decode32 (p.getD n (FW.of 0)).1) (fun n => v n x.2) 0) y.bits, y.flags)
  { m := m, l := q.1.getD 1 0, r := r, o := o.map (·.1),
    flags := (o.map (·.2) ++ p.map (·.2) ++ z.map (·.2)).foldl (· ||| ·) (w.flags ||| q.2) }

/-- One page for one query row at a position: its scores, scaled and biased, in two halves. -/
def attnPage (compat : Bool) (x : CoreSt) (p : AttnPhase) (len : Nat) (sh : AttendOp) (dsc : PageDesc) (o : AttnRegs) (pos head : Nat)
    (w : AttnRow) : AttnRow :=
  let k := planeValue x dsc.kFmt dsc.kScale dsc.tokens sh.kWell p.d
  let v := planeValue x dsc.vFmt dsc.vScale dsc.tokens sh.vWell p.d
  let z := fun (n : Nat) => (ffma (accFp p.d (queryValue x o pos head) (k n) 0) p.lambda
    (biasOf p.mask len (sh.pos0 + pos) (dsc.basePos + n))).fw
  let half := fun (b : Nat) => attnBlock compat ((List.range 32).map fun n => z (32 * b + n)) fun n c => v (32 * b + n) c
  half 1 (half 0 w)

/-- A query row as its registers hold it. -/
def CoreSt.attnRow (x : CoreSt) (d : Nat) (o : AttnRegs) (i : Nat) : AttnRow :=
  ⟨x.cell o.ta i 0, x.cell o.ta i 1, x.cell o.ta i 2, (List.range d).map fun c => x.lane (o.o.val + c / 32) (32 * i + c % 32), 0⟩

/-- The row at the beginning: SMX.INIT, O := +0. -/
def AttnRow.start (d : Nat) : AttnRow := ⟨inf32 true, 0, one32, List.replicate d 0, 0⟩

/-- Rows of a query tile are put back into its registers; rows that are `none` stay. -/
def CoreSt.putAttn (x : CoreSt) (k d : Nat) (o : AttnRegs) (rows : List (Option AttnRow)) : CoreSt :=
  let at' := fun (i : Nat) => (rows[i]?).join
  let y := x.putTreg k o.ta fun e => match at' (e / 32) with
    | some w => if e % 32 = 0 then w.m else if e % 32 = 1 then w.l else if e % 32 = 2 then w.r else x.lane o.ta e
    | none => x.lane o.ta e
  ((List.range (d / 32)).foldl (fun y n => y.putTreg k (o.o.val + n) fun e => match at' (e / 32) with
    | some w => w.o.getD (32 * n + e % 32) 0
    | none => x.lane (o.o.val + n) e) y).raise k (rows.foldl (fun h w => h ||| (w.elim 0 (·.flags))) 0)

/-- The registers of a query tile. -/
def attnRegs (d : Nat) (o : AttnRegs) : List Nat := o.ta.val :: (List.range (d / 32)).map (o.o.val + ·)

/-- The new token positions of the page have been written in both planes (R230). -/
def pageReady (a : AttnDecl) (g : Pager) (o : AttendOp) (e : SeqEnt) (x : PageDesc) : Bool :=
  let d := (attnPhase a o.layer).d
  let slot := (x.kAddr - 64 - g.poolBase) / a.slotBytes
  let new := (List.range x.tokens).filter fun n => decide (e.tokens ≤ x.basePos + n)
  let runs := fun (at0 : Nat) (fmt : BitVec 4) => new.flatMap fun n =>
    (at0 + n * d * fmtBits fmt / 8, d * fmtBits fmt / 8) :: if mxCode fmt then [(at0 + 64 * d * fmtBits fmt / 8 + n * (d / 32), d / 32)] else []
  x.pad || ((runs 64 x.kFmt ++ runs (64 + a.kb o.layer) x.vFmt).all fun p => (List.range p.2).all fun b => g.wrote.contains (slot, p.1 + b))

/-- A page waits until the new tokens that it holds have been written (R230). -/
def State.pageWaits (s : State) (r : CoreRef) (q : PhaseRun) : Bool :=
  match s.poolOf r.slot, q.share, (s.core r.core).descs.get [] r.slot with
  | some (a, g), some o, x :: _ => match g.seqs.get none o.seq with
    | some e => !pageReady a g o e x
    | none => false
  | _, _, _ => false

/-- A query tile has used the page: after the last tile the core takes the next descriptor; after the last page the share is done (R223,
R236). -/
def State.usePage (s : State) (r : CoreRef) (a : AttnDecl) (g : Pager) (o : AttendOp) (e : SeqEnt) (tile : Nat) : State :=
  match (s.core r.core).runs.get none r.slot with
  | none => s
  | some q =>
    let used := tile :: q.pageTiles
    if used.length < queryTiles (groupSize (attnPhase a o.layer)) o.npos then s.setRun r (some { q with pageTiles := used })
    else
      let s := (s.setRun r (some { q with pageTiles := [], fetched := false })).modCore r.core fun x =>
        { x with descs := x.descs.set [] r.slot ((x.descs.get [] r.slot).drop 1) }
      let s := State.emitDescs r.core r.slot a g o e 8 s
      match (s.core r.core).runs.get none r.slot with
      | some q => if q.sharing ((s.core r.core).descs.get [] r.slot) then s
        else s.modJob r.slot fun j => { j with attended := j.attended ++ [o] }
      | none => s

/-- One page of R237 for one query tile of the share; the first tile to use the page fetches it. -/
def State.attendPage (s : State) (r : CoreRef) (j : Job) (q : PhaseRun) (o : AttnRegs) : State :=
  match s.poolOf r.slot, q.share, (s.core r.core).descs.get [] r.slot with
  | some (a, g), some sh, dsc :: _ => match g.seqs.get none sh.seq with
    | none => s
    | some e =>
      let p := attnPhase a sh.layer
      if queryTiles (groupSize p) sh.npos ≤ o.tile ∨ o.tile ∈ q.pageTiles ∨ 32 < o.o.val + p.d / 32 then s
      else
        let run := fun (s : State) =>
          let s := (s.setRun r (some { q with fetched := true })).modCore r.core fun x =>
            let rows := (List.range 16).map fun i => (tileRow (groupSize p) sh.npos o.tile i).map fun ph =>
              attnPage j.terms.compat x p (seqAfter e) sh dsc o ph.1 ph.2
                (if dsc.basePos = 64 * sh.page0 then AttnRow.start p.d else x.attnRow p.d o i)
            (x.putAttn r.slot p.d o rows).fed r.slot o.ta
          s.usePage r a g sh e o.tile
        if q.fetched then run s else s.fetchPage r p.d sh dsc run
  | _, _, _ => s

/-! ## The combination of chunks and the final division (R237, R238) -/

/-- The head dimension and rows of a query tile of the core's last share. -/
def State.attnTile (s : State) (k : Nat) (q : PhaseRun) (tile : Nat) : Option (Nat × (Nat → Bool)) :=
  match s.poolOf k, q.share with
  | some (a, _), some sh =>
    let p := attnPhase a sh.layer
    some (p.d, fun i => (tileRow (groupSize p) sh.npos tile i).isSome)
  | _, _ => none

/-- Two chunk states of a row: SMX.MERGE of m and l, and O as R238 gives it; its addition combines partial sums of a contraction and
raises nothing (R527, log 66). -/
def attnMerge (compat : Bool) (a b : AttnRow) : AttnRow :=
  let q := smxMergeRow compat a.m a.l b.m b.l
  let m := q.1.headD 0
  let (ga, gb) := (gexp compat a.m m, gexp compat b.m m)
  let o := (a.o.zip b.o).map fun x =>
    let (u, v) := (fmul x.1 ga, fmul x.2 gb)
    (addW u.bits v.bits, u.flags ||| v.flags)
  { m := m, l := q.1.getD 1 0, r := q.1.getD 2 0, o := o.map (·.1), flags := o.foldl (fun h x => h ||| x.2) q.2 }

/-- Chunk states combine in the order of the job's mode, by chunk index (R238). -/
def State.mergeAttn (s : State) (r : CoreRef) (j : Job) (q : PhaseRun) (l : List AttnRegs) : State :=
  match s.attnTile r.slot q (l.head?.elim 0 (·.tile)) with
  | none => s
  | some (d, has) =>
    if l.any fun o => decide (32 < o.o.val + d / 32) then s
    else s.modCore r.core fun x => (merges j.terms.compat l).foldl (fun y ab =>
      y.putAttn r.slot d ab.1 ((List.range 16).map fun i =>
        if has i then some (attnMerge j.terms.compat (y.attnRow d ab.1 i) (y.attnRow d ab.2 i)) else none)) x

/-- The final division, after the last combination: +0 where l is +0. -/
def State.finishAttn (s : State) (r : CoreRef) (j : Job) (q : PhaseRun) (o : AttnRegs) : State :=
  match s.attnTile r.slot q o.tile with
  | none => s
  | some (d, has) =>
    if 32 < o.o.val + d / 32 ∨ q.sharing ((s.core r.core).descs.get [] r.slot) = true then s
    else s.modCore r.core fun x => x.putAttn r.slot d o ((List.range 16).map fun i =>
      if has i then
        let w := x.attnRow d o i
        let out := w.o.map fun c => smxNormLane j.terms.compat c w.l
        some { w with o := out.map (·.1), flags := out.foldl (fun h y => h ||| y.2) 0 }
      else none)

/-- Every sequence has been taken through every page by some share at each new query position, for every layer and head of the device (R234,
R240). -/
def State.attnDone (s : State) (k : Nat) (j : Job) : Bool :=
  match s.poolOf k with
  | none => true
  | some (a, g) => g.admittedSeqs.all fun x => (List.range a.layers).all fun l => (List.range (attnPhase a l).hkv).all fun h =>
      (List.range (seqAfter x.2 - x.2.tokens)).all fun n => (List.range g.pStep).all fun p => j.attended.any fun o =>
        o.seq == x.1 && o.layer == l && o.head == h && decide (o.pos0 ≤ x.2.tokens + n) && decide (x.2.tokens + n < o.pos0 + o.npos) &&
          decide (o.page0 ≤ p) && decide (p < o.page0 + o.pages)

end Sys2Proof.Machine
end

