-- ==== Sys2Proof/Machine/Windows.lean ====
section
/-!
DEFINITION. What the tiler does around convolutions, pooling and resampling (R199, R208, R214, R216, R218, R220): the fill of a halo at the
field edge, the staging of window registers, the bounds register, and the staging window.
-/
namespace Sys2Proof.Machine

/-! ## Positions beyond the input (R208) -/

/-- The source index of an index of a dimension of size n under a padding mode; none for a zero. -/
def padSource (mode n : Nat) (x : Int) : Option Nat :=
  if n = 0 then none
  else if 0 ≤ x ∧ x < n then some x.toNat
  else match mode with
    | 0 => none
    | 1 => some (if x < 0 then 0 else n - 1)
    | 2 =>
      let u := (x % (2 * (n - 1) : Nat)).toNat
      some (if n = 1 then 0 else if u ≤ n - 1 then u else 2 * (n - 1) - u)
    | _ => some (x % n).toNat

/-- The copies of a halo's fill: positions outside the input, each with its source, where the source lies in the owner's block; what an
edge owner takes from the other edge comes by the exchange. -/
def haloCopies (c : ConvDecl) (h w : Nat) (o : HaloOp) : List ((Int × Int) × (Nat × Nat)) :=
  let mine := fun (y x : Nat) => decide (o.y0 ≤ y) && decide ((y : Int) < o.y0 + o.ny) && decide (o.x0 ≤ x) && decide ((x : Int) < o.x0 + o.nx)
  let all : List (Int × Int) := (List.range o.ny).flatMap fun i => (List.range o.nx).map fun j => (o.y0 + (i : Nat), o.x0 + (j : Nat))
  all.filterMap fun p =>
    if 0 ≤ p.1 ∧ p.1 < (h : Int) ∧ 0 ≤ p.2 ∧ p.2 < (w : Int) then none
    else match padSource c.padMode h p.1, padSource c.padMode w p.2 with
      | some y, some x => if mine y x then some (p, (y, x)) else none
      | _, _ => none

/-- The well address of a position. -/
def haloAt (c : ConvDecl) (o : HaloOp) (y x : Int) : Int := o.base + y * (c.inRow : Nat) + x * (c.inPos : Nat)

/-- The fill of an owner's halo under a padding mode: the bytes of each position are copied unchanged. -/
def State.fillHalo (s : State) (r : CoreRef) (d : FolioDecl) (q : PhaseRun) (o : HaloOp) : State :=
  match d.convs[o.conv]? with
  | none => s
  | some c =>
    let cp := haloCopies c (latched q.bounds c.h) (latched q.bounds c.w) o
    s.readWell r .none (cp.map fun x => wellSpan (haloAt c o x.2.1 x.2.2) c.inPos) fun s =>
      let y := s.core r.core
      let ws := cp.flatMap fun x => (List.range c.inPos).map fun b =>
        ((wellSpan (haloAt c o x.1.1 x.1.2) c.inPos).1 + b, y.well.get 0 ((haloAt c o x.2.1 x.2.2).toNat + b))
      (s.setRun r (some { q with filled := o.conv :: q.filled })).writeWell r ws

/-! ## Staging of windows (R214, R218, R220) -/

/-- The input column of window row `i` of a tile. -/
def stageCol (o : StageOp) (i : Nat) : Int :=
  match o.edge with
  | .window _ s p0 _ _ => (o.out0 * s + i : Nat) - (p0 : Int)
  | .near f => (o.out0 / f + i : Nat) - (1 : Int)

/-- The input position that window row `i` holds; none for +0. A row beyond the input's last window is never loaded. -/
def stageSource (o : StageOp) (b : List (Nat × Nat)) (i : Nat) : Option (Nat × Nat) :=
  let h := latched b o.rows
  let w := latched b o.cols
  let both := fun (mode : Nat) => match padSource mode h o.y, padSource mode w (stageCol o i) with
    | some y, some x => some (y, x)
    | _, _ => none
  match o.edge with
  | .near _ => both 1
  | .window k s p0 p1 mode =>
    if (((convOut w p0 p1 1 k s - 1) * s + k : Nat) : Int) - p0 ≤ stageCol o i ∨ convOut w p0 p1 1 k s = 0 then none else both mode

/-- The well address of an input position. -/
def stageAddr (o : StageOp) (p : Nat × Nat) : Int := o.base + (p.1 * o.rowBytes + p.2 * o.posBytes : Nat)

/-- A lane of the staged window: window row `i`, column `j`. -/
def stageLane (o : StageOp) (b : List (Nat × Nat)) (x : CoreSt) (i j : Nat) : FW :=
  match stageSource o b i with
  | none => FW.of 0
  | some p =>
    if o.chans ≤ o.chan + j then FW.of 0
    else
      let sc := if mxCode o.fmt then x.well.get 0 (o.scaleBase + p.1 * o.scaleRow + p.2 * o.scalePos + (o.chan + j) / 32)
        else if fmtCtx o.fmt then o.scale else 127
      loadElem o.fmt sc false (elemAt o.fmt (fun n => x.well.get 0 ((stageAddr o p).toNat + n)) (o.chan + j))

/-- The well bytes that the staging reads. -/
def stageSpans (o : StageOp) (b : List (Nat × Nat)) : List (Nat × Nat) :=
  let last := Nat.min o.chans (o.chan + 32)
  ((List.range (16 * o.q)).filterMap (stageSource o b)).flatMap fun p =>
    (let lo := o.chan * fmtBits o.fmt / 8
     wellSpan (stageAddr o p + (lo : Nat)) (packedBytes (fmtBits o.fmt) last - lo)) ::
      if mxCode o.fmt then [(o.scaleBase + p.1 * o.scaleRow + p.2 * o.scalePos + o.chan / 32, 1)] else []

def stageRegs (o : StageOp) : List Nat := (List.range o.q).map (o.w + ·)

/-- The window registers are staged. -/
def State.stageWindow (s : State) (r : CoreRef) (q : PhaseRun) (o : StageOp) : State :=
  s.readWell r .none (stageSpans o q.bounds) fun s => s.modCore r.core fun x =>
    let val := fun (n e : Nat) => stageLane o q.bounds x (16 * n + e / 32) (e % 32)
    ((List.range o.q).foldl (fun y n => y.putTreg r.slot (o.w + n) fun e => (val n e).1) x).raise r.slot
      (lanesFlags (fun _ => true) fun e => (List.range o.q).foldl (fun h n => h ||| (val n e).2) 0)

/-! ## The bounds register (R216) -/

/-- Its contents for a tile. -/
def boundsWord (o : BoundsOp) (b : List (Nat × Nat)) : Word :=
  let x0 : Int := (o.out0 * o.sx : Nat) - (o.pl : Int)
  let y0 : Int := (o.outRow * o.sy : Nat) - (o.pt : Int)
  let v0 := Nat.min 47 (-x0).toNat
  let v1 := Nat.min (16 * o.q) ((latched b o.cols : Int) - x0).toNat
  let ty := (List.range (Nat.min 8 o.kh)).filter fun t => decide (0 ≤ y0 + (t : Nat)) && decide (y0 + (t : Nat) < (latched b o.rows : Nat))
  BitVec.ofNat 32 (v0 + 2 ^ 8 * v1 + 2 ^ 16 * (ty.map fun t => 2 ^ t).sum)

def State.setBounds (s : State) (r : CoreRef) (q : PhaseRun) (o : BoundsOp) : State :=
  s.modCore r.core fun x => x.modCtx r.slot fun c => { c with sregs := c.sregs.set 0 o.s (boundsWord o q.bounds) }

/-! ## The staging window (R199, R291) -/

/-- The bytes of one half of the job's window in a slice: half of its ways of 1 MiB, at most 4 MiB. -/
def windowHalf (ways : Nat) : Nat := Nat.min 4 (ways / 2) * 2 ^ 20

/-- A range of device memory fits a half: its lines in each slice (R292). -/
def halfHolds (ways src bytes : Nat) : Bool :=
  (List.range 16).all fun h => decide (64 * (linesOf src bytes).countP (fun l => homeSliceOf (64 * l) == h) ≤ windowHalf ways)

/-- A range of device memory enters the half that was filled first; what leaves the window leaves with its decoded blocks, and the blocks of
a streamed folio that enter it join the decoders' queues (R296, R322). -/
def State.fetchWindow (s : State) (r : CoreRef) (j : Job) (q : PhaseRun) (src bytes : Nat) : State :=
  if !halfHolds (if j.isG then j.windowWays else q.ways) src bytes then s
  else s.readDevice r [(src, bytes)] fun s =>
    let win := (src, bytes) :: j.window.take 1
    let kept := fun (f : Folio) (b : DecBlock) => match f.decl.swf[b.tensor]? with
      | some t => win.any fun w => decide (w.1 ≤ blockAddr f t b.block) && decide (blockAddr f t b.block < w.1 + w.2)
      | none => false
    (s.modJob r.slot fun j => { j with
      window := win, decoded := match s.folio j.terms.folio with
        | some f => j.decoded.filter (kept f)
        | none => [] }).queueBlocks r.slot

/-- Bytes of the window go to the core's well through its vertical bond. -/
def State.fillWell (s : State) (r : CoreRef) (j : Job) (src well bytes : Nat) : State :=
  if !(j.window.any fun h => decide (h.1 ≤ src) && decide (src + bytes ≤ h.1 + h.2)) then s
  else s.readDevice r [(src, bytes)] fun s =>
    s.writeWell r ((List.range bytes).map fun i => (well + i, s.devByte (src + i)))

/-! ## Decoded weights (R322, R324) -/

/-- The decoded block of a load-time tensor that a job reads. -/
def State.decBlock (s : State) (j : Job) (tensor block : Nat) : Option DecBlock :=
  (s.folio j.terms.folio).bind fun f => (decodedFor f j).find? fun b => b.tensor == tensor && b.block == block

/-- A block that is queued for the job is waited for. -/
def State.blockWaits (s : State) (k : Nat) (j : Job) (tensor block : Nat) : Bool :=
  (s.decBlock j tensor block).isNone && s.sys.decq.any fun q => q.owner == k && q.tensor == tensor && q.block == block

/-- Decoded lines pass the bond, where their welts are checked against the addresses of R324, into the well. -/
def State.readWeights (s : State) (r : CoreRef) (j : Job) (tensor block line n well : Nat) : State :=
  match s.decBlock j tensor block with
  | none => s
  | some b =>
    let ls := (b.lines.drop line).take n
    match ls.find? fun l => lineWelt l.line l.data != l.welt with
    | some l => s.lineFault r.slot cWeltLine (clusterOf r.core) (64 * l.line)
    | none => s.writeWell r ((ls.flatMap (·.data)).zipIdx.map fun x => (well + x.2, x.1))

end Sys2Proof.Machine
end

