-- ==== Sys2Proof/Machine/Phases.lean ====
section
/-!
DEFINITION. PHASE_INSTANCE_START and STEP_CUT: the start of an instance (R175, R180 to R182), the stanza and the guidance combination over
latent tiles (R255, R260 to R264, R269, R274, R278), the tiler's and the scribe's acts (06, 07, 08), and the end of a step.
-/
namespace Sys2Proof.Machine

/-! ## Latent tiles (R264, R269) -/

/-- A latent tile of a stanza: its element index (R269), and its rows and columns within the latched bounds. -/
structure Latent where
  index : Nat
  rows : Nat
  cols : Nat
deriving DecidableEq, Repr

/-- Latent tile `t` of the declared maximum shape, in row-major order of its tiles. -/
def latentTile (x : StanzaDecl) (b : List (Nat × Nat)) (t : Nat) : Latent :=
  let tr := Nat.max 1 (ceilDiv x.maxRows 16)
  let tc := Nat.max 1 (ceilDiv x.maxCols 32)
  let i := t / tc % tr
  let j := t % tc
  ⟨(t / (tr * tc) * x.maxRows + 16 * i) * x.maxCols + 32 * j, Nat.min 16 (latched b x.rows - 16 * i), Nat.min 32 (latched b x.cols - 32 * j)⟩

/-- The latent tiles of an owner: the first and how many. -/
def latentShare (x : StanzaDecl) (cores : List Nat) (c : Nat) : Nat × Nat :=
  match x.owners.find? fun o => o.1 == ownerOf cores c with
  | some o => o.2
  | none => (0, 0)

/-- The job runs paired batches (R260). -/
def Job.paired (j : Job) : Bool := j.terms.stepBlock.any (·.pair)

/-- The guidance combination is part of the phase: a step's stanza under PAIR (R255). -/
def guidedPhase (j : Job) (p : PhaseEntry) : Bool := j.paired && p.kind == 2

/-- The guidance combination is done on a core's latent tiles. -/
def PhaseRun.guidedAll (q : PhaseRun) (x : StanzaDecl) (cores : List Nat) (c : Nat) : Bool :=
  let (lo, n) := latentShare x cores c
  (List.range n).all fun i => q.guided.contains (lo + i)

/-- A latent tile of the stanza waits for the snapshot (R278, R279), and under PAIR until the guidance combination is done on every core
of the job (R255). -/
def State.tileWaits (s : State) (k : Nat) (j : Job) (d : FolioDecl) (p : PhaseEntry) (x : StanzaDecl) : Bool :=
  (match j.snap, j.terms.stepBlock with
    | some n, some b => !n.begun || !s.settled (snapSlot b d n.ordinal + 64) n.bodyBytes
    | _, _ => false) ||
  (guidedPhase j p && !(j.cores.all fun c => match (s.core c).runs.get none k with
    | some q => q.phase == p.phase && q.guidedAll x j.cores c
    | none => false))

/-- The stanza's next latent tile: LEN and S12 to S15 (R264). -/
def State.nextTile (s : State) (r : CoreRef) (j : Job) (q : PhaseRun) (x : StanzaDecl) : State :=
  let (lo, n) := latentShare x j.cores r.core
  if n ≤ q.latent then s
  else
    let t := latentTile x q.bounds (lo + q.latent)
    let step : Word := match j.step with
      | some m => BitVec.ofNat 32 m
      | none => 0xFFFFFFFF
    (s.setRun r (some { q with latent := q.latent + 1 })).modCore r.core fun y => y.modCtx r.slot fun c => { c with
      rows := t.rows, cols := t.cols,
      sregs := ((((c.sregs.set 0 12 step).set 0 13 (BitVec.ofNat 32 t.index)).set 0 14
        (BitVec.ofNat 32 (t.index / 2 ^ 32 % 2 ^ 16))).set 0 15 (BitVec.ofNat 32 x.maxCols)) }

/-! ## Guidance (R260 to R262, R274) -/

/-- The guided output of an element from the weight and the two network outputs (R261; R274 in compatibility mode). -/
def guidance (compat : Bool) (w : Word) (c u : FW) : FW :=
  let x := FW.sub c u
  if compat then FW.add u (FW.mul (FW.of w) x)
  else
    let y := ffma w x.1 u.1
    (y.bits, x.2 ||| u.2 ||| y.flags)

/-- The guidance combination on a latent tile of the owner's (R261): both network outputs are loaded, g is stored. -/
def State.guideTile (s : State) (r : CoreRef) (j : Job) (q : PhaseRun) (x : StanzaDecl) (t : Nat) : State :=
  let (lo, n) := latentShare x j.cores r.core
  if t < lo ∨ lo + n ≤ t ∨ t ∈ q.guided then s
  else
    let z := latentTile x q.bounds t
    let fmt : BitVec 4 := x.guideFmt.truncate 4
    let bits := fmtBits fmt
    let at' := fun (off i : Nat) => j.terms.work + off + (z.index + i * x.maxCols) * bits / 8
    let load := fun (s : State) (off i e : Nat) => loadElem fmt 127 false (elemAt fmt (fun b => s.devByte (at' off i + b)) e)
    let rows := List.range z.rows
    let span := fun (off i : Nat) => (at' off i, packedBytes bits z.cols)
    s.readDevice r (if z.cols = 0 then [] else rows.flatMap fun i => [span x.netOff i, span (x.netOff + x.pairBytes) i]) fun s =>
      let w := (s.ctx r.core r.slot).ksc.get 0 ((j.terms.stepBlock.map (·.guideIdx)).getD 0)
      let g := fun (i e : Nat) => guidance j.terms.compat w (load s x.netOff i e) (load s (x.netOff + x.pairBytes) i e)
      let cv := fun (i e : Nat) => convert fmt (x.guideFmt.getLsbD 4) 127 (decode32 (g i e).1)
      let flags := rows.foldl (fun h i => (List.range z.cols).foldl (fun h e => h ||| (g i e).2 ||| (cv i e).flags) h) 0
      ((s.modCore r.core fun y => y.raise r.slot flags).setRun r (some { q with guided := t :: q.guided })).writeDevice r
        (rows.flatMap fun i => storeRow fmt (at' x.guideOff i) ((List.range z.cols).map fun e => some (cv i e).enc))

/-- The rows of the batch that the network runs: under PAIR twice the samples (R260). -/
def batchRows (j : Job) (b : BatchDecl) : Nat := if j.paired then 2 * b.samples else b.samples

/-- A row of the batch: row b and row B + b read latent row b; row b has its own conditioning, row B + b the null conditioning (R260). -/
def State.batchRow (s : State) (r : CoreRef) (j : Job) (d : FolioDecl) (p : PhaseEntry) (row latentWell condWell : Nat) : State :=
  match d.batch, s.folio j.terms.folio with
  | some b, some f =>
    if batchRows j b ≤ row ∨ partOf d p ≠ 2 then s
    else
      let lat := j.terms.work + b.latentOff + row % Nat.max 1 b.samples * b.latentBytes
      let cond := if row < b.samples then j.terms.input + b.condOff + row * b.condBytes else f.base + b.nullOff
      let spans := [(lat, b.latentBytes), (cond, b.condBytes)].filter fun x => x.2 != 0
      s.readDevice r spans fun s =>
        (s.writeWell r (((List.range b.latentBytes).map fun i => (latentWell + i, s.devByte (lat + i))) ++
          (List.range b.condBytes).map fun i => (condWell + i, s.devByte (cond + i)))).modJob r.slot fun j =>
            { j with batchRows := if j.batchRows.contains row then j.batchRows else j.batchRows ++ [row] }
  | _, _ => s

/-! ## Chunk sums and chunk states (R68, R70, R106, R163, R183) -/

/-- The addition that combines chunk sums (R527). -/
def chunkAdd (int : Bool) (a b : FW) : FW :=
  let x := addKind (if int then .accI32 else .accF32) a.1 b.1
  (x.1, a.2 ||| b.2 ||| x.2)

/-- The chunk sums of an output tile, all of them parked, are added by the order of the job's mode, and the tile is done. -/
def State.combineTile (s : State) (r : CoreRef) (j : Job) (d : FolioDecl) (q : PhaseRun) (p : TileAt) (n : Fin 32) : State :=
  match tiled d j.cores r.core q p with
  | .plan e _ body =>
    let ps := (q.parked.filter fun x => x.pos == p).mergeSort fun a b => decide (a.chunk ≤ b.chunk)
    if q.running j.terms ∨ ps.length ≠ q.segs j.terms e.k ∨ ps.length ≤ 1 then s
    else
      let mine := fun (l : Nat) => match body with
        | .mv _ _ => decide (l < e.rows)
        | _ => decide (l / 32 < e.rows) && decide (l % 32 < e.cols)
      let rows := match body with
        | .mv _ _ => ceilDiv e.rows 32
        | _ => e.rows
      s.readWell r .none (ps.flatMap fun x => (List.range rows).map fun i => (x.base + i * x.stride, 128)) fun s =>
        (s.setRun r (some { q with parked := q.parked.filter fun x => x.pos != p, drained := q.drained ++ [p] })).modCore r.core fun x =>
          let val := fun (l : Nat) => combineBy j.terms.canonical (FW.of 0) (chunkAdd (ps.any (·.int))) (ps.map fun y => FW.of (x.parkedLane y l))
          (x.putTreg r.slot n fun l => if mine l then (val l).1 else x.lane n l).raise r.slot (lanesFlags mine fun l => (val l).2)
  | _ => s

/-- Chunk states of a statistic are merged into the first one, by chunk index (R163). -/
def State.gatherStates (s : State) (r : CoreRef) (norm : Bool) (regs : List (Fin 32)) : State :=
  let compat := s.isCompat r.slot
  s.modCore r.core fun x => (merges compat regs).foldl (fun y ab =>
    let (a, b) := ab
    y.putRows r.slot a fun i =>
      if norm then nrmMergeRow (y.nrmRow a i) (y.nrmRow b i)
      else smxMergeRow compat (y.cell a i 0) (y.cell a i 1) (y.cell b i 0) (y.cell b i 1)) x

/-! ## The end of an instance -/

/-- Every output tile of the owner's in the phase's contractions has been drained (R168). -/
def tilesDone (d : FolioDecl) (cores : List Nat) (c : Nat) (q : PhaseRun) : Bool :=
  d.contrs.zipIdx.all fun x => x.1.phase != q.phase || (
    let (m, n) := tileGrid d q.bounds x.1.body
    (List.range m).all fun i => (List.range n).all fun k => match tiled d cores c q ⟨x.2, i, k⟩ with
      | .plan _ _ _ => q.drained.contains ⟨x.2, i, k⟩
      | _ => true)

/-- Nothing of the instance is left to do on the core. -/
def State.instanceDone (s : State) (k c : Nat) (j : Job) (d : FolioDecl) (q : PhaseRun) : Bool :=
  tilesDone d j.cores c q && !(q.sharing ((s.core c).descs.get [] k)) &&
    match d.phases.find? fun p => p.phase == q.phase with
    | none => true
    | some p => match stanzaOf d p with
      | some x => decide ((latentShare x j.cores c).2 ≤ q.latent) && (!guidedPhase j p || q.guidedAll x j.cores c)
      | none => true

/-- The phases of a step, or of the part before the first, have completed: on every core the last instance, every row of the batch (R262)
and every share of attention (R240). -/
def State.phasesDone (s : State) (k : Nat) (j : Job) (d : FolioDecl) : Bool :=
  (j.cores.all fun c => match (s.core c).runs.get none k with
    | none => true
    | some q => q.ended || s.instanceDone k c j d q) &&
  (j.step.isNone || s.attnDone k j && match d.batch with
    | some b => (List.range (batchRows j b)).all j.batchRows.contains
    | none => true)

/-! ## PHASE_INSTANCE_START -/

/-- The instance of the phase that runs on the core. -/
def State.runOf (s : State) (r : CoreRef) (phase : Nat) : Option PhaseRun :=
  ((s.core r.core).runs.get none r.slot).filter fun q => q.phase == phase && !q.ended

/-- What a unit of a phase waits for. -/
def State.unitWaits (s : State) (r : CoreRef) (phase : Nat) (j : Job) (d : FolioDecl) (p : PhaseEntry) (u : PhaseUnit) : Bool :=
  match u with
  | .start => s.startWaits r.slot r.core phase
  | .tile => match stanzaOf d p with
    | some x => s.tileWaits r.slot j d p x
    | none => false
  | .page _ => match s.runOf r phase with
    | some q => s.pageWaits r q
    | none => false
  | .weights t b _ _ _ => s.blockWaits r.slot j t b
  | _ => false

/-- The tile registers that a unit names. -/
def State.unitRegs (s : State) (r : CoreRef) (phase : Nat) (u : PhaseUnit) : List Nat :=
  let d := (((s.runOf r phase).bind fun q => s.attnTile r.slot q 0).map (·.1)).getD 0
  match u with
  | .stage o => stageRegs o
  | .combine _ n => [n.val]
  | .gather _ l => l.map (·.val)
  | .page o | .attended o => attnRegs d o
  | .merge l => l.flatMap (attnRegs d)
  | _ => []

/-- A unit in the instance that runs. -/
def State.runUnit (s : State) (r : CoreRef) (j : Job) (d : FolioDecl) (p : PhaseEntry) (q : PhaseRun) (u : PhaseUnit) : State :=
  match u with
  | .start => s
  | .batch row lw cw => s.batchRow r j d p row lw cw
  | .guide t => match stanzaOf d p with
    | some x => if guidedPhase j p then s.guideTile r j q x t else s
    | none => s
  | .tile => match stanzaOf d p with
    | some x => s.nextTile r j q x
    | none => s
  | .halo o => if q.tiles.isEmpty && q.parked.isEmpty && q.drained.isEmpty then s.fillHalo r d q o else s
  | .stage o => if o.w + o.q ≤ 32 then s.stageWindow r q o else s
  | .bounds o => s.setBounds r q o
  | .fetch src n => s.fetchWindow r j q src n
  | .fill src w n => s.fillWell r j src w n
  | .weights t b l n w => s.readWeights r j t b l n w
  | .combine pos n => s.combineTile r j d q pos n
  | .gather norm l => s.gatherStates r norm l
  | .attend o => s.attend r j q o
  | .page o => s.attendPage r j q o
  | .merge l => s.mergeAttn r j q l
  | .attended o => s.finishAttn r j q o
  | .finish => if s.instanceDone r.slot r.core j d q then s.finishPhase r.slot r.core else s

/-- A unit of a phase on a core: it happens, or it is held until what it waits for has come, in the order of the job's instructions on the
core. -/
def State.phaseUnit (s : State) (i : Instr) (r : CoreRef) (phase : Nat) (u : PhaseUnit) : State :=
  match s.phaseOf r.slot r.core phase with
  | none => s
  | some (j, d, p) =>
    let regs := s.unitRegs r phase u
    let x := s.core r.core
    if !(regs.all (x.tregMine r.slot)) then s
    else if s.earlierHeld r || s.unitWaits r phase j d p u || !(regs.all (x.tregOk r.slot)) then s.holdCmd (.phase r) i
    else if u = .start then s.startPhase r.slot r.core phase
    else match s.runOf r phase with
      | some q => s.runUnit r j d p q u
      | none => s

def execPhaseInstanceStart (c : CoreRef) (act : PhaseAct) (s : State) : Res :=
  .next (s.phaseUnit (.phaseInstanceStart c act) c act.phase act.unit)

/-! ## STEP_CUT -/

/-- STEP_CUT: the last phase of a step, or of the once-per-job phases, has completed on every core: none of its commands is held. -/
def State.cut (s : State) (k : Nat) : State :=
  match s.job k with
  | none => s
  | some j =>
    if j.st ≠ .running ∨ !j.displaced.isEmpty ∨ !j.awaitSpill.isEmpty ∨ j.atCut ∨ j.done ∨ j.snap.isSome ∨ s.holdsFor k = true then s
    else match j.step, s.declOf j with
      | none, some d => if !s.phasesDone k j d then s else ((s.endRuns k j).startSnap k 0xFFFFFFFF).beginStep k 0
      | some n, some d =>
        if !s.phasesDone k j d then s else
        let s := (s.endRuns k j).modJob k fun w => { w with stepsRun := n + 1, atCut := true, peerStats := s.keepStat k j }
        ((s.raiseFrames k (s.framesFinal j d (n + 1))).combineStat k).tryBoundary k
      | _, none => s

def execStepCut (slot : Fin 64) (s : State) : Res := .next (s.cut slot)

end Sys2Proof.Machine
end

