-- ==== Sys2Proof/Machine/Stall.lean ====
section
/-! DEFINITION. FIRMWARE_STALL (13 R375): the timer of a fetched command expires without a first record. -/
namespace Sys2Proof.Machine

/-- The ring command of an opcode. RESUME's sensors and the lines that AWL_STOP finds done are free values here. -/
def State.runCommand (s : State) (n : Fin 64) (op : Nat) (p : Pkt) : Res :=
  let t := s.took.took.took
  let v := fun k => (Config.freeValue (s.free + k)).toNat
  if op = opEcho then execEcho n p s
  else if op = opQueryState then execQueryState n p s
  else if op = opQuiesce then execQuiesce n p s
  else if op = opResume then execResume n p ⟨v 0, v 1, v 2⟩ t
  else if op = opSetPartition then execSetPartition n p s
  else if op = opMemCopy then execMemCopy n p s
  else if op = opMemFill then execMemFill n p s
  else if op = opMemVerify then execMemVerify n p s
  else if op = opFolioLoad then execFolioLoad n p s
  else if op = opFolioPin then execFolioPin n p s
  else if op = opFolioEvict then execFolioEvict n p s
  else if op = opTableLoad then execTableLoad n p s
  else if op = opJobSubmit then execJobSubmit n p s
  else if op = opJobCancel then execJobCancel n p s
  else if op = opJobStatus then execJobStatus n p s
  else if op = opReadResult then execReadResult n p s
  else if op = opReleaseResult then execReleaseResult n p s
  else if op = opSeqJoin then execSeqJoin n p s
  else if op = opSeqLeave then execSeqLeave n p s
  else if op = opKvPageMap then execKvPageMap n p s
  else if op = opTopoSet then execTopoSet n p s
  else if op = opGroupDefine then execGroupDefine n p s
  else if op = opLinkTrain then execLinkTrain n p s
  else if op = opVideoOpen then execVideoOpen n p s
  else if op = opVideoFrame then execVideoFrame n p s
  else if op = opVideoClose then execVideoClose n p s
  else if op = opBurnishRun then execBurnishRun n p s
  else if op = opMarginReport then execMarginReport n p s
  else if op = opAttest then execAttest n p s
  else if op = opFwStage then execFwStage n p s
  else if op = opAwlStart then execAwlStart n p s
  else if op = opAwlStop then execAwlStop n p ((List.range 192).map fun i => (v i, [])) (s.withFree (s.free + 192))
  else execAwlReport n p s

/-- The command is dropped: its only effect is the record. -/
def State.stallDropped (s : State) (n : Nat) (p : Pkt) (r : Rec) : State := (s.fetched n p).sendStall n r

/-- The command takes effect and the record stands in the place of its first one; later records are as normal. -/
def State.stallTaken (s : State) (n : Fin 64) (op : Nat) (p : Pkt) (r : Rec) : Res :=
  match (s.modSys fun y => { y with stalled := some (n.val, r) }).runCommand n op p with
  | .next t =>
    let u := t.modSys fun y => { y with stalled := none }
    .next (if t.sys.stalled.isSome ∧ t.sys.fetchNo ≠ s.sys.fetchNo then u.sendStall n r else u)
  | .fault f => .fault f
  | .refused r => .refused r

/-- A ring command whose timer expires. One that fails checks 1 to 4 meets no timer. Without a commit grant it is dropped; with one,
whether it takes effect is a free value. -/
def State.stallRing (s : State) (n : Fin 64) (op : Nat) (p : Pkt) (scribe : BitVec 4) (committed : Bool) : Res :=
  if !s.fetchable n p then .next s
  else match s.headerCheck n op (opcodes.contains op) (plenOf op) p with
  | some r => .next ((s.fetched n p).reply n op p r)
  | none =>
    let r := stallRec op p scribe committed
    if committed then
      (if s.free64.getLsbD 0 then s.took.stallTaken n op p r else .next (s.took.stallDropped n p r))
    else .next (s.stallDropped n p r)

/-- FIRMWARE_STALL: of a ring command, or of the command in the mailbox when GO has been written (R507). -/
def execFirmwareStall (n : Option (Fin 64)) (opcode : BitVec 16) (p : Pkt) (scribe : BitVec 4) (committed : Bool) (s : State) : Res :=
  match n with
  | some n => if p.wf then s.stallRing n opcode.toNat p scribe committed else .fault .illFormed
  | none => .next (s.write fun s => s.mbxGo (some fun c => stallRec c.1 c.2 scribe committed))

end Sys2Proof.Machine
end

