-- ==== Sys2Proof/Machine/Dispatch.lean ====
section
/-! DEFINITION. The one dispatch: each command to its meaning. -/
namespace Sys2Proof.Machine

def exec (i : Instr) (s : State) : Host.Outcome State Fault Refusal :=
  match i with
  -- ring commands, R376
  | .echo n p => Sys2Proof.Machine.execEcho n p s
  | .queryState n p => Sys2Proof.Machine.execQueryState n p s
  | .quiesce n p => Sys2Proof.Machine.execQuiesce n p s
  | .resume n p env => Sys2Proof.Machine.execResume n p env s
  | .setPartition n p => Sys2Proof.Machine.execSetPartition n p s
  | .memCopy n p => Sys2Proof.Machine.execMemCopy n p s
  | .memFill n p => Sys2Proof.Machine.execMemFill n p s
  | .memVerify n p => Sys2Proof.Machine.execMemVerify n p s
  | .folioLoad n p => Sys2Proof.Machine.execFolioLoad n p s
  | .folioPin n p => Sys2Proof.Machine.execFolioPin n p s
  | .folioEvict n p => Sys2Proof.Machine.execFolioEvict n p s
  | .tableLoad n p => Sys2Proof.Machine.execTableLoad n p s
  | .jobSubmit n p => Sys2Proof.Machine.execJobSubmit n p s
  | .jobCancel n p => Sys2Proof.Machine.execJobCancel n p s
  | .jobStatus n p => Sys2Proof.Machine.execJobStatus n p s
  | .readResult n p => Sys2Proof.Machine.execReadResult n p s
  | .releaseResult n p => Sys2Proof.Machine.execReleaseResult n p s
  | .seqJoin n p => Sys2Proof.Machine.execSeqJoin n p s
  | .seqLeave n p => Sys2Proof.Machine.execSeqLeave n p s
  | .kvPageMap n p => Sys2Proof.Machine.execKvPageMap n p s
  | .topoSet n p => Sys2Proof.Machine.execTopoSet n p s
  | .groupDefine n p => Sys2Proof.Machine.execGroupDefine n p s
  | .linkTrain n p => Sys2Proof.Machine.execLinkTrain n p s
  | .videoOpen n p => Sys2Proof.Machine.execVideoOpen n p s
  | .videoFrame n p => Sys2Proof.Machine.execVideoFrame n p s
  | .videoClose n p => Sys2Proof.Machine.execVideoClose n p s
  | .burnishRun n p => Sys2Proof.Machine.execBurnishRun n p s
  | .marginReport n p => Sys2Proof.Machine.execMarginReport n p s
  | .attest n p => Sys2Proof.Machine.execAttest n p s
  | .fwStage n p => Sys2Proof.Machine.execFwStage n p s
  | .awlStart n p => Sys2Proof.Machine.execAwlStart n p s
  | .awlStop n p done => Sys2Proof.Machine.execAwlStop n p done s
  | .awlReport n p => Sys2Proof.Machine.execAwlReport n p s
  | .unknownOpcodePacket n opcode p => Sys2Proof.Machine.execUnknownOpcodePacket n opcode p s
  -- jobs and steps
  | .admissionDecision slot => Sys2Proof.Machine.execAdmissionDecision slot s
  | .waitingJobRetry => Sys2Proof.Machine.execWaitingJobRetry s
  | .preemptSpillDone slot core => Sys2Proof.Machine.execPreemptSpillDone slot core s
  | .victimResume slot => Sys2Proof.Machine.execVictimResume slot s
  | .phaseInstanceStart c act => Sys2Proof.Machine.execPhaseInstanceStart c act s
  | .stepCut slot => Sys2Proof.Machine.execStepCut slot s
  | .snapshotCommit slot => Sys2Proof.Machine.execSnapshotCommit slot s
  | .pagerDecisionRecord slot => Sys2Proof.Machine.execPagerDecisionRecord slot s
  | .jobComplete slot => Sys2Proof.Machine.execJobComplete slot s
  | .promiseOverrun slot => Sys2Proof.Machine.execPromiseOverrun slot s
  | .deadlinePassed slot => Sys2Proof.Machine.execDeadlinePassed slot s
  | .startWaitTimeout slot => Sys2Proof.Machine.execStartWaitTimeout slot s
  | .restartQuietDone slot => Sys2Proof.Machine.execRestartQuietDone slot s
  | .restartAgreementTimeout slot => Sys2Proof.Machine.execRestartAgreementTimeout slot s
  | .restartRestoreDone slot => Sys2Proof.Machine.execRestartRestoreDone slot s
  | .restartResume slot => Sys2Proof.Machine.execRestartResume slot s
  -- core instructions
  | .outerProductUpdate c o u => Sys2Proof.Machine.execOuterProductUpdate c o u s
  | .matrixVectorUpdate c o u => Sys2Proof.Machine.execMatrixVectorUpdate c o u s
  | .drain c o u => Sys2Proof.Machine.execDrain c o u s
  | .add c o k u => Sys2Proof.Machine.execAdd c o k u s
  | .sub c o u => Sys2Proof.Machine.execSub c o u s
  | .mul c o u => Sys2Proof.Machine.execMul c o u s
  | .fma c o u => Sys2Proof.Machine.execFma c o u s
  | .fms c o u => Sys2Proof.Machine.execFms c o u s
  | .abs c o u => Sys2Proof.Machine.execAbs c o u s
  | .neg c o u => Sys2Proof.Machine.execNeg c o u s
  | .min c o u => Sys2Proof.Machine.execMin c o u s
  | .max c o u => Sys2Proof.Machine.execMax c o u s
  | .cmp c cc p a b m u => Sys2Proof.Machine.execCmp c cc p a b m u s
  | .sel c o p u => Sys2Proof.Machine.execSel c o p u s
  | .iadd c o u => Sys2Proof.Machine.execIadd c o u s
  | .isub c o u => Sys2Proof.Machine.execIsub c o u s
  | .iadds c o u => Sys2Proof.Machine.execIadds c o u s
  | .isubs c o u => Sys2Proof.Machine.execIsubs c o u s
  | .and c o u => Sys2Proof.Machine.execAnd c o u s
  | .or c o u => Sys2Proof.Machine.execOr c o u s
  | .xor c o u => Sys2Proof.Machine.execXor c o u s
  | .shl c o u => Sys2Proof.Machine.execShl c o u s
  | .shr c o u => Sys2Proof.Machine.execShr c o u s
  | .sar c o u => Sys2Proof.Machine.execSar c o u s
  | .cvtI2f c o u => Sys2Proof.Machine.execCvtI2f c o u s
  | .cvtF2i c o u => Sys2Proof.Machine.execCvtF2i c o u s
  | .rnd c o fmt u => Sys2Proof.Machine.execRnd c o fmt u s
  | .mov c o u => Sys2Proof.Machine.execMov c o u s
  | .bcr c o row u => Sys2Proof.Machine.execBcr c o row u s
  | .bcc c o col u => Sys2Proof.Machine.execBcc c o col u s
  | .bcs c d x m u => Sys2Proof.Machine.execBcs c d x m u s
  | .rsum c o u => Sys2Proof.Machine.execRsum c o u s
  | .rmax c o u => Sys2Proof.Machine.execRmax c o u s
  | .rmin c o u => Sys2Proof.Machine.execRmin c o u s
  | .csum c o u => Sys2Proof.Machine.execCsum c o u s
  | .cmax c o u => Sys2Proof.Machine.execCmax c o u s
  | .cmin c o u => Sys2Proof.Machine.execCmin c o u s
  | .pand c d a b m => Sys2Proof.Machine.execPand c d a b m s
  | .por c d a b m => Sys2Proof.Machine.execPor c d a b m s
  | .pnot c d a m => Sys2Proof.Machine.execPnot c d a m s
  | .setLen c src => Sys2Proof.Machine.execSetLen c src s
  | .flagRd c x => Sys2Proof.Machine.execFlagRd c x s
  | .flagClr c mask => Sys2Proof.Machine.execFlagClr c mask s
  | .ld c o u => Sys2Proof.Machine.execLd c o u s
  | .ldr c o u => Sys2Proof.Machine.execLdr c o u s
  | .st c o u => Sys2Proof.Machine.execSt c o u s
  | .str c o u => Sys2Proof.Machine.execStr c o u s
  | .dwa c o u => Sys2Proof.Machine.execDwa c o u s
  | .sfExp2 c o u => Sys2Proof.Machine.execSfExp2 c o u s
  | .sfExp c o u => Sys2Proof.Machine.execSfExp c o u s
  | .sfLog2 c o u => Sys2Proof.Machine.execSfLog2 c o u s
  | .sfLog c o u => Sys2Proof.Machine.execSfLog c o u s
  | .sfRcp c o u => Sys2Proof.Machine.execSfRcp c o u s
  | .sfRsqrt c o u => Sys2Proof.Machine.execSfRsqrt c o u s
  | .sfTanh c o u => Sys2Proof.Machine.execSfTanh c o u s
  | .sfSigm c o u => Sys2Proof.Machine.execSfSigm c o u s
  | .sfErf c o u => Sys2Proof.Machine.execSfErf c o u s
  | .sfSoftplus c o u => Sys2Proof.Machine.execSfSoftplus c o u s
  | .sfGelu c o u => Sys2Proof.Machine.execSfGelu c o u s
  | .sfSilu c o u => Sys2Proof.Machine.execSfSilu c o u s
  | .smxInit c ta => Sys2Proof.Machine.execSmxInit c ta s
  | .smxAcc c te ta ts m u => Sys2Proof.Machine.execSmxAcc c te ta ts m u s
  | .smxExp c te ts ta m u => Sys2Proof.Machine.execSmxExp c te ts ta m u s
  | .smxNorm c td te ta m u => Sys2Proof.Machine.execSmxNorm c td te ta m u s
  | .smxMerge c ta tb u => Sys2Proof.Machine.execSmxMerge c ta tb u s
  | .nrmInit c ta zeroShift => Sys2Proof.Machine.execNrmInit c ta zeroShift s
  | .nrmAcc c ta ts m u => Sys2Proof.Machine.execNrmAcc c ta ts m u s
  | .nrmFin c td ta u => Sys2Proof.Machine.execNrmFin c td ta u s
  | .nrmMerge c ta tb u => Sys2Proof.Machine.execNrmMerge c ta tb u s
  | .send c o => Sys2Proof.Machine.execSend c o s
  | .recv c o => Sys2Proof.Machine.execRecv c o s
  | .stitchCreditArrival c at' => Sys2Proof.Machine.execStitchCreditArrival c at' s
  | .stopMax c ts m u => Sys2Proof.Machine.execStopMax c ts m u s
  | .nzNorm c o u => Sys2Proof.Machine.execNzNorm c o u s
  | .poolMax c o u => Sys2Proof.Machine.execPoolMax c o u s
  | .poolAvg c o u => Sys2Proof.Machine.execPoolAvg c o u s
  | .rsNear c o u => Sys2Proof.Machine.execRsNear c o u s
  | .rsBil c o u => Sys2Proof.Machine.execRsBil c o u s
  -- weight decoders and tables
  | .swfBlockDecode slot tensor block => Sys2Proof.Machine.execSwfBlockDecode slot tensor block s
  | .atUseBlockRequest c tensor block well => Sys2Proof.Machine.execAtUseBlockRequest c tensor block well s
  | .tableInstall cls => Sys2Proof.Machine.execTableInstall cls s
  | .tableLoadTimeout cls => Sys2Proof.Machine.execTableLoadTimeout cls s
  -- final records of commands that replied ACCEPTED; `op` is the command's place in the order of fetch
  | .partitionApplied => Sys2Proof.Machine.execPartitionApplied s
  | .memCopyDone op => Sys2Proof.Machine.execMemCopyDone op s
  | .memFillDone op => Sys2Proof.Machine.execMemFillDone op s
  | .memVerifyDone op => Sys2Proof.Machine.execMemVerifyDone op s
  | .folioLoadDone op img => Sys2Proof.Machine.execFolioLoadDone op img s
  | .folioPinDone op => Sys2Proof.Machine.execFolioPinDone op s
  | .kvPageMapDone op => Sys2Proof.Machine.execKvPageMapDone op s
  | .quiesceDone => Sys2Proof.Machine.execQuiesceDone s
  | .jobCancelDone op => Sys2Proof.Machine.execJobCancelDone op s
  | .readResultDone op => Sys2Proof.Machine.execReadResultDone op s
  | .releaseResultDone op => Sys2Proof.Machine.execReleaseResultDone op s
  | .linkTrainDone op rs => Sys2Proof.Machine.execLinkTrainDone op rs s
  | .marginReportDone op => Sys2Proof.Machine.execMarginReportDone op s
  | .attestDone op => Sys2Proof.Machine.execAttestDone op s
  | .fwStageDone op => Sys2Proof.Machine.execFwStageDone op s
  | .videoCloseDone op => Sys2Proof.Machine.execVideoCloseDone op s
  | .awlRegionDone c miss => Sys2Proof.Machine.execAwlRegionDone c miss s
  -- video
  | .frameStart e => Sys2Proof.Machine.execFrameStart e s
  | .tileGroupEmit e bits rowBits => Sys2Proof.Machine.execTileGroupEmit e bits rowBits s
  | .frameDone e r recon => Sys2Proof.Machine.execFrameDone e r recon s
  -- links
  | .writeFlit l f => Sys2Proof.Machine.execWriteFlit l f s
  | .reduceFlit l f u => Sys2Proof.Machine.execReduceFlit l f u s
  | .idleFlit l f => Sys2Proof.Machine.execIdleFlit l f s
  | .fault m reason count => Sys2Proof.Machine.execFault m reason count s
  | .barrierEnter m rank t same => Sys2Proof.Machine.execBarrierEnter m rank t same s
  | .start m t => Sys2Proof.Machine.execStart m t s
  | .abort m timeout => Sys2Proof.Machine.execAbort m timeout s
  | .refuse m status reason => Sys2Proof.Machine.execRefuse m status reason s
  | .stopStat m rank step stat => Sys2Proof.Machine.execStopStat m rank step stat s
  | .commit m rank ordinal => Sys2Proof.Machine.execCommit m rank ordinal s
  | .pager m ds => Sys2Proof.Machine.execPager m ds s
  | .laneLockLoss l lane => Sys2Proof.Machine.execLaneLockLoss l lane s
  | .laneSymbolLimit l lane => Sys2Proof.Machine.execLaneSymbolLimit l lane s
  | .laneUncorrectableRun l symbols => Sys2Proof.Machine.execLaneUncorrectableRun l symbols s
  | .laneRealignDone l peerRx => Sys2Proof.Machine.execLaneRealignDone l peerRx s
  -- integrity, power, boot
  | .crossingStall src dst => Sys2Proof.Machine.execCrossingStall src dst s
  | .monitorSample warnings hits => Sys2Proof.Machine.execMonitorSample warnings hits s
  | .burnishDue j => Sys2Proof.Machine.execBurnishDue j s
  | .burnishIdlePass j r => Sys2Proof.Machine.execBurnishIdlePass j r s
  | .burnishLivePass j r => Sys2Proof.Machine.execBurnishLivePass j r s
  | .islFreqUpdate cycles => Sys2Proof.Machine.execIslFreqUpdate cycles s
  | .powerSample milliwatts => Sys2Proof.Machine.execPowerSample milliwatts s
  | .thermalFault j => Sys2Proof.Machine.execThermalFault j s
  | .thermLAssert j => Sys2Proof.Machine.execThermLAssert j s
  | .thermLRelease => Sys2Proof.Machine.execThermLRelease s
  | .powerFault r => Sys2Proof.Machine.execPowerFault r s
  | .sysclkLoss => Sys2Proof.Machine.execSysclkLoss s
  | .optclkLoss => Sys2Proof.Machine.execOptclkLoss s
  | .pwrgoodRise bootMode => Sys2Proof.Machine.execPwrgoodRise bootMode s
  | .pwrgoodFall => Sys2Proof.Machine.execPwrgoodFall s
  | .resetLAssert => Sys2Proof.Machine.execResetLAssert s
  | .resetLRise => Sys2Proof.Machine.execResetLRise s
  | .fuseLoadDone bad => Sys2Proof.Machine.execFuseLoadDone bad s
  | .ucieTrainingDone modules rate => Sys2Proof.Machine.execUcieTrainingDone modules rate s
  | .imageReadDone => Sys2Proof.Machine.execImageReadDone s
  | .imageReadTimeout => Sys2Proof.Machine.execImageReadTimeout s
  | .hostWaitTimeout => Sys2Proof.Machine.execHostWaitTimeout s
  | .verifyDone => Sys2Proof.Machine.execVerifyDone s
  | .releaseDone bootFuseOk ratchetOk => Sys2Proof.Machine.execReleaseDone bootFuseOk ratchetOk s
  | .hbmTrainingDone cap best report => Sys2Proof.Machine.execHbmTrainingDone cap best report s
  | .subtreeReady => Sys2Proof.Machine.execSubtreeReady s
  | .firstBurnishDone r => Sys2Proof.Machine.execFirstBurnishDone r s
  -- register rows
  | .ringDoorbell n tail => Sys2Proof.Machine.execRingDoorbell n tail s
  | .ringEnable n value => Sys2Proof.Machine.execRingEnable n value s
  | .ringDisable n value => Sys2Proof.Machine.execRingDisable n value s
  | .backlogRecordWrite n => Sys2Proof.Machine.execBacklogRecordWrite n s
  | .firmwareStall n opcode p scribe committed => Sys2Proof.Machine.execFirmwareStall n opcode p scribe committed s
  | .ctlCountLo wide => Sys2Proof.Machine.execCtlCountLo wide s
  | .vidRingProdLo e x wide => Sys2Proof.Machine.execVidRingProdLo e x wide s
  | .vidRingConsLo e x value => Sys2Proof.Machine.execVidRingConsLo e x value s
  | .opeFailInfo cl wide => Sys2Proof.Machine.execOpeFailInfo cl wide s
  | .vecFailInfo cl wide => Sys2Proof.Machine.execVecFailInfo cl wide s
  | .hbmChEcc c wide => Sys2Proof.Machine.execHbmChEcc c wide s
  | .linkFec l wide => Sys2Proof.Machine.execLinkFec l wide s
  | .linkReplay l wide => Sys2Proof.Machine.execLinkReplay l wide s
  | .linkLaneSym l wide => Sys2Proof.Machine.execLinkLaneSym l wide s
  | .vidErr e wide => Sys2Proof.Machine.execVidErr e wide s
  | .hstLinkErr wide => Sys2Proof.Machine.execHstLinkErr wide s
  | .awlCtlStop c done => Sys2Proof.Machine.execAwlCtlStop c done s
  | .serviceHours value => Sys2Proof.Machine.execServiceHours value s
  | .irqMask hi value => Sys2Proof.Machine.execIrqMask hi value s
  | .msixMaskClear v => Sys2Proof.Machine.execMsixMaskClear v s
  | .irqEvent value => Sys2Proof.Machine.execIrqEvent value s
  | .irqHoldoffExpiry n => Sys2Proof.Machine.execIrqHoldoffExpiry n s
  | .go => Sys2Proof.Machine.execGo s
  | .hostBootGo => Sys2Proof.Machine.execHostBootGo s
  | .registerWrite off wide value => Sys2Proof.Machine.execRegisterWrite off wide value s
  -- host bus and management
  | .cxlMemRead off => Sys2Proof.Machine.execCxlMemRead off s
  | .cxlMemWrite off enable data => Sys2Proof.Machine.execCxlMemWrite off enable data s
  | .cxlSnoop addr => Sys2Proof.Machine.execCxlSnoop addr s
  | .backInvalidateResponse line => Sys2Proof.Machine.execBackInvalidateResponse line s
  | .hostLinkDown => Sys2Proof.Machine.execHostLinkDown s
  | .hostLinkUp modules rate => Sys2Proof.Machine.execHostLinkUp modules rate s
  | .i3cPrivateWrite bytes => Sys2Proof.Machine.execI3cPrivateWrite bytes s
  | .i3cPrivateRead n => Sys2Proof.Machine.execI3cPrivateRead n s
  | .i3cAddressAssign addr => Sys2Proof.Machine.execI3cAddressAssign addr s
  | .burnishRunDone op r => Sys2Proof.Machine.execBurnishRunDone op r s
  | .globalObservationResponse addr => Sys2Proof.Machine.execGlobalObservationResponse addr s
  | .jtagAccess ir dr => Sys2Proof.Machine.execJtagAccess ir dr s
  | .hostModuleLost k => Sys2Proof.Machine.execHostModuleLost k s

end Sys2Proof.Machine
end

