-- ==== Sys2Proof/Machine/Held.lean ====
section
/-!
DEFINITION. Commands that are held (R125, R180, R181, R188, R255): which one is let go when nothing is queued, and its run.
-/
namespace Sys2Proof.Machine

/-- What a held command waits for has come. -/
def State.freed (s : State) (h : Held) : Bool :=
  let regs := fun (r : CoreRef) (l : List Nat) => s.issues r.core r.slot && l.all ((s.core r.core).tregOk r.slot)
  match h.why with
  | .issue r l => regs r l
  | .recv r l d => regs r l && !s.linkFull r d
  | .phase r => match h.cmd with
    | .phaseInstanceStart _ ⟨phase, u⟩ => match s.phaseOf r.slot r.core phase with
      | some (j, d, p) => !s.unitWaits r phase j d p u && (s.unitRegs r phase u).all ((s.core r.core).tregOk r.slot)
      | none => false
    | _ => false

/-- The first held command that can go, with those before and after it; a job's commands on a core go in their order. -/
def State.firstFreed (s : State) : List Held → List Held → Option (List Held × Held × List Held)
  | _, [] => none
  | pre, h :: post =>
    if !(pre.any fun x => x.why.ref == h.why.ref) && s.freed h then some (pre, h, post) else s.firstFreed (pre ++ [h]) post

/-- The job of a held command still runs, or is preempted. -/
def State.stillHeld (s : State) (h : Held) : Bool :=
  match s.job h.why.ref.slot with
  | some j => j.st == .running || j.st == .preempted
  | none => false

/-- The device with nothing queued: a held command that can go runs, else the counter ticks (log 7, log 55). -/
def State.idle (s : State) : Res :=
  match s.firstFreed [] s.held with
  | none => .next s.tick
  | some (pre, h, post) => match exec h.cmd (s.withHeld pre) with
    | .next t => .next (t.withHeld (t.held ++ post.filter t.stillHeld))
    | o => o

end Sys2Proof.Machine
end

