-- ==== Sys2Proof/Machine/Step.lean ====
section
/-! DEFINITION. One step: the command at the front of the queue runs; on an empty queue a held command that can go runs, or the counter
ticks (log 7). -/
namespace Sys2Proof.Machine

/-- Take the command at the front of the queue and run it on the device with the queue's rest. -/
def step (s : State) : Host.Outcome State Fault Refusal :=
  match s.pending with
  | [] => s.idle
  | c :: q => exec c (s.withPending q)

/-- The table gives no row a bit, so no word spells a command and the state stays as it is. -/
def State.withFetchWord (s : State) (nbits w : Nat) : State :=
  match decodeTableWord nbits w with
  | some c => s.withPending (c :: s.pending)
  | none => s

end Sys2Proof.Machine
end

