-- ==== Sys2Proof/Machine/Forms.lean ====
section
/-! DEFINITION. The operands with which each row completes: those that an encoding of the spec, or the sender of an event, can give. -/
namespace Sys2Proof
open Sys2Proof.Machine

/-- A command whose operands the hardware can be given, row by row. -/
def Instr.wf : Instr → Bool
  | .echo _ p => p.wf
  | .queryState _ p => p.wf
  | .quiesce _ p => p.wf
  | .resume _ p _ => p.wf
  | .setPartition _ p => p.wf
  | .memCopy _ p => p.wf
  | .memFill _ p => p.wf
  | .memVerify _ p => p.wf
  | .folioLoad _ p => p.wf
  | .folioPin _ p => p.wf
  | .folioEvict _ p => p.wf
  | .tableLoad _ p => p.wf
  | .jobSubmit _ p => p.wf
  | .jobCancel _ p => p.wf
  | .jobStatus _ p => p.wf
  | .readResult _ p => p.wf
  | .releaseResult _ p => p.wf
  | .seqJoin _ p => p.wf
  | .seqLeave _ p => p.wf
  | .kvPageMap _ p => p.wf
  | .topoSet _ p => p.wf
  | .groupDefine _ p => p.wf
  | .linkTrain _ p => p.wf
  | .videoOpen _ p => p.wf
  | .videoFrame _ p => p.wf
  | .videoClose _ p => p.wf
  | .burnishRun _ p => p.wf
  | .marginReport _ p => p.wf
  | .attest _ p => p.wf
  | .fwStage _ p => p.wf
  | .awlStart _ p => p.wf
  | .awlStop _ p _ => p.wf
  | .awlReport _ p => p.wf
  | .unknownOpcodePacket _ opcode p => !opcodes.contains opcode.toNat && p.wf
  | .admissionDecision _ | .waitingJobRetry | .preemptSpillDone _ _ | .victimResume _ | .phaseInstanceStart _ _ | .stepCut _
  | .snapshotCommit _ | .pagerDecisionRecord _ | .jobComplete _ | .promiseOverrun _ | .deadlinePassed _ | .startWaitTimeout _
  | .restartQuietDone _ | .restartAgreementTimeout _ | .restartRestoreDone _ | .restartResume _ => true
  | .outerProductUpdate _ o _ => o.wf
  | .matrixVectorUpdate _ o _ => o.wf
  | .drain _ o _ => o.wf
  | .add _ _ _ _ | .sub _ _ _ | .mul _ _ _ | .fma _ _ _ | .fms _ _ _ | .abs _ _ _ | .neg _ _ _ | .min _ _ _ | .max _ _ _
  | .cmp _ _ _ _ _ _ _ | .sel _ _ _ _ | .iadd _ _ _ | .isub _ _ _ | .iadds _ _ _ | .isubs _ _ _ | .and _ _ _ | .or _ _ _
  | .xor _ _ _ | .shl _ _ _ | .shr _ _ _ | .sar _ _ _ | .cvtI2f _ _ _ | .cvtF2i _ _ _ => true
  | .rnd _ _ fmt _ => rndFmtOk fmt
  | .mov _ _ _ | .bcr _ _ _ _ | .bcc _ _ _ _ | .bcs _ _ _ _ _ | .rsum _ _ _ | .rmax _ _ _ | .rmin _ _ _ | .csum _ _ _
  | .cmax _ _ _ | .cmin _ _ _ | .pand _ _ _ _ _ | .por _ _ _ _ _ | .pnot _ _ _ _ => true
  | .setLen _ src => src.wf
  | .flagRd _ _ | .flagClr _ _ => true
  | .ld _ o _ => o.wf
  | .ldr _ o _ => o.wf
  | .st _ o _ => o.wf
  | .str _ o _ => o.wf
  | .dwa _ o _ => o.wf
  | .sfExp2 _ _ _ | .sfExp _ _ _ | .sfLog2 _ _ _ | .sfLog _ _ _ | .sfRcp _ _ _ | .sfRsqrt _ _ _ | .sfTanh _ _ _ | .sfSigm _ _ _
  | .sfErf _ _ _ | .sfSoftplus _ _ _ | .sfGelu _ _ _ | .sfSilu _ _ _ | .smxInit _ _ | .smxAcc _ _ _ _ _ _ | .smxExp _ _ _ _ _ _
  | .smxNorm _ _ _ _ _ _ | .smxMerge _ _ _ _ | .nrmInit _ _ _ | .nrmAcc _ _ _ _ _ | .nrmFin _ _ _ _ | .nrmMerge _ _ _ _ => true
  | .send _ o => o.wf
  | .recv _ o => o.wf
  | .stitchCreditArrival _ _ | .stopMax _ _ _ _ => true
  | .nzNorm _ o _ => o.wf
  | .poolMax _ o _ => o.wf
  | .poolAvg _ o _ => o.wf
  | .rsNear _ o _ => o.wf
  | .rsBil _ o _ => o.wf
  | .swfBlockDecode _ _ _ | .atUseBlockRequest _ _ _ _ | .tableInstall _ | .tableLoadTimeout _ | .partitionApplied
  | .memCopyDone _ | .memFillDone _ | .memVerifyDone _ | .folioLoadDone _ _ | .folioPinDone _ | .kvPageMapDone _ | .quiesceDone
  | .jobCancelDone _ | .readResultDone _ | .releaseResultDone _ | .linkTrainDone _ _ | .marginReportDone _ | .attestDone _
  | .fwStageDone _ | .videoCloseDone _ | .awlRegionDone _ _ | .frameStart _ | .tileGroupEmit _ _ _ | .frameDone _ _ _ => true
  | .writeFlit _ f => flitIs f 1
  | .reduceFlit _ f _ => flitIs f 2
  | .idleFlit _ f => flitIs f 0
  | .fault _ _ _ | .barrierEnter _ _ _ _ | .start _ _ | .abort _ _ | .refuse _ _ _ | .stopStat _ _ _ _ | .commit _ _ _ | .pager _ _
  | .laneLockLoss _ _ | .laneSymbolLimit _ _ | .laneUncorrectableRun _ _ | .laneRealignDone _ _ | .crossingStall _ _
  | .monitorSample _ _ | .burnishDue _ => true
  | .burnishIdlePass _ r => !r.isEmpty
  | .burnishLivePass _ r => !r.isEmpty
  | .islFreqUpdate _ | .powerSample _ | .thermalFault _ | .thermLAssert _ | .thermLRelease | .powerFault _ | .sysclkLoss
  | .optclkLoss | .pwrgoodRise _ | .pwrgoodFall | .resetLAssert | .resetLRise | .fuseLoadDone _ => true
  | .ucieTrainingDone modules rate => if modules = 0 then rate == 0 else hostRates.contains rate.toNat
  | .imageReadDone | .imageReadTimeout | .hostWaitTimeout | .verifyDone | .releaseDone _ _ => true
  | .hbmTrainingDone cap _ _ => decide (cap ≤ 120)
  | .subtreeReady => true
  | .firstBurnishDone r => (List.range islandCount).all fun i => !(r.getD i []).isEmpty
  | .ringDoorbell _ _ => true
  | .ringEnable _ value => value.getLsbD 0
  | .ringDisable _ value => !value.getLsbD 0
  | .backlogRecordWrite _ => true
  | .firmwareStall n _ p _ _ => n.isNone || p.wf
  | .ctlCountLo _ | .vidRingProdLo _ _ _ | .vidRingConsLo _ _ _ | .opeFailInfo _ _ | .vecFailInfo _ _ | .hbmChEcc _ _
  | .linkFec _ _ | .linkReplay _ _ | .linkLaneSym _ _ | .vidErr _ _ | .hstLinkErr _ | .awlCtlStop _ _ | .serviceHours _
  | .irqMask _ _ | .msixMaskClear _ | .irqEvent _ | .irqHoldoffExpiry _ | .go | .hostBootGo | .registerWrite _ _ _ => true
  | .cxlMemRead off => off % 64 == 0 && decide (off < hbmBytes)
  | .cxlMemWrite off _ data => off % 64 == 0 && decide (off < hbmBytes) && data.length == 64
  | .cxlSnoop _ | .backInvalidateResponse _ | .hostLinkDown => true
  | .hostLinkUp modules rate => modules != 0 && hostRates.contains rate.toNat
  | .i3cPrivateWrite _ | .i3cPrivateRead _ | .i3cAddressAssign _ => true
  | .burnishRunDone _ r => (List.range islandCount).all fun i => !(readingsOf r i).isEmpty
  | .globalObservationResponse _ | .jtagAccess _ _ | .hostModuleLost _ => true

end Sys2Proof
end

