-- ==== Sys2Proof/Safety.lean ====
section
/-! DEFINITION. What a safe run is: every step of it answers a next state. -/
namespace Sys2Proof

/-- The step at `s` ends neither in a fault nor in a refusal. -/
def SafeStep (s : Machine.State) : Prop := ∃ t, Machine.step s = .next t

/-- `n` steps from `s`, each of them safe. -/
def SafeRun (n : Nat) (s : Machine.State) : Prop := ∃ t, core.run n s = .next t

end Sys2Proof
end

