-- ==== Sys2Proof/Certificates/Slice0/Obligations.lean ====
section
/-!
DEFINITION. The statements for the provers. The first part fixes the few predicates that the statements share: that a command answers
a next state, and what it leaves unchanged.
-/
namespace Sys2Proof.Claims

open Sys2Proof.Machine

/-! ## Completion and frames -/

/-- The command answers a next state of which `P` holds. -/
def Does (i : Instr) (s : State) (P : State → Prop) : Prop := ∃ t, exec i s = .next t ∧ P t

/-- Nothing but core `c` has changed. -/
def OnlyCore (c : Nat) (s t : State) : Prop := t = s.withCores t.cores ∧ ∀ n, n ≠ c → t.core n = s.core n

/-- The flag word of a context gains the bits that `fl` gives and loses none (R133). -/
def FlagsGain (x y : Ctx) (fl : Nat → Bool) : Prop := ∀ b, y.flags.getLsbD b = (x.flags.getLsbD b || fl b)

/-- On a core, only the tile registers `ds` and the flag word of job `k` have changed; the registers are the job's. -/
def OnlyRegs (k : Nat) (ds : List Nat) (x y : CoreSt) : Prop :=
  y = { x with tregs := y.tregs, ctxs := y.ctxs } ∧
  (∀ n, n ∉ ds → y.tregs.get TReg.empty n = x.tregs.get TReg.empty n) ∧
  (∀ d ∈ ds, (y.tregs.get TReg.empty d).owner = some k) ∧
  (∀ j, j ≠ k → y.ctxs.get Ctx.empty j = x.ctxs.get Ctx.empty j) ∧
  y.ctxs.get Ctx.empty k = { x.ctxs.get Ctx.empty k with flags := (y.ctxs.get Ctx.empty k).flags }

/-- Register `d` takes the lanes `val`, the flag word of the job gains the bits `fl`, and nothing else changes. -/
def Lanes (c : CoreRef) (d : Nat) (val : Nat → Word) (fl : Nat → Bool) (s t : State) : Prop :=
  OnlyCore c.core s t ∧ OnlyRegs c.slot [d] (s.core c.core) (t.core c.core) ∧
  (∀ i, i < 512 → (t.core c.core).lane d i = val i) ∧ FlagsGain (s.ctx c.core c.slot) (t.ctx c.core c.slot) fl

/-- What a vector instruction writes (R116 to R118): active lanes of `d` take the value and raise the flags of `f`, an inactive lane is
kept or zeroed and raises none, and nothing else changes. -/
def Vec (c : CoreRef) (d : Nat) (m : Mask) (f : Nat → FW) (s t : State) : Prop :=
  let act := (s.ctx c.core c.slot).act m.pred
  Lanes c d (fun i => if act i then (f i).1 else if m.zero then 0 else (s.core c.core).lane d i)
    (fun b => (List.range 512).any fun i => act i && (f i).2.getLsbD b) s t

/-- An instruction that names the registers `regs` issues, and vector form `i` writes `d` under `m` as `f` says. -/
def VecForm (i : Instr) (c : CoreRef) (d : Nat) (regs : List Nat) (m : Mask) (f : CoreSt → Nat → FW) (s : State) : Prop :=
  s.ready c (d :: regs) = true → Does i s (Vec c d m (f (s.core c.core)) s)

/-- What a predicate destination takes (R116, R117): P0 nothing; another, `f` at active lanes, and its bit or 0 at the others. -/
def Pred (c : CoreRef) (p : Nat) (m : Mask) (f : Nat → Bool) (s t : State) : Prop :=
  let x := s.ctx c.core c.slot
  let y := t.ctx c.core c.slot
  OnlyCore c.core s t ∧ t.core c.core = { s.core c.core with ctxs := (t.core c.core).ctxs } ∧
  (∀ j, j ≠ c.slot.val → t.ctx c.core j = s.ctx c.core j) ∧ y = { x with preds := y.preds } ∧
  (∀ q, q ≠ p ∨ p = 0 → y.preds.get 0 q = x.preds.get 0 q) ∧
  (p ≠ 0 → ∀ i, i < 512 →
    (y.preds.get 0 p).getLsbD i = if x.act m.pred i then f i else !m.zero && (x.preds.get 0 p).getLsbD i)

/-- Only the context of the job on its core has changed, to `y`. -/
def OnlyCtx (c : CoreRef) (y : Ctx) (s t : State) : Prop :=
  OnlyCore c.core s t ∧ t.core c.core = { s.core c.core with ctxs := (t.core c.core).ctxs } ∧
  (∀ j, j ≠ c.slot.val → t.ctx c.core j = s.ctx c.core j) ∧ t.ctx c.core c.slot = y

end Sys2Proof.Claims

open Sys2Proof Sys2Proof.Machine Sys2Proof.Claims

/-! ## The vector engine (04) -/

/-- R119: ADD, SUB, MUL, FMA, FMS, ABS and NEG. ADD of the forms of R527 raises ACC_SAT at most. -/
def Obligations.ArithmeticWritesActiveLanes : Prop :=
  ∀ (c : CoreRef) (o1 : Vec1) (o : Vec2) (o3 : Vec3) (k : AccAdd) (s : State),
    VecForm (.add c o k .none) c o.d [o.a, o.b] o.m (fun x i => addKind k (x.lane o.a i) (x.lane o.b i)) s ∧
    VecForm (.sub c o .none) c o.d [o.a, o.b] o.m (fun x i => (fsub (x.lane o.a i) (x.lane o.b i)).fw) s ∧
    VecForm (.mul c o .none) c o.d [o.a, o.b] o.m (fun x i => (fmul (x.lane o.a i) (x.lane o.b i)).fw) s ∧
    VecForm (.fma c o3 .none) c o3.d [o3.a, o3.b, o3.c] o3.m
      (fun x i => (ffma (x.lane o3.a i) (x.lane o3.b i) (x.lane o3.c i)).fw) s ∧
    VecForm (.fms c o3 .none) c o3.d [o3.a, o3.b, o3.c] o3.m
      (fun x i => (ffms (x.lane o3.a i) (x.lane o3.b i) (x.lane o3.c i)).fw) s ∧
    VecForm (.abs c o1 .none) c o1.d [o1.a] o1.m (fun x i => FW.of (fabs (x.lane o1.a i))) s ∧
    VecForm (.neg c o1 .none) c o1.d [o1.a] o1.m (fun x i => FW.of (fneg (x.lane o1.a i))) s

/-- R120 and R265: MIN, MAX, CMP.cc, SEL and STOPMAX. -/
def Obligations.SelectionWritesActiveLanes : Prop :=
  ∀ (c : CoreRef) (o : Vec2) (cc : Cond) (p : Fin 8) (a b : Fin 32) (m : Mask) (s : State),
    VecForm (.min c o .none) c o.d [o.a, o.b] o.m (fun x i => FW.of (fmin (x.lane o.a i) (x.lane o.b i))) s ∧
    VecForm (.max c o .none) c o.d [o.a, o.b] o.m (fun x i => FW.of (fmax (x.lane o.a i) (x.lane o.b i))) s ∧
    VecForm (.sel c o p .none) c o.d [o.a, o.b] o.m (fun x i =>
      FW.of (if (s.ctx c.core c.slot).predBit p i then x.lane o.a i else x.lane o.b i)) s ∧
    (s.ready c [a.val, b.val] = true → Does (.cmp c cc p a b m .none) s (Pred c p m (fun i =>
      cmpCond cc ((s.core c.core).lane a i) ((s.core c.core).lane b i)) s)) ∧
    (s.ready c [a.val] = true → Does (.stopMax c a m .none) s (OnlyCtx c { s.ctx c.core c.slot with
      stopAcc := ((List.range 512).filter ((s.ctx c.core c.slot).act m.pred)).foldl
        (fun acc i => fmax acc (fabs ((s.core c.core).lane a i))) (s.ctx c.core c.slot).stopAcc } s))

/-- R121: IADD, ISUB, IADDS, ISUBS, AND, OR, XOR, SHL, SHR and SAR, in words of two's complement. -/
def Obligations.IntegerLogicWritesActiveLanes : Prop :=
  ∀ (c : CoreRef) (o : Vec2) (s : State),
    let two := fun (i : Instr) (f : Word → Word → Word) =>
      VecForm i c o.d [o.a, o.b] o.m (fun x n => (f (x.lane o.a n) (x.lane o.b n), 0)) s
    let sat := fun (i : Instr) (f : Int → Int → Int) =>
      VecForm i c o.d [o.a, o.b] o.m (fun x n =>
        let v := f (x.lane o.a n).toInt (x.lane o.b n).toInt
        (BitVec.ofInt 32 (max (-2 ^ 31) (min (2 ^ 31 - 1) v)), if -2 ^ 31 ≤ v ∧ v < 2 ^ 31 then 0 else 0x20)) s
    two (.iadd c o .none) (fun a b => BitVec.ofNat 32 (a.toNat + b.toNat)) ∧
    two (.isub c o .none) (fun a b => BitVec.ofInt 32 ((a.toNat : Int) - b.toNat)) ∧
    sat (.iadds c o .none) (fun a b => a + b) ∧ sat (.isubs c o .none) (fun a b => a - b) ∧
    two (.and c o .none) (fun a b => a &&& b) ∧ two (.or c o .none) (fun a b => a ||| b) ∧
    two (.xor c o .none) (fun a b => a ^^^ b) ∧
    two (.shl c o .none) (fun a b => BitVec.ofNat 32 (a.toNat * 2 ^ (b.toNat % 32))) ∧
    two (.shr c o .none) (fun a b => BitVec.ofNat 32 (a.toNat / 2 ^ (b.toNat % 32))) ∧
    two (.sar c o .none) (fun a b => BitVec.ofInt 32 (a.toInt / (2 ^ (b.toNat % 32) : Nat)))

/-- R122 and R124: CVT.I2F, CVT.F2I, RND.fmt of the codes it may name, MOV, BCR, BCC and BCS. -/
def Obligations.ConversionsAndCopiesWriteActiveLanes : Prop :=
  ∀ (c : CoreRef) (o : Vec1) (fmt : Byte) (row : Fin 16) (col : Fin 32) (v : Scalar) (s : State),
    VecForm (.cvtI2f c o .none) c o.d [o.a] o.m (fun x i => (i2f (x.lane o.a i), 0)) s ∧
    VecForm (.cvtF2i c o .none) c o.d [o.a] o.m (fun x i => cvtF2i (x.lane o.a i)) s ∧
    (fmt.toNat < 32 ∧ fmt.toNat % 16 ∈ [1, 2, 3, 4, 0xB, 0xC, 0xD] →
      VecForm (.rnd c o fmt .none) c o.d [o.a] o.m (fun x i => rndFw fmt (x.lane o.a i)) s) ∧
    VecForm (.mov c o .none) c o.d [o.a] o.m (fun x i => (x.lane o.a i, 0)) s ∧
    VecForm (.bcr c o row .none) c o.d [o.a] o.m (fun x i => (x.lane o.a (32 * row + i % 32), 0)) s ∧
    VecForm (.bcc c o col .none) c o.d [o.a] o.m (fun x i => (x.lane o.a (32 * (i / 32) + col), 0)) s ∧
    VecForm (.bcs c o.d v o.m .none) c o.d [] o.m (fun _ _ => ((s.ctx c.core c.slot).scalar v, 0)) s

/-- R123: RSUM, RMAX, RMIN, CSUM, CMAX and CMIN. Every lane within LEN takes its row's or column's result, whatever the mask
predicate holds; the others are kept or zeroed. A NaN gives the NaN of R119, also as the only element. -/
def Obligations.ReductionsWriteLanesWithinLen : Prop :=
  ∀ (c : CoreRef) (o : Vec1) (s : State),
    let x := s.ctx c.core c.slot
    let y := s.core c.core
    let row := fun (i : Nat) => ((List.range 32).map (32 * i + ·)).filter (x.act o.m.pred)
    let col := fun (j : Nat) => ((List.range 16).map (32 * · + j)).filter (x.act o.m.pred)
    let red := fun (i : Instr) (sel : Nat → List Nat) (heads : List Nat) (f : List Word → FW) =>
      s.ready c [o.d.val, o.a.val] = true → Does i s (Lanes c o.d
        (fun l => if l / 32 < x.rows ∧ l % 32 < x.cols then (f ((sel l).map (y.lane o.a))).1
          else if o.m.zero then 0 else y.lane o.d l)
        (fun b => heads.any fun h => (f ((sel h).map (y.lane o.a))).2.getLsbD b) s)
    let rows := (List.range 16).map (32 * ·)
    let sum := fun (l : List Word) => match l with
      | [v] => FW.of (if (decode32 v).isNan then 0x7FC00000 else v)
      | l => FW.treeSum (l.map FW.of)
    let extreme := fun (f : Word → Word → Word) (e : Word) (l : List Word) => FW.of (match l with
      | [] => e
      | v :: vs => vs.foldl f (f v v))
    red (.rsum c o .none) (fun l => row (l / 32)) rows sum ∧
    red (.rmax c o .none) (fun l => row (l / 32)) rows (extreme fmax 0xFF800000) ∧
    red (.rmin c o .none) (fun l => row (l / 32)) rows (extreme fmin 0x7F800000) ∧
    red (.csum c o .none) (fun l => col (l % 32)) (List.range 32) sum ∧
    red (.cmax c o .none) (fun l => col (l % 32)) (List.range 32) (extreme fmax 0xFF800000) ∧
    red (.cmin c o .none) (fun l => col (l % 32)) (List.range 32) (extreme fmin 0x7F800000)

/-- R115, R116, R134: PAND, POR, PNOT, SETLEN, FLAGRD and FLAGCLR; a SETLEN value out of range is a bounds error. -/
def Obligations.PredicatesAndContext : Prop :=
  ∀ (c : CoreRef) (d a b : Fin 8) (m : Mask) (r : Fin 16) (mask : Half) (v : Scalar) (rows cols : Nat) (s : State),
    let x := s.ctx c.core c.slot
    let w := (x.scalar v).toNat
    s.ready c [] = true →
    Does (.pand c d a b m) s (Pred c d m (fun i => x.predBit a i && x.predBit b i) s) ∧
    Does (.por c d a b m) s (Pred c d m (fun i => x.predBit a i || x.predBit b i) s) ∧
    Does (.pnot c d a m) s (Pred c d m (fun i => !x.predBit a i) s) ∧
    (rows ≤ 16 → cols ≤ 32 → Does (.setLen c (.imm rows cols)) s (OnlyCtx c { x with rows := rows, cols := cols } s)) ∧
    (w % 32 ≤ 16 → w / 256 % 64 ≤ 32 →
      Does (.setLen c (.reg v)) s (OnlyCtx c { x with rows := w % 32, cols := w / 256 % 64 } s)) ∧
    (16 < w % 32 ∨ 32 < w / 256 % 64 → ∃ detail, exec (.setLen c (.reg v)) s =
      .next (s.detect c.slot rsBounds (c.core.val / 32) detail)) ∧
    Does (.flagRd c r) s (OnlyCtx c { x with sregs := x.sregs.set 0 r (x.flags.zeroExtend 32) } s) ∧
    Does (.flagClr c mask) s (OnlyCtx c { x with flags := x.flags &&& ~~~mask } s)

/-! ## Special functions and guarded statistics (05) -/

/-- R144 to R153: every SF instruction writes the value and raises the flags of its function, in compatibility mode those of R166. -/
def Obligations.SpecialFunctionsWriteActiveLanes : Prop :=
  ∀ (c : CoreRef) (o : Vec1) (s : State),
    let sf := fun (i : Instr) (fn : SfFn) =>
      VecForm i c o.d [o.a] o.m (fun x l => (sfu (s.isCompat c.slot) fn (x.lane o.a l)).fw) s
    sf (.sfExp2 c o .none) .exp2 ∧ sf (.sfExp c o .none) .exp ∧ sf (.sfLog2 c o .none) .log2 ∧
    sf (.sfLog c o .none) .log ∧ sf (.sfRcp c o .none) .rcp ∧ sf (.sfRsqrt c o .none) .rsqrt ∧
    sf (.sfTanh c o .none) .tanh ∧ sf (.sfSigm c o .none) .sigm ∧ sf (.sfErf c o .none) .erf ∧
    sf (.sfSoftplus c o .none) .softplus ∧ sf (.sfGelu c o .none) .gelu ∧ sf (.sfSilu c o .none) .silu

/-- Rows below ROWS of register `n` take the leading columns that `f` gives with its flags; every other lane of the register stays. -/
def Sys2Proof.Claims.Rows (c : CoreRef) (n : Nat) (f : Nat → List Word × Half) (s t : State) : Prop :=
  let rows := (s.ctx c.core c.slot).rows
  Lanes c n (fun l => if l / 32 < rows then ((f (l / 32)).1)[l % 32]?.getD ((s.core c.core).lane n l) else (s.core c.core).lane n l)
    (fun b => (List.range rows).any fun i => (f i).2.getLsbD b) s t

/-- What `P` says, and the count of the ACC instructions that have fed the row states of `ta` (R163) is `n`. -/
def Sys2Proof.Claims.AccCounted (c : CoreRef) (ta : Fin 32) (n : Nat) (P : State → Prop) (t : State) : Prop :=
  ∃ u, P u ∧ t = u.withCores t.cores ∧ (∀ n, n ≠ c.core.val → t.core n = u.core n) ∧ t.core c.core = { u.core c.core with
    ctxs := (u.core c.core).ctxs.modify Ctx.empty c.slot fun y => { y with stat := y.stat.set 0 ta n } }

/-- The count after an ACC: 64, which takes no more, after a group of fewer than 32 columns, the statistic's last (R163). -/
def Sys2Proof.Claims.accCount (s : State) (c : CoreRef) (ta : Fin 32) : Nat :=
  if (s.ctx c.core c.slot).cols < 32 then 64 else (s.ctx c.core c.slot).stat.get 0 ta + 1

/-- An ACC may feed `ta`: in canonical order a chunk takes 64, in compatibility mode 8 (R163). -/
def Sys2Proof.Claims.takesAcc (s : State) (c : CoreRef) (ta : Fin 32) : Prop :=
  ∀ j, s.job c.slot = some j → (j.terms.canonical = true ∨ j.terms.compat = true) →
    (s.ctx c.core c.slot).stat.get 0 ta < if j.terms.compat then 8 else 64

/-- R156 to R158, R162, R163: SMX.INIT, SMX.EXP, SMX.NORM and SMX.MERGE, and SMX.ACC with its results and its row states in two
registers. An ACC beyond the chunk of the job's reduction mode changes nothing (the model's choice, assumption log 58). -/
def Sys2Proof.Claims.SoftmaxRowStates : Prop :=
  ∀ (c : CoreRef) (ta tb te ts td : Fin 32) (m : Mask) (s : State),
    let compat := s.isCompat c.slot
    let x := s.core c.core
    let act := (s.ctx c.core c.slot).act m.pred
    let rows := (s.ctx c.core c.slot).rows
    let at0 := fun (n : Fin 32) (i j : Nat) => x.lane n (32 * i + j)
    let vals := fun (i : Nat) => (((List.range 32).map (32 * i + ·)).filter act).map (x.lane ts)
    let nan := fun (i : Nat) => (vals i).any isNanW
    (s.ready c [ta.val] = true → Does (.smxInit c ta) s (Claims.AccCounted c ta 0
      (Claims.Rows c ta (fun _ => ([0xFF800000, 0, 0x3F800000] ++ List.replicate 29 0, 0)) s))) ∧
    (s.ready c [te.val, ts.val, ta.val] = true → Does (.smxExp c te ts ta m .none) s (Lanes c te
      (fun l => if act l then gexp compat (x.lane ts l) (at0 ta (l / 32) 0) else if m.zero then 0 else x.lane te l)
      (fun b => b == 6 && (List.range 16).any nan) s)) ∧
    (s.ready c [td.val, te.val, ta.val] = true → Does (.smxNorm c td te ta m .none) s
      (Vec c td m (fun l => smxNormLane compat (x.lane te l) (at0 ta (l / 32) 1)) s)) ∧
    (s.ready c [ta.val, tb.val] = true → Does (.smxMerge c ta tb .none) s (Claims.Rows c ta
      (fun i => smxMergeRow compat (at0 ta i 0) (at0 ta i 1) (at0 tb i 0) (at0 tb i 1)) s)) ∧
    (¬ Claims.takesAcc s c ta → exec (.smxAcc c te ta ts m .none) s = .next s) ∧
    (s.ready c [te.val, ta.val, ts.val] = true → Claims.takesAcc s c ta →
      Does (.smxAcc c te ta ts m .none) s (Claims.AccCounted c ta (Claims.accCount s c ta) fun t =>
      let row := fun (i : Nat) => smxAccRow compat (at0 ta i 0) (at0 ta i 1) (vals i)
      let stateAt := fun (l : Nat) => l / 32 < rows ∧ l % 32 < 3
      OnlyCore c.core s t ∧ OnlyRegs c.slot [te.val, ta.val] x (t.core c.core) ∧
      (∀ l, l < 512 → te ≠ ta ∨ ¬ stateAt l → (t.core c.core).lane te l =
        if act l then gexp compat (x.lane ts l) ((row (l / 32)).1.headD 0) else if m.zero then 0 else x.lane te l) ∧
      (∀ l, l < 512 → stateAt l → (t.core c.core).lane ta l = (row (l / 32)).1.getD (l % 32) 0) ∧
      (∀ l, l < 512 → ¬ stateAt l → te ≠ ta → (t.core c.core).lane ta l = x.lane ta l) ∧
      FlagsGain (s.ctx c.core c.slot) (t.ctx c.core c.slot) fun b => (List.range rows).any fun i => (row i).2.getLsbD b))

/-- R159 to R163, R167: NRM.INIT, NRM.ACC, NRM.FIN and NRM.MERGE. An ACC beyond the chunk of the job's reduction mode changes nothing
(the model's choice, assumption log 58). -/
def Sys2Proof.Claims.NormalisationRowStates : Prop :=
  ∀ (c : CoreRef) (ta tb ts td : Fin 32) (zeroShift : Bool) (m : Mask) (s : State),
    let compat := s.isCompat c.slot
    let x := s.core c.core
    let act := (s.ctx c.core c.slot).act m.pred
    let vals := fun (i : Nat) => (((List.range 32).map (32 * i + ·)).filter act).map (x.lane ts)
    (s.ready c [ta.val] = true → Does (.nrmInit c ta zeroShift) s (Claims.AccCounted c ta 0 (Claims.Rows c ta
      (fun _ => ([0, 0, 0, 0, 0, 0, if zeroShift then 1 else 0] ++ List.replicate 25 0, 0)) s))) ∧
    (¬ Claims.takesAcc s c ta → exec (.nrmAcc c ta ts m .none) s = .next s) ∧
    (s.ready c [ta.val, ts.val] = true → Claims.takesAcc s c ta → Does (.nrmAcc c ta ts m .none) s
      (Claims.AccCounted c ta (Claims.accCount s c ta) (Claims.Rows c ta (fun i => nrmAccRow compat (x.nrmRow ta i) (vals i)) s))) ∧
    (s.ready c [td.val, ta.val] = true → Does (.nrmFin c td ta .none) s (Claims.Rows c td
      (fun i => nrmFinRow compat (x.nrmRow ta i)) s)) ∧
    (s.ready c [ta.val, tb.val] = true → Does (.nrmMerge c ta tb .none) s (Claims.Rows c ta
      (fun i => nrmMergeRow (x.nrmRow ta i) (x.nrmRow tb i)) s))

/-- The two claims above. -/
def Obligations.RowStatesNormalise : Prop := Sys2Proof.Claims.SoftmaxRowStates ∧ Sys2Proof.Claims.NormalisationRowStates

/-- R268 to R272: NZ.NORM for a job with a step block; every active lane takes the draw of its element index, whatever the other
lanes are, and no flag is raised. -/
def Obligations.NoiseDrawsByElementIndex : Prop :=
  ∀ (c : CoreRef) (o : NoiseOp) (s : State) (j : Job) (b : StepBlock),
    s.job c.slot = some j → j.terms.stepBlock = some b → o.sa.val ≤ 13 →
    VecForm (.nzNorm c o .none) c o.d [] o.m (fun _ l =>
      let r := fun (n : Nat) => ((s.ctx c.core c.slot).sregs.get 0 (o.sa + n)).toNat
      let e := (r 0 + 2 ^ 32 * (r 1 % 2 ^ 16) + l / 32 * r 2 + l % 32) % 2 ^ 48
      let step : Word := match j.step with
        | some n => BitVec.ofNat 32 (n + 1)
        | none => 0
      (normalValue j.terms.compat b.seed step o.tensor o.draw e, 0)) s

/-- R164: outside compatibility mode a row state that has taken in only elements of one finite value `v` holds the shift `v` and sums
+0, merges into such a state, and gives a mean equal to `v` and the variance +0. -/
def Obligations.EqualElementsHaveZeroVariance : Prop :=
  ∀ (v : Word) (a b : NrmRow) (k : Nat) (xs : List Word), (decode32 v).isFin = true →
    let same := fun (r : NrmRow) => r.s1 = 0 ∧ r.s2 = 0 ∧ (r.n = 0 ∨ r.c = v) ∧ 0 ≤ r.n.toInt ∧ r.mode = 0 ∧ r.pinf = 0 ∧ r.ninf = 0
    let row := fun (cols : List Word) => (⟨cols.getD 0 0, cols.getD 1 0, cols.getD 2 0, cols.getD 3 0, cols.getD 4 0, cols.getD 5 0,
      cols.getD 6 0⟩ : NrmRow)
    (xs = List.replicate k v → same a → a.n.toInt + k < 2 ^ 31 → same (row (nrmAccRow false a xs).1)) ∧
    (same a → same b → a.n.toInt + b.n.toInt < 2 ^ 31 → same (row (nrmMergeRow a b).1)) ∧
    (same a → a.n ≠ 0 → cmpCond .eq ((nrmFinRow false a).1.getD 0 0) v = true ∧ (nrmFinRow false a).1.getD 1 1 = 0)

/-! ## The depthwise path, pooling and resampling (04, 07) -/

/-- R139, R140, R215 to R219: DWA, POOL.MAX, POOL.AVG, RS.NEAR and RS.BIL within the limits of their parameters. -/
def Obligations.WindowInstructionsWriteActiveLanes : Prop :=
  ∀ (c : CoreRef) (w : DwaOp) (p : PoolOp) (r : ResampleOp) (s : State),
    let x := s.ctx c.core c.slot
    let fits := fun (st kw q : Nat) => x.rows = 0 ∨ (x.rows - 1) * st + kw ≤ 16 * q
    (w.wf = true → fits w.s w.kw w.q → VecForm (.dwa c w .none) c w.d (dwaReads w) w.m (fun y l => y.dwaLane w l) s) ∧
    (p.wf = true → fits p.s p.kw p.q → VecForm (.poolMax c p .none) c p.d ((List.range (p.q * p.kh)).map (p.w + ·)) p.m
      (fun y l => poolMax (y.poolVals c.slot p l)) s) ∧
    (p.wf = true → fits p.s p.kw p.q → VecForm (.poolAvg c p .none) c p.d ((List.range (p.q * p.kh)).map (p.w + ·)) p.m
      (fun y l => poolAvg (if p.countPad then some (p.kh * p.kw) else none) (y.poolVals c.slot p l)) s) ∧
    (r.wf = true → VecForm (.rsNear c r .none) c r.d ((List.range r.q).map (r.upper.val + ·)) r.m
      (fun y l => (y.window r.upper (1 + l / 32 / r.f) (l % 32), 0)) s) ∧
    (r.wf = true → VecForm (.rsBil c r .none) c r.d
      ((List.range r.q).map (r.upper.val + ·) ++ (List.range r.q).map (r.lower.val + ·)) r.m (fun y l => y.bilLane r l) s)

/-! ## Loads, stores, the engine and stitch exchange (03, 04, 06) -/

namespace Sys2Proof.Claims

/-- The bytes that a list of writes leaves at an address: the last write to it, or what was there. -/
def written (ws : List (Nat × Byte)) (a : Nat) (old : Byte) : Byte := (ws.reverse.lookup a).getD old

/-- On core c only the flag word of the job has changed, by the bits `fl`, and what `y` puts in the place of the core's other state. -/
def CoreIs (c : CoreRef) (y : CoreSt → CoreSt) (fl : Nat → Bool) (s t : State) : Prop :=
  (∀ n, n ≠ c.core.val → t.core n = s.core n) ∧ t.core c.core = { y (s.core c.core) with ctxs := (t.core c.core).ctxs } ∧
  (∀ j, j ≠ c.slot.val → t.ctx c.core j = s.ctx c.core j) ∧
  t.ctx c.core c.slot = { s.ctx c.core c.slot with flags := (t.ctx c.core c.slot).flags } ∧
  FlagsGain (s.ctx c.core c.slot) (t.ctx c.core c.slot) fl

/-- The writes `ws` go to the well of the core: every other byte of it, and all other memory, reads as before. -/
def StoresWell (c : CoreRef) (ws : List (Nat × Byte)) (fl : Nat → Bool) (s t : State) : Prop :=
  t = s.withCores t.cores ∧ CoreIs c (fun x => { x with well := (t.core c.core).well }) fl s t ∧
  ∀ a, (t.core c.core).well.get 0 a = written ws a ((s.core c.core).well.get 0 a)

/-- The writes `ws` go to device addresses below the far tier: every other byte of memory reads as before. A line that the host may
hold waits for its back-invalidate response, and the device reads the new bytes already (R495). -/
def StoresDevice (c : CoreRef) (ws : List (Nat × Byte)) (fl : Nat → Bool) (s t : State) : Prop :=
  t = (((s.withCores t.cores).withMem t.mem).withHost t.host).withOut t.out ∧ CoreIs c id fl s t ∧ t.host.mem = s.host.mem ∧
  ∀ a, a < farLo → t.devByte a = written ws a (s.devByte a)

/-- The rows of the tile register that a load or store takes: those with an active lane (R127, R129). -/
def live (s : State) (c : CoreRef) (p : Nat) : List Nat :=
  (List.range 16).filter fun i => (List.range 32).any fun j => (s.ctx c.core c.slot).act p (32 * i + j)

end Sys2Proof.Claims

/-- R127, R128: LD.fmt and LDR from the core's well and from device addresses. A load from device addresses may leave lines in the
line cache; an error of storage on them that can be corrected is, and is counted; it changes no byte and no welt of memory. -/
def Sys2Proof.Claims.LoadsWriteTileRegister : Prop :=
  ∀ (c : CoreRef) (o : LdStOp) (base : Nat) (s : State),
    let code : BitVec 4 := o.fmt.truncate 4
    let x := s.ctx c.core c.slot
    let byte := fun (a : Nat) => match o.addr with
      | .well _ => (s.core c.core).well.get 0 a
      | .dev _ => s.devByte a
    let width := if fmtBits code = 6 then 3 * ((x.cols + 3) / 4) else (x.cols * fmtBits code + 7) / 8
    let spans := fun (mx : Bool) (w : Nat) => (live s c o.m.pred).map (fun i => (base + i * o.stride, w)) ++
      if mx then (live s c o.m.pred).map fun i => (o.scaleBase + i * o.scaleStride, 1) else []
    let readable := fun (ps : List (Nat × Nat)) => match o.addr with
      | .well _ => ∀ p ∈ ps, p.1 + p.2 ≤ 393216
      | .dev _ => ∀ p ∈ ps, s.mappedRange p.1 p.2 = true ∧ s.badLine p.1 p.2 = none
    let elem := fun (l : Nat) => loadElem code
      (if mxCode code then byte (o.scaleBase + l / 32 * o.scaleStride) else if fmtCtx code then o.scale else 127) o.intDst
      (elemAt code (fun b => byte (base + l / 32 * o.stride + b)) (l % 32))
    let act := x.act o.m.pred
    let read := fun (P : State → State → Prop) (t : State) => ∃ r, P s r ∧ (o.addr = .well base → t = r) ∧
      (s.mem.errs = [] → t = r.withMem { s.mem with cached := t.mem.cached }) ∧
      t = ((r.withMem { s.mem with cached := t.mem.cached, errs := t.mem.errs }).withChans t.chans).withInteg t.integ
    o.addr = .well base ∨ o.addr = .dev base → s.ready c [o.t.val] = true → base % 8 = 0 → o.stride % 8 = 0 → o.wf = true →
    ((mxCode code = true → o.scaleBase % 8 = 0 ∧ o.scaleStride % 8 = 0) → readable (spans (mxCode code) width) →
      Does (.ld c o .none) s (read (Vec c o.t o.m elem))) ∧
    (readable (spans false 128) → Does (.ldr c o .none) s (read (Lanes c o.t
      (fun l => if (List.range 32).any fun j => act (32 * (l / 32) + j) then
          byte (base + l / 32 * o.stride + 4 * (l % 32) + 3) ++ byte (base + l / 32 * o.stride + 4 * (l % 32) + 2) ++
            byte (base + l / 32 * o.stride + 4 * (l % 32) + 1) ++ byte (base + l / 32 * o.stride + 4 * (l % 32))
        else if o.m.zero then 0 else (s.core c.core).lane o.t l)
      fun _ => false)))

/-- R127, R130, R283: ST and STR write the bytes of their active rows and no other byte, to the well, or to device addresses below the
far tier, of HBM those of the job's writable ranges, where the job has no pool of KV pages. -/
def Sys2Proof.Claims.StoresWriteActiveRows : Prop :=
  ∀ (c : CoreRef) (o : LdStOp) (base : Nat) (s : State),
    let code : BitVec 4 := o.fmt.truncate 4
    let x := s.ctx c.core c.slot
    let y := s.core c.core
    let out := (live s c o.m.pred).map (storeBytes x y o o.fmt o.scale)
    let conv := out.flatMap (·.1)
    let raw := (live s c o.m.pred).flatMap fun i => (List.range 128).map fun b =>
      (base + i * o.stride + b, y.tregByte o.t (128 * i + b))
    let fl := fun (b : Nat) => out.any fun p => p.2.getLsbD b
    let open' := fun (ws : List (Nat × Byte)) => ws.filter fun w => s.mayWrite c.slot w.1 && !s.frameSealed c.slot w.1
    let mergeable := fun (ws : List (Nat × Byte)) => ∀ w ∈ open' ws,
      (s.region w.1).isSome = true ∧ w.1 < farLo ∧ (s.lineBad (w.1 / 64) = false ∨ ∀ b, b < 64 → ∃ v ∈ open' ws, v.1 = 64 * (w.1 / 64) + b)
    let mapped := fun (ws : List (Nat × Byte)) => ∀ w ∈ ws, (s.region w.1).isSome = true
    s.ready c [o.t.val] = true → base % 8 = 0 → o.stride % 8 = 0 → o.wf = true →
    (mxCode code = true → o.scaleBase % 8 = 0 ∧ o.scaleStride % 8 = 0) →
    (o.addr = .well base → (∀ w ∈ conv, w.1 < 393216) → Does (.st c o .none) s (StoresWell c conv fl s)) ∧
    (o.addr = .well base → (∀ w ∈ raw, w.1 < 393216) → Does (.str c o .none) s (StoresWell c raw (fun _ => false) s)) ∧
    (o.addr = .dev base → s.poolOf c.slot = none → mapped conv → mergeable conv →
      Does (.st c o .none) s (StoresDevice c (open' conv) fl s)) ∧
    (o.addr = .dev base → s.poolOf c.slot = none → mapped raw → mergeable raw → Does (.str c o .none) s (StoresDevice c (open' raw) (fun _ => false) s))

/-- The two claims above. -/
def Obligations.LoadsAndStoresMoveTiles : Prop := Sys2Proof.Claims.LoadsWriteTileRegister ∧ Sys2Proof.Claims.StoresWriteActiveRows

namespace Sys2Proof.Claims

/-- Nothing but core `c`, and the count of free values taken, has changed. -/
def OnlyCoreFree (c : Nat) (s t : State) : Prop :=
  t = (s.withCores t.cores).withFree t.free ∧ ∀ n, n ≠ c → t.core n = s.core n

/-- The phase instance that runs on the core is `q` where the tiler's plan has one, else as it was; other jobs' are as they were. -/
def RunIs (k : Nat) (q : Option PhaseRun) (x y : CoreSt) : Prop :=
  y.runs.get none k = q.or (x.runs.get none k) ∧ ∀ j, j ≠ k → y.runs.get none j = x.runs.get none j

/-- An update of tile `n` (R81 to R83): of core `c` only that tile, the job's rows of the stitch FIFO, of which the first `rows` are
taken, the job's flag ACC_SAT, which the update sets when it saturates, and the tiler's progress have changed. -/
def TileUpdate (c : CoreRef) (n rows : Nat) (q : Option PhaseRun) (sat : Bool) (tile : AccTile → Prop) (s t : State) : Prop :=
  let x := s.core c.core
  let y := t.core c.core
  OnlyCoreFree c.core s t ∧ y = { x with accs := y.accs, ctxs := y.ctxs, fifo := y.fifo, fifoWait := y.fifoWait, runs := y.runs } ∧
  RunIs c.slot q x y ∧ (∀ m, m ≠ n → y.accs.get AccTile.empty m = x.accs.get AccTile.empty m) ∧
  (∀ j, j ≠ c.slot.val → t.ctx c.core j = s.ctx c.core j) ∧
  t.ctx c.core c.slot = { s.ctx c.core c.slot with flags := (t.ctx c.core c.slot).flags } ∧
  FlagsGain (s.ctx c.core c.slot) (t.ctx c.core c.slot) (fun b => b == 0 && sat) ∧
  y.fifoRows c.slot = (x.fifoRows c.slot).drop rows ∧
  (∀ j, j ≠ c.slot.val → y.fifoRows j = x.fifoRows j) ∧ tile (y.accs.get AccTile.empty n)

/-- Every byte that the operand reads of the core's well lies within it (R284). -/
def InWell (ps : List (Nat × Nat)) : Prop := ∀ p ∈ ps, p.1 + p.2 ≤ 393216

end Sys2Proof.Claims

/-- R73 to R83, R95, R96: OUTER_PRODUCT_UPDATE onto a tile that the job owns or may clear, and in whose mode it is, that the tiler's plan
has room for; one that it has none for changes nothing (the model's choice, assumption log 64). Elements in bounds take their products in
ascending contraction index, from +0 or 0 where CLEAR is 1; integer pairs saturate; the count grows by whole updates; the checksum row
grows by the products of the operand sums. -/
def Sys2Proof.Claims.OuterProductAccumulates : Prop :=
  ∀ (c : CoreRef) (o : OpuOp) (s : State),
    let x := s.core c.core
    let opA := x.settle c.slot o.a
    let opB := x.settle c.slot o.b
    let fa := opFifoRows opA 16 o.len
    let rows := fa + opFifoRows opB 32 o.len
    let a := opValue x opA (opBytes x c.slot opA 16 o.len 0) 16 o.rows
    let b := opValue x opB (opBytes x c.slot opB 32 o.len fa) 32 o.cols
    let t0 := s.tile c.core o.tile
    let int := intPair opA opB
    let plan := s.planned c o.pos fun q d j pl => q.update d j.terms pl o.pos o.tile o.clear o.len o.rows o.cols (some opA)
    let start := fun (e : Nat) => if o.clear then (0 : Word) else t0.elems.get 0 e
    let rank := fmtRank o.a.fmt o.b.fmt
    o.wf = true → s.ready c (opRegs opA ++ opRegs opB) = true → x.tileOk c.slot o.tile o.clear = true →
    x.pageOk c.slot o.a = true → x.pageOk c.slot o.b = true →
    opFits opA 16 o.len = true → opFits opB 32 o.len = true → rows ≤ (x.fifoRows c.slot).length →
    (o.clear = true ∨ (t0.mv = false ∧ t0.int = int)) →
    InWell (opSpans opA 16 o.rows o.len ++ opSpans opB 32 o.cols o.len) →
    (plan = none → exec (.outerProductUpdate c o .none) s = .next s) ∧
    ∀ q, plan = some q → Does (.outerProductUpdate c o .none) s (TileUpdate c o.tile rows q
      (int && (List.range 512).any fun e => decide (e / 32 < o.rows) && decide (e % 32 < o.cols) &&
        (accInt o.len (a (e / 32)) (b (e % 32)) (start e)).2)
      (fun t =>
        t.owner = some c.slot.val ∧ t.mv = false ∧ t.int = int ∧
        t.n = (if o.clear then 0 else t0.n) + rank * ((o.len + rank - 1) / rank) ∧
        (∀ e, e < 512 → t.elems.get 0 e =
          if e / 32 < o.rows ∧ e % 32 < o.cols then
            (if int then (accInt o.len (a (e / 32)) (b (e % 32)) (start e)).1 else accFp o.len (a (e / 32)) (b (e % 32)) (start e))
          else start e) ∧
        (∀ j, j < 32 → int = false → ((t.rowS.get 0 j).truncate 32 : Word) =
          accFp o.len (fun k => extSum ((List.range 16).map fun i => a i k)) (b j)
            (if o.clear then 0 else (t0.rowS.get 0 j).truncate 32)) ∧
        (∀ i, i < 16 → int = false → ((t.colM.get 0 i).truncate 32 : Word) =
          accFp o.len (fun k => extSum ((List.range 32).map fun j => (b j k).absv)) (fun k => (a i k).absv)
            (if o.clear then 0 else (t0.colM.get 0 i).truncate 32))) s)

/-- R101, R102, R104: MATRIX_VECTOR_UPDATE of BF16 operands onto an MV-mode tile, one that the tiler's plan has room for. -/
def Sys2Proof.Claims.MatrixVectorAccumulates : Prop :=
  ∀ (c : CoreRef) (o : MvOp) (s : State),
    let x := s.core c.core
    let t0 := s.tile c.core o.tile
    let regs := (List.range ((o.len + 1023) / 1024)).map (o.x.val + ·)
    let w := fun (r k : Nat) => if r < o.rows then
      internal 1 127 ((x.well.get 0 (o.wBase + 128 * k + 2 * r)).toNat + 256 * (x.well.get 0 (o.wBase + 128 * k + 2 * r + 1)).toNat)
      else Fp.zero
    let v := fun (k : Nat) => internal 1 127 (bitsAt (x.tregByte (o.x.val + k / 1024)) (k % 1024 * 16) 16)
    let start := fun (e : Nat) => if o.clear then (0 : Word) else t0.elems.get 0 e
    let plan := s.planned c o.pos fun q d j pl => q.update d j.terms pl o.pos o.tile o.clear o.len o.rows 1 none
    o.wf = true → s.ready c regs = true → x.tileOk c.slot o.tile o.clear = true → o.x.val + regs.length ≤ 32 →
    (o.clear = true ∨ (t0.mv = true ∧ t0.int = false)) →
    (o.rows = 0 ∨ ∀ k, k < o.len → o.wBase + 128 * k + 2 * o.rows ≤ 393216) →
    (plan = none → exec (.matrixVectorUpdate c o .none) s = .next s) ∧
    ∀ q, plan = some q → Does (.matrixVectorUpdate c o .none) s (TileUpdate c o.tile 0 q false (fun t =>
      t.owner = some c.slot.val ∧ t.mv = true ∧ t.int = false ∧ t.n = (if o.clear then 0 else t0.n) + o.len ∧
      (∀ e, e < 512 → t.elems.get 0 e = if e < 64 then accFp o.len (w e) v (start e) else start e) ∧
      ((t.rowS.get 0 0).truncate 32 : Word) =
        accFp o.len (fun k => extSum ((List.range 64).map fun r => w r k)) v (if o.clear then 0 else (t0.rowS.get 0 0).truncate 32)) s)

/-- The two claims above. -/
def Obligations.EnginesAccumulate : Prop := Sys2Proof.Claims.OuterProductAccumulates ∧ Sys2Proof.Claims.MatrixVectorAccumulates

/-- R87, R90, R93, R97, R99, R100: DRAIN, one that the tiler's plan has room for, writes its rows to the well or to a tile register; when
no comparison fails it counts those skipped and gives the tile back where it is released, and when one fails the job meets a checksum
fault after its rows. -/
def Obligations.DrainWritesRowsAndCompares : Prop :=
  ∀ (c : CoreRef) (o : DrainOp) (s : State),
    let x := s.core c.core
    let t0 := s.tile c.core o.tile
    let rows := List.range (if t0.mv then min 2 o.rows else o.rows)
    let out := rows.map fun i => drainBytes o t0 i ((t0.drainRow x o i).map (·.1))
    let ws := out.flatMap (·.1)
    let flags := fun (b : Nat) => (out.any fun p => p.2.getLsbD b) || rows.any fun i => (t0.drainRow x o i).any fun v => v.2.getLsbD b
    let fails := t0.checks.countP fun k => k.1 == .fail
    let skips := t0.checks.countP fun k => k.1 == .skip
    let cl := c.core.val / 32
    let plan := s.planned c o.pos fun q d j pl => q.drain d j.terms pl x o t0.int
    o.wf = true → s.ready c (drainRegs o) = true → t0.owner = some c.slot.val →
    ((∀ n, o.dst ≠ .treg n) → ∀ w ∈ ws, w.1 < 393216) →
    (plan = none → exec (.drain c o .none) s = .next s) ∧
    ∀ q, plan = some q → ∃ t, RunIs c.slot q x (t.core c.core) ∧ (∀ n, n ≠ c.core.val → t.core n = s.core n) ∧
      t = (s.withCores t.cores).withClus t.clus ∧
      (match o.dst with
        | .treg n => CoreIs c (fun x => { x with tregs := (t.core c.core).tregs, accs := (t.core c.core).accs, runs := (t.core c.core).runs }) flags s t ∧
            (∀ m, m ≠ n.val → ∀ l, (t.core c.core).lane m l = x.lane m l) ∧
            ∀ a, a < 2048 → (t.core c.core).tregByte n a = (ws.lookup a).getD (x.tregByte n a)
        | _ => CoreIs c (fun x => { x with well := (t.core c.core).well, accs := (t.core c.core).accs, runs := (t.core c.core).runs }) flags s t ∧
            ∀ a, (t.core c.core).well.get 0 a = written ws a (x.well.get 0 a)) ∧
      (∀ m, m ≠ o.tile.val → (t.core c.core).accs.get AccTile.empty m = x.accs.get AccTile.empty m) ∧
      (t.core c.core).accs.get AccTile.empty o.tile = { t0 with owner := if o.release then none else some c.slot.val } ∧
      (∀ n, n ≠ cl → t.cluster n = s.cluster n) ∧
      t.cluster cl = { s.cluster cl with
        opeFail := min 0xFFFFFFFF ((s.cluster cl).opeFail + fails), opeSkip := min 0xFFFFFFFF ((s.cluster cl).opeSkip + skips),
        opeInfo := (t.cluster cl).opeInfo, opeFresh := (t.cluster cl).opeFresh } ∧
      (fails = 0 ∨ (s.cluster cl).opeInfo.msb = true → (t.cluster cl).opeInfo = (s.cluster cl).opeInfo) ∧
      if fails = 0 then exec (.drain c o .none) s = .next t
      else ((t.cluster cl).opeInfo.msb = true ∧
        exec (.drain c o .none) s = .next (t.detect c.slot cChecksum cl (c.core.val * 2 ^ 32 + o.tile.val * 2 ^ 8)))

/-- R136, R137, R143, R146: residue disagreements at elements that the instruction computes, and parity errors of elements that it reads,
fault the job in the place of the instruction's effect; each is counted in VEC_CHK_FAIL. VEC_FAIL_INFO keeps the first failure, of those
in one cycle (`same` with the last) the one of the lower core and then the lower element. -/
def Sys2Proof.Claims.FailedChecksFaultTheJob : Prop :=
  ∀ (c : CoreRef) (o : Vec2) (n : Fin 32) (e : Fin 512) (es : List (Fin 512)) (adder same : Bool) (s : State),
    let cl := c.core.val / 32
    let info := fun (kind treg : Nat) => BitVec.ofNat 32 (2 ^ 31 + kind * 2 ^ 19 + treg * 2 ^ 14 + e * 2 ^ 5 + c.core.val % 32)
    let place := fun (w : Word) => w.toNat % 32 * 512 + w.toNat / 32 % 512
    let counted := fun (kind treg : Nat) => s.modClu cl fun g => { g with
      vecFail := min 0xFFFFFFFF (g.vecFail + es.length), vecFresh := !g.vecInfo.msb || same && g.vecFresh
      vecInfo := if g.vecInfo.msb = false ∨ (same = true ∧ g.vecFresh = true ∧ place (info kind treg) < place g.vecInfo) then
        info kind treg else g.vecInfo }
    s.ready c [o.d.val, o.a.val, o.b.val] = true → es.Nodup → e ∈ es → (∀ i ∈ es, e ≤ i) →
    (∀ i ∈ es, (s.ctx c.core c.slot).act o.m.pred i = true) →
    exec (.mul c o (.residue adder es same)) s =
      .next ((counted (if adder then 1 else 0) o.d).detect c.slot cResidue cl (c.core.val * 2 ^ 32 + o.d.val)) ∧
    (n = o.a ∨ n = o.b → exec (.iadd c o (.parity n es same)) s =
      .next ((counted 2 n).detect c.slot cTregParity cl (c.core.val * 2 ^ 32 + n.val)))

/-- R113, R125, R188, R353: a vector instruction of a job that cannot issue on its core, or that names a register of another job's, changes
nothing (assumption log 20); one of a job that issues and whose registers are its own, but that names a register which a receive has
pending, or comes behind an instruction that is held, is held, and runs on an idle queue once the register is received. -/
def Sys2Proof.Claims.HeldInstructionChangesNothing : Prop :=
  ∀ (c : CoreRef) (o : Vec2) (u : Upset) (s : State),
    (∀ j, s.job c.slot = some j → j.st ≠ .running ∨ c.core.val ∉ j.cores ∨ j.displaced ≠ []) ∨
      (∃ k, ((s.core c.core).tregs.get TReg.empty o.d).owner = some k ∧ k ≠ c.slot.val) →
    exec (.sub c o u) s = .next s ∧ exec (.mov c ⟨o.d, o.a, o.m⟩ u) s = .next s ∧ exec (.iadd c o u) s = .next s

/-- An instruction waits, in order, and then runs (R125; assumption log 55). -/
def Sys2Proof.Claims.HeldInstructionRunsInOrder : Prop :=
  ∀ (c : CoreRef) (o : Vec2) (u : Upset) (s : State) (h : Held) (rest : List Held),
    let regs := [o.d.val, o.a.val, o.b.val]
    let mine := ∀ n ∈ regs, ((s.core c.core).tregs.get TReg.empty n).owner = none ∨
      ((s.core c.core).tregs.get TReg.empty n).owner = some c.slot.val
    let pending := ∃ n ∈ regs, ∃ d, d < 4 ∧ ∃ r ∈ ((s.core c.core).ports.get StitchPort.empty d).posted, r.slot = c.slot.val ∧
      ∃ t row, r.dst = .treg t row ∧ t.val = n
    let behind := ∃ x ∈ s.held, x.why.ref = c
    (s.issues c.core c.slot = true → mine → (pending ∨ behind) →
      exec (.sub c o u) s = .next (s.withHeld (s.held ++ [⟨.issue c regs, .sub c o u⟩]))) ∧
    (h = ⟨.issue c regs, .sub c o u⟩ → s.held = h :: rest → s.pending = [] → s.issues c.core c.slot = true → mine → ¬ pending →
      (∀ x ∈ rest, s.stillHeld x = true) →
      ∃ t, exec (.sub c o u) (s.withHeld []) = .next t ∧ (u = .none → step s = .next (t.withHeld rest)))

/-- The three claims above. -/
def Obligations.ChecksHoldAndFault : Prop := Sys2Proof.Claims.FailedChecksFaultTheJob ∧
  Sys2Proof.Claims.HeldInstructionChangesNothing ∧ Sys2Proof.Claims.HeldInstructionRunsInOrder

/-! ## Stitch exchange (R187 to R191) -/

/-- R113, R188, R193: RECV posts a receive, claims its register and sends its credit to the other side of the link; SEND with a credit of
its job delivers its rows to the receive first posted there and spends both, on a relayed edge through the mailbox half that the receive
names; SEND without one waits; the credit's arrival lets it leave. The link is an edge between two cores of the job on one device. -/
def Obligations.StitchRendezvous : Prop :=
  ∀ (c : CoreRef) (dir : Dir) (r : RecvOp) (o : SendOp) (s : State) (j : Job) (e : Nat) (p : Posted) (half : Nat) (box : Option Nat),
    let k := c.slot.val
    let x := s.core c.core
    let link := fun (t : State) (n : Nat) (d : Dir) => (t.core n).link d
    let here := link s c.core dir
    let peer := link s e (dirBack dir)
    let rows := (List.range o.rows).map fun i => (List.range 128).map fun b => x.tregByte o.t (128 * (o.row + i) + b)
    let ends := fun (t : State) => ∀ n, n ≠ c.core.val → n ≠ e → t.core n = s.core n
    let two := fun (t : State) => t = s.withCores t.cores ∧ ends t
    let mine := fun (q : Credit) => q.1 == k
    let got := fun (t : State) (msg : List (List Byte)) => match p.dst with
      | .treg n row => ∀ l, l < 512 → (t.core e).lane n l =
          if row.val ≤ l / 32 ∧ l / 32 < row + msg.length then
            BitVec.ofNat 32 (fieldAt (msg.getD (l / 32 - row) []) (4 * (l % 32)) 4)
          else (s.core e).lane n l
      | .fifo => (t.core e).fifo ++ (t.core e).fifoWait = (s.core e).fifo ++ (s.core e).fifoWait ++ msg.map fun m => (k, m)
    let boxed := fun (a n : Nat) => a % 64 = 0 ∧ scratchLo ≤ a ∧ a + n ≤ farLo ∧
      ∀ l, a ≤ 64 * l → 64 * l < a + n → s.host.filter.contains l = false ∧ ∀ w ∈ s.host.biWait, w.line ≠ l
    s.job c.slot = some j → s.edgeOf j c.core dir = .core e → e ≠ c.core.val → r.dir = dir → o.dir = dir →
    (r.wf = true → s.ready c (match r.dst with | .treg n _ => [n.val] | .fifo => []) = true →
      here.posted.countP (fun q => q.slot == k) < 2 →
      box = (if j.relayed c.core dir then (s.mailbox j c.core dir).map (· + 2048 * (here.turn.get 0 k % 2)) else none) →
      (j.relayed c.core dir = true → box.isSome = true) →
      Does (.recv c r) s fun t => two t ∧
        link t c.core dir = { here with posted := here.posted ++ [⟨k, r.dst, r.rows, box, 0⟩], turn := (link t c.core dir).turn } ∧
        (link t c.core dir).turn.get 0 k = here.turn.get 0 k + 1 ∧
        (match r.dst with
          | .treg n _ => (t.core c.core).tregs.get TReg.empty n = { x.tregs.get TReg.empty n with owner := some k }
          | .fifo => (t.core c.core).tregs = x.tregs) ∧
        link t e (dirBack dir) = { peer with flying := peer.flying ++ [(k, box.getD 0)] }) ∧
    (o.wf = true → o.upset = .none → s.ready c [o.t.val] = true → here.credits.any mine = true → (∀ w ∈ here.sends, w.slot ≠ k) →
      peer.posted.find? (fun q => q.slot == k) = some p → p.rows = o.rows →
      (p.box = none → Does (.send c o) s fun t => two t ∧ got t rows ∧
        link t c.core dir = { here with credits := here.credits.eraseP mine } ∧
        link t e (dirBack dir) = { peer with posted := peer.posted.erase p }) ∧
      (p.box = some half → boxed half (128 * o.rows) → Does (.send c o) s fun t =>
        t = (s.withCores t.cores).withMem t.mem ∧ ends t ∧ got t rows ∧ t.devBytes half (128 * o.rows) = rows.flatten ∧
        (∀ a, a < half ∨ half + 128 * o.rows ≤ a → t.devByte a = s.devByte a) ∧
        link t c.core dir = { here with credits := here.credits.eraseP mine } ∧
        link t e (dirBack dir) = { peer with posted := peer.posted.erase p })) ∧
    (o.wf = true → o.upset = .none → s.ready c [o.t.val] = true → here.credits.any mine = false →
      Does (.send c o) s fun t => two t ∧ t.core e = s.core e ∧
        link t c.core dir = { here with sends := here.sends ++ [⟨k, rows⟩] }) ∧
    (c.core.val ∈ j.cores → ∀ q, here.flying.find? mine = some q →
      Does (.stitchCreditArrival c ⟨dir, half⟩) s fun t =>
        match here.sends.find? fun w => w.slot == k with
        | none => two t ∧ link t c.core dir = { here with flying := here.flying.eraseP mine, credits := here.credits ++ [q] }
        | some w => j.onCore c.core = true → here.credits.any mine = false → peer.posted.find? (fun q => q.slot == k) = some p →
            p.rows = w.rows.length → p.box = none → two t ∧ got t w.rows ∧ link t c.core dir = { here with
              flying := here.flying.eraseP mine, sends := here.sends.erase w })

/-! ## Jobs and steps (09, 12, 16) -/

namespace Sys2Proof.Claims

/-- A record that the JOB_SUBMIT of job `j` gets: STATUS, REASON, JOB_STATE, PROMISE_US, DETAIL; `life` marks a lifecycle record of a
job slot. -/
def jobRecord (j : Job) (life : Option Nat) (status reason state promise : Nat) (detail : DWord) : Rec :=
  { seq := j.seq, opcode := 0x401, status := status, reason := reason, job := j.id, jobState := state, promise := promise,
    detail := detail, jobLife := life, finalJob := false }

/-- Nothing of job slot `k` is left on a core: no tile register or accumulator tile, no context, no phase, no descriptor. -/
def NothingOn (k : Nat) (x : CoreSt) : Prop :=
  (∀ n, n < 32 → (x.tregs.get TReg.empty n).owner ≠ some k) ∧ (∀ n, n < 8 → (x.accs.get AccTile.empty n).owner ≠ some k) ∧
  x.ctxs.get Ctx.empty k = Ctx.empty ∧ x.runs.get none k = none ∧ x.descs.get [] k = []

/-- A job whose terms are the same that some other job's end or start may have displaced, preempted or given back. -/
def OnlyDisplacement (v w : Job) : Prop := w = { v with st := w.st, displaced := w.displaced, spills := w.spills }

/-- No command of job slot `k` is held, and the others are. -/
def HeldDropped (k : Nat) (s t : State) : Prop := t.held = s.held.filter fun h => h.why.ref.slot.val != k

/-- The job of slot `k` has been admitted onto `cores` and runs. -/
def Admitted (k : Nat) (j : Job) (cores : List Nat) (fs : List Folio) (q : Price) (s t : State) : Prop :=
  (∃ w, t.job k = some w ∧ w.id = j.id ∧ w.terms = j.terms ∧ w.st = .running ∧ w.cores = cores ∧ w.decided = true ∧
    w.admitNo = s.sys.admits ∧ (w.promiseUs, w.boundUs) = if j.terms.cls = 0 then q.promise j.terms else (0, 0)) ∧
  (∀ n v, n ≠ k → s.job n = some v → ∃ w, t.job n = some w ∧ OnlyDisplacement v w ∧
    (w.st = v.st ∨ (v.st = .running ∧ w.st = .preempted ∧ w.displaced ≠ []))) ∧
  t.folios = fs ∧ t.sys.admits = s.sys.admits + 1 ∧ t.sys.waiting = s.sys.waiting.filter (· != k) ∧
  (∀ c ∈ cores, (t.core c).ctxs.get Ctx.empty k = Ctx.empty) ∧
  (∀ o, s.submitOp k = some o → t.sys.ops = s.sys.ops.filter fun q => q.no != o.no)

/-- A submission is refused: its slot is free, nothing is admitted, no other job changes. -/
def Refused (k : Nat) (s t : State) : Prop :=
  t.job k = none ∧ (∀ n, n ≠ k → t.job n = s.job n) ∧ t.sys.waiting = s.sys.waiting.filter (· != k) ∧
  t.sys.admits = s.sys.admits ∧ t.cores = s.cores ∧ t.folios = s.folios ∧ t.links = s.links

end Sys2Proof.Claims

/-- R288, R337, R338, R528, R531: the decision on a submitted job without a group, before which every S or B job that arrived earlier has
been decided, and the retry of the earliest waiting job: accepted, it is admitted and runs; a job that must wait gets one DEFERRED
record; a refused one gives its slot back. -/
def Obligations.AdmissionAcceptsDefersOrRefuses : Prop :=
  ∀ (slot : Fin 64) (s : State) (j : Job) (d : FolioDecl) (cores : List Nat) (fs : List Folio) (window : Nat) (q : Price)
    (reason : Nat) (r : Refuse),
    let waits := fun (u : State) (why : Nat) =>
      (u.modSys fun y => { y with waiting := y.waiting ++ [slot.val] }).sendRec j.ring (jobRecord j none 2 why 1 0xFFFFFFFF 0)
    s.job slot = some j → s.declOf j = some d → j.terms.group = 0 → s.tableNeeds d = none → hasOnce d = true → j.displaced = [] →
    s.part.pend = none →
    (j.st = .submitted → slot.val ∉ s.sys.waiting → (j.terms.cls = 0 ∨ s.waitsBehind slot = false) →
      (s.verdict j.terms = .accepted cores fs window q →
        if j.terms.cls ≠ 0 ∧ s.sys.waiting ≠ [] then
          exec (.admissionDecision slot) s = .next (waits s.took (s.free64.toNat % 256))
        else Does (.admissionDecision slot) s (Admitted slot j cores fs q s)) ∧
      (s.verdict j.terms = .wait reason → exec (.admissionDecision slot) s = .next (waits s reason)) ∧
      (s.verdict j.terms = .refused r → Does (.admissionDecision slot) s (Refused slot s))) ∧
    (s.sys.waiting.head? = some slot.val →
      (s.verdict j.terms = .accepted cores fs window q → Does .waitingJobRetry s (Admitted slot j cores fs q s)) ∧
      (s.verdict j.terms = .wait reason → exec .waitingJobRetry s = .next s) ∧
      (s.verdict j.terms = .refused r → Does .waitingJobRetry s (Refused slot s)))

/-- R347 and R349: PROMISE_OVERRUN and DEADLINE_PASSED, once each, at the first count beyond the promise or the deadline. -/
def Sys2Proof.Claims.OverrunAndDeadlineRecordedOnce : Prop :=
  ∀ (slot : Fin 64) (s : State) (j : Job), s.job slot = some j →
    (j.terms.cls = 0 → j.decided = true → j.st.admitted = true → j.promiseUs ≠ 0 →
      exec (.promiseOverrun slot) s = .next (if j.overrun = false ∧ j.origin + 1000 * j.promiseUs < s.now then
        (s.setJob slot (some { j with overrun := true })).sendRec j.ring (jobRecord j (some slot) 0 0x22 j.st.code j.promiseUs 0)
        else s)) ∧
    (j.terms.cls = 1 → j.st.final = false →
      exec (.deadlinePassed slot) s = .next (if j.late = false ∧ j.origin + 1000 * j.terms.deadlineUs < s.now then
        (s.setJob slot (some { j with late := true })).sendRec j.ring (jobRecord j (some slot) 0 0x27 j.st.code 0 (s.jobDetail j))
        else s))

/-- R335, R378, R383, R384, R355: JOB_COMPLETE of a job whose last step is done and whose result lines have been accepted: it holds nothing any more, its completion record has the
FINAL seal, its final record OK waits behind that write, no command of it is held, and of the other jobs only what it had displaced
changes: the restored lines that fail their check are kept (R357). -/
def Obligations.CompletionReturnsEverything : Prop :=
  ∀ (slot : Fin 64) (s : State) (j : Job),
    s.job slot = some j → j.st = .running → j.done = true →
    (∀ w ∈ s.host.biWait, 64 * w.line + 64 ≤ j.terms.result ∨ j.terms.result + j.terms.resultBytes ≤ 64 * w.line) →
    Does (.jobComplete slot) s fun t =>
      t = (((((((((((s.withJobs t.jobs).withFolios t.folios).withCores t.cores).withSys t.sys).withRings t.rings).withIrq t.irq).withHost
        t.host).withMem t.mem).withOut t.out).withHeld t.held).withChans t.chans).withInteg t.integ ∧ HeldDropped slot s t ∧
      (∃ w, t.job slot = some w ∧ w.st = .complete ∧ w.endReason = 0 ∧ w.endDetail = none ∧ w.holds = [] ∧ w.granules = [] ∧
        w.spills = [] ∧ w.displaced = [] ∧ w.restart = none ∧ w.terms = j.terms ∧ w.id = j.id ∧ w.stepsRun = j.stepsRun) ∧
      (∀ n v, n ≠ slot.val → s.job n = some v → ∃ w, t.job n = some w ∧ w = { v with
        displaced := v.displaced.filter (·.1 != slot.val), spills := v.spills.filter (·.victim != slot.val), lost := w.lost } ∧
        (s.mem.errs = [] → (∀ sp ∈ j.spills, s.badLine sp.addr (locBytes sp.loc) = none) → w.lost = v.lost)) ∧
      (∀ c, NothingOn slot (t.core c)) ∧
      (s.host.modules ≠ 0 → t.hostBytes j.terms.completion 12 = leBytes 4 0x5EA10001 ++ leBytes 4 (j.id % 2 ^ 27) ++ leBytes 4 j.stepsRun) ∧
      (∃ rec, t.host.goWait = s.host.goWait ++ [(j.terms.completion, j.ring, rec)] ∧ rec.status = 0 ∧ rec.reason = 0 ∧
        rec.job = j.id ∧ rec.jobState = 5 ∧ rec.seq = j.seq)

/-- R354, R355, R357, R196: the spill of a core is done; a tile register taken from a preempted victim comes back as it was when the job
that took it ends, or where one of its lines fails its check the victim keeps that line; the victim runs again once nothing of it is
displaced, its receives with no row arrived posted again, or faults for the line that was lost. -/
def Obligations.PreemptionSpillsAndRestores : Prop :=
  ∀ (slot v : Fin 64) (core : Fin 2048) (n : Fin 32) (x : TReg) (a l : Nat) (s : State) (j w : Job),
    s.job slot = some j → s.job v = some w →
    exec (.preemptSpillDone slot core) s =
      .next (s.setJob slot (some { j with awaitSpill := j.awaitSpill.filter (· != core.val) })) ∧
    (v ≠ slot → w.st = .preempted → x.owner = some v.val → j.st = .running → j.done = true → s.host.biWait = [] →
      j.spills = [⟨v, core, .treg n, .treg x, a⟩] → Does (.jobComplete slot) s fun t =>
        let back := { w with displaced := w.displaced.filter (·.1 != slot.val), spills := w.spills.filter (·.victim != slot.val) }
        (s.badLine a 2048 = none → (t.core core).tregs.get TReg.empty n = x ∧ t.job v = some back) ∧
        (s.badLine a 2048 = some l → t.job v = some { back with lost := w.lost ++ [l] })) ∧
    (w.st = .preempted → w.displaced = [] → w.lost = [] → w.atCut = false →
      (∀ c ∈ w.cores, ∀ d, (∀ p, s.edgeOf w c d ≠ .port p) ∧ ∀ r ∈ ((s.core c).link d).posted, r.slot = v.val → r.got = 0) →
      Does (.victimResume v) s fun t =>
        t = ((s.withJobs t.jobs).withCores t.cores).withSys t.sys ∧ t.job v = some { w with st := .running } ∧
        (∀ m, m ≠ v.val → t.job m = s.job m) ∧
        ∀ c ∈ w.cores, ∀ d e, s.edgeOf w c d = .core e → ∀ r ∈ ((s.core c).link d).posted, r.slot = v.val →
          (v.val, r.box.getD 0) ∈ ((t.core e).link (dirBack d)).flying) ∧
    (w.st = .preempted → w.displaced = [] → w.lost.head? = some l → scratchLo ≤ l → l < farLo → exec (.victimResume v) s =
      .next (s.lineFault v 0x80 (64 + (l - scratchLo) / 0x8000000 % 16) l)) ∧
    (w.st = .preempted → w.displaced ≠ [] → exec (.victimResume v) s = .next s)

/-- R175, R177, R180 to R182, R186: PHASE_INSTANCE_START of a phase whose bound is held by a scalar. The grant is what the rung that the
folio prefers needs, or what is unreserved; the rung is the first that the grant allows; a bound beyond its declared maximum faults the
job with the DETAIL of R177; an instance for which there is no tile, or that waits otherwise, is held. -/
def Obligations.PhaseStartGrantsTilesAndChecksBounds : Prop :=
  ∀ (c : CoreRef) (phase : Nat) (s : State) (j : Job) (d : FolioDecl) (p : PhaseEntry) (b : DynDim) (n : Fin 16),
    let x := s.core c.core
    let v := ((x.ctxs.get Ctx.empty c.slot).sregs.get 0 n).toNat
    let inst := match x.runs.get none c.slot with
      | some r => r.inst + 1
      | none => 0
    let tiles := s.unreservedTiles c.core c.slot + if j.terms.cls = 0 then reserveOf j.terms d else 0
    let grant := Nat.min ([5, 3, 2, 1].getD p.prefRung 1) tiles
    s.job c.slot = some j → s.declOf j = some d → (d.phases.find? fun q => q.phase == phase) = some p →
    j.st = .running → c.core.val ∈ j.cores → c.core.val ∉ j.awaitSpill → j.displaced = [] → j.atCut = false → j.done = false →
    (p.kind = 2 ↔ j.step.isSome = true) → p.dims = [b] → b.src = .reg n → (∀ h ∈ s.held, h.why.ref ≠ c) →
    let held := exec (.phaseInstanceStart c ⟨phase, .start⟩) s =
      .next (s.withHeld (s.held ++ [⟨.phase c, .phaseInstanceStart c ⟨phase, .start⟩⟩]))
    (tiles = 0 → held) ∧ (s.startWaits c.slot c.core phase = true → held) ∧
    (s.startWaits c.slot c.core phase = false → v ≤ b.max → Does (.phaseInstanceStart c ⟨phase, .start⟩) s fun t =>
      t = (s.withCores t.cores).withJobs t.jobs ∧ (∀ m, m ≠ c.core.val → t.core m = s.core m) ∧
      (∀ m, m ≠ c.slot.val → t.job m = s.job m) ∧
      t.core c.core = { x with tregs := (t.core c.core).tregs, runs := (t.core c.core).runs, descs := (t.core c.core).descs } ∧
      (t.core c.core).descs.get [] c.slot = [] ∧ (∀ k, k ≠ c.slot.val → (t.core c.core).descs.get [] k = x.descs.get [] k) ∧
      (∀ m, m < 32 → ((t.core c.core).tregs.get TReg.empty m).owner ≠ some c.slot.val) ∧
      (∀ k, k ≠ c.slot.val → (t.core c.core).runs.get none k = x.runs.get none k) ∧
      ∃ r, (t.core c.core).runs.get none c.slot = some r ∧ r.phase = p.phase ∧ r.inst = inst ∧ r.grant = grant ∧ r.ended = false ∧
        r.bounds = [(b.dim, v)] ∧ r.seg = (if j.terms.compat then 256 else 2048) ∧
        (p.prefRung ≤ 3 → p.prefRung ≤ r.rung ∧ r.rung ≤ 3 ∧ [5, 3, 2, 1].getD r.rung 1 ≤ grant ∧
          ∀ m, p.prefRung ≤ m → m < r.rung → grant < [5, 3, 2, 1].getD m 1) ∧
        ∃ w, t.job c.slot = some w ∧ w.degraded = j.degraded + (if p.prefRung < r.rung then 1 else 0) ∧
          w.lowest = Nat.max j.lowest r.rung ∧ w = { j with degraded := w.degraded, lowest := w.lowest, latches := w.latches }) ∧
    (s.startWaits c.slot c.core phase = false → b.max < v → exec (.phaseInstanceStart c ⟨phase, .start⟩) s = .next (s.detect c.slot 0x26 (c.core.val / 32)
      (phase % 2 ^ 16 * 2 ^ 36 + b.dim % 16 * 2 ^ 32 + v % 2 ^ 32)))

/-- R255, R257 to R259, R265, R266, R430: STEP_CUT after step n of a job without a group or a pool, its phases complete and nothing of it
held. After the last step, or when the early stop holds, the job is done; else step n + 1 begins with its schedule row in K0 to K15 and
the stop accumulators at +0, and the row of step n + 2 is read. While phases are not complete nothing happens. -/
def Obligations.StepCutEndsOrBeginsTheNextStep : Prop :=
  ∀ (slot : Fin 64) (s : State) (j : Job) (d : FolioDecl) (b : StepBlock) (n : Nat) (row next : List Byte),
    let stat := decode32 (j.cores.foldl (fun m c => fmax m ((s.core c).ctxs.get Ctx.empty slot).stopAcc) 0)
    let bound := decode32 b.stopThresh
    let quiet := !stat.isNan && !bound.isNan && !(Fp.ltv bound stat)
    let run := if b.stopRun = 0 then 0 else if quiet then j.stopRun + 1 else 0
    let stop := b.stopRun ≠ 0 ∧ b.stopRun ≤ run ∧ b.stopMin ≤ n + 1 ∧ n + 1 < b.sMax
    let ends := stop ∨ b.sMax ≤ n + 1
    let begun := fun (t : State) => ∃ w, t.job slot = some w ∧ w.stepsRun = n + 1 ∧ w.stopRun = run ∧
      w.frames = Nat.max j.frames (d.videoFrames.takeWhile fun v => decide (v.steps ≤ n + 1) && s.host.biWait.all fun e =>
        decide (64 * e.line + 64 ≤ j.terms.result + v.off) || decide (j.terms.result + v.off + v.bytes ≤ 64 * e.line)).length ∧ w.atCut = false ∧
      if ends then w.done = true ∧ w.step = some n ∧ (w.earlyStop = true ↔ stop)
      else w.done = false ∧ w.step = some (n + 1) ∧ w.latches = [] ∧ w.batchRows = [] ∧ w.attended = [] ∧ w.nextRow = some next
    s.job slot = some j → s.declOf j = some d → j.terms.stepBlock = some b → j.step = some n → j.terms.group = 0 → j.pager = none →
    b.snapInterval = 0 → (j.nextRow = some row ∨ (j.nextRow = none ∧ s.schedRow j (n + 1) = .row row)) → s.schedRow j (n + 2) = .row next →
    j.st = .running → j.displaced = [] → j.awaitSpill = [] → j.atCut = false → j.done = false → j.snap = none →
    s.holdsFor slot = false →
    (s.phasesDone slot j d = false → exec (.stepCut slot) s = .next s) ∧
    (s.phasesDone slot j d = true → Does (.stepCut slot) s fun t =>
      t = ((((s.withCores t.cores).withJobs t.jobs).withMem t.mem).withChans t.chans).withInteg t.integ ∧
      (ends → t.mem = s.mem) ∧ t.mem.bytes = s.mem.bytes ∧ t.mem.synd = s.mem.synd ∧ (∀ m, m ≠ slot.val → t.job m = s.job m) ∧
      (∀ c, c ∉ j.cores → t.core c = s.core c) ∧ begun t ∧
      ∀ c ∈ j.cores, (t.core c).runs.get none slot = none ∧ (∀ m, m < 32 → ((t.core c).tregs.get TReg.empty m).owner ≠ some slot.val) ∧
        (∀ k, k ≠ slot.val → (t.core c).ctxs.get Ctx.empty k = (s.core c).ctxs.get Ctx.empty k) ∧
        (¬ ends → ((t.core c).ctxs.get Ctx.empty slot).stopAcc = 0 ∧
          ∀ i, i < 16 → ((t.core c).ctxs.get Ctx.empty slot).ksc.get 0 i =
            if i < b.schedCols then BitVec.ofNat 32 (fieldAt row (4 * i) 4) else 0))

/-- R277, R279: SNAPSHOT_COMMIT of a job without a group, its body's lines accepted, writes the header with STATE 1 and the count; the snapshot is then the newest
that every device has committed. -/
def Obligations.SnapshotCommitWritesTheHeader : Prop :=
  ∀ (slot : Fin 64) (s : State) (j : Job) (d : FolioDecl) (b : StepBlock) (x : SnapInfo),
    let a := b.snapAddr + x.ordinal % 2 * d.snapBytes
    s.job slot = some j → s.declOf j = some d → j.terms.stepBlock = some b → j.snap = some x → x.begun = true →
    j.st = .running ∨ j.st = .preempted → j.terms.group = 0 → (j.snaps.head?.map (·.ordinal)) ≠ some x.ordinal →
    a % 64 = 0 → a + 64 ≤ hbmBytes → (∀ e ∈ s.host.biWait, 64 * e.line + 64 ≤ a + 64 ∨ a + 64 + x.bodyBytes ≤ 64 * e.line) →
    Does (.snapshotCommit slot) s fun t =>
      t = (((s.withJobs t.jobs).withMem t.mem).withHost t.host).withOut t.out ∧
      t.job slot = some { j with
        snap := none, combined := some x.ordinal, snaps := x :: j.snaps.filter fun y => y.ordinal % 2 != x.ordinal % 2 } ∧
      (∀ m, m ≠ slot.val → t.job m = s.job m) ∧
      t.devBytes a 38 = leBytes 4 j.id ++ leBytes 4 x.step.toNat ++ leBytes 4 x.ordinal ++ [1, 0] ++ leBytes 2 x.flags.toNat ++
        leBytes 2 x.stopRun ++ [0, 0] ++ leBytes 4 x.stopStat.toNat ++ leBytes 8 x.bodyBytes ++ leBytes 6 s.now ∧
      ∀ e, e < a ∨ a + 64 ≤ e → t.devByte e = s.devByte e

/-- R454, R455, R280: a job without a group that restarts. Quiet, it takes its newest snapshot, or its origin where it has none; the
restore puts the step, flags, stop count and pager of that snapshot back, or clears them. -/
def Sys2Proof.Claims.RestartRestoresTheSnapshot : Prop :=
  ∀ (slot : Fin 64) (s : State) (j : Job) (r : Restart) (d : FolioDecl) (b : StepBlock) (x : SnapInfo),
    let a := b.snapAddr + x.ordinal % 2 * d.snapBytes
    let only := fun (t : State) => (∀ m, m ≠ slot.val → t.job m = s.job m) ∧
      t = ((((((s.withJobs t.jobs).withCores t.cores).withMem t.mem).withHost t.host).withOut t.out).withChans t.chans).withInteg t.integ
    s.job slot = some j → j.restart = some r → j.terms.group = 0 →
    (r.stage = .stopped → exec (.restartQuietDone slot) s = .next (s.setJob slot (some { j with
      restart := some { r with stage := .restore, quietAt := s.now, ordinal := j.snaps.head?.map (·.ordinal) } }))) ∧
    (s.declOf j = some d → j.displaced = [] → r.stage = .restore →
      (r.ordinal = none → Does (.restartRestoreDone slot) s fun t => only t ∧ (j.pager = none → t.mem = s.mem) ∧
        (∀ c ∈ j.cores, (t.core c).ctxs.get Ctx.empty slot = Ctx.empty) ∧
        t.job slot = some { j with
          restart := some { r with stage := .resume }, flags := 0, stopRun := 0, stopStat := 0, stepsRun := 0, step := none,
          snaps := [], snapNext := 0, combined := none, peerCommits := [], pager := j.pager.map (Pager.atOrigin true), pagerRemote := [] }) ∧
      (r.ordinal = some x.ordinal → j.terms.stepBlock = some b → (j.snaps.find? fun y => y.ordinal == x.ordinal) = some x →
        s.badLine a (64 + x.bodyBytes) = none → Does (.restartRestoreDone slot) s fun t => only t ∧
          (∀ c ∈ j.cores, (t.core c).ctxs.get Ctx.empty slot = { Ctx.empty with flags := x.flags }) ∧
          ∃ w, t.job slot = some w ∧ w.restart = some { r with stage := .resume } ∧ w.stopRun = x.stopRun ∧ w.stopStat = x.stopStat ∧
            w.stepsRun = (x.step + 1).toNat ∧ w.step = (if x.step = 0xFFFFFFFF then none else some x.step.toNat) ∧
            w.combined = some x.ordinal ∧ w.snapNext = x.ordinal + 1 ∧ w.flags = 0 ∧
            w.snaps = j.snaps.filter fun y => decide (y.ordinal ≤ x.ordinal)))

/-- R348, R378: RESTART_RESUME begins the restored step, and a G job gets a promise counted anew from the time of the resume, in whole
microseconds from its origin, in which the time of the snapshots to come is rounded up once; its record has REASON RESTARTED, and its
blocks to decode join the decoders' queues again (R332). -/
def Sys2Proof.Claims.RestartResumesWithANewPromise : Prop :=
  ∀ (slot : Fin 64) (s : State) (j : Job) (r : Restart) (q : Price) (d : FolioDecl),
    let n := j.terms.periodic j.stepsRun
    let ns := s.now - j.origin + (if j.snaps = [] then q.once else 0) + (j.terms.sMax - j.stepsRun) * q.step +
      ((n * q.snapNum + q.snapDen - 1) / q.snapDen - n * q.first) + 2000
    let p := if j.terms.cls = 0 then (ns + 999) / 1000 else 0
    let w : Job := { j with st := .running, restart := none, promiseUs := p }
    s.job slot = some j → j.restart = some r → j.price = some q → s.declOf j = some d → r.stage = .resume → hasOnce d = true →
    j.snaps = [] → exec (.restartResume slot) s = .next
      ((((s.setJob slot (some w)).queueBlocks slot).sendRec j.ring (jobRecord w (some slot) 0 0x21 3 (Nat.min 0xFFFFFFFF p) 0)).setJob slot
        (some { w with step := none, latches := [], atCut := false }))

/-- The two claims above. -/
def Obligations.RestartsRestoreAndResume : Prop := Sys2Proof.Claims.RestartRestoresTheSnapshot ∧ Sys2Proof.Claims.RestartResumesWithANewPromise

/-- R359, R360, R455: a group job whose start barrier has not closed START_WAIT_US after its origin is cancelled at rank 0 with
START_TIMEOUT, and a device that has neither COMMIT nor ABORT 100 µs after its quiet faults the job with PEER_FAULT; not before. -/
def Sys2Proof.Claims.TimeoutsEndGroupJobs : Prop :=
  ∀ (slot : Fin 64) (s : State) (j : Job) (b : StartBarrier) (r : Restart),
    let ended := fun (st : JobState) (reason : Nat) (t : State) => (∃ w, t.job slot = some w ∧ w.st = st ∧ w.endReason = reason) ∧
      ∀ c, NothingOn slot (t.core c)
    s.job slot = some j →
    (j.start = some b → j.st = .accepted → s.leads j = true → b.decided = false →
      let base := if j.terms.cls = 0 then j.origin else b.since
      (s.now ≤ base + 1000 * j.terms.startWaitUs → exec (.startWaitTimeout slot) s = .next s) ∧
      (base + 1000 * j.terms.startWaitUs < s.now → Does (.startWaitTimeout slot) s (ended .cancelled 0x24))) ∧
    (j.restart = some r → r.stage = .agreement →
      (s.now < r.quietAt + 100000 → exec (.restartAgreementTimeout slot) s = .next s) ∧
      (r.quietAt + 100000 ≤ s.now → Does (.restartAgreementTimeout slot) s (ended .faulted 0x25)))

/-- The two claims above. -/
def Obligations.ClocksEndAndRecordJobs : Prop := Sys2Proof.Claims.OverrunAndDeadlineRecordedOnce ∧ Sys2Proof.Claims.TimeoutsEndGroupJobs

/-- R449, R450, R453, R456, R468, R469: what a detection does to a job without a group, as one event of one cause: a FAULT_LOG entry,
FAULT_COUNT and the charge of the island; then RESTARTING where the cause allows it and the job has restarts left, else FAULTED. The
epoch of the entry is the count of restarts at the fault (assumption log 19). -/
def Obligations.DetectionRestartsOrFaults : Prop :=
  ∀ (k : Nat) (reason island loc : Nat) (s : State) (j : Job),
    let t := s.detect k reason island loc
    let restarts := restartColumn reason j.terms.cls = true ∧ j.restartsTaken < 15 ∧ (j.st = .running ∨ j.st = .preempted ∨ j.st = .restarting) ∧
      ¬ ((reason = 0x80 ∨ reason = 0x86) ∧ loc ∈ j.failedAddrs) ∧ ¬ ((reason = 0x90 ∨ reason = 0x91) ∧ j.terms.cls = 0)
    s.job k = some j → j.st.final = false → j.st ≠ .released → j.terms.group = 0 → ownDetail reason = false →
    (t.island island).charges = (s.island island).charges ++
      (if reason = 0x98 then [(s.now, 2)] else if reason ∈ [0x88, 0x89, 0x8A, 0x8B, 0x99, 0x9A] then [(s.now, 1)] else []) ∧
    t.integ = { s.integ with
      faults := Nat.min 0xFFFFFFFF (s.integ.faults + 1), logTotal := (s.integ.logTotal + 1) % 65536,
      log := s.integ.log.set none (s.integ.logTotal % 64)
        (some ⟨s.now, reason, island, j.id, j.restartsTaken, false, loc % 2 ^ 48⟩)
      rsvCorr := t.integ.rsvCorr } ∧ (s.mem.errs = [] → t.integ.rsvCorr = s.integ.rsvCorr) ∧ HeldDropped k s t ∧
    t.irq.event.getLsbD 2 = true ∧
    (restarts → ∃ w, t.job k = some w ∧ w.st = .restarting ∧ w.restartsTaken = j.restartsTaken + 1 ∧ w.cores = j.cores ∧
      w.granules = j.granules ∧ w.snaps = j.snaps ∧ w.snap = none ∧ ∀ c, NothingOn k (t.core c)) ∧
    (¬ restarts → ∃ w, t.job k = some w ∧ w.st = .faulted ∧ w.endReason = reason ∧ w.granules = [] ∧ ∀ c, NothingOn k (t.core c))

/-! ## The queue, the clock and the memories -/

/-- A step takes the command at the front of the queue and runs it with the queue's rest. -/
def Obligations.StepRunsTheFrontCommand : Prop :=
  ∀ (c : Instr) (q : List Instr) (s : State), step (s.withPending (c :: q)) = exec c (s.withPending q)

/-- On an empty queue, where no command that is held can go, the counter of R31 counts one nanosecond, when it runs; what else a tick does
is the heartbeat (R508). The tick on an empty queue is the model's choice (assumption log 7, log 55). -/
def Obligations.EmptyQueueTicksTheCounter : Prop :=
  ∀ s : State, s.pending = [] → (∀ h ∈ s.held, s.freed h = false) → ∃ t, step s = .next t ∧ t = ((s.withClk t.clk).withMbx t.mbx).withFree t.free ∧
    t.clk = (if s.clk.run then { s.clk with count := (s.clk.count + 1) % 2 ^ 64 } else s.clk) ∧
    (s.clk.run = false ∨ s.scribesRun = false ∨ (s.clk.count + 1) % 100000 ≠ 0 → t.mbx = s.mbx ∧ t.free = s.free)

/-- Every command whose operands the hardware can be given completes, in every state; no other is refused, and one that does not complete is
ill-formed. -/
def Obligations.EveryCommandCompletesOrIsIllFormed : Prop :=
  ∀ (c : Instr) (s : State), (c.wf = true → ∃ t, exec c s = .next t) ∧ ((∃ t, exec c s = .next t) ∨ exec c s = .fault .illFormed)

/-- Every step keeps device memory, host memory, flash and the wells in canonical form: keys rising, and no entry that reads as an
unlisted one does. -/
def Obligations.StepKeepsMemoryCanonical : Prop :=
  ∀ s t : State, s.memWf = true → step s = .next t → t.memWf = true

/-- After reset the memories are canonical and list nothing; the device is at CONFIG_LOAD with every pair of rings disabled, no job, no
link and FAULT_L released (R38, R287, R295, R325, R403, R487). -/
def Obligations.ResetIsCanonicalAndEmpty : Prop :=
  let s := State.reset
  s.memWf = true ∧ s.mem = ⟨[], [], [], []⟩ ∧ s.pending = [] ∧ s.held = [] ∧ s.boot.st = .configLoad ∧ s.part.scratch = 0 ∧ s.part.folioGib = 0 ∧
  s.topo.size = ⟨1, 1, 1, 1⟩ ∧ s.topo.coord = ⟨0, 0, 0, 0⟩ ∧ s.topo.wrap = 0 ∧ s.jobList = [] ∧
  (∀ n, (s.ring n).enable = false ∧ (s.ring n).sqLog2 = 6 ∧ (s.ring n).rqLog2 = 6) ∧ (∀ i, s.table i = none) ∧
  (∀ l, (s.link l).st = 0) ∧ s.pins.faultL = false

/-! ## Records and device memory (13, 10) -/

/-- R308 and R310: a write of whole lines of device memory below the far tier is what the device then reads there, each line with a
correct welt, and no other byte changes; a line that the host may hold is invalidated there first (R495). -/
def Obligations.WholeLineWritesReadBack : Prop :=
  ∀ (a : Nat) (bs : List Byte) (s : State), a % 64 = 0 → bs.length % 64 = 0 → a + bs.length ≤ farLo →
    let t := s.devWrite a bs
    t = ((s.withMem t.mem).withHost t.host).withOut t.out ∧ t.host.mem = s.host.mem ∧
    (∀ i, i < bs.length → t.devByte (a + i) = bs.getD i 0 ∧ t.lineSynd ((a + i) / 64) = 0) ∧
    (∀ e, e < a ∨ a + bs.length ≤ e → t.devByte e = s.devByte e ∧ t.lineSynd (e / 64) = s.lineSynd (e / 64))

/-- R366, R371: a record goes to the tail of its reply ring in host memory: SEQ, OPCODE with the device state, STATUS, REASON, JOB with
JOB_STATE and the PHASE of the pass, PROMISE_US, COUNT and DETAIL; the ring's tail moves on. Without space, or behind records that
wait, it joins the backlog; a lifecycle record takes the place of a waiting one of its job that is not final. -/
def Sys2Proof.Claims.RecordsGoToTheRingOrTheBacklog : Prop :=
  ∀ (n : Nat) (r : Rec) (s : State),
    let g := s.ring n
    let t := s.queueRec n r
    let a := g.rqBase + 32 * (g.rqTail.toNat % 2 ^ g.rqLog2)
    let phase := if g.rqTail.toNat / 2 ^ g.rqLog2 % 2 = 0 then 2 ^ 31 else 0
    (g.backlog = [] → (g.rqTail - g.rqHead).toNat < 2 ^ g.rqLog2 → g.rqHbm = false → s.host.modules ≠ 0 →
      (t.ring n).rqTail = g.rqTail + 1 ∧ (t.ring n).backlog = [] ∧
      t.hostBytes a 22 = leBytes 4 r.seq.toNat ++ leBytes 2 (r.opcode % 4096 + 4096 * s.devState.code) ++ leBytes 1 r.status ++
        leBytes 1 r.reason ++ leBytes 4 (r.job % 2 ^ 27 + 2 ^ 27 * (r.jobState % 16) + phase) ++ leBytes 4 r.promise ++ leBytes 6 s.now ∧
      t.hostBytes (a + 24) 8 = leBytes 8 r.detail.toNat ∧ ∀ e, e < a ∨ a + 32 ≤ e → t.host.mem.get 0 e = s.host.mem.get 0 e) ∧
    (g.backlog ≠ [] ∨ 2 ^ g.rqLog2 ≤ (g.rqTail - g.rqHead).toNat → t = s.modRing n fun x => { x with backlog := (t.ring n).backlog }) ∧
    (∀ w, g.backlog = [w] →
      (t.ring n).backlog = if r.jobLife ≠ none ∧ w.jobLife = r.jobLife ∧ w.finalJob = false then [r] else [w, r])

/-- R366, R499, R504: a waiting record is written once its ring has space, the first first. -/
def Sys2Proof.Claims.BacklogDrainsInOrder : Prop :=
  ∀ (n : Fin 64) (r : Rec) (q : List Rec) (s : State), (s.ring n).backlog = r :: q →
    exec (.backlogRecordWrite n) s = .next (
      if ((s.ring n).rqTail - (s.ring n).rqHead).toNat < 2 ^ (s.ring n).rqLog2 then
        (s.modRing n fun g => { g with backlog := q }).putRecord n r
      else s)

/-- The two claims above. -/
def Obligations.RecordsReachTheirRing : Prop := Sys2Proof.Claims.RecordsGoToTheRingOrTheBacklog ∧ Sys2Proof.Claims.BacklogDrainsInOrder

/-! ## Ring commands (13, 10, 11) -/

namespace Sys2Proof.Claims

/-- The state once the packet has been fetched: its slots are consumed, the command has its place in the order of fetch, and the ring is
the one served last. -/
def taken (s : State) (n : Nat) (slots : Nat) : State :=
  (s.modRing n fun g => { g with sqHead := g.sqHead + BitVec.ofNat 32 slots }).modSys fun y =>
    { y with fetchNo := y.fetchNo + 1, lastRing := n }

/-- The record of a command (R371): its SEQ, opcode and job identifier, with that job's state. -/
def answer (s : State) (op : Nat) (p : Pkt) (status reason : Nat) (detail : DWord) : Rec :=
  { seq := p.seq, opcode := op, status := status, reason := reason, job := p.job.toNat % 2 ^ 27,
    jobState := if p.job.toNat % 2 ^ 27 = 0 then 0 else s.jobCode (p.job.toNat % 2 ^ 27), promise := 0, detail := detail,
    jobLife := none, finalJob := false }

/-- The single record of a command, written in state `s`. -/
def answered (s : State) (n : Nat) (op : Nat) (p : Pkt) (status reason : Nat) (detail : DWord) : State :=
  s.sendRec n (answer s op p status reason detail)

/-- The ACCEPTED record of a command, which owes a further one of kind `kind`. -/
def accepted (s : State) (n : Nat) (op : Nat) (p : Pkt) (kind : OpKind) (detail : DWord) : State :=
  ((answered s n op p 1 0 detail).modRing n fun g => { g with owes := g.owes ++ [s.sys.fetchNo - 1] }).modSys fun y => { y with
    ops := y.ops ++ [⟨s.sys.fetchNo - 1, n, p.seq, op, p.job.toNat % 2 ^ 27, kind⟩] }

/-- A record that a command in progress gets. -/
def opRecord (s : State) (o : Op) (status reason : Nat) (detail : DWord) : Rec :=
  { seq := o.seq, opcode := o.opcode, status := status, reason := reason, job := o.job,
    jobState := if o.job = 0 then 0 else s.jobCode o.job, promise := 0, detail := detail, jobLife := none, finalJob := false }

/-- The final record of a command in progress. -/
def finished (s : State) (o : Op) (status reason : Nat) (detail : DWord) : State :=
  let t := (s.modRing o.ring fun g => { g with owes := g.owes.filter (· != o.no) }).modSys fun y => { y with
    ops := y.ops.filter fun q => q.no != o.no }
  t.sendRec o.ring (opRecord t o status reason detail)

/-- The packet is fetched from ring n, passes HST's checks, and its opcode is legal in the device state (R363 to R370, R388). -/
def Passes (n : Fin 64) (op : Nat) (p : Pkt) (s : State) : Prop :=
  p.wf = true ∧ s.fetchable n p = true ∧ s.headerCheck n op true (plenOf op) p = none ∧ legalIn op s.devState = true

/-- What the ring command does from the state in which it has been fetched. -/
def Runs (i : Instr) (n : Fin 64) (op : Nat) (p : Pkt) (s : State) (t : State → State) : Prop :=
  Passes n op p s → exec i s = .next (t (taken s n p.slots.toNat))

/-- The ring commands with their ring, opcode and packet. -/
def ringCommand : Instr → Option (Fin 64 × Nat × Pkt)
  | .echo n p => some (n, 0x101, p) | .queryState n p => some (n, 0x102, p) | .quiesce n p => some (n, 0x103, p)
  | .resume n p _ => some (n, 0x104, p) | .setPartition n p => some (n, 0x105, p) | .memCopy n p => some (n, 0x201, p)
  | .memFill n p => some (n, 0x202, p) | .memVerify n p => some (n, 0x203, p) | .folioLoad n p => some (n, 0x301, p)
  | .folioPin n p => some (n, 0x302, p) | .folioEvict n p => some (n, 0x303, p) | .tableLoad n p => some (n, 0x304, p)
  | .jobSubmit n p => some (n, 0x401, p) | .jobCancel n p => some (n, 0x402, p) | .jobStatus n p => some (n, 0x403, p)
  | .readResult n p => some (n, 0x404, p) | .releaseResult n p => some (n, 0x405, p) | .seqJoin n p => some (n, 0x501, p)
  | .seqLeave n p => some (n, 0x502, p) | .kvPageMap n p => some (n, 0x503, p) | .topoSet n p => some (n, 0x601, p)
  | .groupDefine n p => some (n, 0x602, p) | .linkTrain n p => some (n, 0x603, p) | .videoOpen n p => some (n, 0x701, p)
  | .videoFrame n p => some (n, 0x702, p) | .videoClose n p => some (n, 0x703, p) | .burnishRun n p => some (n, 0x801, p)
  | .marginReport n p => some (n, 0x802, p) | .attest n p => some (n, 0x901, p) | .fwStage n p => some (n, 0x902, p)
  | .awlStart n p => some (n, 0xA01, p) | .awlStop n p _ => some (n, 0xA02, p) | .awlReport n p => some (n, 0xA03, p)
  | _ => none

/-- The state matrix of R388, by opcode: TRAINING, READY, RUNNING, QUIESCED, FAULT_HOLD, LOCKED. -/
def matrixRow (op : Nat) : List Bool :=
  if op ∈ [0x101, 0x102] then [true, true, true, true, true, true]
  else if op = 0x103 then [false, true, true, true, false, false]
  else if op = 0x104 then [false, false, false, true, true, false]
  else if op ∈ [0x105, 0x601, 0x801, 0xA01] then [false, true, false, true, false, false]
  else if op ∈ [0x201, 0x202, 0x301, 0x302, 0x303, 0x304, 0x602, 0x603, 0x902] then [false, true, true, true, false, false]
  else if op ∈ [0x203, 0x402, 0x403, 0x404, 0x405, 0xA02, 0xA03, 0x703] then [false, true, true, true, true, false]
  else if op ∈ [0x401, 0x501, 0x502, 0x503, 0x701, 0x702] then [false, true, true, false, false, false]
  else [true, true, true, true, true, false]

def inMatrix (op : Nat) (d : DevState) : Bool :=
  match d with
  | .training => (matrixRow op).getD 0 false | .ready => (matrixRow op).getD 1 false | .running => (matrixRow op).getD 2 false
  | .quiesced => (matrixRow op).getD 3 false | .faultHold => (matrixRow op).getD 4 false | .locked => (matrixRow op).getD 5 false
  | _ => false

end Sys2Proof.Claims

/-- R363, R364, R368 to R370, R388: every ring command in host memory waits until it can be fetched; then the first check that fails
decides its record, which is its only effect: SLOTS, the packet's welt, its header, and in a state in which the matrix does not allow
it STATE_CONFLICT, unless a parameter was refused before. An opcode that R376 does not list is refused with BAD_OPCODE. -/
def Obligations.CommandsAreCheckedInOrder : Prop :=
  ∀ (c : Instr) (n : Fin 64) (op : Nat) (p : Pkt) (s : State) (x : BitVec 16),
    let slots := p.slots.toNat
    let sizeOk := 1 ≤ slots ∧ slots ≤ 16
    let headerOk := p.flags.toNat / 2 = 0 ∧ p.job.toNat / 2 ^ 27 = 0 ∧ slots = Nat.max 1 ((16 + p.plen.toNat + 63) / 64) ∧
      plenOf op p.plen.toNat = true
    let only := fun (k status reason : Nat) => exec c s = .next (answered (taken s n k) n op p status reason 0)
    p.wf = true →
    (ringCommand c = some (n, op, p) →
      (s.fetchable n p = false → exec c s = .next s) ∧
      (s.fetchable n p = true → s.host.modules ≠ 0 → (s.ring n).sqHbm = false →
        (¬ sizeOk → only 1 0x11 0x30) ∧
        (sizeOk → p.weltOk op = false → only slots 0x20 0) ∧
        (sizeOk → p.weltOk op = true → ¬ headerOk → only slots 0x11 0x30) ∧
        (sizeOk → p.weltOk op = true → headerOk → inMatrix op s.devState = false →
          only slots 0x13 0 ∨ ∃ status reason detail, status ∈ [0x11, 0x12, 0x20] ∧
            exec c s = .next (answered (taken s n slots) n op p status reason detail)))) ∧
    (x.toNat ∉ opcodes → s.fetchable n p = true → (s.ring n).sqHbm = false → sizeOk → p.weltOk x.toNat = true →
      exec (.unknownOpcodePacket n x p) s = .next (answered (taken s n slots) n x.toNat p 0x10 0 0))

/-- R376: ECHO and QUERY_STATE answer OK with their DETAIL and change nothing else. -/
def Sys2Proof.Claims.EchoAndQueryStateAnswer : Prop :=
  ∀ (n : Fin 64) (p : Pkt) (s : State),
    Runs (.echo n p) n 0x101 p s (fun t => answered t n 0x101 p 0 0 (BitVec.ofNat 64 (leNat (p.body.take (Nat.min 8 p.plen.toNat))))) ∧
    Runs (.queryState n p) n 0x102 p s (fun t => answered t n 0x102 p 0 0 (BitVec.ofNat 64 (s.inServiceCores.length % 2 ^ 12 +
      s.part.rate % 2 ^ 8 * 2 ^ 12 + ((List.range 64).countP fun l => (s.link l).st == 2) * 2 ^ 20 + s.jobList.length * 2 ^ 27 +
      (if s.sys.quiesce = none then 0 else 2 ^ 34) + (if s.part.pend = none then 0 else 2 ^ 35))))

/-- R386, R293, R459: QUIESCE, its end, and RESUME. With nothing admitted and no frame the device is QUIESCED at once, no line dirty;
otherwise QUIESCE waits, in DRAIN mode until nothing is left. RESUME brings READY back, from FAULT_HOLD only when every cause cleared. -/
def Sys2Proof.Claims.QuiesceAndResume : Prop :=
  ∀ (n : Fin 64) (p : Pkt) (env : HoldEnv) (s : State),
    let mode := p.arg 0 1
    let idle := s.jobList = [] ∧ (List.range 4).all (fun e => (s.engine e).queue.isEmpty && (s.engine e).run.isNone) = true
    let calm := fun (t : State) => t.boot.st = .quiesced ∧ t.sys.quiesce = none ∧ ∀ l, t.mem.cached.get 0 l ≠ 2
    (mode ≤ 1 → zeroAt p.body 1 7 = true → Passes n 0x103 p s →
      (s.boot.st = .ready → idle → (s.ring n).rqHbm = false → Does (.quiesce n p) s calm) ∧
      (s.boot.st = .ready → (∀ kj ∈ s.jobList, kj.2.st ≠ .submitted) → s.admittedJobs ≠ [] →
        let t := taken s n p.slots.toNat
        exec (.quiesce n p) s = .next (accepted (t.modSys fun y => { y with
          quiesce := some (mode == 1 || s.sys.quiesce == some true) }) n 0x103 p (.quiesce (mode == 1)) 0))) ∧
    (s.sys.quiesce = some false →
      (s.admittedJobs ≠ [] → exec .quiesceDone s = .next s) ∧
      (s.boot.st = .faultHold → exec .quiesceDone s = .next s) ∧
      (s.boot.st = .ready → idle → s.sys.ops = [] → Does .quiesceDone s fun t => calm t ∧ t = ((s.withMem t.mem).withBoot t.boot).withSys t.sys)) ∧
    (Passes n 0x104 p s →
      (s.boot.st = .quiesced → Does (.resume n p env) s fun t => t.boot.st = .ready ∧ t.integ.hold = false ∧ t.pins.faultL = false) ∧
      (s.boot.st = .faultHold → (0xA1, 0) ∈ s.integ.holds → env.coolNs < 1000000000 →
        Runs (.resume n p env) n 0x104 p s fun t => answered t n 0x104 p 0x13 0x33 0))

/-- The two claims above. -/
def Obligations.GeneralCommandsAct : Prop := Sys2Proof.Claims.EchoAndQueryStateAnswer ∧ Sys2Proof.Claims.QuiesceAndResume

/-- R287, R288, R295: SET_PARTITION with no job admitted and no pinned folio is accepted and sets PENDING; when it is applied, SCRATCH
and FOLIO_GIB are the new ones, the scratchpad beyond the old one reads 0 with good welts, no line is dirty, and the folios outside
the new area are gone. -/
def Obligations.PartitionChangesScratchpadAndFolioArea : Prop :=
  ∀ (n : Fin 64) (p : Pkt) (s : State) (scratch gibs no : Nat) (o : Op),
    let kept := fun (a : Nat) => (a - scratchLo) % sliceStride < Nat.min s.part.scratch scratch * 2 ^ 24
    (p.arg 0 1 ≤ 7 → p.arg 1 1 ≤ 192 → zeroAt p.body 2 6 = true → s.admittedJobs = [] → s.part.pend = none →
      (∀ f ∈ s.folios, f.pin = 0) →
      Runs (.setPartition n p) n 0x105 p s fun t =>
        (accepted t n 0x105 p .setPartition 0).withPart { s.part with pend := some (p.arg 0 1, p.arg 1 1, s.sys.fetchNo) }) ∧
    (s.part.pend = some (scratch, gibs, no) → s.opOf no = some o → (s.ring o.ring).rqHbm = false →
      Does .partitionApplied s fun t =>
        t.part = { s.part with scratch := scratch, folioGib := gibs, pend := none } ∧ (∀ l, t.mem.cached.get 0 l ≠ 2) ∧
        (∀ a, t.mem.bytes.get 0 a = if scratchLo ≤ a ∧ a < farLo ∧ ¬ kept a then 0 else s.mem.bytes.get 0 a) ∧
        (∀ l, t.mem.synd.get 0 l = if scratchLo ≤ 64 * l ∧ 64 * l < farLo ∧ ¬ kept (64 * l) then 0 else s.mem.synd.get 0 l) ∧
        t.folios.map (·.id) = (s.folios.filter fun f => decide (hbmBytes - gibs * 2 ^ 30 ≤ f.base)).map (·.id))

/-- R376, R387: MEM_COPY, MEM_FILL and MEM_VERIFY of whole lines that lie in one store are accepted. -/
def Sys2Proof.Claims.MemoryCommandsAreAccepted : Prop :=
  ∀ (n : Fin 64) (p : Pkt) (s : State),
    let lines := fun (a b : Nat) => a % 64 = 0 ∧ b % 64 = 0 ∧ 64 ≤ b ∧ s.mappedRange a b = true
    (lines (p.arg 0 8) (p.arg 16 8) → lines (p.arg 8 8) (p.arg 16 8) → p.arg 16 8 ≤ 2 ^ 40 → p.arg 24 1 = 0 →
      zeroAt p.body 25 7 = true → (p.arg 0 8 + p.arg 16 8 ≤ p.arg 8 8 ∨ p.arg 8 8 + p.arg 16 8 ≤ p.arg 0 8) →
      Runs (.memCopy n p) n 0x201 p s fun t => accepted t n 0x201 p (.memCopy (p.arg 0 8) (p.arg 8 8) (p.arg 16 8) false false) 0) ∧
    (lines (p.arg 0 8) (p.arg 8 8) →
      Runs (.memFill n p) n 0x202 p s (fun t => accepted t n 0x202 p (.memFill (p.arg 0 8) (p.arg 8 8) (BitVec.ofNat 64 (p.arg 16 8))) 0) ∧
      Runs (.memVerify n p) n 0x203 p s (fun t => accepted t n 0x203 p (.memVerify (p.arg 0 8) (p.arg 8 8)) 0))

/-- R309, R310, R376, R387: what MEM_COPY, MEM_FILL and MEM_VERIFY have done when they write their final record, for whole lines of HBM
and a reply ring in host memory: the copied or filled bytes and no others; WELT_ERROR with the first failing address and the count. -/
def Sys2Proof.Claims.MemoryCommandsDoTheirWork : Prop :=
  ∀ (op src dst m bad : Nat) (v : DWord) (o : Op) (s : State),
    let hbm := fun (a : Nat) => a % 64 = 0 ∧ a + m ≤ hbmBytes
    let puts := fun (f : Nat → Byte) (t : State) =>
      (∀ i, i < m → t.devByte (dst + i) = f i ∧ t.lineSynd ((dst + i) / 64) = 0) ∧
      ∀ a, a < farLo → a < dst ∨ dst + m ≤ a → t.devByte a = s.devByte a
    s.opOf op = some o → (s.ring o.ring).rqHbm = false → m % 64 = 0 → 64 ≤ m → hbm src → hbm dst →
    (o.kind = .memCopy src dst m false false → s.badLine src m = none → src + m ≤ dst ∨ dst + m ≤ src →
      Does (.memCopyDone op) s fun t => puts (fun i => s.devByte (src + i)) t ∧ t.sys.ops = s.sys.ops.filter fun q => q.no != o.no) ∧
    (o.kind = .memFill dst m v →
      Does (.memFillDone op) s fun t => puts (fun i => (v >>> (8 * (i % 8))).truncate 8) t ∧
        t.sys.ops = s.sys.ops.filter fun q => q.no != o.no) ∧
    (o.kind = .memVerify src m →
      (s.badLine src m = none → exec (.memVerifyDone op) s = .next (finished (s.touch src m) o 0 0 0)) ∧
      (s.badLine src m = some bad → exec (.memVerifyDone op) s = .next (finished (s.scan src m) o 0x20 0
        (BitVec.ofNat 64 (bad % 2 ^ 48 + Nat.min 0xFFFF ((linesOf src m).countP s.lineBad) * 2 ^ 48)))))

/-- The two claims above. -/
def Obligations.MemoryCommandsAct : Prop := Sys2Proof.Claims.MemoryCommandsAreAccepted ∧ Sys2Proof.Claims.MemoryCommandsDoTheirWork

/-- R295, R297, R365, R376: FOLIO_LOAD of a free identifier is accepted; FOLIO_PIN at levels 0 and 1 and of a resident folio at level 2
takes effect at once, and of a streamed folio at level 2 it is accepted, the folio resident and pinned from then on where its ways can be
freed; FOLIO_EVICT removes a folio that no job in progress names, and each of a folio that is not loaded is UNKNOWN_FOLIO. -/
def Sys2Proof.Claims.FolioCommandsAct : Prop :=
  ∀ (n : Fin 64) (p : Pkt) (s : State) (f : Folio),
    let id := p.arg 0 4
    let level := p.arg 4 1
    (p.arg 0 8 % 64 = 0 → p.arg 8 8 ≠ 0 → 1 ≤ p.arg 16 4 → p.arg 16 4 ≤ 65535 → p.arg 20 1 = 1 → zeroAt p.body 21 3 = true →
      s.part.pend = none → s.folio (p.arg 16 4) = none → s.loading (p.arg 16 4) = false →
      Runs (.folioLoad n p) n 0x301 p s fun t => accepted t n 0x301 p (.folioLoad (p.arg 0 8) (p.arg 8 8) (p.arg 16 4) true) 0) ∧
    (level ≤ 2 → zeroAt p.body 5 3 = true → s.folio id = some f → s.part.pend = none → f.invalid = false →
      (level ≤ 1 ∨ f.resident = true → Runs (.folioPin n p) n 0x302 p s fun t =>
        answered (t.withFolios (s.folios.map fun g => if g.id = id then { g with pin := level } else g)) n 0x302 p 0 0 0) ∧
      (level = 2 → f.resident = false → s.folioInUse id = false →
        Runs (.folioPin n p) n 0x302 p s fun t => match s.waysFreed f.ways with
          | some fs => accepted (t.withFolios (fs.map fun g => if g.id = id then
              { g with resident := true, pin := 2, decoded := [] } else g)) n 0x302 p (.folioPin id true) 0
          | none => accepted t n 0x302 p (.folioPin id false) 0)) ∧
    (zeroAt p.body 4 4 = true → s.folio id = some f → (∀ kj ∈ s.jobList, kj.2.terms.folio = id → kj.2.st.final = true) →
      Runs (.folioEvict n p) n 0x303 p s fun t =>
        answered (t.withFolios (s.folios.filter fun g => g.id != id)) n 0x303 p 0 0 0) ∧
    (zeroAt p.body 4 4 = true → s.folio id = none →
      Runs (.folioEvict n p) n 0x303 p s fun t => answered t n 0x303 p 0x11 0x36 0)

/-- R295, R297, R318: FOLIO_LOAD at its end, of an image in host memory that passes every check, with room in the folio area: the
folio is listed at a base of whole 4 KiB pages in the area and its bytes lie from there on; an image that fails a check leaves no
copy. FOLIO_PIN at its end has made the resident copy, every load-time block decoded in turn (R322), or is NO_RESOURCE where the ways
were not freed. The folio's header and phase entries are those of its image (R341, R342). -/
def Sys2Proof.Claims.FolioLoadAndPinComplete : Prop :=
  ∀ (op : Nat) (d : FolioDecl) (o : Op) (s : State) (src n id : Nat) (f : Folio),
    let img := s.hostBytes src n
    let decl := d.ofImage img
    s.opOf op = some o → s.host.modules ≠ 0 → (s.ring o.ring).rqHbm = false →
    (o.kind = .folioLoad src n id true → 0 < n →
      (decl.check img = none → s.folioStarts ((n + 4095) / 4096) ≠ [] → s.part.folioGib ≤ 192 →
        (∀ f ∈ s.folios, s.folioLo ≤ f.base ∧ f.base + f.bytes ≤ hbmBytes) → Does (.folioLoadDone op d) s fun t =>
        ∃ g, t.folios = s.folios ++ [g] ∧ g.id = id ∧ g.bytes = n ∧ g.decl = decl ∧ g.resident = false ∧ g.pin = 0 ∧ g.invalid = false ∧
          g.base % 4096 = 0 ∧ s.folioLo / 4096 ≤ g.base / 4096 ∧ ∀ i, i < n → t.devByte (g.base + i) = img.getD i 0) ∧
      (∀ r, decl.check img = some r → exec (.folioLoadDone op d) s = .next (finished s o r.1 r.2.1 r.2.2))) ∧
    (o.kind = .folioPin id true → s.folio id = some f → f.resident = true →
      exec (.folioPinDone op) s = .next (finished ((loadBlocks f).foldl (fun t x => t.pinBlock id x) s) o 0 0 0)) ∧
    (o.kind = .folioPin id false → exec (.folioPinDone op) s = .next (finished s o 0x14 0 0))

/-- The two claims above. -/
def Obligations.FoliosAreLoadedPinnedAndEvicted : Prop := Sys2Proof.Claims.FolioCommandsAct ∧ Sys2Proof.Claims.FolioLoadAndPinComplete

/-- R325 to R327: TABLE_LOAD of a valid table in host memory. A generation already held is OK; an empty slot, or an unreferenced one, the
older first, takes the table; otherwise it waits for the older slot, or is TABLE_BUSY at once where the timeout is 0, or when it
passes. -/
def Obligations.TableLoadInstallsOrWaits : Prop :=
  ∀ (n : Fin 64) (p : Pkt) (cls : Fin 2) (s : State) (w : TableWait) (o : Op) (i : Nat),
    let a := p.arg 0 8
    let head := s.hostBytes a 64
    let img := s.hostBytes a (tableBytes (fieldAt head 0 1))
    let tab := tableOfBytes img
    let age := 1 + Nat.max ((s.table (2 * cls)).elim 0 (·.age)) ((s.table (2 * cls + 1)).elim 0 (·.age))
    let put := fun (t : State) (x : Table) => t.withTables (s.tables.set none i (some { x with age := age }))
    (a % 64 = 0 → p.arg 12 1 = 1 → zeroAt p.body 13 3 = true → s.host.modules ≠ 0 → fieldAt head 0 1 = 1 ∨ fieldAt head 0 1 = 2 →
      tableOk img = true → fieldAt head 1 1 = cls.val → fieldAt img 1 1 = cls.val → s.tableWait.get none cls = none →
      (s.slotWith cls tab.gen = some i → Runs (.tableLoad n p) n 0x304 p s fun t => answered t n 0x304 p 0 0 (BitVec.ofNat 64 (i % 2))) ∧
      (s.slotWith cls tab.gen = none → s.tableTarget cls = some i → Runs (.tableLoad n p) n 0x304 p s fun t =>
        answered (put t tab) n 0x304 p 0 0 (BitVec.ofNat 64 (i % 2))) ∧
      (s.slotWith cls tab.gen = none → s.tableTarget cls = none → p.arg 8 4 = 0 →
        Runs (.tableLoad n p) n 0x304 p s fun t => answered t n 0x304 p 0x16 0 0)) ∧
    (s.tableWait.get none cls = some w → s.opOf w.op = some o →
      (i = s.olderSlot cls → s.tableReferenced i = false → s.now ≤ w.deadline → exec (.tableInstall cls) s = .next
        (finished ((put s w.tab).withTableWait (s.tableWait.set none cls none)) o 0 0 (BitVec.ofNat 64 (i % 2)))) ∧
      (s.tableReferenced (s.olderSlot cls) = true → exec (.tableInstall cls) s = .next s) ∧
      (s.now < w.deadline → exec (.tableLoadTimeout cls) s = .next s) ∧
      (w.deadline ≤ s.now → exec (.tableLoadTimeout cls) s = .next
        (finished (s.withTableWait (s.tableWait.set none cls none)) o 0x16 0 0)))

/-! ## Job and sequence commands (08, 12) -/

namespace Sys2Proof.Claims

/-- A command owes a further record. -/
def owing (s : State) (n : Nat) (op : Nat) (p : Pkt) (kind : OpKind) : State :=
  (s.modRing n fun g => { g with owes := g.owes ++ [s.sys.fetchNo - 1] }).modSys fun y => { y with
    ops := y.ops ++ [⟨s.sys.fetchNo - 1, n, p.seq, op, p.job.toNat % 2 ^ 27, kind⟩] }

/-- The job of slot `k` has been cancelled by a command (R389): it holds nothing any more, and its final record carries REASON NONE. -/
def Cancelled (k : Nat) (j : Job) (t : State) : Prop :=
  (∃ w, t.job k = some w ∧ w.st = .cancelled ∧ w.endReason = 0 ∧ w.endDetail = none ∧ w.granules = [] ∧ w.spills = [] ∧
    w.terms = j.terms ∧ w.id = j.id ∧ w.stepsRun = j.stepsRun) ∧
  (∀ c, NothingOn k (t.core c)) ∧ ∃ rec, (j.terms.completion, j.ring, rec) ∈ t.host.goWait ∧ rec.status = 0x13 ∧ rec.reason = 0 ∧
    rec.jobState = 8 ∧ rec.seq = j.seq

/-- The job of slot `k` has been released: its identifier is the newest remembered, of at most 256 (R381, R382). -/
def Released (k : Nat) (j : Job) (s t : State) : Prop :=
  t.job k = none ∧ (∀ m, m ≠ k → t.job m = s.job m) ∧ t.cores = s.cores ∧ t.folios = s.folios ∧
  t.sys.released = (s.sys.released ++ [j.id]).drop (s.sys.released.length + 1 - 256)

end Sys2Proof.Claims

/-- R177, R334, R337, R371, R379, R382, R389, R390: JOB_SUBMIT that passes its checks puts a job in SUBMITTED into a free slot; its first
reply is a holding record of PROMISE_US all ones, or the decision itself where that is complete in time (the device's timing: which of
the two is a free value). A job that ended in a bounds error answers with that. JOB_CANCEL of a running job is accepted and cancels it when it is done; of any other job in progress it
cancels at once, and of an ended one it is STATE_CONFLICT. JOB_STATUS shows the promise, what remains of it, and the restarts. An
identifier that nothing holds or remembers is UNKNOWN_JOB. -/
def Obligations.JobsAreSubmittedCancelledAndShown : Prop :=
  ∀ (n : Fin 64) (p : Pkt) (s : State) (k op : Nat) (j : Job) (o : Op),
    let remain := if j.terms.cls ≠ 0 ∨ j.decided = false then 0xFFFFFFFF else (j.origin + 1000 * j.promiseUs - s.now) / 1000
    (s.submitParams p = none → s.submitLate p = none → submitBlock p = 0 ∨ s.reach false (submitBlock p) = true → ∃ (m : Fin 64) (w : Job),
      s.job m = none ∧ w.st = .submitted ∧ w.id = p.jobId ∧ w.ring = n.val ∧ w.seq = p.seq ∧ w.terms = s.termsOf p ∧
      w.origin = s.now ∧ w.decided = false ∧ w.cores = [] ∧ w.granules = [] ∧ w.pager = none ∧ w.restartsTaken = 0 ∧
      let u := owing ((taken s n p.slots.toNat).took.setJob m (some w)) n 0x401 p (.jobSubmit m)
      (Passes n 0x401 p s →
        exec (.jobSubmit n p) s = .next (u.sendRec n { answer u 0x401 p 1 0 0 with promise := 0xFFFFFFFF, jobState := 1 }) ∨
        exec (.jobSubmit n p) s = exec (.admissionDecision m) u)) ∧
    (s.slotOf p.jobId = some k → s.job k = some j →
      (j.st = .running → Runs (.jobCancel n p) n 0x402 p s fun t => accepted t n 0x402 p (.jobCancel k) 0) ∧
      (j.st.final = true → j.boundsEnd = none → Runs (.jobCancel n p) n 0x402 p s fun t => answered t n 0x402 p 0x13 0 0) ∧
      (∀ d, j.st = .faulted → j.endReason = 0x26 → j.endDetail = some d →
        Runs (.jobCancel n p) n 0x402 p s (fun t => answered t n 0x402 p 0x21 0x26 d) ∧
        Runs (.jobStatus n p) n 0x403 p s (fun t => (t.took.took).sendRec n { answer t 0x403 p 0x21 0x26 d with
          promise := if j.decided then Nat.min 0xFFFFFFFF j.promiseUs else 0xFFFFFFFF })) ∧
      (j.st ≠ .running → j.st.final = false → Passes n 0x402 p s → Does (.jobCancel n p) s (Cancelled k j)) ∧
      (j.endDetail = none ∨ j.st ≠ .faulted → Runs (.jobStatus n p) n 0x403 p s fun t => (t.took.took).sendRec n
        { answer t 0x403 p 0 0 (BitVec.ofNat 64 (remain * 2 ^ 32 + Nat.min 255 j.restartsTaken * 2 ^ 24 + j.degradation)) with
            promise := if j.decided then Nat.min 0xFFFFFFFF j.promiseUs else 0xFFFFFFFF })) ∧
    (s.opOf op = some o → o.kind = .jobCancel k → s.job k = some j → j.st.final = false →
      Does (.jobCancelDone op) s (Cancelled k j)) ∧
    (s.slotOf p.jobId = none → p.jobId ∉ s.sys.released →
      Runs (.jobCancel n p) n 0x402 p s (fun t => answered t n 0x402 p 0x11 0x31 0) ∧
      Runs (.jobStatus n p) n 0x403 p s (fun t => answered t n 0x403 p 0x11 0x31 0) ∧
      Runs (.releaseResult n p) n 0x405 p s (fun t => answered t n 0x405 p 0x11 0x31 0))

/-- R380 to R383, R389: READ_RESULT by the state of its job; its end copies the lines to the host, up to the first whose welt fails.
RELEASE_RESULT of an ended job frees its slot once no read of it is left; it is refused while the job runs. -/
def Obligations.ResultsAreReadAndReleased : Prop :=
  ∀ (n : Fin 64) (p : Pkt) (s : State) (k op dst off m bad : Nat) (j : Job) (o : Op),
    let a := j.terms.result + off
    s.job k = some j →
    (s.slotOf p.jobId = some k →
      (p.arg 0 8 % 64 = 0 → p.arg 16 8 % 64 = 0 → p.arg 8 8 + p.arg 16 8 ≤ j.terms.resultBytes → s.releasing k = false →
        Runs (.readResult n p) n 0x404 p s fun t =>
          if j.st = .complete then accepted t n 0x404 p (.readResult k (p.arg 0 8) (p.arg 8 8) (p.arg 16 8)) 0
          else if j.st = .faulted then answered t n 0x404 p 0x21 j.endReason (s.jobDetail j)
          else if j.st = .cancelled then answered t n 0x404 p 0x13 0 0
          else answered t n 0x404 p 0x03 0 (s.jobDetail j)) ∧
      (j.st.final = false → Runs (.releaseResult n p) n 0x405 p s fun t => answered t n 0x405 p 0x13 0 0) ∧
      (j.st.final = true → s.reading k = true → Runs (.releaseResult n p) n 0x405 p s fun t =>
        accepted t n 0x405 p (.releaseResult k) 0) ∧
      (j.st.final = true → s.reading k = false → Passes n 0x405 p s → ∃ u, Released k j s u ∧
        (s.host.modules ≠ 0 → (∀ e f, f ∈ (s.engine e).queue → f.slot ≠ some k) →
          u.hostBytes j.terms.completion 4 = leBytes 4 0x5EA100FF) ∧
        exec (.releaseResult n p) s = .next (answered u n 0x405 p 0 0 0))) ∧
    (s.opOf op = some o → o.kind = .readResult k dst off m → s.host.modules ≠ 0 →
      (s.badLine a m = none → exec (.readResultDone op) s =
        .next (finished ((s.touch a m).hostWrite dst (s.devBytes a m)) o 0 0 0)) ∧
      (s.badLine a m = some bad → exec (.readResultDone op) s =
        .next (finished ((s.scan a m).hostWrite dst (s.devBytes a (bad - a))) o 0x20 0 (BitVec.ofNat 64 (bad % 2 ^ 48))))) ∧
    (s.opOf op = some o → o.kind = .releaseResult k →
      (s.reading k = true → exec (.releaseResultDone op) s = .next s) ∧
      (s.reading k = false → Does (.releaseResultDone op) s (Released k j s)))

/-- R231, R242, R246, R248, R249, R389: SEQ_JOIN and SEQ_LEAVE join the queue of their job's pager; KV_PAGE_MAP names a pool, and maps
it with every page-table entry 0; a decision's record is written once every device has committed its snapshot. -/
def Obligations.SequenceCommandsReachThePager : Prop :=
  ∀ (n slot : Fin 64) (p : Pkt) (s : State) (k op : Nat) (j : Job) (g : Pager) (a : AttnDecl) (o : Op) (x : Decision) (xs : List Decision),
    let tag := BitVec.ofNat 32 (p.arg 0 4)
    let queued := fun (t : State) (leave : Bool) (t0 tMax prompt : Nat) => t.setJob k (some { j with pager := some { g with
      queue := g.queue ++ [⟨s.sys.fetchNo, n, p.seq, leave, tag, t0, tMax, prompt, false⟩] } })
    let u := s.setJob slot (some { j with pager := some { g with decisions := xs } })
    (s.slotOf p.jobId = some k → s.job k = some j → (s.declOf j).bind (·.attn) = some a →
      (j.pager = some g → g.mapped = true → s.leads j = true → j.st.final = false → j.st ≠ .released →
        (zeroAt p.body 12 4 = true → p.arg 16 8 % 64 = 0 → p.arg 16 8 < hbmBytes → 1 ≤ p.arg 4 4 → p.arg 4 4 ≤ p.arg 8 4 →
          p.arg 8 4 ≤ a.tLimit → g.hasSeq tag = false → g.hasJoin tag = false →
          Runs (.seqJoin n p) n 0x501 p s fun t => accepted (queued t false (p.arg 4 4) (p.arg 8 4) (p.arg 16 8)) n 0x501 p (.seq k)
            (BitVec.ofNat 64 (a.layers * a.hkv * ((p.arg 8 4 + 63) / 64) % 2 ^ 24 * 2 ^ 16))) ∧
        (zeroAt p.body 4 4 = true → g.hasSeq tag = true ∨ g.hasJoin tag = true → g.hasLeave tag = false →
          Runs (.seqLeave n p) n 0x502 p s fun t => accepted (queued t true 0 0 0) n 0x502 p (.seq k) 0)) ∧
      (j.pager = none → p.arg 0 8 % 64 = 0 → p.arg 8 8 % 64 = 0 → 1 ≤ p.arg 16 4 → p.arg 16 4 ≤ 2 ^ 24 →
        zeroAt p.body 20 4 = true → s.mapCheck k j (p.arg 0 8) (p.arg 8 8) (p.arg 16 4) = none →
        Runs (.kvPageMap n p) n 0x503 p s fun t => accepted (t.setJob k (some { j with
          pager := some ⟨p.arg 0 8, p.arg 8 8, p.arg 16 4, p.arg 16 4, [], [], [], [], [], [], false⟩ })) n 0x503 p (.kvPageMap k) 0)) ∧
    (s.opOf op = some o → o.kind = .kvPageMap k → s.job k = some j → (s.declOf j).bind (·.attn) = some a → j.pager = some g →
      (s.ring o.ring).rqHbm = false → g.tableBase + 4 * a.nMax ≤ hbmBytes →
      (∀ e, g.tableBase ≤ e → e < g.tableBase + 4 * a.nMax → s.lineBad (e / 64) = false) → Does (.kvPageMapDone op) s fun t =>
        t.job k = some { j with pager := some { g with mapped := true } } ∧ (∀ m, m ≠ k → t.job m = s.job m) ∧
        ∀ e, e < farLo → t.devByte e = if g.tableBase ≤ e ∧ e < g.tableBase + 4 * a.nMax then 0 else s.devByte e) ∧
    (s.job slot = some j → j.pager = some g → g.decisions = x :: xs → s.opOf x.req.op = some o →
      exec (.pagerDecisionRecord slot) s = .next (
        if (j.combined.any fun c => decide (x.ordinal ≤ c)) = true then
          (if x.final then finished u o x.status x.reason x.detail
            else u.sendRec o.ring (opRecord u o x.status x.reason x.detail))
        else s))

/-! ## The torus (14) -/

namespace Sys2Proof.Claims

/-- The hops from `u` to `v` on axis `a`: the shorter way round a wrapped axis, the only way along another (R397). -/
def axisHops (t : Topo) (a u v : Nat) : Nat :=
  if t.wrap.getLsbD a then Nat.min ((v + t.size.get a - u) % t.size.get a) ((u + t.size.get a - v) % t.size.get a)
  else Nat.max u v - Nat.min u v

/-- Where a flit for `d` is after `n` hops from `c`. -/
def walk (t : Topo) (d : Coord) : Nat → Coord → Option Coord
  | 0, c => some c
  | n + 1, c => (t.nextHop c d).bind (walk t d n)

/-- A point of the torus. -/
def Inside (t : Topo) (c : Coord) : Prop := ∀ a, a < 4 → c.get a < t.size.get a

/-- The links but `l` are as before. -/
def OtherLinks (l : Nat) (s t : State) : Prop := ∀ m, m ≠ l → t.link m = s.link m

/-- What the FEC layer counts of a flit (R419). -/
def Counted (x y : Link) (f : FlitRx) : Prop :=
  y.corr = Nat.min 0xFFFF (x.corr + f.correctedCw) ∧ y.uncorr = Nat.min 0xFFFF (x.uncorr + if f.uncorrectable then 1 else 0)

/-- A link leaves UP: no lane is active (R400, R419). -/
def Link.lost (x : Link) (drops cause : Nat) : Link :=
  { x with st := 0, tx := 0, rx := 0, realign := false, drops := drops, cause := cause }

/-- The message has been taken for group `g`: it came on an UP link, and this device is a member (R416, R418). -/
def Taken (m : Ctrl) (g : Group) (s : State) : Prop :=
  (s.link m.link).st = 2 ∧ s.topo.group m.group.toNat = some g ∧ g.has s.topo.coord = true

/-- The only admitted job of the message's group is `j` in slot `k`, with the message's epoch. -/
def TakenFor (m : Ctrl) (g : Group) (k : Nat) (j : Job) (s : State) : Prop :=
  Taken m g s ∧ s.job k = some j ∧ j.terms.group = m.group.toNat ∧ m.group.toNat ≠ 0 ∧ j.st.admitted = true ∧
  j.restartsTaken = m.epoch.toNat ∧ (s.admittedJobs.find? fun kj => kj.2.terms.group == m.group.toNat) = some (k, j)

end Sys2Proof.Claims

/-- R397: dimension order reaches every point: a flit at c is at d after exactly as many hops as the shorter ways along the axes add up
to, and a flit at its destination has no next hop. -/
def Obligations.FlitsReachTheirDestination : Prop :=
  ∀ (t : Topo) (c d : Coord), Inside t c → Inside t d →
    walk t d ((List.range 4).map fun a => axisHops t a (c.get a) (d.get a)).sum c = some d ∧ t.nextHop d d = none

/-- R403, R407: TOPO_SET in range, while no job names a group, takes the sizes, coordinates and WRAP bits, with every link DOWN and
afresh and every group deleted. GROUP_DEFINE of a box that keeps the rules replaces the group; an extent of zeros deletes it; both
are refused while a job names it. -/
def Sys2Proof.Claims.TopologyAndGroupsAreSet : Prop :=
  ∀ (n : Fin 64) (p : Pkt) (s : State),
    let at4 := fun (o : Nat) => (⟨p.arg o 1, p.arg (o + 1) 1, p.arg (o + 2) 1, p.arg (o + 3) 1⟩ : Coord)
    let g : Group := ⟨at4 4, at4 8⟩
    let put := fun (t : State) (v : Option Group) => t.withTopo { s.topo with groups := s.topo.groups.set none (p.arg 0 1) v }
    let extentOk := fun (a : Nat) => (g.ext.get a = s.topo.size.get a ∧ g.org.get a = 0) ∨
      ((∃ k, k ≤ 16 ∧ g.ext.get a = 2 ^ k) ∧ g.ext.get a ≤ s.topo.size.get a ∧ g.org.get a % g.ext.get a = 0 ∧
        g.org.get a + g.ext.get a ≤ s.topo.size.get a)
    let ring := fun (a : Nat) => g.ext.get a = s.topo.size.get a ∧ 2 ≤ g.ext.get a ∧ s.topo.wrap.getLsbD a = true
    (zeroAt p.body 9 7 = true → p.arg 8 1 ≤ 15 →
      (∀ a, a < 4 → 1 ≤ (at4 0).get a ∧ (at4 0).get a ≤ [16, 16, 8, 8].getD a 0 ∧ (at4 4).get a < (at4 0).get a ∧
        ((p.arg 8 1).testBit a = true → 2 ≤ (at4 0).get a)) →
      (∀ kj ∈ s.jobList, kj.2.terms.group = 0) → Passes n 0x601 p s → Does (.topoSet n p) s fun t =>
        t.topo = ⟨at4 0, at4 4, BitVec.ofNat 4 (p.arg 8 1), [], [], [], []⟩ ∧ t.jobs = s.jobs ∧ t.cores = s.cores ∧ t.ports = s.ports ∧
        ∀ l, l < 64 → ∃ x, t.link l = x ∧ x.st = 0 ∧ x.tx = 0 ∧ x.rx = 0 ∧ x.flight = 0 ∧ x.rxSeq = 0 ∧ x.txSeq = 0 ∧ x.replay = [] ∧
          x.waiting = [] ∧ x.credit = [] ∧ x.shared = 448 ∧ x.corr = (s.link l).corr ∧ x.drops = (s.link l).drops) ∧
    (1 ≤ p.arg 0 1 → zeroAt p.body 1 3 = true → zeroAt p.body 12 4 = true →
      ((∃ kj ∈ s.jobList, kj.2.terms.group = p.arg 0 1) → g.ext = ⟨0, 0, 0, 0⟩ →
        Runs (.groupDefine n p) n 0x602 p s fun t => answered t n 0x602 p 0x13 0 0) ∧
      ((∀ kj ∈ s.jobList, kj.2.terms.group ≠ p.arg 0 1) →
        (g.ext = ⟨0, 0, 0, 0⟩ → Runs (.groupDefine n p) n 0x602 p s fun t => answered (put t none) n 0x602 p 0 0 0) ∧
        ((∀ a, a < 4 → extentOk a) → g.ext ≠ ⟨0, 0, 0, 0⟩ →
          (∀ r : Nat → Nat, (∀ a, a < 4 → (ring a → r a = g.ext.get a / 2) ∧ (¬ ring a → r a = g.ext.get a - 1)) →
            r 0 + r 1 + r 2 + r 3 ≤ 24) →
          Runs (.groupDefine n p) n 0x602 p s fun t => answered (put t (some g)) n 0x602 p 0 0 0)))

/-- R405, R406, R419: LINK_TRAIN takes the links of its ports into training, UP ones only with RETRAIN. Its end brings a link UP with
the lanes and the peer found, or DOWN with the CAUSE of the first step of R405 that fails. -/
def Sys2Proof.Claims.LinksAreTrained : Prop :=
  ∀ (n : Fin 64) (p : Pkt) (s : State) (op l : Nat) (o : Op) (ports : BitVec 8) (again : Bool) (rs : List TrainResult) (r : TrainResult),
    let cause := if r.light = false then 1 else if r.rxLanes = 0 then 2 else if r.fec = false then 3
      else if s.wired l r = false then 4 else if 50 < r.flightNs then 5 else if r.peerDone = false ∨ r.txLanes = 0 then 6 else 0
    let down := fun (t : State) (cause : Nat) => t.link l = { s.link l with st := 0, tx := 0, rx := 0, realign := false, cause := cause }
    (p.arg 1 1 ≤ 1 → zeroAt p.body 2 6 = true → s.trainConflict (p.arg 0 1) = false → Passes n 0x603 p s →
      Does (.linkTrain n p) s fun t => t.jobs = s.jobs ∧ t.topo = s.topo ∧ t.cores = s.cores ∧
        (∃ q ∈ t.sys.ops, q.kind = .linkTrain (BitVec.ofNat 8 (p.arg 0 1)) (p.arg 1 1 == 1)) ∧
        ∀ m, m < 64 → (if (p.arg 0 1).testBit (m / 8) ∧ (p.arg 1 1 = 1 ∨ (s.link m).st ≠ 2) then
          (t.link m).st = 1 ∧ (t.link m).tx = 0 ∧ (t.link m).rx = 0 ∧ (t.link m).replay = [] ∧ (t.link m).rxSeq = 0 ∧
            (t.link m).txSeq = 0 ∧ (t.link m).waiting = []
          else t.link m = s.link m)) ∧
    (s.opOf op = some o → o.kind = .linkTrain ports again → Does (.linkTrainDone op rs) s fun t =>
      t.jobs = s.jobs ∧ t.topo = s.topo ∧ t.sys.ops = (s.sys.ops.filter fun q => q.no != o.no) ∧
      (l < 64 → (s.link l).st ≠ 1 ∨ ports.getLsbD (l / 8) = false → t.link l = s.link l) ∧
      (l < 64 → (s.link l).st = 1 → ports.getLsbD (l / 8) = true →
        ((rs.find? fun x => x.link.val == l) = none → down t 6) ∧
        ((rs.find? fun x => x.link.val == l) = some r →
          (cause ≠ 0 → down t cause) ∧
          (cause = 0 → t.link l = { s.link l with
            st := 2, tx := r.txLanes, rx := r.rxLanes, realign := false, flight := r.flightNs,
            peer := r.peerGroup.val * 2 ^ 19 + r.peerPort.val * 2 ^ 16 + r.peerCoord.toNat }))))

/-- The two claims above. -/
def Obligations.TorusIsSetUp : Prop := Sys2Proof.Claims.TopologyAndGroupsAreSet ∧ Sys2Proof.Claims.LinksAreTrained

/-- R283, R310, R393, R394, R396, R399, R411, R412, R419: flits on an UP link that is not realigning. One that fails its check is counted
and discarded with a NAK; an IDLE one only frees credits and the replay buffer; a WRITE at its destination writes the lines that its
job may write, a REDUCE that is next in its job's order the combination of its lines with the local ones, unless the duplicate check
disagrees, and one that is not next waits; a flit for another point leaves on its stream's link, with its lines that pass their check. -/
def Obligations.FlitsAreCheckedWrittenAndPassedOn : Prop :=
  ∀ (l : Fin 64) (f : FlitRx) (s : State) (port out : Nat) (v : Bool) (src : RedSrc),
    let x := s.link l
    let b := f.bytes
    let addr := fun (k : Nat) => 64 * (flitLineNo b + k)
    let ks := flitLines b
    let bad := f.uncorrectable = true ∨ flitCrcOk b = false
    let is := fun (ty : Nat) => flitCrcOk b = false ∨ flitType b = ty
    let nak := fun (i : Instr) => Does i s fun t => OtherLinks l s t ∧ Counted x (t.link l) f ∧ (t.link l).rxSeq = x.rxSeq ∧
      t = ((s.withLinks t.links).withOut (.flit l (sealFlit (List.replicate 288 0) 0 0 (x.rxSeq + 2 ^ 15 + 2 ^ 14)) :: s.out))
    let whole := f.wf = true ∧ x.st = 2 ∧ x.realign = false
    let good := ¬ bad ∧ flitSeq b = x.rxSeq
    let lines := fun (mine : Nat → Bool) (new : Nat → List Byte) (t : State) =>
      (t.link l).rxSeq = (x.rxSeq + 1) % 4096 ∧
      (∀ k ∈ ks, mine k = true → ∀ j, j < 64 → t.devByte (addr k + j) = (new k).getD j 0) ∧
      ∀ e, e < farLo → (∀ k ∈ ks, mine k = true → e < addr k ∨ addr k + 64 ≤ e) → t.devByte e = s.devByte e
    let may := fun (k : Nat) => s.mayWrite (flitJob b) (addr k)
    (whole → (is 1 → bad ∨ flitSeq b ≠ x.rxSeq → nak (.writeFlit l f)) ∧
      (is 2 → bad ∨ flitSeq b ≠ x.rxSeq → nak (.reduceFlit l f ⟨v, src⟩)) ∧ (is 0 → bad → nak (.idleFlit l f))) ∧
    (whole → flitType b = 0 → ¬ bad → x.waiting = [] → fieldAt b 282 2 / 2 ^ 14 % 2 = 0 → Does (.idleFlit l f) s fun t =>
      OtherLinks l s t ∧ t.out = s.out ∧ t.mem = s.mem ∧ Counted x (t.link l) f ∧ (t.link l).rxSeq = x.rxSeq ∧
      (t.link l).replay = if fieldAt b 282 2 / 2 ^ 15 % 2 = 1 then ackReplay (fieldAt b 282 2 % 4096) x.replay else x.replay) ∧
    (whole → good → flitDest b = s.topo.coord → s.stoppedSlot (flitJob b) = false →
      (∀ k ∈ ks, lineWelt (flitLineNo b + k) (flitLine b k) = flitWelt b k ∧ addr k + 64 ≤ hbmBytes) →
      (flitType b = 1 → flitVc b ≠ 2 → Does (.writeFlit l f) s fun t =>
        lines (fun k => flitVc b == 3 || may k) (flitLine b) t ∧ t.jobs = s.jobs ∧ t.cores = s.cores) ∧
      (flitType b = 2 → (∀ k ∈ ks, s.lineBad (flitLineNo b + k) = false) → s.topo.reds = [] → s.inOrder b src = true →
        (Does (.reduceFlit l f ⟨false, src⟩) s fun t =>
          lines may (fun k => reduceLine (flitArith b) (s.devBytes (addr k) 64) (flitLine b k)) t ∧ t.cores = s.cores ∧
          (∀ k, k ≠ flitJob b → t.job k = s.job k) ∧
          ∀ j g, s.job (flitJob b) = some j → s.groupOf j.terms.group = some g → t.job (flitJob b) = some
            (j.gather (s.topo.peers g src.axes.toNat).length (g.rank s.topo.coord) (ks.map (flitLineNo b + ·)) src.ranks)) ∧
        Does (.reduceFlit l f ⟨true, src⟩) s fun t => (t.port (l / 8)).redFail = Nat.min 0xFFFFFFFF ((s.port (l / 8)).redFail + 1) ∧
          (t.link l).rxSeq = (x.rxSeq + 1) % 4096)) ∧
    (whole → good → flitType b = 2 → s.stoppedSlot (flitJob b) = false → s.inOrder b src = false → Does (.reduceFlit l f ⟨v, src⟩) s fun t =>
      t.mem = s.mem ∧ t.jobs = s.jobs ∧ ∃ shared, t.topo = { s.topo with
        reds := s.topo.reds ++ [⟨l, b, some (l.val, flitClass b, shared), v, src⟩] }) ∧
    (whole → good → flitType b = 1 → s.topo.routePort s.topo.coord (flitDest b) = some port →
      s.streamLink port (flitStream b) = some out → out ≠ l.val → (s.link out).realign = false → (s.link out).replay.length < 256 →
      (s.link out).waiting = [] → (∀ c, c < 8 → 0 < (s.link out).credit.get 8 c) → Does (.writeFlit l f) s fun t =>
        t.mem = s.mem ∧ t.jobs = s.jobs ∧ (t.link out).txSeq = ((s.link out).txSeq + 1) % 4096 ∧ ∃ e,
          (t.link out).replay = (s.link out).replay ++ [((s.link out).txSeq, e)] ∧ .flit out e ∈ t.out ∧
          flitLineNo e = flitLineNo b ∧ flitDest e = flitDest b ∧ flitSeq e = (s.link out).txSeq % 4096 ∧ flitCrcOk e = true ∧
          flitLines e = (ks.filter fun k => lineWelt (flitLineNo b + k) (flitLine b k) == flitWelt b k) ∧
          ∀ k, k < 4 → flitLine e k = flitLine b k ∧ flitWelt e k = flitWelt b k)

/-- R400, R401, R419: a lane that loses lock, passes the symbol limit or is blamed for a run of uncorrectable codewords leaves RX_LANES
of an UP link, which realigns, or goes DOWN with CAUSE 7 when it was the last. After the realignment the lanes that the peer lost
have left TX_LANES. -/
def Obligations.LanesLeaveTheLink : Prop :=
  ∀ (l : Fin 64) (lane : Fin 4) (symbols : List Nat) (peer : BitVec 4) (s : State),
    let x := s.link l
    let after := fun (lane : Nat) (t : State) =>
      let rx := x.rx &&& ~~~ ((1 : BitVec 4) <<< lane)
      let drops := Nat.min 0xFFFF (x.drops + 1)
      OtherLinks l s t ∧ t.link l = if x.tx = 0 ∨ rx = 0 then Link.lost x drops 7
        else { x with rx := rx, drops := drops, realign := true }
    (x.st = 2 → x.rx.getLsbD lane = true →
      Does (.laneLockLoss l lane) s (after lane) ∧ Does (.laneSymbolLimit l lane) s (after lane)) ∧
    (x.st ≠ 2 ∨ x.rx.getLsbD lane = false → exec (.laneLockLoss l lane) s = .next s ∧ exec (.laneSymbolLimit l lane) s = .next s) ∧
    (x.st = 2 → x.rx ≠ 0 → ∃ w : Nat, w < 4 ∧ x.rx.getLsbD w = true ∧
      (∀ m, m < 4 → x.rx.getLsbD m = true → symbols.getD m 0 ≤ symbols.getD w 0) ∧
      Does (.laneUncorrectableRun l symbols) s (after w)) ∧
    (x.st = 2 → x.waiting = [] → x.rx ≠ 0 → x.tx &&& peer ≠ 0 → Does (.laneRealignDone l peer) s fun t => OtherLinks l s t ∧
      (t.link l).tx = x.tx &&& peer ∧ (t.link l).rx = x.rx ∧ (t.link l).realign = false ∧ (t.link l).st = 2) ∧
    (x.st = 2 → x.tx &&& peer = 0 → Does (.laneRealignDone l peer) s fun t => OtherLinks l s t ∧
      (t.link l).st = 0 ∧ (t.link l).cause = 7 ∧ (t.link l).tx = 0 ∧ (t.link l).rx = 0)

/-- R358 to R360, R416 to R418, R450: the messages of VC0. The first copy of a FAULT is forwarded on every UP link towards members and
faults the job with PEER_FAULT; later copies are dropped. A BARRIER_ENTER before this device's acceptance is kept; one that differs in what
R358 compares is refused towards rank 0, which cancels its own part. START and ABORT from the parent start or cancel a job at its start
barrier, and a START that differs is refused; REFUSE passes on unchanged below rank 0. STOP_STAT, COMMIT and PAGER from the
parent go on to the children and reach the job; a child's STOP_STAT is kept for the boundary. -/
def Obligations.ControlMessagesReachTheJob : Prop :=
  ∀ (m : Ctrl) (g : Group) (k rank step ordinal : Nat) (j : Job) (d : FolioDecl) (b : StartBarrier) (x : BarrierTerms) (stat : Word)
    (reason status : BitVec 8) (count : BitVec 48) (timeout : Bool) (ds : List PagerDecision) (q : Price) (s : State),
    let gid := m.group.toNat
    let epoch := m.epoch.toNat
    let parent := s.topo.parentPort g = some (m.link.val / 8)
    let kept := fun (t : State) (w : Job) => t.setJob k (some w)
    let from0 := fun (msg : Nat) (payload : List Byte) => s.sendDown gid g msg epoch payload
    ((gid, epoch) ∈ s.topo.faultSeen → exec (.fault m reason count) s = .next s) ∧
    (TakenFor m g k j s → (gid, epoch) ∉ s.topo.faultSeen → reason.toNat ∉ [0, 0x32, 0xB0] → Does (.fault m reason count) s fun t =>
      (gid, epoch) ∈ t.topo.faultSeen ∧
      (∀ p, p ∈ s.topo.facing g → s.upLinks p ≠ [] →
        .ctrl p 1 gid epoch s.topo.coord.code (leBytes 1 reason.toNat ++ leBytes 6 count.toNat) ∈ t.out) ∧
      (∀ c, NothingOn k (t.core c)) ∧
      ∃ w, t.job k = some w ∧ (if j.st = .accepted ∨ 15 ≤ j.restartsTaken then w.st = .faulted ∧ w.endReason = 0x25
        else w.st = .restarting ∧ w.restartsTaken = j.restartsTaken + 1)) ∧
    (Taken m g s → epoch = 0 → (∀ kj ∈ s.admittedJobs, kj.2.terms.group ≠ gid) → exec (.barrierEnter m rank x.toBarrierTimes x.same) s =
      .next (s.withTopo { s.topo with
        early := s.topo.early.filter (fun e => !(e.1 == gid && e.2.1 == rank)) ++ [(gid, rank, x)] })) ∧
    (TakenFor m g k j s → j.restart = none → j.start = some b → x.same ≠ j.terms.same →
      (s.topo.coord ≠ g.org → exec (.barrierEnter m rank x.toBarrierTimes x.same) s = .next (s.sendUp gid g 5 epoch [0x11, 0])) ∧
      (s.topo.coord = g.org → Does (.barrierEnter m rank x.toBarrierTimes x.same) s fun t => (∀ c, NothingOn k (t.core c)) ∧
        ∃ w, t.job k = some w ∧ w.st = .cancelled ∧ w.endReason = 0x23)) ∧
    (Taken m g s → ¬ parent → exec (.start m x) s = .next s) ∧
    (TakenFor m g k j s → parent → j.start = some b → j.restart = none → s.declOf j = some d →
      (x.same = j.terms.same → j.terms.cls ≠ 0 → j.price.isSome = true → hasOnce d = true → j.displaced = [] → Does (.start m x) s fun t =>
        (∃ w, t.job k = some w ∧ w.st = .running ∧ w.start = none ∧ w.terms = j.terms)) ∧
      (x.same ≠ j.terms.same → j.price.isSome = true → Does (.start m x) s fun t => (∀ c, NothingOn k (t.core c)) ∧
        ∃ w, t.job k = some w ∧ w.st = .cancelled ∧ w.endReason = 0) ∧
      (x.same = j.terms.same → j.terms.cls = 0 → j.price = some q → hasOnce d = true → j.displaced = [] → Does (.start m x) s fun t =>
        let p := (groupPrice j d q x).promise j.terms
        ∃ w, t.job k = some w ∧ w.terms = j.terms ∧ if p.2 ≤ j.terms.deadlineUs then
          w.st = .running ∧ w.start = none ∧ (w.promiseUs, w.boundUs) = p else w.st = .cancelled ∧ w.endDetail.isSome = true) ∧
      Does (.abort m timeout) s fun t => (∀ c, NothingOn k (t.core c)) ∧
        ∃ w, t.job k = some w ∧ w.st = .cancelled ∧ w.endReason = (if timeout then 0x24 else 0x23)) ∧
    (Taken m g s → s.topo.coord ≠ g.org → exec (.refuse m status reason) s =
      .next (s.sendUp gid g 5 epoch (leBytes 1 status.toNat ++ leBytes 1 reason.toNat))) ∧
    (TakenFor m g k j s → j.step = some step → j.atCut = false → exec (.stopStat m rank step stat) s = .next (
      if parent then kept (from0 6 (leBytes 4 step ++ leBytes 4 stat.toNat)) { j with allStat := some stat }
      else kept s { j with peerStats := j.peerStats.filter (·.1 != rank) ++ [(rank, stat)] })) ∧
    (TakenFor m g k j s → parent → j.restart = none → j.snap = none → exec (.commit m rank ordinal) s =
      .next (kept (from0 7 (leBytes 4 ordinal)) { j with combined := some ordinal })) ∧
    (TakenFor m g k j s → parent → j.atCut = false → Does (.pager m ds) s fun t => t.jobs = (kept s { j with pagerRemote := j.pagerRemote ++ [ds] }).jobs ∧
      t = ((s.withJobs t.jobs).withOut t.out))

/-! ## Video (15) -/

/-- R425, R427, R429, R431, R440, R445: VIDEO_OPEN gives the lowest free session of its engine, with the CONFIG read, an empty ring and
the rate level at half the buffer. VIDEO_FRAME joins the engine's queue unless 32 are there. VIDEO_CLOSE waits for the session's
frames and then closes it. -/
def Obligations.VideoSessionsOpenQueueAndClose : Prop :=
  ∀ (n : Fin 64) (p : Pkt) (e op no : Nat) (o : Op) (x : Session) (s : State),
    let a := p.arg 0 8
    let b := s.devBytes a 128
    let at0 := p.arg 8 8
    let slot := if p.jobId = 0 then none else s.slotOf p.jobId
    (s.reach false a = true → s.openParams p = none → s.openLate p = none → e = p.arg 8 1 →
      ∃ i v, i < 8 ∧ (s.engine e).sess.get none i = none ∧ (∀ m, m < i → (s.engine e).sess.get none m ≠ none) ∧
        v.cfg = vidCfgOf b ∧ v.produced = 0 ∧ v.cons = 0 ∧ v.consHi = 0 ∧ v.coded = 0 ∧ v.closing = none ∧
        v.level = ((fieldAt b 20 4 * 1000 / 2 : Nat) : Int) ∧
        Runs (.videoOpen n p) n 0x701 p s fun t => answered (t.modEngine e fun g => { g with sess := g.sess.set none i (some v) }) n 0x701 p
          0 0 (BitVec.ofNat 64 (8 * e + i))) ∧
    (no = p.arg 0 2 → s.session no = some x → x.closing = none →
      (s.reach false at0 = true → s.frameParams p = none → s.frameBad x.cfg (s.devBytes at0 64) = false → s.frameJobCheck p = none →
        s.sys.quiesce = none →
        ((s.engine (no / 8)).queue.length + (if (s.engine (no / 8)).run.isSome then 1 else 0) < 32 →
          (∀ j, slot.bind s.job = some j → j.st ≠ .faulted ∧ j.st ≠ .cancelled) →
          Runs (.videoFrame n p) n 0x702 p s fun t => accepted (t.modEngine (no / 8) fun g => { g with
            queue := g.queue ++ [frameOf (s.devBytes at0 64) s.sys.fetchNo no (p.arg 4 4) slot] }) n 0x702 p (.videoFrame (no / 8) no) 0) ∧
        (32 ≤ (s.engine (no / 8)).queue.length + (if (s.engine (no / 8)).run.isSome then 1 else 0) →
          Runs (.videoFrame n p) n 0x702 p s fun t => answered t n 0x702 p 0x14 0 0)) ∧
      (zeroAt p.body 2 6 = true → Passes n 0x703 p s → Does (.videoClose n p) s fun t =>
        t.session no = some { x with closing := some s.sys.fetchNo } ∧ t.jobs = s.jobs ∧
        ∃ q ∈ t.sys.ops, q.no = s.sys.fetchNo ∧ q.kind = .videoClose (no / 8) no)) ∧
    (s.opOf op = some o → o.kind = .videoClose e no → no < 32 → e = no / 8 →
      ((∃ f ∈ (s.engine e).queue, f.sess = no) ∨ (∃ r, (s.engine e).run = some r ∧ r.f.sess = no) → exec (.videoCloseDone op) s = .next s) ∧
      ((∀ f ∈ (s.engine e).queue, f.sess ≠ no) → (∀ r, (s.engine e).run = some r → r.f.sess ≠ no) →
        Does (.videoCloseDone op) s fun t => t.session no = none ∧ t.sys.ops = (s.sys.ops.filter fun q => q.no != o.no) ∧
          ∀ m, m ≠ no → t.session m = s.session m))

/-- R424, R429, R430, R434 to R438, R440 to R442, R445, R446: the first queued frame starts unless it waits for its job; an encode one with
its kind, its base_q_idx and its budget. A tile group's OBUs go into the output ring while it has room, padded to whole lines, and the
progress line follows. FRAME_DONE leaves the engine free, counts the frame, updates the rate level, and keeps the frame as the newest
reference with its search results. -/
def Obligations.FramesRunAndEnd : Prop :=
  ∀ (e : Fin 4) (f : Frame) (fs : List Frame) (x : Session) (r : RunFrame) (bits : GroupBits) (pic : List Byte) (rowBits recon : List Nat)
    (bit bad : Nat) (o : Op) (key : Bool) (s : State),
    let c := x.cfg
    let payload := c.groupObus r bits
    let per : Int := ((c.kbps * 1000 * c.fpsDen / c.fpsNum : Nat) : Int)
    let half : Int := ((c.vbvKbits * 1000 / 2 : Nat) : Int)
    let isKey := x.coded = 0 ∨ f.forceKey = true ∨ (c.keyInterval ≠ 0 ∧ (x.sinceKey + 1) % c.keyInterval = 0)
    let b := if c.rc = 1 then per - (x.level - half) / 8 else per
    let len := payload.length + (if payload.length % 64 = 0 then 0 else if payload.length % 64 = 63 then 65 else 64 - payload.length % 64)
    let ring := c.outKib * 1024
    let freed := fun (u : State) (welt stream : Nat) => (u.engine e).run = none ∧ (u.engine e).count = ((s.engine e).count + 1) % 2 ^ 32 ∧
      (u.engine e).errWelt = (if welt = 0 then (s.engine e).errWelt else Nat.min 0xFFFF ((s.engine e).errWelt + 1)) ∧
      (u.engine e).errStream = (if stream = 0 then (s.engine e).errStream else Nat.min 0xFFFF ((s.engine e).errStream + 1)) ∧ u.sys = s.sys ∧ u.rings = s.rings ∧ u.jobs = s.jobs
    ((s.engine e).run = none → (s.engine e).queue = f :: fs → (∀ g ∈ fs, g.op ≠ f.op) → s.session f.sess = some x →
      f.sess / 8 = e →
      (f.slot = none ∨ (∃ k j, f.slot = some k ∧ s.job k = some j ∧ f.index < j.frames) → Does (.frameStart e) s fun t =>
        t = s.withVideo t.video ∧ (t.engine e).queue = fs ∧ ∃ w, (t.engine e).run = some w ∧ w.f = f ∧ w.group = 0 ∧ w.tail = [] ∧
          w.bytes = 0 ∧ (c.encode = true → (w.key = true ↔ isKey) ∧
            (c.rc ≠ 0 → w.budget = max (if w.key then 4 * b else b) (per / 4)) ∧ (c.rc = 0 ∨ x.coded = 0 → w.baseQ = c.qInit) ∧
            (c.rc ≠ 0 → x.coded ≠ 0 → c.qMin ≤ c.qMax → c.qMin ≤ w.baseQ ∧ w.baseQ ≤ c.qMax))) ∧
      (fs = [] → (∃ k j, f.slot = some k ∧ s.job k = some j ∧ j.frames ≤ f.index) → exec (.frameStart e) s = .next s)) ∧
    ((s.engine e).run = some r → s.session r.f.sess = some x → r.f.sess / 8 = e → c.encode = true → r.tail = [] → r.group < c.groups →
      s.frameMapped c r.f = true → c.bitsOk r bits = true → rowBits.length = (c.groupRows r.group).length → c.outHost = true → s.host.modules ≠ 0 → x.produced % 64 = 0 →
      x.cons ≤ x.produced → c.progress + 64 ≤ c.outAddr ∨ c.outAddr + ring ≤ c.progress →
      (x.produced + len ≤ x.cons + ring → Does (.tileGroupEmit e bits rowBits) s fun t =>
        t = (s.withVideo t.video).withHost t.host ∧ t.session r.f.sess = some { x with produced := x.produced + len } ∧
        (∀ i, i < payload.length → t.host.mem.get 0 (c.outAddr + (x.produced + i) % ring) = payload.getD i 0) ∧
        t.hostBytes c.progress 14 = leBytes 8 (x.produced + len) ++ leBytes 4 r.f.index ++ leBytes 2 r.group ∧
        ∃ w, (t.engine e).run = some w ∧ w.group = r.group + 1 ∧ w.tail = [] ∧ w.bytes = r.bytes + len ∧ w.spent = r.spent ++ rowBits ∧
          w.q.length = r.q.length + rowBits.length) ∧
      (x.cons + ring < x.produced + 64 → Does (.tileGroupEmit e bits rowBits) s fun t =>
        t = s.withVideo t.video ∧ t.session r.f.sess = some x ∧
        ∃ w, (t.engine e).run = some w ∧ w.group = r.group ∧ w.tail.length = len ∧ w.tail.take payload.length = payload)) ∧
    ((s.engine e).run = some r → s.session r.f.sess = some x → r.f.sess / 8 = e → s.opOf r.f.op = some o → s.frameMapped c r.f = true →
      (s.frameBadLine c r.f = some bad → s.uncorrectable (bad / 64) = false → ∃ u, freed u 1 0 ∧ exec (.frameDone e .encoded recon) s =
        .next (finished u o 0x20 0 (BitVec.ofNat 64 (bad % 2 ^ 48)))) ∧
      (s.frameBadLine c r.f = none → (∃ u, freed u 1 0 ∧ exec (.frameDone e (.weltFail bad) recon) s =
          .next (finished u o 0x20 0 (BitVec.ofNat 64 (bad % 2 ^ 48)))) ∧
        (c.encode = false → (∃ u, freed u 0 1 ∧ exec (.frameDone e (.badStream bit) recon) s =
            .next (finished u o 0x12 0 (BitVec.ofNat 64 (bit % 2 ^ 32)))) ∧
          (∃ u, freed u 0 0 ∧ exec (.frameDone e (.decoded key none) recon) s = .next (finished u o 0 0 (if key then 2 else 0))) ∧
          (r.f.dstHost = true → s.host.modules ≠ 0 → ∃ u, freed u 0 0 ∧ u.hostBytes r.f.dst pic.length = pic ∧
            exec (.frameDone e (.decoded key (some pic)) recon) s = .next (finished u o 0 0 (if key then 3 else 1)))) ∧
        (c.encode = true → r.group = c.groups →
          let level := if c.rc = 0 then x.level else max 0 (x.level + (8 * r.bytes : Nat) - per)
          ∃ u v, freed u 0 0 ∧ u.session r.f.sess = some v ∧ v.level = level ∧ v.coded = x.coded + 1 ∧ v.sinceKey = r.nth ∧ v.cfg = c ∧
            v.produced = x.produced ∧ v.prevBudget = r.budget ∧ v.prevQ = r.q ∧
            v.refs = (⟨r.key, recon, s.searched x r⟩ :: if r.key then [] else x.refs).take c.refs ∧ exec (.frameDone e .encoded recon) s =
              .next (finished u o 0 0 (BitVec.ofNat 64 (r.bytes % 2 ^ 32 * 2 ^ 32 + r.baseQ * 2 ^ 24 +
                (if c.rc = 1 ∧ 2 * half < level then 4 else 0) + (if r.key then 2 else 0) + 1)))) ))

/-! ## Awls, SWF blocks, stalled firmware (10, 11, 13) -/

/-- R303 to R305, R376: AWL_START clears the counts of its channels, starts them with none of their lines cached and no folio that a
write would cover, and is refused while a job is admitted or one of them runs. A constant-pattern write covers its region; a stop,
by command or by register, ends only awls that run. AWL_REPORT writes one 32-byte entry a channel. -/
def Obligations.AwlsRunStopAndReport : Prop :=
  ∀ (n : Fin 64) (p : Pkt) (c : Fin 192) (done : List (Nat × List AwlMiss)) (miss : List AwlMiss) (m : Nat) (s : State),
    let cs := maskChannels p
    let g := s.chan c
    let ranges := ∀ k ∈ cs, (s.chan k).pattern ≤ 3 ∧ 1 ≤ (s.chan k).len ∧ (s.chan k).len ≤ 2 ^ 25
    let ended := fun (k lines : Nat) (t : State) => (t.chan k).run = false ∧ (t.chan k).done % 2 ^ 32 = ((s.chan k).done + lines) % 2 ^ 32 ∧
      (t.chan k).op = (s.chan k).op ∧ (t.chan k).len = (s.chan k).len ∧ (t.chan k).base = (s.chan k).base
    (ranges → (s.admittedJobs ≠ [] ∨ ∃ k ∈ cs, (s.chan k).run = true) →
      Runs (.awlStart n p) n 0xA01 p s fun t => answered t n 0xA01 p 0x13 0 0) ∧
    (ranges → s.admittedJobs = [] → (∀ k ∈ cs, (s.chan k).run = false) → (s.ring n).rqHbm = false → Passes n 0xA01 p s →
      Does (.awlStart n p) s fun t => t.jobs = s.jobs ∧ t.mem.bytes = s.mem.bytes ∧
        (∀ k ∈ cs, t.chan k = { s.chan k with run := true, done := 0, errCnt := 0, errLine := 0, errBits := 0 }) ∧
        (∀ k, k ∉ cs → t.chan k = s.chan k) ∧ (∀ l, 64 * l < hbmBytes → hbmChannel (64 * l) ∈ cs → t.mem.cached.get 0 l = 0) ∧
        ∀ f ∈ t.folios, f ∈ s.folios ∧ ∀ k ∈ cs, f.hitBy k (s.chan k) = false) ∧
    (Passes n 0xA02 p s → Does (.awlStop n p done) s fun t => t.jobs = s.jobs ∧ t.folios = s.folios ∧
      ∀ k, (if k ∈ cs ∧ (s.chan k).run = true then ∃ lines, ended k lines t else t.chan k = s.chan k)) ∧
    (p.arg 24 8 % 64 = 0 → Runs (.awlReport n p) n 0xA03 p s fun t => answered (t.hostWrite (p.arg 24 8) (cs.flatMap fun k =>
      leBytes 2 k ++ [0, 0] ++ leBytes 4 (s.chan k).done ++ leBytes 4 (s.chan k).errCnt ++ leBytes 4 (s.chan k).errLine.toNat ++
        leBytes 8 (s.chan k).errBits.toNat ++ List.replicate 8 0)) n 0xA03 p 0 0 0) ∧
    (g.run = true → g.loop = false → Does (.awlRegionDone c miss) s fun t => ended c g.len t ∧ (∀ k, k ≠ c.val → t.chan k = s.chan k) ∧
      t.jobs = s.jobs ∧ (2 ≤ g.op → t.mem = s.mem ∧ t.host = s.host) ∧
      (g.op = 1 → g.pattern = 3 → (t.chan c).errCnt = g.errCnt ∧ ∀ i j, i < g.len → j < 64 →
        t.devByte (hbmAddr c (64 * ((g.base + i) % 2 ^ 25)) + j) = (g.value >>> (8 * (j % 4))).truncate 8)) ∧
    (g.run = false ∨ g.loop = true → exec (.awlRegionDone c miss) s = .next s) ∧
    (s.boot.st ≠ .off → s.boot.st ≠ .fuseLoad → s.boot.st ≠ .locked → g.run = true →
      Does (.awlCtlStop c (m, miss)) s fun t => ended c m t ∧ t.jobs = s.jobs ∧ ∀ k, k ≠ c.val → t.chan k = s.chan k) ∧
    (g.run = false ∨ s.boot.st = .locked → exec (.awlCtlStop c (m, miss)) s = .next s)

/-- R310, R322 to R326, R329, R330: a block whose lines pass their welts, raw or under the job's binding, is decoded: at load time, when it is
the head of its decoder's queue, into the folio's resident copy or the job's window, with the welts of its lines; at use whole into the
core's well. A sub-stream in error makes the folio invalid and faults the jobs bound to it with
SWF_BLOCK and the DETAIL of R330. -/
def Obligations.BlocksAreDecodedWhole : Prop :=
  ∀ (slot : Fin 64) (c : CoreRef) (tensor block well : Nat) (j : Job) (f : Folio) (d : SwfDecl) (x : Table) (b : Nat × Nat × Nat)
    (kind sub : Nat) (q : DecReq) (s : State),
    let a := f.base + d.base + 64 * d.dir.getD block 0
    let h := BlockHead.ofBytes (s.devBytes a 64)
    let n := 64 + 4 * h.ends.getD 15 0
    let payload := s.devBytes (a + 64) (n - 64)
    let out := blockLines h x payload
    let bound := j.bindings.find? (fun b => b.1 == tensor) = some b ∧ s.table b.2.1 = some x ∧ x.gen = b.2.2 ∧ h.gen = b.2.2
    let spoilt := fun (t : State) => (∃ g, t.folio f.id = some g ∧ g.invalid = true) ∧
      ∀ kj ∈ s.admittedJobs, kj.2.terms.folio = f.id → s.job kj.1 = some kj.2 → ∃ w, t.job kj.1 = some w ∧ w.st = .faulted ∧
        w.endReason = 0x1B ∧ w.endDetail = some (BitVec.ofNat 64 (kind * 2 ^ 62 + sub * 2 ^ 58 + a % 2 ^ 48))
    let new : DecBlock := ⟨tensor, block, decLines a out⟩
    (s.nextBlock slot tensor block = none → exec (.swfBlockDecode slot tensor block) s = .next s) ∧ (s.mappedRange a n = true →
    s.badLine a n = none → h.raw = true ∨ bound →
    (s.swfOf slot tensor block 0 = some (j, f, d) → s.nextBlock slot tensor block = some q →
      holdsBlock (if f.resident then f.decoded else j.decoded) tensor block = false →
      (blockError h x payload = none → Does (.swfBlockDecode slot tensor block) s fun t =>
        t.sys.decq = s.sys.decq.erase q ∧ t.mem.bytes = s.mem.bytes ∧ t.cores = s.cores ∧
        if f.resident then t.jobs = s.jobs ∧ ∃ g, t.folio f.id = some g ∧ g = { f with decoded := f.decoded ++ [new] }
        else t.folios = s.folios ∧ t.job slot = some { j with decoded := j.decoded ++ [new] }) ∧
      (blockError h x payload = some (kind, sub) → Does (.swfBlockDecode slot tensor block) s spoilt)) ∧
    (s.swfOf c.slot tensor block 1 = some (j, f, d) → j.onCore c.core = true →
      (blockError h x payload = none → well + out.length ≤ 393216 → Does (.atUseBlockRequest c tensor block well) s fun t =>
        t = (s.touch a n).withCores t.cores ∧ (∀ m, m ≠ c.core.val → t.core m = s.core m) ∧
        t.core c.core = { s.core c.core with well := (t.core c.core).well } ∧
        ∀ e, (t.core c.core).well.get 0 e =
          if well ≤ e ∧ e < well + out.length then out.getD (e - well) 0 else (s.core c.core).well.get 0 e) ∧
      (blockError h x payload = some (kind, sub) → Does (.atUseBlockRequest c tensor block well) s spoilt)))

/-- R375, R507: FIRMWARE_STALL without a commit grant drops the fetched command: its record is the only effect, and RING_STAT.STALLS
counts it; one that fails checks 1 to 4 meets no timer, and one that is not fetched changes nothing. With a grant the record is
written as well, whether or not the command takes effect. -/
def Obligations.StalledFirmwareIsAnswered : Prop :=
  ∀ (n : Fin 64) (op : BitVec 16) (p : Pkt) (scribe : BitVec 4) (r : Refuse) (s : State),
    let check := s.headerCheck n op.toNat (opcodes.contains op.toNat) (plenOf op.toNat) p
    let rec' := fun (committed : Bool) => ({ answer s op.toNat p 0x22 0 (BitVec.ofNat 64 (scribe.toNat * 256 + if committed then 1 else 0))
      with jobState := 0 } : Rec)
    let dropped := fun (t : State) (committed : Bool) => (t.queueRec n (rec' committed)).modRing n fun g =>
      { g with stalls := Nat.min 0xFFFF (g.stalls + 1) }
    p.wf = true →
    (s.fetchable n p = false → ∀ v, exec (.firmwareStall (some n) op p scribe v) s = .next s) ∧
    (s.fetchable n p = true → check = some r → (s.ring n).sqHbm = false → ∀ v, exec (.firmwareStall (some n) op p scribe v) s =
      .next (answered (taken s n (if 1 ≤ p.slots.toNat ∧ p.slots.toNat ≤ 16 then p.slots.toNat else 1)) n op.toNat p r.1 r.2.1 r.2.2)) ∧
    (s.fetchable n p = true → check = none →
      exec (.firmwareStall (some n) op p scribe false) s = .next (dropped (taken s n p.slots.toNat) false) ∧
      (exec (.firmwareStall (some n) op p scribe true) s = .next (dropped (taken s.took n p.slots.toNat) true) ∨
        Does (.firmwareStall (some n) op p scribe true) s fun t => t.sys.stalled = none))

/-! ## Burnish, monitors, power, references (01, 12, 16, 19) -/

namespace Sys2Proof.Claims

/-- One burnish pass of island `i` (R463 to R465, R343): the offset is raised while the projection lies behind the plan, else lowered,
in idle mode only, while it lies 25 MHz above, a step too far being taken back; then the floor is decided. -/
def PassTaken (i : Nat) (idle : Bool) (r : Readings) (s t : State) : Prop :=
  let x := s.island i
  let y := t.island i
  let raw := fun (k : Nat) => 5 * (r.getD k (r.getLastD 0) / 5)
  let cap := fun (k : Nat) => raw k - 5 * (s.charged i - 3)
  let proj := fun (k : Nat) => cap k - 10
  let above := fun (k : Nat) => 25 ≤ proj k ∧ s.behind i (proj k - 25) = false
  let raised := fun (k : Nat) => y.offset = x.offset + k ∧ (∀ m : Nat, m < k → s.behind i (proj m) = true ∧ x.offset + m < 10) ∧
    (s.behind i (proj k) = false ∨ 10 ≤ y.offset)
  let steps := fun (k : Nat) => (∀ m : Nat, m < k → above m ∧ -6 < x.offset - m ∧ s.behind i (proj (m + 1)) = false)
  let lowered := fun (k : Nat) => (y.offset = x.offset - k ∧ steps k ∧ ¬ (above k ∧ -6 < y.offset)) ∨
    ∃ m : Nat, k = m + 2 ∧ y.offset = x.offset - m ∧ steps m ∧ above m ∧ -6 < y.offset ∧ s.behind i (proj (m + 1)) = true
  (∃ k : Nat, (if s.behind i (proj 0) = true then raised k else if idle then lowered k else k = 0 ∧ y.offset = x.offset) ∧
    y.capRaw = raw k ∧ y.cap = cap k ∧ y.proj = some (proj k) ∧
    y.status = (if proj k < 1200 then 3 else if s.integ.hours = none then 2 else if s.behind i (proj k) = true then 1 else 0) ∧
    y.admFloor = (if proj k < 1200 then x.admFloor else if proj k < x.admFloor then proj k
      else if idle ∧ x.admFloor + 10 ≤ proj k then Nat.min 1400 (proj k) else x.admFloor) ∧
    (proj k < 1200 → s.boot.st ∉ [.locked, .off, .fuseLoad] →
      (0xA0, i) ∈ t.integ.holds ∧ ((0xA0, i) ∉ s.integ.holds → t.boot.st = .faultHold)) ∧
    (1200 ≤ proj k → t = ((((s.withIsl t.isl).withInteg t.integ).withIrq t.irq).withHost t.host).withOut t.out ∧
      (proj k < x.admFloor → t.irq.event.getLsbD 3 = true ∧
        ∀ kj ∈ s.admittedJobs, kj.2.isG = true → s.now ≤ kj.2.origin + 1000 * kj.2.terms.deadlineUs → s.islFloor i ≤ t.islFloor i))) ∧
  y.live = !idle ∧ y.lastPass = some s.now ∧ y.dueAt = none ∧ t.integ.passes = s.integ.passes + 1 ∧
  ∀ m, m ≠ i → t.island m = s.island m

/-- The job of slot `k` met a fault of this reason: it restarts, or has ended FAULTED with it. -/
def Struck (k : Nat) (reason : Nat) (t : State) : Prop :=
  ∃ w, t.job k = some w ∧ (w.st = .restarting ∨ w.st = .faulted ∧ w.endReason = reason)

end Sys2Proof.Claims

/-- R462 to R465, R376: a pass falls due four hours after the last; a due one runs in idle mode when no admitted job is at the island
and it is neither HST nor CTL, in live mode after four hours' wait or at HST and CTL; a hold for MARGIN_EXHAUSTED lets idle mode run
(log 40). BURNISH_RUN is accepted, and its passes run in the order of the islands before its final record. -/
def Sys2Proof.Claims.BurnishPassesFollowTheRules : Prop :=
  ∀ (i : Fin 100) (r : Readings) (rs : List (Fin 100 × Readings)) (n : Fin 64) (p : Pkt) (op : Nat) (o : Op) (is : List Nat) (s : State),
    let x := s.island i
    let four := 4 * 3600 * 1000000000
    let bound := fun (m : Nat) => -6 ≤ (s.island m).offset ∧ (s.island m).offset ≤ 10
    let quiet := fun (u : State) (m : Nat) => decide (u.jobsAt m = [] ∧ m ∉ [islHst, islCtl])
    (∀ l, x.lastPass = some l →
      (l + four ≤ s.now → x.dueAt = none → exec (.burnishDue i) s = .next (s.modIsl i fun y => { y with dueAt := some s.now })) ∧
      (s.now < l + four → exec (.burnishDue i) s = .next s)) ∧
    (r ≠ [] → bound i → ((0xA0, i.val) ∈ s.integ.holds ∨ (x.dueAt ≠ none ∧ quiet s i = true)) →
      Does (.burnishIdlePass i r) s (PassTaken i true r s)) ∧
    (r ≠ [] → bound i → ∀ d, x.dueAt = some d → (d + four ≤ s.now ∨ i.val = islHst ∨ i.val = islCtl) →
      Does (.burnishLivePass i r) s (PassTaken i false r s)) ∧
    (x.dueAt = none → r ≠ [] → exec (.burnishLivePass i r) s = .next s) ∧
    (p.arg 0 13 < 2 ^ 100 → zeroAt p.body 13 3 = true → Runs (.burnishRun n p) n 0x801 p s fun t =>
      accepted t n 0x801 p (.burnishRun ((List.range 100).filter fun m => p.arg 0 13 / 2 ^ m % 2 == 1)) 0) ∧
    (s.opOf op = some o → o.kind = .burnishRun is → (∀ m ∈ is, bound m ∧ readingsOf rs m ≠ []) →
      ∃ u : Nat → State, u 0 = s ∧ exec (.burnishRunDone op rs) s = .next (finished (u is.length) o 0 0 0) ∧
        ∀ k m, is[k]? = some m → PassTaken m (quiet (u k) m) (readingsOf rs m) (u k) (u (k + 1)))

/-- R466, R376: MARGIN_REPORT is accepted; its report has a header of 64 bytes with a valid welt, and an entry of 32 bytes an island, the
floors, the cap before evidence, the offset and the mode of the last pass among them. -/
def Sys2Proof.Claims.MarginReportsAreWritten : Prop :=
  ∀ (n : Fin 64) (p : Pkt) (op : Nat) (o : Op) (dst : Nat) (host : Bool) (s : State),
    let h := p.arg 8 1 == 1
    (p.arg 0 8 % 64 = 0 → p.arg 8 1 ≤ 1 → zeroAt p.body 9 7 = true → (h = true ∨ s.mappedRange (p.arg 0 8) 3264 = true) →
      Runs (.marginReport n p) n 0x802 p s fun t => accepted t n 0x802 p (.marginReport (p.arg 0 8) h) 0) ∧
    (s.opOf op = some o → o.kind = .marginReport dst host →
      (s.host.modules ≠ 0 ∨ (host = false ∧ dst < farLo) →
        ∃ bs, bs.length = 3264 ∧ fieldAt bs 22 2 = (recWelt 22 bs).toNat ∧
          bs.take 22 = leBytes 4 0x4D520001 ++ leBytes 4 (s.serviceHours.getD 0xFFFFFFFF) ++ leBytes 6 s.now ++ leBytes 2 100 ++
            leBytes 4 s.integ.passes ++ [0, 0] ∧
          (∀ i, i < 100 → let x := s.island i
            sliceAt bs (64 + 32 * i) 8 = leBytes 1 i ++ leBytes 1 x.status ++ leBytes 2 (s.islFloor i) ++ leBytes 2 x.admFloor ++
              leBytes 2 x.capRaw ∧
            sliceAt bs (74 + 32 * i) 2 = leBytes 1 (x.offset % 256).toNat ++ leBytes 1 (if x.live then 1 else 0) ∧
            sliceAt bs (80 + 32 * i) 10 = leBytes 4 (Nat.min x.chargedTotal 0xFFFFFFFF) ++ leBytes 4 (Nat.min x.warnings 0xFFFFFFFF) ++
              leBytes 2 (Nat.min x.timingErrs 0xFFFF)) ∧
          exec (.marginReportDone op) s = .next (finished (s.took.dstWrite host dst bs) o 0 0 3264)) ∧
      (s.host.modules = 0 → (host = true ∨ farLo ≤ dst) → exec (.marginReportDone op) s = .next s))

/-- The two claims above. -/
def Obligations.BurnishPassesAndReports : Prop := Sys2Proof.Claims.BurnishPassesFollowTheRules ∧ Sys2Proof.Claims.MarginReportsAreWritten

/-- R27, R28, R464, R519, R521: an island's frequency lies between its floor and 1,400 MHz, at its floor while its evidence is 2 or
more, and does not rise while THERM_L or the power limit withdraws headroom. R25, R449, R461, R464: warnings are counted; an ERROR of
a monitor is a TIMING_ERROR of weight 2, a stalled crossing weight 1 at the receiving island, and both strike the jobs there; a second
error at the floor within four hours is MARGIN_EXHAUSTED. R451: a particle's error stays in the line that it struck. -/
def Sys2Proof.Claims.IslandsKeepFloorsAndTakeErrors : Prop :=
  ∀ (cycles : List Nat) (milliwatts w l : Nat) (e : StoreErr) (i src dst : Fin 100) (s : State),
    let clocked := s.boot.st ≠ .off ∧ s.boot.st ≠ .fuseLoad
    let lives := fun (kj : Nat × Job) => kj ∈ s.admittedJobs ∧ s.job kj.1 = some kj.2
    let charged := fun (m weight : Nat) (t : State) => (t.island m).charges = (s.island m).charges ++ [(s.now, weight)] ∧
      (t.island m).chargedTotal = (s.island m).chargedTotal + weight ∧ ∀ q, q ≠ m → t.island q = s.island q
    clocked →
    (Does (.islFreqUpdate cycles) s fun t => t = s.withIsl t.isl ∧ ∀ m, m < 100 →
      let f := (t.island m).freq
      t.island m = { s.island m with freq := f } ∧ s.islFloor m ≤ f ∧ (s.islFloor m ≤ 1400 → f ≤ 1400) ∧
      (2 ≤ s.charged m → f = s.islFloor m) ∧
      (s.pins.thermL = true ∨ (s.island m).noHead = true → f ≤ Nat.max (s.islFloor m) (s.island m).freq) ∧
      (s.charged m < 2 → s.pins.thermL = false → (s.island m).noHead = false → f = Nat.max (s.islFloor m) (Nat.min (cycles.getD m 0) 1400))) ∧
    (Does (.powerSample milliwatts) s fun t => t = s.withIsl t.isl ∧
      ∀ m, m < 100 → t.island m = { s.island m with noHead := decide (1400000 < milliwatts) }) ∧
    exec (.monitorSample [(i, w)] ⟨[], []⟩) s = .next (s.modIsl i fun x => { x with warnings := x.warnings + w }) ∧
    (Does (.monitorSample [] ⟨[], [(l, e)]⟩) s fun t => t = s.withMem t.mem ∧ t.mem.bytes = s.mem.bytes ∧ t.mem.synd = s.mem.synd ∧
      ∀ m, t.mem.errs.lookup m = if m = l then some e else s.mem.errs.lookup m) ∧
    (Does (.monitorSample [] ⟨[i], []⟩) s fun t => charged i 2 t ∧ (t.island i).timingErrs = (s.island i).timingErrs + 1 ∧
      ((s.island i).timingAtFloor = [] → ∀ kj, lives kj → kj.1 ∈ s.jobsAt i → Struck kj.1 0x98 t) ∧
      ((∃ u ∈ (s.island i).timingAtFloor, s.now - u < 4 * 3600 * 1000000000) → (s.island i).freq ≤ s.islFloor i → s.boot.st ≠ .locked →
        (t.island i).status = 3 ∧ (0xA0, i.val) ∈ t.integ.holds)) ∧
    (Does (.crossingStall src dst) s fun t => charged dst 1 t ∧
      ∀ kj, lives kj → kj.1 ∈ s.jobsAt src ∨ kj.1 ∈ s.jobsAt dst → Struck kj.1 0x99 t)

/-- R449, R459, R512, R513, R521: the hold causes; outside LOCKED and before fuse load is done they put the device into FAULT_HOLD, name
the cause, assert FAULT_L and end every job in FAULTED. THERM_L follows its sensor. Loss of OPTCLK takes every UP link DOWN by the
rule for removed lanes and strikes the jobs whose group lies across one. -/
def Sys2Proof.Claims.HoldsAndReferenceLosses : Prop :=
  ∀ (i : Fin 100) (rail : Rail) (l : Nat) (s : State),
    let holds := fun (c : Instr) (cause island : Nat) =>
      (s.boot.st ∉ [.locked, .off, .fuseLoad] → Does c s fun t => t.boot.st = .faultHold ∧ t.integ.hold = true ∧ t.integ.reason = cause ∧
        (cause, island) ∈ t.integ.holds ∧ (∀ h ∈ s.integ.holds, h ∈ t.integ.holds) ∧ t.pins.faultL = true ∧ (∀ m, t.island m = s.island m) ∧
        ∀ k j, s.job k = some j → j.st.final = false → ∃ w, t.job k = some w ∧ w.st = .faulted ∧ w.endReason = cause) ∧
      (s.boot.st ∈ [.locked, .off, .fuseLoad] → exec c s = .next s)
    let therm := fun (v : Bool) => if s.pins.thermL = v then s else (s.withPins { s.pins with thermL := v }).emit (.thermL v)
    holds (.thermalFault i) 0xA1 i ∧ holds (.powerFault rail) 0xA2 islCtl ∧ holds .sysclkLoss 0xA3 islCtl ∧
    (s.boot.st ≠ .off → exec (.thermLAssert i) s = .next (therm true) ∧ exec .thermLRelease s = .next (therm false)) ∧
    (s.boot.st = .off → exec (.thermLAssert i) s = .next s ∧ exec .thermLRelease s = .next s) ∧
    Does .optclkLoss s fun t =>
      (l < 64 → (s.link l).st = 2 → (t.link l).st = 0 ∧ (t.link l).cause = 7 ∧
        (t.link l).drops = Nat.min ((s.link l).drops + popcount4 (s.link l).rx) 0xFFFF) ∧
      ((s.link l).st ≠ 2 → t.link l = s.link l) ∧
      ∀ kj ∈ s.admittedJobs, s.job kj.1 = some kj.2 → ∀ g, s.groupOf kj.2.terms.group = some g → l < 64 → (s.link l).st = 2 →
        l / 8 ∈ s.topo.facing g → Struck kj.1 0x90 t

/-- The two claims above. -/
def Obligations.IslandsTakeErrorsAndHolds : Prop := Sys2Proof.Claims.IslandsKeepFloorsAndTakeErrors ∧ Sys2Proof.Claims.HoldsAndReferenceLosses

/-! ## Boot, identity, attestation, staging (17, 10, 19) -/

namespace Sys2Proof.Claims

/-- LOCKED with a cause, FAULT_L asserted; what the host, the fuses and the memories hold stays. -/
def Locked (cause : Nat) (s t : State) : Prop :=
  t.boot.st = .locked ∧ t.boot.lockCause = cause ∧ t.pins.faultL = true ∧ t.fuses = s.fuses ∧ t.mem = s.mem ∧ t.host = s.host

/-- All state of the device is discarded: what stays are the fuses, the flash and the host's memory, outside the device. -/
def Discarded (s t : State) : Prop :=
  t.boot.st = .off ∧ t.boot.mode = s.boot.mode ∧ t.fuses = s.fuses ∧ t.flash = s.flash ∧ t.host = { HostSide.atReset with mem := s.host.mem } ∧
  t.pins = { s.pins with pwrgood := t.pins.pwrgood, resetL := t.pins.resetL, faultL := false, thermL := false } ∧
  t.mem = ⟨[], [], [], []⟩ ∧ t.held = [] ∧ t.isl = [] ∧ t.rings = [] ∧ t.jobs = [] ∧ t.cores = [] ∧ t.folios = [] ∧ t.tables = [] ∧ t.links = [] ∧
  t.video = [] ∧ t.chans = [] ∧ t.sys.ops = [] ∧ t.integ = Integ.atReset ∧ t.irq = Irq.atReset ∧ t.part = State.reset.part ∧
  t.clk.run = false

end Sys2Proof.Claims

/-- R471, R473, R475, R476, R478, R480, R489, R517: power, reset and the first steps of a boot. A fall of PWRGOOD or an assertion of
RESET_L discards the state; a boot begins with FUSE_LOAD once both are high; the strap is taken at PWRGOOD's rise. Fuse load enters
CONFIG_LOAD with the counter at 0, or LOCKED; GO in host mode starts the read, and reads or waits that miss their bounds lock. -/
def Sys2Proof.Claims.BootLoadsTheImage : Prop :=
  ∀ (mode : BitVec 2) (bad : Bool) (modules : BitVec 4) (rate : BitVec 6) (s : State),
    let b := s.boot
    let toHost := b.mode = 1
    let bound := if b.mode = 1 then 20000000 else 90000000
    (s.pins.pwrgood = true → exec (.pwrgoodRise mode) s = .next s) ∧
    (s.pins.pwrgood = false → Does (.pwrgoodRise mode) s fun t => t.pins = { s.pins with pwrgood := true } ∧
      t.boot = { s.boot with mode := mode, st := if s.pins.resetL = true ∧ b.st = .off then .fuseLoad else b.st }) ∧
    Does .pwrgoodFall s (fun t => Discarded s t ∧ t.pins.pwrgood = false ∧ t.pins.resetL = s.pins.resetL) ∧
    Does .resetLAssert s (fun t => Discarded s t ∧ t.pins.resetL = false ∧ t.pins.pwrgood = s.pins.pwrgood) ∧
    Does .resetLRise s (fun t => t.pins = { s.pins with resetL := true } ∧
      t.boot = { s.boot with st := if s.pins.pwrgood = true ∧ b.st = .off then .fuseLoad else b.st }) ∧
    (b.st ≠ .fuseLoad → exec (.fuseLoadDone bad) s = .next s) ∧
    (b.st = .fuseLoad →
      (bad = true → Does (.fuseLoadDone bad) s (Locked 1 s)) ∧
      (bad = false → b.mode = 3 → Does (.fuseLoadDone bad) s (Locked 2 s)) ∧
      (bad = false → b.mode ≠ 3 → Does (.fuseLoadDone bad) s fun t => t = (s.withClk ⟨0, 0, true⟩).withBoot t.boot ∧
        t.boot.st = .configLoad ∧ t.boot.leaf = Nat.min 8192 s.fuses.bootCount ∧ (t.boot.slotB = true ↔ b.mode = 2) ∧
        (t.boot.hostWait = true ↔ toHost) ∧ (t.boot.reading = true ↔ ¬ toHost) ∧
        t.boot.readFrom = if b.mode = 2 then 0x2000000 else 0)) ∧
    (b.st ≠ .off → (modules = 0 ∧ rate = 0 ∨ modules ≠ 0 ∧ rate.toNat ∈ [4, 8, 12, 16, 24, 32]) →
      exec (.ucieTrainingDone modules rate) s = .next (s.modHost fun h => { h with modules := modules, rate := rate.toNat })) ∧
    (b.st = .configLoad → b.hostWait = true →
      (b.hostLen = 0 ∨ 0x2000000 < b.hostLen → Does .hostBootGo s (Locked 3 s)) ∧
      (1 ≤ b.hostLen → b.hostLen ≤ 0x2000000 → exec .hostBootGo s = .next (s.modBoot fun b => { b with
        hostWait := false, reading := true, readAt := s.now, readFrom := b.hostAddrHi.toNat * 2 ^ 32 + b.hostAddrLo,
        readLen := b.hostLen }))) ∧
    (b.hostWait = false → exec .hostBootGo s = .next s ∧ exec .hostWaitTimeout s = .next s) ∧
    (b.hostWait = true → b.hostWaitAt + 10000000000 ≤ s.now → Does .hostWaitTimeout s (Locked 8 s)) ∧
    (s.now < b.hostWaitAt + 10000000000 → exec .hostWaitTimeout s = .next s) ∧
    (b.st = .configLoad → b.reading = true →
      (s.now ≤ b.readAt + bound → (toHost → s.host.modules ≠ 0) → Does .imageReadDone s fun t =>
        t = s.withBoot { b with st := .verify, reading := false, image := t.boot.image } ∧
        (toHost → t.boot.image = s.hostBytes b.readFrom b.readLen) ∧
        (¬ toHost → 512 ≤ t.boot.image.length ∧ ∀ k, k < t.boot.image.length →
          t.boot.image.getD k 0 = s.flash.get 0xFF (b.readFrom + k))) ∧
      (b.readAt + bound ≤ s.now → Does .imageReadTimeout s (Locked 9 s)))

/-- R299, R462, R474, R478, R480, R483, R484, R494: the rest of a boot. VERIFY locks with the cause of the first check that fails; the
release blows the boot fuse and the ratchet and leaves the identity on only if its fuse reads back; HBM trains at the highest rate,
at most the cap, that every channel reaches, and Memory_Active is set; the first pass on every island leads to READY. -/
def Sys2Proof.Claims.BootVerifiesAndReachesReady : Prop :=
  ∀ (bootOk ratchetOk : Bool) (cap : Nat) (best : List Nat) (report : List (BitVec 8 × Bool)) (rs : List Readings) (c : Nat) (s : State),
    let b := s.boot
    let m := b.image
    let ratchet := fieldAt m 6 2 % 2 = 1 ∧ s.fuses.svn < b.imageSvn
    let reach := fun (r : Nat) => r ≤ cap ∧ ∀ ch, ch < 192 → r ≤ best.getD ch 0
    let rates := [120, 112, 104, 96, 80, 64]
    (b.st = .verify → b.verified = false →
      (imgFault s.fuses m = some c → Does .verifyDone s (Locked c s)) ∧
      (fieldAt m 0 4 ≠ 0x54484932 ∨ fieldAt m 4 2 ≠ 1 → Does .verifyDone s (Locked 3 s)) ∧
      (imgFormatOk m = true → s.fuses.ecdsaRevoked.getLsbD (fieldAt m 17 1) = true ∨ s.fuses.lmsRevoked.getLsbD (fieldAt m 18 1) = true →
        Does .verifyDone s (Locked 6 s)) ∧
      (imgFormatOk m = true → imgKeysOk s.fuses m = true → fieldAt m 16 1 < s.fuses.svn → Does .verifyDone s (Locked 7 s)) ∧
      (imgFault s.fuses m = none → exec .verifyDone s = .next (s.withBoot { b with
        verified := true, measure := sha384 (m.take 512), imageSvn := fieldAt m 16 1, ecdsaIdx := fieldAt m 17 1,
        lmsIdx := fieldAt m 18 1 }))) ∧
    (b.st = .verify → b.verified = true →
      (¬ ratchet ∨ ratchetOk = true → Does (.releaseDone bootOk ratchetOk) s fun t =>
        t = ((s.withBoot t.boot).withFuses t.fuses).withFree t.free ∧ t.boot.st = .training ∧
        t.fuses = { s.fuses with bootCount := t.fuses.bootCount, svn := t.fuses.svn } ∧ (ratchet → t.fuses.svn = b.imageSvn) ∧
        (¬ ratchet → t.fuses.svn = s.fuses.svn) ∧ (b.leaf < 8192 → bootOk = true → t.fuses.bootCount = b.leaf + 1) ∧
        (8192 ≤ b.leaf → t.fuses.bootCount = s.fuses.bootCount) ∧ (8192 ≤ b.leaf ∨ bootOk = false → t.boot.identityOff = true) ∧
        (t.boot.identityOff = false → t.boot.deviceCert = s.flashBytes 0x4000000 2124)) ∧
      (ratchet → ratchetOk = false → Does (.releaseDone bootOk ratchetOk) s fun t => t.boot.st = .locked ∧ t.boot.lockCause = 1 ∧
        t.pins.faultL = true ∧ s.fuses.svn ≤ t.fuses.svn ∧ t.fuses.svn ≤ b.imageSvn)) ∧
    (cap ≤ 120 → b.st = .training → b.trained = false → b.hbmFail = false →
      (∀ r ∈ rates, reach r → (∀ q ∈ rates, reach q → q ≤ r) → Does (.hbmTrainingDone cap best report) s fun t =>
        t.part = { s.part with cap := cap, rate := r } ∧ t.boot = { b with trained := true } ∧ t.host = { s.host with memActive := true } ∧
        ∀ ch, ch < 192 → t.chan ch = { s.chan ch with
          trained := true, temp := (report.getD ch (0, false)).1.toNat, refresh2x := (report.getD ch (0, false)).2 }) ∧
      ((∀ r ∈ rates, ¬ reach r) → Does (.hbmTrainingDone cap best report) s fun t => t.boot = { b with hbmFail := true } ∧
        t.pins.faultL = true ∧ t.host = s.host ∧ t.chans = s.chans)) ∧
    (b.st ∈ [.training, .ready, .running, .quiesced, .faultHold] → b.identityOff = false →
      exec .subtreeReady s = .next (s.withBoot { b with subtreeReady := true })) ∧
    (b.st = .training → b.trained = true → rs.length = 100 → (∀ r ∈ rs, r ≠ []) →
      (∀ i, i < 100 → ∀ x ∈ rs.getD i [], 1210 + 5 * (s.charged i - 3) ≤ 5 * (x / 5)) →
        Does (.firstBurnishDone rs) s fun t => t.boot = { b with st := .ready } ∧ t.irq.event.getLsbD 0 = true ∧
          t.integ.passes = s.integ.passes + 100 ∧ ∀ i, i < 100 → (t.island i).lastPass = some s.now ∧ (t.island i).live = false ∧
            (t.island i).status ≠ 3 ∧ ∃ k, (t.island i).capRaw = 5 * (k / 5) ∧ k ∈ rs.getD i [])

/-- The two claims above. -/
def Obligations.BootReachesReadyOrLocks : Prop := Sys2Proof.Claims.BootLoadsTheImage ∧ Sys2Proof.Claims.BootVerifiesAndReachesReady

/-- R376, R484, R485: ATTEST is accepted while the boot has an identity and reports are left, and waits for the subtree; the reports
are made in the order of fetch, 7,140 bytes each: body, signatures, certificates. R481: FW_STAGE checks its image as VERIFY does; one
that fails is AUTH_FAILED with the cause, and nothing is written; a good one replaces the slot that was not booted, in host mode
none. -/
def Obligations.ReportsAreSignedAndImagesStaged : Prop :=
  ∀ (n : Fin 64) (p : Pkt) (op : Nat) (o : Op) (nonce : List Byte) (dst img bytes : Nat) (host : Bool) (s : State),
    let h := p.arg 40 1 == 1
    let ih := p.arg 16 1 == 1
    let base := if s.boot.slotB then 0 else 0x2000000
    let m := s.srcBytes host img (Nat.min bytes 0x2000001)
    let u := if host then s else s.touch img bytes
    (p.arg 40 1 ≤ 1 → zeroAt p.body 41 7 = true → p.arg 32 8 % 64 = 0 → (h = true ∨ s.mappedRange (p.arg 32 8) 7140 = true) →
      (s.boot.identityOff = false → s.boot.reports + s.attestsDue.length < 32768 → Runs (.attest n p) n 0x901 p s fun t =>
        accepted t n 0x901 p (.attest (sliceAt p.body 0 32) (p.arg 32 8) h) 0) ∧
      (s.boot.identityOff = true ∨ 32768 ≤ s.boot.reports + s.attestsDue.length → Runs (.attest n p) n 0x901 p s fun t =>
        answered t n 0x901 p 0x14 0x35 0)) ∧
    (s.opOf op = some o → o.kind = .attest nonce dst host → nonce.length = 32 →
      (s.boot.subtreeReady = true → (s.host.modules ≠ 0 ∨ (host = false ∧ dst < farLo)) → (∀ q ∈ s.attestsDue, op ≤ q.no) →
        ∃ bs, bs.length = 7140 ∧ bs.take 16 = leBytes 4 0x41540001 ++ leBytes 2 256 ++ leBytes 1 s.devState.code ++
            leBytes 1 (s.boot.mode.toNat + if s.boot.slotB then 4 else 0) ++ leBytes 2 s.boot.leaf ++ [0, 0] ++ leBytes 4 s.boot.reports ∧
          sliceAt bs 32 32 = nonce ∧ sliceAt bs 352 2668 = sliceAt (Config.subtreeSign s.boot.leaf s.boot.reports (bs.take 256)) 0 2668 ∧
          sliceAt bs 256 96 = sliceAt (Config.deviceSign (sha384 (bs.take 256))) 0 96 ∧
          sliceAt bs 3020 1996 = sliceAt s.boot.bootCert 0 1996 ∧ sliceAt bs 5016 2124 = sliceAt s.boot.deviceCert 0 2124 ∧
          exec (.attestDone op) s = .next
            (finished ((s.dstWrite host dst bs).modBoot fun b => { b with reports := b.reports + 1 }) o 0 0 7140)) ∧
      (s.boot.subtreeReady = false ∨ (∃ q ∈ s.attestsDue, q.no < op) → exec (.attestDone op) s = .next s)) ∧
    (p.arg 0 8 % 64 = 0 → p.arg 8 8 ≠ 0 → p.arg 16 1 ≤ 1 → zeroAt p.body 17 7 = true →
      (ih = true ∨ s.mappedRange (p.arg 0 8) (p.arg 8 8) = true) →
      (s.staging = false → Runs (.fwStage n p) n 0x902 p s fun t => accepted t n 0x902 p (.fwStage (p.arg 0 8) (p.arg 8 8) ih) 0) ∧
      (s.staging = true → Runs (.fwStage n p) n 0x902 p s fun t => answered t n 0x902 p 0x13 0 0)) ∧
    (s.opOf op = some o → o.kind = .fwStage img bytes host → s.host.modules ≠ 0 ∨ (host = false ∧ img < farLo) → (host = true ∨ s.badLine img bytes = none) →
      (∀ c, imgFault s.fuses m = some c → exec (.fwStageDone op) s = .next (finished u o 0x23 0 (BitVec.ofNat 64 c))) ∧
      (imgFault s.fuses m = none →
        (s.boot.mode = 1 → exec (.fwStageDone op) s = .next (finished u o 0 0 (BitVec.ofNat 64 (fieldAt m 16 1)))) ∧
        (s.boot.mode ≠ 1 → ∃ f, (∀ a, f.get 0xFF a = if base ≤ a ∧ a < base + 0x2000000 then m.getD (a - base) 0xFF
            else s.flash.get 0xFF a) ∧
          exec (.fwStageDone op) s = .next (finished ((u.withFlash f).modBoot fun b => { b with
            staged := true, stagedMeasure := sha384 (m.take 512) }) o 0 0 (BitVec.ofNat 64 (fieldAt m 16 1)))))) ∧
    (s.opOf op = some o → o.kind = .fwStage img bytes false → s.host.modules ≠ 0 ∨ img < farLo → s.badLine img bytes ≠ none →
      exec (.fwStageDone op) s = .next (finished (s.scan img bytes) o 0x20 0 0))

/-! ## Registers, interrupts, mailbox (01, 10, 13, 14, 15, 18) -/

namespace Sys2Proof.Claims

/-- The message of a ring's vector. -/
def msgOf (s : State) (n : Nat) : Out := .msi n ((s.vector n).addrHi ++ (s.vector n).addrLo) (s.vector n).data

/-- A ring whose counts differ and whose MSI-X masks are clear: unmasking it sends its message. -/
def Due (s : State) (n : Nat) : Bool := s.vectorOpen n && (s.ring n).rqTail != (s.ring n).rqHead

/-- Only ring pair `n` has changed, to `g`. -/
def OnlyRing (n : Nat) (g : Ring) (s t : State) : Prop :=
  t = s.withRings t.rings ∧ t.ring n = g ∧ ∀ m, m ≠ n → t.ring m = s.ring m

/-- A read of the register at `off` that reads `val`: 4 bytes wide it has the effect `eff`; the 8-byte read that covers the register
shows it in its half and has the effect `both`. -/
def ReadsAs (c : Bool → Instr) (off val : Nat) (eff both : State → State) (s : State) : Prop :=
  exec (c false) s = .next ((eff s).emit (.regRead off (BitVec.ofNat 64 val))) ∧
  ∃ v : DWord, exec (c true) s = .next ((both s).emit (.regRead (off / 8 * 8) v)) ∧
    (v >>> (8 * (off % 8))).truncate 32 = BitVec.ofNat 32 val

/-- The record that a mailbox command gets stands in MBX_REPLY: SEQ, opcode with the device state, STATUS, REASON, DETAIL. -/
def MailboxAnswer (op : Nat) (p : Pkt) (status reason : Nat) (detail : DWord) (s t : State) : Prop :=
  t = (((s.withMbx t.mbx).withSys t.sys).withFree t.free) ∧ t.mbx.busy = false ∧ t.mbx.packet = s.mbx.packet ∧
  ∃ bs, bs.length = 32 ∧ (∀ i, i < 8 → (t.mbx.reply.get 0 i).toNat = fieldAt bs (4 * i) 4) ∧
    bs.take 8 = leBytes 4 p.seq.toNat ++ leBytes 2 (op % 4096 + 4096 * s.devState.code) ++ leBytes 1 status ++ leBytes 1 reason ∧
    bs.drop 24 = leBytes 8 detail.toNat

end Sys2Proof.Claims

/-- R363, R364, R500: the ring registers, from CONFIG_LOAD on and not in LOCKED. A doorbell that covers more than the ring or lies behind
the last valid one sets DOORBELL_ERR; ENABLE clears the counters of a pair in good order and is refused with CFG_ERR otherwise; while
the pair is enabled only ENABLE 0 acts, and not while records are owed. -/
def Sys2Proof.Claims.RingRegistersAct : Prop :=
  ∀ (n : Fin 64) (v : Word) (s : State),
    let g := s.ring n
    let closed := s.boot.st ∈ [.off, .fuseLoad, .locked]
    let valid := (v - g.sqHead).toNat ≤ 2 ^ g.sqLog2 ∧ (g.tail - g.sqHead).toNat ≤ (v - g.sqHead).toNat
    let inHbm := fun (b : Bool) (base bytes : Nat) => b = true → base + bytes ≤ hbmBytes
    let good := (6 ≤ g.sqLog2 ∧ g.sqLog2 ≤ 16) ∧ (6 ≤ g.rqLog2 ∧ g.rqLog2 ≤ 16) ∧
      inHbm (v.getLsbD 1) g.sqBase (64 * 2 ^ g.sqLog2) ∧ inHbm (v.getLsbD 2) g.rqBase (32 * 2 ^ g.rqLog2)
    let placed := { g with sqHbm := v.getLsbD 1, rqHbm := v.getLsbD 2 }
    let busy := g.owes ≠ [] ∨ g.backlog ≠ [] ∨ ∃ kj ∈ s.jobList, kj.2.ring = n.val
    (closed → exec (.ringDoorbell n v) s = .next s ∧ (v.getLsbD 0 = true → exec (.ringEnable n v) s = .next s) ∧
      (v.getLsbD 0 = false → exec (.ringDisable n v) s = .next s)) ∧
    (¬ closed →
      (valid → Does (.ringDoorbell n v) s (OnlyRing n { g with tail := v } s)) ∧
      (¬ valid → Does (.ringDoorbell n v) s (OnlyRing n { g with doorbellErr := true } s)) ∧
      (v.getLsbD 0 = true →
        (g.enable = true → Does (.ringEnable n v) s (OnlyRing n g s)) ∧
        (g.enable = false → good → Does (.ringEnable n v) s (OnlyRing n
          { placed with enable := true, tail := 0, sqHead := 0, rqTail := 0, rqHead := 0 } s)) ∧
        (g.enable = false → ¬ good → Does (.ringEnable n v) s (OnlyRing n { placed with cfgErr := true } s))) ∧
      (v.getLsbD 0 = false →
        (g.enable = true → busy → Does (.ringDisable n v) s (OnlyRing n g s)) ∧
        (g.enable = true → ¬ busy → Does (.ringDisable n v) s (OnlyRing n { g with enable := false } s)) ∧
        (g.enable = false → Does (.ringDisable n v) s (OnlyRing n placed s))))

/-- R504, R505: clearing a mask of a ring vector, or the end of a holdoff, sends the ring's message when no other mask holds it and its
counts differ, and no message otherwise; IRQ_EVENT clears what is written 1. -/
def Sys2Proof.Claims.MasksAndHoldoffSendMessages : Prop :=
  ∀ (n : Fin 64) (v : Fin 65) (hi : Bool) (value : Word) (s : State),
    let mask := if hi then value ++ s.irq.mask.truncate 32 else (s.irq.mask >>> 32).truncate 32 ++ value
    let sent := fun (hit : Nat → Bool) => ((List.range 64).filter hit).reverse.map (msgOf s) ++ s.out
    let holdoff := ∃ l, (s.ring n).lastMsg = some l ∧ s.now - l < 1000 * s.irq.holdoffUs
    (s.boot.st ∈ [.off, .fuseLoad, .locked] → exec (.irqMask hi value) s = .next s ∧ exec (.msixMaskClear (some v)) s = .next s ∧
      exec (.irqEvent value) s = .next s) ∧
    (s.boot.st ∉ [.off, .fuseLoad, .locked] →
      exec (.irqEvent value) s = .next (s.withIrq { s.irq with event := s.irq.event &&& ~~~ (value.truncate 5) }) ∧
      (s.host.modules ≠ 0 →
        (Does (.irqMask hi value) s fun t => t = ((s.withIrq { s.irq with mask := mask }).withRings t.rings).withOut
          (sent fun m => s.irq.mask.getLsbD m && !mask.getLsbD m && Due s m)) ∧
        (Does (.msixMaskClear (some v)) s fun t => t.out = sent (fun m => m == v.val && (s.vector m).mask && !s.irq.funcMask &&
            !s.irq.mask.getLsbD m && (s.ring m).rqTail != (s.ring m).rqHead) ∧
          (t.vector v).mask = false ∧ (t.vector v).data = (s.vector v).data ∧ ∀ m, m ≠ v.val → t.vector m = s.vector m))) ∧
    (s.irq.funcMask = false → exec (.msixMaskClear none) s = .next s) ∧
    (s.irq.funcMask = true → s.host.modules ≠ 0 → Does (.msixMaskClear none) s fun t =>
      t = ((s.withIrq { s.irq with funcMask := false }).withRings t.rings).withOut
        (sent fun m => !(s.vector m).mask && !s.irq.mask.getLsbD m && (s.ring m).rqTail != (s.ring m).rqHead)) ∧
    ((s.ring n).held = false ∨ holdoff → exec (.irqHoldoffExpiry n) s = .next s) ∧
    ((s.ring n).held = true → ¬ holdoff → s.host.modules ≠ 0 → Does (.irqHoldoffExpiry n) s fun t =>
      (t.ring n).held = false ∧ (∀ m, m ≠ n.val → t.ring m = s.ring m) ∧
      t = (s.withRings t.rings).withOut (sent fun m => m == n.val && !s.irq.mask.getLsbD m && Due s m))

/-- The two claims above. -/
def Obligations.RingAndInterruptRegistersAct : Prop := Sys2Proof.Claims.RingRegistersAct ∧ Sys2Proof.Claims.MasksAndHoldoffSendMessages

/-- R6, R35, R36, R448, R500: what a read clears or latches, at 4 and 8 bytes: the counter's upper half, the error counts that are
cleared by reading, VALID of the failure registers. -/
def Sys2Proof.Claims.ReadsClearAndLatch : Prop :=
  ∀ (cl l : Fin 64) (c : Fin 192) (e : Fin 4) (i : Fin 8) (s : State),
    let x := s.chan c
    let y := s.link l
    let z := s.engine e
    let pair := fun (a b : Nat) => Nat.min a 0xFFFF * 2 ^ 16 + Nat.min b 0xFFFF
    let lane := fun (k : Nat) => Nat.min (y.sym.get 0 k / 1024) 0xFF * 2 ^ (8 * k)
    let latched := fun (t : State) => t.withClk { t.clk with latchHi := BitVec.ofNat 32 (s.now / 2 ^ 32) }
    let noFec := fun (t : State) => t.modLink l fun y => { y with corr := 0, uncorr := 0 }
    let noReplay := fun (t : State) => t.modLink l fun y => { y with drops := 0, replays := 0 }
    let noSym := fun (t : State) => t.modLink l fun y => { y with sym := [] }
    let noEcc := fun (t : State) => t.modChan c fun x => { x with corr := 0, uncorr := 0 }
    let noErr := fun (t : State) => t.modHost fun h => { h with replays := 0, retrains := 0, poisoned := 0 }
    let noVid := fun (t : State) => t.modEngine e fun g => { g with errWelt := 0, errStream := 0 }
    let noOpe := fun (t : State) => t.modClu cl fun g => { g with opeInfo := g.opeInfo &&& 0x7FFFFFFF }
    let noVec := fun (t : State) => t.modClu cl fun g => { g with vecInfo := g.vecInfo &&& 0x7FFFFFFF }
    let prod := fun (t : State) => t.modSession (sessNo e i) fun x => { x with prodHi := BitVec.ofNat 32 (x.produced / 2 ^ 32) }
    (s.boot.st ∉ [.off, .fuseLoad] →
      ReadsAs .ctlCountLo 0x20 (s.now % 2 ^ 32) latched latched s ∧
      exec (.ctlCountLo true) s = .next ((latched s).emit (.regRead 0x20 (BitVec.ofNat 64 s.now))) ∧
      ReadsAs .hstLinkErr 0x38 (s.host.replays % 2 ^ 16 * 2 ^ 16 + s.host.retrains % 256 * 256 + s.host.poisoned % 256) noErr noErr s ∧
      ReadsAs (.opeFailInfo cl) (0x100208 + 0x1000 * cl) (s.cluster cl).opeInfo.toNat noOpe noOpe s ∧
      ReadsAs (.vecFailInfo cl) (0x100214 + 0x1000 * cl) (s.cluster cl).vecInfo.toNat noVec noVec s ∧
      ReadsAs (.hbmChEcc c) (0x200004 + 0x400 * c) (pair x.uncorr x.corr) noEcc noEcc s ∧
      ReadsAs (.linkFec l) (0x300008 + 0x800 * l) (pair y.uncorr y.corr) noFec (fun t => noReplay (noFec t)) s ∧
      ReadsAs (.linkReplay l) (0x30000C + 0x800 * l) (pair y.drops y.replays) noReplay (fun t => noReplay (noFec t)) s ∧
      ReadsAs (.linkLaneSym l) (0x300010 + 0x800 * l) (lane 3 + lane 2 + lane 1 + lane 0) noSym noSym s ∧
      ReadsAs (.vidErr e) (0x500008 + 0x10000 * e) (pair z.errWelt z.errStream) noVid noVid s ∧
      ReadsAs (.vidRingProdLo e i) (0x500108 + 0x10000 * e + 16 * i) (((s.session (sessNo e i)).elim 0 (·.produced)) % 2 ^ 32)
        prod prod s) ∧
    (s.boot.st ∈ [.off, .fuseLoad] → ∀ w, exec (.ctlCountLo w) s = .next s ∧ exec (.hstLinkErr w) s = .next s ∧
      exec (.hbmChEcc c w) s = .next s ∧ exec (.linkFec l w) s = .next s ∧ exec (.vidErr e w) s = .next s)

/-- R6, R8, R363, R415, R420, R448, R468, R476, R500, R505, R506: writes of registers. A misaligned one is ignored, all are in LOCKED, a
pair of registers takes an 8-byte one; a register's own row and a plain write of it do the same. -/
def Sys2Proof.Claims.RegisterWritesAct : Prop :=
  ∀ (n : Fin 64) (c : Fin 192) (pt : Fin 8) (k : Fin 16) (e : Fin 4) (i : Fin 8) (off : Nat) (wide : Bool) (v : Word) (w : DWord)
    (x : Session) (s : State),
    let put := fun (off : Nat) => exec (.registerWrite off false (v.zeroExtend 64)) s
    let g := s.ring n
    let cons := x.consHi.toNat * 2 ^ 32 + v.toNat
    let nib := fun (lo : Nat) => Nat.max 1 (v.toNat / 2 ^ lo % 16)
    let shared := ∃ kj ∈ s.admittedJobs, kj.2.isG = true ∧ kj.2.terms.linkShare ≠ 0
    (s.boot.st ∈ [.off, .fuseLoad, .locked] → exec (.registerWrite off wide w) s = .next s ∧ exec (.serviceHours v) s = .next s ∧
      exec (.vidRingConsLo e i v) s = .next s) ∧
    (off % (if wide then 8 else 4) ≠ 0 ∨ 0x800000 ≤ off → exec (.registerWrite off wide w) s = .next s) ∧
    (s.boot.st ∉ [.off, .fuseLoad, .locked] →
      (∀ o ∈ [0, 4, 8, 0x20, 0x24, 0x30, 0x34, 0x38, 0x40, 0x44, 0x100, 0x1040, 0x600000, 0x600604, 0x700000], put o = .next s) ∧
      put (0x10018 + 0x100 * n) = exec (.ringDoorbell n v) s ∧ put 0x18 = exec (.irqEvent v) s ∧
      put 0x10 = exec (.irqMask false v) s ∧ put 0x14 = exec (.irqMask true v) s ∧ put 0x600600 = exec (.serviceHours v) s ∧
      put (0x500100 + 0x10000 * e + 16 * i) = exec (.vidRingConsLo e i v) s ∧
      put 0x1C = .next (s.withIrq { s.irq with eventEn := (v >>> 16).truncate 5, holdoffUs := v.toNat % 2 ^ 16 }) ∧
      put (0x10024 + 0x100 * n) = .next (s.modRing n fun g => { g with rqHead := v }) ∧
      (Does (.registerWrite (0x10008 + 0x100 * n) true w) s (OnlyRing n (if g.enable then g else
        { g with sqBase := w.toNat / 64 * 64 }) s)) ∧
      ((s.chan c).run = false → put (0x200104 + 0x400 * c) = .next (s.modChan c fun g => { g with value := v })) ∧
      (shared → put (0x340000 + 0x1000 * pt) = .next s) ∧
      (¬ shared → put (0x340000 + 0x1000 * pt) = .next (s.modPort pt fun g => { g with w1 := nib 0, w2 := nib 8, w3 := nib 16 })) ∧
      (s.mbx.busy = false → put (0x1000 + 4 * k) = .next (s.withMbx { s.mbx with packet := s.mbx.packet.set 0 k v })) ∧
      (s.boot.st = .configLoad → s.boot.hostWait = true → put 0x700018 = .next (s.withBoot { s.boot with hostLen := v.toNat % 2 ^ 26 })) ∧
      (s.boot.st ≠ .configLoad → put 0x700018 = .next s) ∧
      (s.admittedJobs = [] → put 0x58 = .next (s.withPart { s.part with farGib := Nat.min 16384 (v.toNat % 2 ^ 15) })) ∧
      (s.integ.hours = none → exec (.serviceHours v) s = .next (s.withInteg { s.integ with hours := some (v.toNat % 2 ^ 31, s.now) })) ∧
      (s.integ.hours ≠ none → exec (.serviceHours v) s = .next s) ∧
      (s.session (sessNo e i) = some x →
        (x.cons ≤ cons → cons ≤ x.produced → exec (.vidRingConsLo e i v) s = .next
          ((s.modSession (sessNo e i) fun x => { x with cons := cons }).pumpOut e)) ∧
        (cons < x.cons ∨ x.produced < cons → exec (.vidRingConsLo e i v) s = .next s)))

/-- The two claims above. -/
def Obligations.RegistersReadAndWrite : Prop := Sys2Proof.Claims.ReadsClearAndLatch ∧ Sys2Proof.Claims.RegisterWritesAct

/-- R370, R375, R388, R506, R507: GO takes the packet into the order of fetch and answers it in MBX_REPLY: SLOTS other than 1, a failed
welt, an opcode other than the three and a state that does not allow it are refused; ECHO and QUERY_STATE answer as from a ring; a
stall gets its record there as well. -/
def Obligations.MailboxAnswersOneCommand : Prop :=
  ∀ (op16 : BitVec 16) (pk : Pkt) (scribe : BitVec 4) (committed : Bool) (s : State),
    let bytes := (List.range 16).flatMap fun i => leBytes 4 (s.mbx.packet.get 0 i).toNat
    let op := fieldAt bytes 0 2
    let p : Pkt := { slots := BitVec.ofNat 8 (fieldAt bytes 2 1), flags := BitVec.ofNat 8 (fieldAt bytes 3 1),
                     seq := BitVec.ofNat 32 (fieldAt bytes 4 4), job := BitVec.ofNat 32 (fieldAt bytes 8 4),
                     plen := BitVec.ofNat 16 (fieldAt bytes 12 2), welt := BitVec.ofNat 16 (fieldAt bytes 14 2), body := bytes.drop 16 }
    let gets := fun (status reason : Nat) (detail : DWord) => Does .go s fun t =>
      t.sys = { s.sys with fetchNo := s.sys.fetchNo + 1 } ∧ MailboxAnswer op p status reason detail s t
    let whole := p.flags.toNat / 2 = 0 ∧ p.job.toNat / 2 ^ 27 = 0 ∧ p.plen.toNat ≤ 48 ∧ plenOf op p.plen.toNat = true
    (s.boot.st ∈ [.off, .fuseLoad, .locked] → exec .go s = .next s) ∧
    (s.boot.st ∉ [.off, .fuseLoad, .locked] →
      (s.mbx.busy = true → exec .go s = .next (s.withMbx { s.mbx with overrun := true })) ∧
      (s.mbx.busy = false →
        (p.slots ≠ 1 → gets 0x11 0x30 0) ∧
        (p.slots = 1 → p.weltOk op = false → gets 0x20 0 0) ∧
        (p.slots = 1 → p.weltOk op = true →
          (op ∉ [0x101, 0x102, 0x403] → gets 0x10 0 0) ∧
          (op ∈ [0x101, 0x102, 0x403] → ¬ whole → gets 0x11 0x30 0) ∧
          (op ∈ [0x101, 0x102, 0x403] → whole →
            (inMatrix op s.devState = false → gets 0x13 0 0) ∧
            (inMatrix op s.devState = true → op = 0x101 → gets 0 0 (BitVec.ofNat 64 (leNat (p.body.take (Nat.min 8 p.plen.toNat))))) ∧
            (inMatrix op s.devState = true → op = 0x102 → gets 0 0 s.queryDetail) ∧
            Does (.firmwareStall none op16 pk scribe committed) s (MailboxAnswer op p 0x22 0
              (BitVec.ofNat 64 (scribe.toNat * 256 + if committed then 1 else 0)) s)))))

/-! ## The host bus and the management ports (10, 16, 18) -/

/-- R294, R493 to R496: the memory window: a line of the folio area or with a failing welt reads as all ones, poisoned; any other reads as
stored and may then be held; a write changes the enabled bytes and no others, and is discarded in the folio area or onto a line that
fails. A snoop is answered RspIHitI; a back-invalidate response makes the waiting writes visible; a record waits for the response to
its completion record. -/
def Sys2Proof.Claims.HostWindowReadsAndWrites : Prop :=
  ∀ (off line : Nat) (en : BitVec 64) (data : List Byte) (addr : DWord) (s : State),
    let out := s.folioLo ≤ off
    let lost := s.uncorrectable (off / 64) = true
    let bad := s.mem.synd.get 0 (off / 64) ≠ 0 ∨ lost
    let r := s.correct (off / 64)
    let poisoned := s.modHost fun h => { h with poisoned := Nat.min (h.poisoned + 1) 0xFF }
    (off % 64 = 0 → off < hbmBytes →
      (s.host.memActive = false → exec (.cxlMemRead off) s = .next s) ∧
      (s.host.memActive = true →
        (out ∨ bad ∧ ¬ lost → exec (.cxlMemRead off) s = .next (poisoned.emit (.memRead off (List.replicate 64 0xFF) true))) ∧
        (lost → Does (.cxlMemRead off) s fun t => t.out.head? = some (.memRead off (List.replicate 64 0xFF) true)) ∧
        (¬ out → ¬ bad → Does (.cxlMemRead off) s fun t => off / 64 ∈ t.host.filter ∧ (∀ l ∈ s.host.filter, l ∈ t.host.filter) ∧
          t = (r.withHost { s.host with filter := t.host.filter }).withOut
            (.memRead off ((List.range 64).map fun i => s.mem.bytes.get 0 (off + i)) false :: s.out))) ∧
      (data.length = 64 → s.host.memActive = true →
        (out ∨ (en ≠ BitVec.allOnes 64 ∧ bad) → exec (.cxlMemWrite off en data) s = .next poisoned) ∧
        (¬ out → en = BitVec.allOnes 64 ∨ ¬ bad → Does (.cxlMemWrite off en data) s fun t => t = s.withMem t.mem ∧
          (∀ i, i < 64 → t.mem.bytes.get 0 (off + i) = if en.getLsbD i then data.getD i 0 else s.mem.bytes.get 0 (off + i)) ∧
          (∀ a, a < off ∨ off + 64 ≤ a → t.mem.bytes.get 0 a = s.mem.bytes.get 0 a) ∧
          (∀ l, t.mem.synd.get 0 l = if l = off / 64 then 0 else s.mem.synd.get 0 l) ∧
          (∀ l, t.storeErr l = if l = off / 64 then none else s.storeErr l) ∧
          ∀ l, t.mem.cached.get 0 l = if l = off / 64 ∧ s.mem.cached.get 0 l ≠ 0 then 2 else s.mem.cached.get 0 l))) ∧
    exec (.cxlSnoop addr) s = .next (s.emit (.snoopResponse addr)) ∧
    (line * 64 < farLo → Does (.backInvalidateResponse line) s fun t => line ∉ t.host.filter ∧ (∀ w ∈ t.host.biWait, w.line ≠ line) ∧
      (∀ w ∈ s.host.biWait, w.line ≠ line → w ∈ t.host.biWait) ∧ (∀ i, i < 64 → t.mem.bytes.get 0 (64 * line + i) = s.devByte (64 * line + i)) ∧
      ((∃ w ∈ s.host.biWait, w.line = line) → t.mem.synd.get 0 line = 0)) ∧
    (∀ w, s.host.goWait.find? (fun w => w.1 == addr.toNat) = some w →
      (s.host.modules = 0 → exec (.globalObservationResponse addr) s = .next s) ∧
      (s.host.modules ≠ 0 → exec (.globalObservationResponse addr) s = .next
        ((s.modHost fun h => { h with goWait := h.goWait.erase w }).sendRec w.2.1 w.2.2))) ∧
    (s.host.goWait.find? (fun w => w.1 == addr.toNat) = none → exec (.globalObservationResponse addr) s = .next s)

/-- R470, R479, R488, R489, R499: the host link down, up and a module lost; what waited is issued in order when it returns. The I3C
target: a pointer into the integrity block, whose bytes it reads, and only SERVICE_HOURS takes a write; JTAG shifts its selected
register in every state. -/
def Sys2Proof.Claims.LinkAndManagementPorts : Prop :=
  ∀ (modules : BitVec 4) (rate : BitVec 6) (k : Fin 4) (bytes : List Byte) (n : Nat) (v : Word) (addr : BitVec 7) (ir : JtagIr)
    (dr : Word) (s : State),
    let ptr := s.mgmt.ptr
    let left := s.host.modules &&& ~~~ ((1 : BitVec 4) <<< k.val)
    let held := fun (a : Nat) => (s.host.heldWrites.reverse.findSome? fun w => if w.1 ≤ a then w.2[a - w.1]? else none).getD
      (s.host.mem.get 0 a)
    exec .hostLinkDown s = .next (s.modHost fun h => { h with modules := 0, rate := 0 }) ∧
    exec (.hostModuleLost k) s = .next (s.modHost fun h => { h with modules := left, rate := if left = 0 then 0 else h.rate }) ∧
    (modules ≠ 0 → rate.toNat ∈ [4, 8, 12, 16, 24, 32] → Does (.hostLinkUp modules rate) s fun t =>
      t = (s.withHost { s.host with
        modules := modules, rate := rate.toNat, retrains := Nat.min (s.host.retrains + 1) 0xFF, heldWrites := [], heldOut := [],
        mem := t.host.mem }).withOut (s.host.heldOut.reverse ++ s.out) ∧
      ∀ a, t.host.mem.get 0 a = held a) ∧
    (s.boot.st ∉ [.off, .fuseLoad] →
      (bytes.length = 4 → exec (.i3cPrivateWrite bytes) s = .next (s.withMgmt { s.mgmt with ptr := leNat bytes })) ∧
      exec (.i3cPrivateWrite (leBytes 4 0x600 ++ leBytes 4 v.toNat)) s = .next
        ((if s.integ.hours = none then s.withInteg { s.integ with hours := some (v.toNat % 2 ^ 31, s.now) } else s).withMgmt
          { s.mgmt with ptr := 0x604 }) ∧
      (4 ≤ bytes.length → 0x604 ≤ leNat (bytes.take 4) → exec (.i3cPrivateWrite bytes) s = .next
        (s.withMgmt { s.mgmt with ptr := leNat (bytes.take 4) + (bytes.length - 4) })) ∧
      exec (.i3cPrivateRead n) s = .next ((s.emit (.i3cRead ((List.range n).map fun k => if ptr + k < 0x2000 then
        BitVec.ofNat 8 (s.regAt (0x600000 + (ptr + k) / 4 * 4) / 256 ^ ((ptr + k) % 4)) else 0))).withMgmt { s.mgmt with ptr := ptr + n }) ∧
      exec (.i3cAddressAssign addr) s = .next (s.withMgmt { s.mgmt with addr := some addr })) ∧
    (s.boot.st ∈ [.off, .fuseLoad] → exec (.i3cPrivateWrite bytes) s = .next s ∧ exec (.i3cPrivateRead n) s = .next s ∧
      exec (.i3cAddressAssign addr) s = .next s) ∧
    Does (.jtagAccess ir dr) s fun t => ∃ q, t = (((s.withFree t.free).withMgmt { s.mgmt with jtagIr := ir }).emit (.jtag q)) ∧
      (ir = .bypass ∨ ir = .other → q = dr <<< 1) ∧ (ir = .idcode → q.getLsbD 0 = true)

/-- The two claims above. -/
def Obligations.HostAndManagementPortsAct : Prop := Sys2Proof.Claims.HostWindowReadsAndWrites ∧ Sys2Proof.Claims.LinkAndManagementPorts
end

