-- ==== Sys2Proof/Laws/Map.lean ====
section
/-!
SUPPORT. The laws of sparse maps: a read after a write to the same key gives the value written, a write leaves every other key alone,
and every operation keeps the canonical form. The read laws need no premise on the map.
-/
namespace Sys2Proof

variable {α : Type}

@[simp] theorem SMap.get_nil (d : α) (k : Nat) : SMap.get d [] k = d := rfl

theorem SMap.get_cons (d : α) (j : Nat) (v : α) (m : SMap α) (k : Nat) :
    SMap.get d ((j, v) :: m) k = if k = j then v else SMap.get d m k := rfl

theorem SMap.get_insert (d : α) (k : Nat) (v : α) (m : SMap α) (i : Nat) :
    SMap.get d (SMap.insert k v m) i = if i = k then v else SMap.get d m i := by
  induction m with
  | nil => simp [SMap.insert, SMap.get_cons]
  | cons p m ih =>
    obtain ⟨j, w⟩ := p
    simp only [SMap.insert]
    split
    · simp [SMap.get_cons]
    · split
      · subst_vars; simp only [SMap.get_cons]; split <;> rfl
      · simp only [SMap.get_cons, ih]; split <;> split <;> simp_all

theorem SMap.get_erase (d : α) (k : Nat) (m : SMap α) (i : Nat) :
    SMap.get d (m.filter fun kv => kv.1 != k) i = if i = k then d else SMap.get d m i := by
  induction m with
  | nil => simp
  | cons p m ih =>
    obtain ⟨j, w⟩ := p
    by_cases h : j = k
    · subst h; simp only [List.filter_cons, bne_self_eq_false, Bool.false_eq_true, if_false, ih, SMap.get_cons]; split <;> simp_all
    · simp only [List.filter_cons, bne_iff_ne, ne_eq, h, not_false_eq_true, if_true, SMap.get_cons, ih]
      split <;> split <;> simp_all

variable [DecidableEq α]

/-- A read after a write. -/
@[simp] theorem SMap.get_set (d : α) (k : Nat) (v : α) (m : SMap α) (i : Nat) :
    SMap.get d (SMap.set d k v m) i = if i = k then v else SMap.get d m i := by
  simp only [SMap.set]
  split
  · rw [SMap.get_erase]; simp_all
  · rw [SMap.get_insert]

@[simp] theorem SMap.get_modify (d : α) (k : Nat) (f : α → α) (m : SMap α) (i : Nat) :
    SMap.get d (SMap.modify d k f m) i = if i = k then f (SMap.get d m k) else SMap.get d m i := by
  simp [SMap.modify]

theorem SMap.get_setMany (d : α) (f : Nat → α) (ks : List Nat) (m : SMap α) (i : Nat) :
    SMap.get d (SMap.setMany d f ks m) i = if i ∈ ks then f i else SMap.get d m i := by
  induction ks generalizing m with
  | nil => simp [SMap.setMany]
  | cons k ks ih =>
    have h := ih (SMap.set d k (f k) m)
    simp only [SMap.setMany, List.foldl_cons] at h ⊢
    rw [h, SMap.get_set]
    by_cases h1 : i ∈ ks
    · simp [h1]
    · by_cases h2 : i = k
      · subst h2; simp
      · simp [h1, h2]

theorem SMap.get_filterMap (d : α) (f : Nat → α) (ks : List Nat) (i : Nat) :
    SMap.get d (ks.filterMap fun k => if f k = d then none else some (k, f k)) i = if i ∈ ks then f i else d := by
  induction ks with
  | nil => simp
  | cons k ks ih =>
    simp only [List.filterMap_cons, List.mem_cons]
    by_cases h : f k = d
    · by_cases h2 : i = k
      · subst h2; simp only [h, if_true, ih, true_or]; split <;> rfl
      · simp [h, h2, ih]
    · by_cases h2 : i = k
      · subst h2; simp [h, SMap.get_cons]
      · simp [h, h2, SMap.get_cons, ih]

@[simp] theorem SMap.get_ofFn (d : α) (n : Nat) (f : Nat → α) (i : Nat) :
    SMap.get d (SMap.ofFn d n f) i = if i < n then f i else d := by
  simp [SMap.ofFn, SMap.get_filterMap]

/-! ## The canonical form -/

/-- Keys above `b`, strictly rising, no value equal to the default: the form the induction needs. -/
theorem SMap.wf_cons (d : α) (j : Nat) (v : α) (m : SMap α) :
    SMap.wf d ((j, v) :: m) = true ↔ v ≠ d ∧ (∀ kv ∈ m, j < kv.1) ∧ SMap.wf d m = true := by
  simp [SMap.wf, SMap.above, and_assoc]

theorem SMap.wf_filter (d : α) (p : Nat × α → Bool) (m : SMap α) (h : SMap.wf d m = true) :
    SMap.wf d (m.filter p) = true := by
  induction m with
  | nil => rfl
  | cons q m ih =>
    obtain ⟨j, v⟩ := q
    obtain ⟨h1, h2, h3⟩ := (SMap.wf_cons d j v m).1 h
    simp only [List.filter_cons]
    split
    · exact (SMap.wf_cons d j v _).2 ⟨h1, fun kv hk => h2 kv (List.mem_filter.1 hk).1, ih h3⟩
    · exact ih h3

omit [DecidableEq α] in
theorem SMap.mem_insert (k : Nat) (v : α) (m : SMap α) (kv : Nat × α) (h : kv ∈ SMap.insert k v m) : kv = (k, v) ∨ kv ∈ m := by
  induction m with
  | nil => simpa [SMap.insert] using h
  | cons q m ih =>
    obtain ⟨j, w⟩ := q
    simp only [SMap.insert] at h
    split at h
    · simpa using h
    · split at h
      · rcases List.mem_cons.1 h with h | h
        · exact .inl h
        · exact .inr (List.mem_cons_of_mem _ h)
      · rcases List.mem_cons.1 h with h | h
        · subst h; exact .inr (List.mem_cons_self ..)
        · rcases ih h with h | h
          · exact .inl h
          · exact .inr (List.mem_cons_of_mem _ h)

theorem SMap.wf_insert (d : α) (k : Nat) (v : α) (m : SMap α) (hv : v ≠ d) (h : SMap.wf d m = true) :
    SMap.wf d (SMap.insert k v m) = true := by
  induction m with
  | nil => simp [SMap.insert, SMap.wf, SMap.above, hv]
  | cons q m ih =>
    obtain ⟨j, w⟩ := q
    obtain ⟨h1, h2, h3⟩ := (SMap.wf_cons d j w m).1 h
    simp only [SMap.insert]
    split
    · rename_i hk
      refine (SMap.wf_cons ..).2 ⟨hv, fun kv hm => ?_, h⟩
      rcases List.mem_cons.1 hm with hm | hm
      · subst hm; exact hk
      · exact Nat.lt_trans hk (h2 kv hm)
    · split
      · subst_vars; exact (SMap.wf_cons ..).2 ⟨hv, h2, h3⟩
      · refine (SMap.wf_cons ..).2 ⟨h1, fun kv hm => ?_, ih h3⟩
        rcases SMap.mem_insert k v m kv hm with hm | hm
        · subst hm; simp only; omega
        · exact h2 kv hm

/-- A write keeps the canonical form. -/
@[simp] theorem SMap.wf_set (d : α) (k : Nat) (v : α) (m : SMap α) (h : SMap.wf d m = true) :
    SMap.wf d (SMap.set d k v m) = true := by
  simp only [SMap.set]
  split
  · exact SMap.wf_filter d _ m h
  · exact SMap.wf_insert d k v m (by assumption) h

@[simp] theorem SMap.wf_modify (d : α) (k : Nat) (f : α → α) (m : SMap α) (h : SMap.wf d m = true) :
    SMap.wf d (SMap.modify d k f m) = true := SMap.wf_set d k _ m h

@[simp] theorem SMap.wf_setMany (d : α) (f : Nat → α) (ks : List Nat) (m : SMap α) (h : SMap.wf d m = true) :
    SMap.wf d (SMap.setMany d f ks m) = true := by
  induction ks generalizing m with
  | nil => exact h
  | cons k ks ih => exact ih _ (SMap.wf_set d k _ m h)

theorem SMap.wf_filterMap (d : α) (f : Nat → α) (ks : List Nat) (h : ks.Pairwise (· < ·)) :
    SMap.wf d (ks.filterMap fun k => if f k = d then none else some (k, f k)) = true := by
  induction ks with
  | nil => rfl
  | cons k ks ih =>
    obtain ⟨h1, h2⟩ := List.pairwise_cons.1 h
    simp only [List.filterMap_cons]
    by_cases hk : f k = d
    · simpa [hk] using ih h2
    · simp only [hk, if_false]
      refine (SMap.wf_cons ..).2 ⟨hk, fun kv hm => ?_, ih h2⟩
      obtain ⟨j, hj, he⟩ := List.mem_filterMap.1 hm
      split at he
      · cases he
      · cases he; exact h1 j hj

@[simp] theorem SMap.wf_ofFn (d : α) (n : Nat) (f : Nat → α) : SMap.wf d (SMap.ofFn d n f) = true :=
  SMap.wf_filterMap d f _ List.pairwise_lt_range

/-- Writes in turn keep the canonical form. -/
theorem SMap.wf_foldl {β : Type} (d : α) (f : SMap α → β → SMap α) (xs : List β) (m : SMap α)
    (hf : ∀ m x, SMap.wf d m = true → SMap.wf d (f m x) = true) (h : SMap.wf d m = true) :
    SMap.wf d (xs.foldl f m) = true := by
  induction xs generalizing m with
  | nil => exact h
  | cons x xs ih => exact ih _ (hf m x h)

end Sys2Proof
end

