-- ==== Sys2Proof/Laws/State.lean ====
section
/-! SUPPORT. Field by field, what each update of the state leaves: one lemma a field and update, each true by unfolding. -/
namespace Sys2Proof.Machine

@[simp] theorem State.withPending_pending (s : State) (v : List Instr) : (s.withPending v).pending = v := rfl
@[simp] theorem State.withPending_held (s : State) (v : List Instr) : (s.withPending v).held = s.held := rfl
@[simp] theorem State.withPending_fuses (s : State) (v : List Instr) : (s.withPending v).fuses = s.fuses := rfl
@[simp] theorem State.withPending_flash (s : State) (v : List Instr) : (s.withPending v).flash = s.flash := rfl
@[simp] theorem State.withPending_boot (s : State) (v : List Instr) : (s.withPending v).boot = s.boot := rfl
@[simp] theorem State.withPending_clk (s : State) (v : List Instr) : (s.withPending v).clk = s.clk := rfl
@[simp] theorem State.withPending_isl (s : State) (v : List Instr) : (s.withPending v).isl = s.isl := rfl
@[simp] theorem State.withPending_rings (s : State) (v : List Instr) : (s.withPending v).rings = s.rings := rfl
@[simp] theorem State.withPending_irq (s : State) (v : List Instr) : (s.withPending v).irq = s.irq := rfl
@[simp] theorem State.withPending_mbx (s : State) (v : List Instr) : (s.withPending v).mbx = s.mbx := rfl
@[simp] theorem State.withPending_mem (s : State) (v : List Instr) : (s.withPending v).mem = s.mem := rfl
@[simp] theorem State.withPending_host (s : State) (v : List Instr) : (s.withPending v).host = s.host := rfl
@[simp] theorem State.withPending_part (s : State) (v : List Instr) : (s.withPending v).part = s.part := rfl
@[simp] theorem State.withPending_folios (s : State) (v : List Instr) : (s.withPending v).folios = s.folios := rfl
@[simp] theorem State.withPending_tables (s : State) (v : List Instr) : (s.withPending v).tables = s.tables := rfl
@[simp] theorem State.withPending_tableWait (s : State) (v : List Instr) : (s.withPending v).tableWait = s.tableWait := rfl
@[simp] theorem State.withPending_jobs (s : State) (v : List Instr) : (s.withPending v).jobs = s.jobs := rfl
@[simp] theorem State.withPending_sys (s : State) (v : List Instr) : (s.withPending v).sys = s.sys := rfl
@[simp] theorem State.withPending_cores (s : State) (v : List Instr) : (s.withPending v).cores = s.cores := rfl
@[simp] theorem State.withPending_clus (s : State) (v : List Instr) : (s.withPending v).clus = s.clus := rfl
@[simp] theorem State.withPending_topo (s : State) (v : List Instr) : (s.withPending v).topo = s.topo := rfl
@[simp] theorem State.withPending_links (s : State) (v : List Instr) : (s.withPending v).links = s.links := rfl
@[simp] theorem State.withPending_ports (s : State) (v : List Instr) : (s.withPending v).ports = s.ports := rfl
@[simp] theorem State.withPending_video (s : State) (v : List Instr) : (s.withPending v).video = s.video := rfl
@[simp] theorem State.withPending_chans (s : State) (v : List Instr) : (s.withPending v).chans = s.chans := rfl
@[simp] theorem State.withPending_integ (s : State) (v : List Instr) : (s.withPending v).integ = s.integ := rfl
@[simp] theorem State.withPending_mgmt (s : State) (v : List Instr) : (s.withPending v).mgmt = s.mgmt := rfl
@[simp] theorem State.withPending_pins (s : State) (v : List Instr) : (s.withPending v).pins = s.pins := rfl
@[simp] theorem State.withPending_free (s : State) (v : List Instr) : (s.withPending v).free = s.free := rfl
@[simp] theorem State.withPending_out (s : State) (v : List Instr) : (s.withPending v).out = s.out := rfl
@[simp] theorem State.withHeld_pending (s : State) (v : List Held) : (s.withHeld v).pending = s.pending := rfl
@[simp] theorem State.withHeld_held (s : State) (v : List Held) : (s.withHeld v).held = v := rfl
@[simp] theorem State.withHeld_fuses (s : State) (v : List Held) : (s.withHeld v).fuses = s.fuses := rfl
@[simp] theorem State.withHeld_flash (s : State) (v : List Held) : (s.withHeld v).flash = s.flash := rfl
@[simp] theorem State.withHeld_boot (s : State) (v : List Held) : (s.withHeld v).boot = s.boot := rfl
@[simp] theorem State.withHeld_clk (s : State) (v : List Held) : (s.withHeld v).clk = s.clk := rfl
@[simp] theorem State.withHeld_isl (s : State) (v : List Held) : (s.withHeld v).isl = s.isl := rfl
@[simp] theorem State.withHeld_rings (s : State) (v : List Held) : (s.withHeld v).rings = s.rings := rfl
@[simp] theorem State.withHeld_irq (s : State) (v : List Held) : (s.withHeld v).irq = s.irq := rfl
@[simp] theorem State.withHeld_mbx (s : State) (v : List Held) : (s.withHeld v).mbx = s.mbx := rfl
@[simp] theorem State.withHeld_mem (s : State) (v : List Held) : (s.withHeld v).mem = s.mem := rfl
@[simp] theorem State.withHeld_host (s : State) (v : List Held) : (s.withHeld v).host = s.host := rfl
@[simp] theorem State.withHeld_part (s : State) (v : List Held) : (s.withHeld v).part = s.part := rfl
@[simp] theorem State.withHeld_folios (s : State) (v : List Held) : (s.withHeld v).folios = s.folios := rfl
@[simp] theorem State.withHeld_tables (s : State) (v : List Held) : (s.withHeld v).tables = s.tables := rfl
@[simp] theorem State.withHeld_tableWait (s : State) (v : List Held) : (s.withHeld v).tableWait = s.tableWait := rfl
@[simp] theorem State.withHeld_jobs (s : State) (v : List Held) : (s.withHeld v).jobs = s.jobs := rfl
@[simp] theorem State.withHeld_sys (s : State) (v : List Held) : (s.withHeld v).sys = s.sys := rfl
@[simp] theorem State.withHeld_cores (s : State) (v : List Held) : (s.withHeld v).cores = s.cores := rfl
@[simp] theorem State.withHeld_clus (s : State) (v : List Held) : (s.withHeld v).clus = s.clus := rfl
@[simp] theorem State.withHeld_topo (s : State) (v : List Held) : (s.withHeld v).topo = s.topo := rfl
@[simp] theorem State.withHeld_links (s : State) (v : List Held) : (s.withHeld v).links = s.links := rfl
@[simp] theorem State.withHeld_ports (s : State) (v : List Held) : (s.withHeld v).ports = s.ports := rfl
@[simp] theorem State.withHeld_video (s : State) (v : List Held) : (s.withHeld v).video = s.video := rfl
@[simp] theorem State.withHeld_chans (s : State) (v : List Held) : (s.withHeld v).chans = s.chans := rfl
@[simp] theorem State.withHeld_integ (s : State) (v : List Held) : (s.withHeld v).integ = s.integ := rfl
@[simp] theorem State.withHeld_mgmt (s : State) (v : List Held) : (s.withHeld v).mgmt = s.mgmt := rfl
@[simp] theorem State.withHeld_pins (s : State) (v : List Held) : (s.withHeld v).pins = s.pins := rfl
@[simp] theorem State.withHeld_free (s : State) (v : List Held) : (s.withHeld v).free = s.free := rfl
@[simp] theorem State.withHeld_out (s : State) (v : List Held) : (s.withHeld v).out = s.out := rfl
@[simp] theorem State.withFuses_pending (s : State) (v : Fuses) : (s.withFuses v).pending = s.pending := rfl
@[simp] theorem State.withFuses_held (s : State) (v : Fuses) : (s.withFuses v).held = s.held := rfl
@[simp] theorem State.withFuses_fuses (s : State) (v : Fuses) : (s.withFuses v).fuses = v := rfl
@[simp] theorem State.withFuses_flash (s : State) (v : Fuses) : (s.withFuses v).flash = s.flash := rfl
@[simp] theorem State.withFuses_boot (s : State) (v : Fuses) : (s.withFuses v).boot = s.boot := rfl
@[simp] theorem State.withFuses_clk (s : State) (v : Fuses) : (s.withFuses v).clk = s.clk := rfl
@[simp] theorem State.withFuses_isl (s : State) (v : Fuses) : (s.withFuses v).isl = s.isl := rfl
@[simp] theorem State.withFuses_rings (s : State) (v : Fuses) : (s.withFuses v).rings = s.rings := rfl
@[simp] theorem State.withFuses_irq (s : State) (v : Fuses) : (s.withFuses v).irq = s.irq := rfl
@[simp] theorem State.withFuses_mbx (s : State) (v : Fuses) : (s.withFuses v).mbx = s.mbx := rfl
@[simp] theorem State.withFuses_mem (s : State) (v : Fuses) : (s.withFuses v).mem = s.mem := rfl
@[simp] theorem State.withFuses_host (s : State) (v : Fuses) : (s.withFuses v).host = s.host := rfl
@[simp] theorem State.withFuses_part (s : State) (v : Fuses) : (s.withFuses v).part = s.part := rfl
@[simp] theorem State.withFuses_folios (s : State) (v : Fuses) : (s.withFuses v).folios = s.folios := rfl
@[simp] theorem State.withFuses_tables (s : State) (v : Fuses) : (s.withFuses v).tables = s.tables := rfl
@[simp] theorem State.withFuses_tableWait (s : State) (v : Fuses) : (s.withFuses v).tableWait = s.tableWait := rfl
@[simp] theorem State.withFuses_jobs (s : State) (v : Fuses) : (s.withFuses v).jobs = s.jobs := rfl
@[simp] theorem State.withFuses_sys (s : State) (v : Fuses) : (s.withFuses v).sys = s.sys := rfl
@[simp] theorem State.withFuses_cores (s : State) (v : Fuses) : (s.withFuses v).cores = s.cores := rfl
@[simp] theorem State.withFuses_clus (s : State) (v : Fuses) : (s.withFuses v).clus = s.clus := rfl
@[simp] theorem State.withFuses_topo (s : State) (v : Fuses) : (s.withFuses v).topo = s.topo := rfl
@[simp] theorem State.withFuses_links (s : State) (v : Fuses) : (s.withFuses v).links = s.links := rfl
@[simp] theorem State.withFuses_ports (s : State) (v : Fuses) : (s.withFuses v).ports = s.ports := rfl
@[simp] theorem State.withFuses_video (s : State) (v : Fuses) : (s.withFuses v).video = s.video := rfl
@[simp] theorem State.withFuses_chans (s : State) (v : Fuses) : (s.withFuses v).chans = s.chans := rfl
@[simp] theorem State.withFuses_integ (s : State) (v : Fuses) : (s.withFuses v).integ = s.integ := rfl
@[simp] theorem State.withFuses_mgmt (s : State) (v : Fuses) : (s.withFuses v).mgmt = s.mgmt := rfl
@[simp] theorem State.withFuses_pins (s : State) (v : Fuses) : (s.withFuses v).pins = s.pins := rfl
@[simp] theorem State.withFuses_free (s : State) (v : Fuses) : (s.withFuses v).free = s.free := rfl
@[simp] theorem State.withFuses_out (s : State) (v : Fuses) : (s.withFuses v).out = s.out := rfl
@[simp] theorem State.withFlash_pending (s : State) (v : SMap Byte) : (s.withFlash v).pending = s.pending := rfl
@[simp] theorem State.withFlash_held (s : State) (v : SMap Byte) : (s.withFlash v).held = s.held := rfl
@[simp] theorem State.withFlash_fuses (s : State) (v : SMap Byte) : (s.withFlash v).fuses = s.fuses := rfl
@[simp] theorem State.withFlash_flash (s : State) (v : SMap Byte) : (s.withFlash v).flash = v := rfl
@[simp] theorem State.withFlash_boot (s : State) (v : SMap Byte) : (s.withFlash v).boot = s.boot := rfl
@[simp] theorem State.withFlash_clk (s : State) (v : SMap Byte) : (s.withFlash v).clk = s.clk := rfl
@[simp] theorem State.withFlash_isl (s : State) (v : SMap Byte) : (s.withFlash v).isl = s.isl := rfl
@[simp] theorem State.withFlash_rings (s : State) (v : SMap Byte) : (s.withFlash v).rings = s.rings := rfl
@[simp] theorem State.withFlash_irq (s : State) (v : SMap Byte) : (s.withFlash v).irq = s.irq := rfl
@[simp] theorem State.withFlash_mbx (s : State) (v : SMap Byte) : (s.withFlash v).mbx = s.mbx := rfl
@[simp] theorem State.withFlash_mem (s : State) (v : SMap Byte) : (s.withFlash v).mem = s.mem := rfl
@[simp] theorem State.withFlash_host (s : State) (v : SMap Byte) : (s.withFlash v).host = s.host := rfl
@[simp] theorem State.withFlash_part (s : State) (v : SMap Byte) : (s.withFlash v).part = s.part := rfl
@[simp] theorem State.withFlash_folios (s : State) (v : SMap Byte) : (s.withFlash v).folios = s.folios := rfl
@[simp] theorem State.withFlash_tables (s : State) (v : SMap Byte) : (s.withFlash v).tables = s.tables := rfl
@[simp] theorem State.withFlash_tableWait (s : State) (v : SMap Byte) : (s.withFlash v).tableWait = s.tableWait := rfl
@[simp] theorem State.withFlash_jobs (s : State) (v : SMap Byte) : (s.withFlash v).jobs = s.jobs := rfl
@[simp] theorem State.withFlash_sys (s : State) (v : SMap Byte) : (s.withFlash v).sys = s.sys := rfl
@[simp] theorem State.withFlash_cores (s : State) (v : SMap Byte) : (s.withFlash v).cores = s.cores := rfl
@[simp] theorem State.withFlash_clus (s : State) (v : SMap Byte) : (s.withFlash v).clus = s.clus := rfl
@[simp] theorem State.withFlash_topo (s : State) (v : SMap Byte) : (s.withFlash v).topo = s.topo := rfl
@[simp] theorem State.withFlash_links (s : State) (v : SMap Byte) : (s.withFlash v).links = s.links := rfl
@[simp] theorem State.withFlash_ports (s : State) (v : SMap Byte) : (s.withFlash v).ports = s.ports := rfl
@[simp] theorem State.withFlash_video (s : State) (v : SMap Byte) : (s.withFlash v).video = s.video := rfl
@[simp] theorem State.withFlash_chans (s : State) (v : SMap Byte) : (s.withFlash v).chans = s.chans := rfl
@[simp] theorem State.withFlash_integ (s : State) (v : SMap Byte) : (s.withFlash v).integ = s.integ := rfl
@[simp] theorem State.withFlash_mgmt (s : State) (v : SMap Byte) : (s.withFlash v).mgmt = s.mgmt := rfl
@[simp] theorem State.withFlash_pins (s : State) (v : SMap Byte) : (s.withFlash v).pins = s.pins := rfl
@[simp] theorem State.withFlash_free (s : State) (v : SMap Byte) : (s.withFlash v).free = s.free := rfl
@[simp] theorem State.withFlash_out (s : State) (v : SMap Byte) : (s.withFlash v).out = s.out := rfl
@[simp] theorem State.withBoot_pending (s : State) (v : Boot) : (s.withBoot v).pending = s.pending := rfl
@[simp] theorem State.withBoot_held (s : State) (v : Boot) : (s.withBoot v).held = s.held := rfl
@[simp] theorem State.withBoot_fuses (s : State) (v : Boot) : (s.withBoot v).fuses = s.fuses := rfl
@[simp] theorem State.withBoot_flash (s : State) (v : Boot) : (s.withBoot v).flash = s.flash := rfl
@[simp] theorem State.withBoot_boot (s : State) (v : Boot) : (s.withBoot v).boot = v := rfl
@[simp] theorem State.withBoot_clk (s : State) (v : Boot) : (s.withBoot v).clk = s.clk := rfl
@[simp] theorem State.withBoot_isl (s : State) (v : Boot) : (s.withBoot v).isl = s.isl := rfl
@[simp] theorem State.withBoot_rings (s : State) (v : Boot) : (s.withBoot v).rings = s.rings := rfl
@[simp] theorem State.withBoot_irq (s : State) (v : Boot) : (s.withBoot v).irq = s.irq := rfl
@[simp] theorem State.withBoot_mbx (s : State) (v : Boot) : (s.withBoot v).mbx = s.mbx := rfl
@[simp] theorem State.withBoot_mem (s : State) (v : Boot) : (s.withBoot v).mem = s.mem := rfl
@[simp] theorem State.withBoot_host (s : State) (v : Boot) : (s.withBoot v).host = s.host := rfl
@[simp] theorem State.withBoot_part (s : State) (v : Boot) : (s.withBoot v).part = s.part := rfl
@[simp] theorem State.withBoot_folios (s : State) (v : Boot) : (s.withBoot v).folios = s.folios := rfl
@[simp] theorem State.withBoot_tables (s : State) (v : Boot) : (s.withBoot v).tables = s.tables := rfl
@[simp] theorem State.withBoot_tableWait (s : State) (v : Boot) : (s.withBoot v).tableWait = s.tableWait := rfl
@[simp] theorem State.withBoot_jobs (s : State) (v : Boot) : (s.withBoot v).jobs = s.jobs := rfl
@[simp] theorem State.withBoot_sys (s : State) (v : Boot) : (s.withBoot v).sys = s.sys := rfl
@[simp] theorem State.withBoot_cores (s : State) (v : Boot) : (s.withBoot v).cores = s.cores := rfl
@[simp] theorem State.withBoot_clus (s : State) (v : Boot) : (s.withBoot v).clus = s.clus := rfl
@[simp] theorem State.withBoot_topo (s : State) (v : Boot) : (s.withBoot v).topo = s.topo := rfl
@[simp] theorem State.withBoot_links (s : State) (v : Boot) : (s.withBoot v).links = s.links := rfl
@[simp] theorem State.withBoot_ports (s : State) (v : Boot) : (s.withBoot v).ports = s.ports := rfl
@[simp] theorem State.withBoot_video (s : State) (v : Boot) : (s.withBoot v).video = s.video := rfl
@[simp] theorem State.withBoot_chans (s : State) (v : Boot) : (s.withBoot v).chans = s.chans := rfl
@[simp] theorem State.withBoot_integ (s : State) (v : Boot) : (s.withBoot v).integ = s.integ := rfl
@[simp] theorem State.withBoot_mgmt (s : State) (v : Boot) : (s.withBoot v).mgmt = s.mgmt := rfl
@[simp] theorem State.withBoot_pins (s : State) (v : Boot) : (s.withBoot v).pins = s.pins := rfl
@[simp] theorem State.withBoot_free (s : State) (v : Boot) : (s.withBoot v).free = s.free := rfl
@[simp] theorem State.withBoot_out (s : State) (v : Boot) : (s.withBoot v).out = s.out := rfl
@[simp] theorem State.withClk_pending (s : State) (v : Clock) : (s.withClk v).pending = s.pending := rfl
@[simp] theorem State.withClk_held (s : State) (v : Clock) : (s.withClk v).held = s.held := rfl
@[simp] theorem State.withClk_fuses (s : State) (v : Clock) : (s.withClk v).fuses = s.fuses := rfl
@[simp] theorem State.withClk_flash (s : State) (v : Clock) : (s.withClk v).flash = s.flash := rfl
@[simp] theorem State.withClk_boot (s : State) (v : Clock) : (s.withClk v).boot = s.boot := rfl
@[simp] theorem State.withClk_clk (s : State) (v : Clock) : (s.withClk v).clk = v := rfl
@[simp] theorem State.withClk_isl (s : State) (v : Clock) : (s.withClk v).isl = s.isl := rfl
@[simp] theorem State.withClk_rings (s : State) (v : Clock) : (s.withClk v).rings = s.rings := rfl
@[simp] theorem State.withClk_irq (s : State) (v : Clock) : (s.withClk v).irq = s.irq := rfl
@[simp] theorem State.withClk_mbx (s : State) (v : Clock) : (s.withClk v).mbx = s.mbx := rfl
@[simp] theorem State.withClk_mem (s : State) (v : Clock) : (s.withClk v).mem = s.mem := rfl
@[simp] theorem State.withClk_host (s : State) (v : Clock) : (s.withClk v).host = s.host := rfl
@[simp] theorem State.withClk_part (s : State) (v : Clock) : (s.withClk v).part = s.part := rfl
@[simp] theorem State.withClk_folios (s : State) (v : Clock) : (s.withClk v).folios = s.folios := rfl
@[simp] theorem State.withClk_tables (s : State) (v : Clock) : (s.withClk v).tables = s.tables := rfl
@[simp] theorem State.withClk_tableWait (s : State) (v : Clock) : (s.withClk v).tableWait = s.tableWait := rfl
@[simp] theorem State.withClk_jobs (s : State) (v : Clock) : (s.withClk v).jobs = s.jobs := rfl
@[simp] theorem State.withClk_sys (s : State) (v : Clock) : (s.withClk v).sys = s.sys := rfl
@[simp] theorem State.withClk_cores (s : State) (v : Clock) : (s.withClk v).cores = s.cores := rfl
@[simp] theorem State.withClk_clus (s : State) (v : Clock) : (s.withClk v).clus = s.clus := rfl
@[simp] theorem State.withClk_topo (s : State) (v : Clock) : (s.withClk v).topo = s.topo := rfl
@[simp] theorem State.withClk_links (s : State) (v : Clock) : (s.withClk v).links = s.links := rfl
@[simp] theorem State.withClk_ports (s : State) (v : Clock) : (s.withClk v).ports = s.ports := rfl
@[simp] theorem State.withClk_video (s : State) (v : Clock) : (s.withClk v).video = s.video := rfl
@[simp] theorem State.withClk_chans (s : State) (v : Clock) : (s.withClk v).chans = s.chans := rfl
@[simp] theorem State.withClk_integ (s : State) (v : Clock) : (s.withClk v).integ = s.integ := rfl
@[simp] theorem State.withClk_mgmt (s : State) (v : Clock) : (s.withClk v).mgmt = s.mgmt := rfl
@[simp] theorem State.withClk_pins (s : State) (v : Clock) : (s.withClk v).pins = s.pins := rfl
@[simp] theorem State.withClk_free (s : State) (v : Clock) : (s.withClk v).free = s.free := rfl
@[simp] theorem State.withClk_out (s : State) (v : Clock) : (s.withClk v).out = s.out := rfl
@[simp] theorem State.withIsl_pending (s : State) (v : SMap Island) : (s.withIsl v).pending = s.pending := rfl
@[simp] theorem State.withIsl_held (s : State) (v : SMap Island) : (s.withIsl v).held = s.held := rfl
@[simp] theorem State.withIsl_fuses (s : State) (v : SMap Island) : (s.withIsl v).fuses = s.fuses := rfl
@[simp] theorem State.withIsl_flash (s : State) (v : SMap Island) : (s.withIsl v).flash = s.flash := rfl
@[simp] theorem State.withIsl_boot (s : State) (v : SMap Island) : (s.withIsl v).boot = s.boot := rfl
@[simp] theorem State.withIsl_clk (s : State) (v : SMap Island) : (s.withIsl v).clk = s.clk := rfl
@[simp] theorem State.withIsl_isl (s : State) (v : SMap Island) : (s.withIsl v).isl = v := rfl
@[simp] theorem State.withIsl_rings (s : State) (v : SMap Island) : (s.withIsl v).rings = s.rings := rfl
@[simp] theorem State.withIsl_irq (s : State) (v : SMap Island) : (s.withIsl v).irq = s.irq := rfl
@[simp] theorem State.withIsl_mbx (s : State) (v : SMap Island) : (s.withIsl v).mbx = s.mbx := rfl
@[simp] theorem State.withIsl_mem (s : State) (v : SMap Island) : (s.withIsl v).mem = s.mem := rfl
@[simp] theorem State.withIsl_host (s : State) (v : SMap Island) : (s.withIsl v).host = s.host := rfl
@[simp] theorem State.withIsl_part (s : State) (v : SMap Island) : (s.withIsl v).part = s.part := rfl
@[simp] theorem State.withIsl_folios (s : State) (v : SMap Island) : (s.withIsl v).folios = s.folios := rfl
@[simp] theorem State.withIsl_tables (s : State) (v : SMap Island) : (s.withIsl v).tables = s.tables := rfl
@[simp] theorem State.withIsl_tableWait (s : State) (v : SMap Island) : (s.withIsl v).tableWait = s.tableWait := rfl
@[simp] theorem State.withIsl_jobs (s : State) (v : SMap Island) : (s.withIsl v).jobs = s.jobs := rfl
@[simp] theorem State.withIsl_sys (s : State) (v : SMap Island) : (s.withIsl v).sys = s.sys := rfl
@[simp] theorem State.withIsl_cores (s : State) (v : SMap Island) : (s.withIsl v).cores = s.cores := rfl
@[simp] theorem State.withIsl_clus (s : State) (v : SMap Island) : (s.withIsl v).clus = s.clus := rfl
@[simp] theorem State.withIsl_topo (s : State) (v : SMap Island) : (s.withIsl v).topo = s.topo := rfl
@[simp] theorem State.withIsl_links (s : State) (v : SMap Island) : (s.withIsl v).links = s.links := rfl
@[simp] theorem State.withIsl_ports (s : State) (v : SMap Island) : (s.withIsl v).ports = s.ports := rfl
@[simp] theorem State.withIsl_video (s : State) (v : SMap Island) : (s.withIsl v).video = s.video := rfl
@[simp] theorem State.withIsl_chans (s : State) (v : SMap Island) : (s.withIsl v).chans = s.chans := rfl
@[simp] theorem State.withIsl_integ (s : State) (v : SMap Island) : (s.withIsl v).integ = s.integ := rfl
@[simp] theorem State.withIsl_mgmt (s : State) (v : SMap Island) : (s.withIsl v).mgmt = s.mgmt := rfl
@[simp] theorem State.withIsl_pins (s : State) (v : SMap Island) : (s.withIsl v).pins = s.pins := rfl
@[simp] theorem State.withIsl_free (s : State) (v : SMap Island) : (s.withIsl v).free = s.free := rfl
@[simp] theorem State.withIsl_out (s : State) (v : SMap Island) : (s.withIsl v).out = s.out := rfl
@[simp] theorem State.withRings_pending (s : State) (v : SMap Ring) : (s.withRings v).pending = s.pending := rfl
@[simp] theorem State.withRings_held (s : State) (v : SMap Ring) : (s.withRings v).held = s.held := rfl
@[simp] theorem State.withRings_fuses (s : State) (v : SMap Ring) : (s.withRings v).fuses = s.fuses := rfl
@[simp] theorem State.withRings_flash (s : State) (v : SMap Ring) : (s.withRings v).flash = s.flash := rfl
@[simp] theorem State.withRings_boot (s : State) (v : SMap Ring) : (s.withRings v).boot = s.boot := rfl
@[simp] theorem State.withRings_clk (s : State) (v : SMap Ring) : (s.withRings v).clk = s.clk := rfl
@[simp] theorem State.withRings_isl (s : State) (v : SMap Ring) : (s.withRings v).isl = s.isl := rfl
@[simp] theorem State.withRings_rings (s : State) (v : SMap Ring) : (s.withRings v).rings = v := rfl
@[simp] theorem State.withRings_irq (s : State) (v : SMap Ring) : (s.withRings v).irq = s.irq := rfl
@[simp] theorem State.withRings_mbx (s : State) (v : SMap Ring) : (s.withRings v).mbx = s.mbx := rfl
@[simp] theorem State.withRings_mem (s : State) (v : SMap Ring) : (s.withRings v).mem = s.mem := rfl
@[simp] theorem State.withRings_host (s : State) (v : SMap Ring) : (s.withRings v).host = s.host := rfl
@[simp] theorem State.withRings_part (s : State) (v : SMap Ring) : (s.withRings v).part = s.part := rfl
@[simp] theorem State.withRings_folios (s : State) (v : SMap Ring) : (s.withRings v).folios = s.folios := rfl
@[simp] theorem State.withRings_tables (s : State) (v : SMap Ring) : (s.withRings v).tables = s.tables := rfl
@[simp] theorem State.withRings_tableWait (s : State) (v : SMap Ring) : (s.withRings v).tableWait = s.tableWait := rfl
@[simp] theorem State.withRings_jobs (s : State) (v : SMap Ring) : (s.withRings v).jobs = s.jobs := rfl
@[simp] theorem State.withRings_sys (s : State) (v : SMap Ring) : (s.withRings v).sys = s.sys := rfl
@[simp] theorem State.withRings_cores (s : State) (v : SMap Ring) : (s.withRings v).cores = s.cores := rfl
@[simp] theorem State.withRings_clus (s : State) (v : SMap Ring) : (s.withRings v).clus = s.clus := rfl
@[simp] theorem State.withRings_topo (s : State) (v : SMap Ring) : (s.withRings v).topo = s.topo := rfl
@[simp] theorem State.withRings_links (s : State) (v : SMap Ring) : (s.withRings v).links = s.links := rfl
@[simp] theorem State.withRings_ports (s : State) (v : SMap Ring) : (s.withRings v).ports = s.ports := rfl
@[simp] theorem State.withRings_video (s : State) (v : SMap Ring) : (s.withRings v).video = s.video := rfl
@[simp] theorem State.withRings_chans (s : State) (v : SMap Ring) : (s.withRings v).chans = s.chans := rfl
@[simp] theorem State.withRings_integ (s : State) (v : SMap Ring) : (s.withRings v).integ = s.integ := rfl
@[simp] theorem State.withRings_mgmt (s : State) (v : SMap Ring) : (s.withRings v).mgmt = s.mgmt := rfl
@[simp] theorem State.withRings_pins (s : State) (v : SMap Ring) : (s.withRings v).pins = s.pins := rfl
@[simp] theorem State.withRings_free (s : State) (v : SMap Ring) : (s.withRings v).free = s.free := rfl
@[simp] theorem State.withRings_out (s : State) (v : SMap Ring) : (s.withRings v).out = s.out := rfl
@[simp] theorem State.withIrq_pending (s : State) (v : Irq) : (s.withIrq v).pending = s.pending := rfl
@[simp] theorem State.withIrq_held (s : State) (v : Irq) : (s.withIrq v).held = s.held := rfl
@[simp] theorem State.withIrq_fuses (s : State) (v : Irq) : (s.withIrq v).fuses = s.fuses := rfl
@[simp] theorem State.withIrq_flash (s : State) (v : Irq) : (s.withIrq v).flash = s.flash := rfl
@[simp] theorem State.withIrq_boot (s : State) (v : Irq) : (s.withIrq v).boot = s.boot := rfl
@[simp] theorem State.withIrq_clk (s : State) (v : Irq) : (s.withIrq v).clk = s.clk := rfl
@[simp] theorem State.withIrq_isl (s : State) (v : Irq) : (s.withIrq v).isl = s.isl := rfl
@[simp] theorem State.withIrq_rings (s : State) (v : Irq) : (s.withIrq v).rings = s.rings := rfl
@[simp] theorem State.withIrq_irq (s : State) (v : Irq) : (s.withIrq v).irq = v := rfl
@[simp] theorem State.withIrq_mbx (s : State) (v : Irq) : (s.withIrq v).mbx = s.mbx := rfl
@[simp] theorem State.withIrq_mem (s : State) (v : Irq) : (s.withIrq v).mem = s.mem := rfl
@[simp] theorem State.withIrq_host (s : State) (v : Irq) : (s.withIrq v).host = s.host := rfl
@[simp] theorem State.withIrq_part (s : State) (v : Irq) : (s.withIrq v).part = s.part := rfl
@[simp] theorem State.withIrq_folios (s : State) (v : Irq) : (s.withIrq v).folios = s.folios := rfl
@[simp] theorem State.withIrq_tables (s : State) (v : Irq) : (s.withIrq v).tables = s.tables := rfl
@[simp] theorem State.withIrq_tableWait (s : State) (v : Irq) : (s.withIrq v).tableWait = s.tableWait := rfl
@[simp] theorem State.withIrq_jobs (s : State) (v : Irq) : (s.withIrq v).jobs = s.jobs := rfl
@[simp] theorem State.withIrq_sys (s : State) (v : Irq) : (s.withIrq v).sys = s.sys := rfl
@[simp] theorem State.withIrq_cores (s : State) (v : Irq) : (s.withIrq v).cores = s.cores := rfl
@[simp] theorem State.withIrq_clus (s : State) (v : Irq) : (s.withIrq v).clus = s.clus := rfl
@[simp] theorem State.withIrq_topo (s : State) (v : Irq) : (s.withIrq v).topo = s.topo := rfl
@[simp] theorem State.withIrq_links (s : State) (v : Irq) : (s.withIrq v).links = s.links := rfl
@[simp] theorem State.withIrq_ports (s : State) (v : Irq) : (s.withIrq v).ports = s.ports := rfl
@[simp] theorem State.withIrq_video (s : State) (v : Irq) : (s.withIrq v).video = s.video := rfl
@[simp] theorem State.withIrq_chans (s : State) (v : Irq) : (s.withIrq v).chans = s.chans := rfl
@[simp] theorem State.withIrq_integ (s : State) (v : Irq) : (s.withIrq v).integ = s.integ := rfl
@[simp] theorem State.withIrq_mgmt (s : State) (v : Irq) : (s.withIrq v).mgmt = s.mgmt := rfl
@[simp] theorem State.withIrq_pins (s : State) (v : Irq) : (s.withIrq v).pins = s.pins := rfl
@[simp] theorem State.withIrq_free (s : State) (v : Irq) : (s.withIrq v).free = s.free := rfl
@[simp] theorem State.withIrq_out (s : State) (v : Irq) : (s.withIrq v).out = s.out := rfl
@[simp] theorem State.withMbx_pending (s : State) (v : Mbx) : (s.withMbx v).pending = s.pending := rfl
@[simp] theorem State.withMbx_held (s : State) (v : Mbx) : (s.withMbx v).held = s.held := rfl
@[simp] theorem State.withMbx_fuses (s : State) (v : Mbx) : (s.withMbx v).fuses = s.fuses := rfl
@[simp] theorem State.withMbx_flash (s : State) (v : Mbx) : (s.withMbx v).flash = s.flash := rfl
@[simp] theorem State.withMbx_boot (s : State) (v : Mbx) : (s.withMbx v).boot = s.boot := rfl
@[simp] theorem State.withMbx_clk (s : State) (v : Mbx) : (s.withMbx v).clk = s.clk := rfl
@[simp] theorem State.withMbx_isl (s : State) (v : Mbx) : (s.withMbx v).isl = s.isl := rfl
@[simp] theorem State.withMbx_rings (s : State) (v : Mbx) : (s.withMbx v).rings = s.rings := rfl
@[simp] theorem State.withMbx_irq (s : State) (v : Mbx) : (s.withMbx v).irq = s.irq := rfl
@[simp] theorem State.withMbx_mbx (s : State) (v : Mbx) : (s.withMbx v).mbx = v := rfl
@[simp] theorem State.withMbx_mem (s : State) (v : Mbx) : (s.withMbx v).mem = s.mem := rfl
@[simp] theorem State.withMbx_host (s : State) (v : Mbx) : (s.withMbx v).host = s.host := rfl
@[simp] theorem State.withMbx_part (s : State) (v : Mbx) : (s.withMbx v).part = s.part := rfl
@[simp] theorem State.withMbx_folios (s : State) (v : Mbx) : (s.withMbx v).folios = s.folios := rfl
@[simp] theorem State.withMbx_tables (s : State) (v : Mbx) : (s.withMbx v).tables = s.tables := rfl
@[simp] theorem State.withMbx_tableWait (s : State) (v : Mbx) : (s.withMbx v).tableWait = s.tableWait := rfl
@[simp] theorem State.withMbx_jobs (s : State) (v : Mbx) : (s.withMbx v).jobs = s.jobs := rfl
@[simp] theorem State.withMbx_sys (s : State) (v : Mbx) : (s.withMbx v).sys = s.sys := rfl
@[simp] theorem State.withMbx_cores (s : State) (v : Mbx) : (s.withMbx v).cores = s.cores := rfl
@[simp] theorem State.withMbx_clus (s : State) (v : Mbx) : (s.withMbx v).clus = s.clus := rfl
@[simp] theorem State.withMbx_topo (s : State) (v : Mbx) : (s.withMbx v).topo = s.topo := rfl
@[simp] theorem State.withMbx_links (s : State) (v : Mbx) : (s.withMbx v).links = s.links := rfl
@[simp] theorem State.withMbx_ports (s : State) (v : Mbx) : (s.withMbx v).ports = s.ports := rfl
@[simp] theorem State.withMbx_video (s : State) (v : Mbx) : (s.withMbx v).video = s.video := rfl
@[simp] theorem State.withMbx_chans (s : State) (v : Mbx) : (s.withMbx v).chans = s.chans := rfl
@[simp] theorem State.withMbx_integ (s : State) (v : Mbx) : (s.withMbx v).integ = s.integ := rfl
@[simp] theorem State.withMbx_mgmt (s : State) (v : Mbx) : (s.withMbx v).mgmt = s.mgmt := rfl
@[simp] theorem State.withMbx_pins (s : State) (v : Mbx) : (s.withMbx v).pins = s.pins := rfl
@[simp] theorem State.withMbx_free (s : State) (v : Mbx) : (s.withMbx v).free = s.free := rfl
@[simp] theorem State.withMbx_out (s : State) (v : Mbx) : (s.withMbx v).out = s.out := rfl
@[simp] theorem State.withMem_pending (s : State) (v : Mem) : (s.withMem v).pending = s.pending := rfl
@[simp] theorem State.withMem_held (s : State) (v : Mem) : (s.withMem v).held = s.held := rfl
@[simp] theorem State.withMem_fuses (s : State) (v : Mem) : (s.withMem v).fuses = s.fuses := rfl
@[simp] theorem State.withMem_flash (s : State) (v : Mem) : (s.withMem v).flash = s.flash := rfl
@[simp] theorem State.withMem_boot (s : State) (v : Mem) : (s.withMem v).boot = s.boot := rfl
@[simp] theorem State.withMem_clk (s : State) (v : Mem) : (s.withMem v).clk = s.clk := rfl
@[simp] theorem State.withMem_isl (s : State) (v : Mem) : (s.withMem v).isl = s.isl := rfl
@[simp] theorem State.withMem_rings (s : State) (v : Mem) : (s.withMem v).rings = s.rings := rfl
@[simp] theorem State.withMem_irq (s : State) (v : Mem) : (s.withMem v).irq = s.irq := rfl
@[simp] theorem State.withMem_mbx (s : State) (v : Mem) : (s.withMem v).mbx = s.mbx := rfl
@[simp] theorem State.withMem_mem (s : State) (v : Mem) : (s.withMem v).mem = v := rfl
@[simp] theorem State.withMem_host (s : State) (v : Mem) : (s.withMem v).host = s.host := rfl
@[simp] theorem State.withMem_part (s : State) (v : Mem) : (s.withMem v).part = s.part := rfl
@[simp] theorem State.withMem_folios (s : State) (v : Mem) : (s.withMem v).folios = s.folios := rfl
@[simp] theorem State.withMem_tables (s : State) (v : Mem) : (s.withMem v).tables = s.tables := rfl
@[simp] theorem State.withMem_tableWait (s : State) (v : Mem) : (s.withMem v).tableWait = s.tableWait := rfl
@[simp] theorem State.withMem_jobs (s : State) (v : Mem) : (s.withMem v).jobs = s.jobs := rfl
@[simp] theorem State.withMem_sys (s : State) (v : Mem) : (s.withMem v).sys = s.sys := rfl
@[simp] theorem State.withMem_cores (s : State) (v : Mem) : (s.withMem v).cores = s.cores := rfl
@[simp] theorem State.withMem_clus (s : State) (v : Mem) : (s.withMem v).clus = s.clus := rfl
@[simp] theorem State.withMem_topo (s : State) (v : Mem) : (s.withMem v).topo = s.topo := rfl
@[simp] theorem State.withMem_links (s : State) (v : Mem) : (s.withMem v).links = s.links := rfl
@[simp] theorem State.withMem_ports (s : State) (v : Mem) : (s.withMem v).ports = s.ports := rfl
@[simp] theorem State.withMem_video (s : State) (v : Mem) : (s.withMem v).video = s.video := rfl
@[simp] theorem State.withMem_chans (s : State) (v : Mem) : (s.withMem v).chans = s.chans := rfl
@[simp] theorem State.withMem_integ (s : State) (v : Mem) : (s.withMem v).integ = s.integ := rfl
@[simp] theorem State.withMem_mgmt (s : State) (v : Mem) : (s.withMem v).mgmt = s.mgmt := rfl
@[simp] theorem State.withMem_pins (s : State) (v : Mem) : (s.withMem v).pins = s.pins := rfl
@[simp] theorem State.withMem_free (s : State) (v : Mem) : (s.withMem v).free = s.free := rfl
@[simp] theorem State.withMem_out (s : State) (v : Mem) : (s.withMem v).out = s.out := rfl
@[simp] theorem State.withHost_pending (s : State) (v : HostSide) : (s.withHost v).pending = s.pending := rfl
@[simp] theorem State.withHost_held (s : State) (v : HostSide) : (s.withHost v).held = s.held := rfl
@[simp] theorem State.withHost_fuses (s : State) (v : HostSide) : (s.withHost v).fuses = s.fuses := rfl
@[simp] theorem State.withHost_flash (s : State) (v : HostSide) : (s.withHost v).flash = s.flash := rfl
@[simp] theorem State.withHost_boot (s : State) (v : HostSide) : (s.withHost v).boot = s.boot := rfl
@[simp] theorem State.withHost_clk (s : State) (v : HostSide) : (s.withHost v).clk = s.clk := rfl
@[simp] theorem State.withHost_isl (s : State) (v : HostSide) : (s.withHost v).isl = s.isl := rfl
@[simp] theorem State.withHost_rings (s : State) (v : HostSide) : (s.withHost v).rings = s.rings := rfl
@[simp] theorem State.withHost_irq (s : State) (v : HostSide) : (s.withHost v).irq = s.irq := rfl
@[simp] theorem State.withHost_mbx (s : State) (v : HostSide) : (s.withHost v).mbx = s.mbx := rfl
@[simp] theorem State.withHost_mem (s : State) (v : HostSide) : (s.withHost v).mem = s.mem := rfl
@[simp] theorem State.withHost_host (s : State) (v : HostSide) : (s.withHost v).host = v := rfl
@[simp] theorem State.withHost_part (s : State) (v : HostSide) : (s.withHost v).part = s.part := rfl
@[simp] theorem State.withHost_folios (s : State) (v : HostSide) : (s.withHost v).folios = s.folios := rfl
@[simp] theorem State.withHost_tables (s : State) (v : HostSide) : (s.withHost v).tables = s.tables := rfl
@[simp] theorem State.withHost_tableWait (s : State) (v : HostSide) : (s.withHost v).tableWait = s.tableWait := rfl
@[simp] theorem State.withHost_jobs (s : State) (v : HostSide) : (s.withHost v).jobs = s.jobs := rfl
@[simp] theorem State.withHost_sys (s : State) (v : HostSide) : (s.withHost v).sys = s.sys := rfl
@[simp] theorem State.withHost_cores (s : State) (v : HostSide) : (s.withHost v).cores = s.cores := rfl
@[simp] theorem State.withHost_clus (s : State) (v : HostSide) : (s.withHost v).clus = s.clus := rfl
@[simp] theorem State.withHost_topo (s : State) (v : HostSide) : (s.withHost v).topo = s.topo := rfl
@[simp] theorem State.withHost_links (s : State) (v : HostSide) : (s.withHost v).links = s.links := rfl
@[simp] theorem State.withHost_ports (s : State) (v : HostSide) : (s.withHost v).ports = s.ports := rfl
@[simp] theorem State.withHost_video (s : State) (v : HostSide) : (s.withHost v).video = s.video := rfl
@[simp] theorem State.withHost_chans (s : State) (v : HostSide) : (s.withHost v).chans = s.chans := rfl
@[simp] theorem State.withHost_integ (s : State) (v : HostSide) : (s.withHost v).integ = s.integ := rfl
@[simp] theorem State.withHost_mgmt (s : State) (v : HostSide) : (s.withHost v).mgmt = s.mgmt := rfl
@[simp] theorem State.withHost_pins (s : State) (v : HostSide) : (s.withHost v).pins = s.pins := rfl
@[simp] theorem State.withHost_free (s : State) (v : HostSide) : (s.withHost v).free = s.free := rfl
@[simp] theorem State.withHost_out (s : State) (v : HostSide) : (s.withHost v).out = s.out := rfl
@[simp] theorem State.withPart_pending (s : State) (v : Part) : (s.withPart v).pending = s.pending := rfl
@[simp] theorem State.withPart_held (s : State) (v : Part) : (s.withPart v).held = s.held := rfl
@[simp] theorem State.withPart_fuses (s : State) (v : Part) : (s.withPart v).fuses = s.fuses := rfl
@[simp] theorem State.withPart_flash (s : State) (v : Part) : (s.withPart v).flash = s.flash := rfl
@[simp] theorem State.withPart_boot (s : State) (v : Part) : (s.withPart v).boot = s.boot := rfl
@[simp] theorem State.withPart_clk (s : State) (v : Part) : (s.withPart v).clk = s.clk := rfl
@[simp] theorem State.withPart_isl (s : State) (v : Part) : (s.withPart v).isl = s.isl := rfl
@[simp] theorem State.withPart_rings (s : State) (v : Part) : (s.withPart v).rings = s.rings := rfl
@[simp] theorem State.withPart_irq (s : State) (v : Part) : (s.withPart v).irq = s.irq := rfl
@[simp] theorem State.withPart_mbx (s : State) (v : Part) : (s.withPart v).mbx = s.mbx := rfl
@[simp] theorem State.withPart_mem (s : State) (v : Part) : (s.withPart v).mem = s.mem := rfl
@[simp] theorem State.withPart_host (s : State) (v : Part) : (s.withPart v).host = s.host := rfl
@[simp] theorem State.withPart_part (s : State) (v : Part) : (s.withPart v).part = v := rfl
@[simp] theorem State.withPart_folios (s : State) (v : Part) : (s.withPart v).folios = s.folios := rfl
@[simp] theorem State.withPart_tables (s : State) (v : Part) : (s.withPart v).tables = s.tables := rfl
@[simp] theorem State.withPart_tableWait (s : State) (v : Part) : (s.withPart v).tableWait = s.tableWait := rfl
@[simp] theorem State.withPart_jobs (s : State) (v : Part) : (s.withPart v).jobs = s.jobs := rfl
@[simp] theorem State.withPart_sys (s : State) (v : Part) : (s.withPart v).sys = s.sys := rfl
@[simp] theorem State.withPart_cores (s : State) (v : Part) : (s.withPart v).cores = s.cores := rfl
@[simp] theorem State.withPart_clus (s : State) (v : Part) : (s.withPart v).clus = s.clus := rfl
@[simp] theorem State.withPart_topo (s : State) (v : Part) : (s.withPart v).topo = s.topo := rfl
@[simp] theorem State.withPart_links (s : State) (v : Part) : (s.withPart v).links = s.links := rfl
@[simp] theorem State.withPart_ports (s : State) (v : Part) : (s.withPart v).ports = s.ports := rfl
@[simp] theorem State.withPart_video (s : State) (v : Part) : (s.withPart v).video = s.video := rfl
@[simp] theorem State.withPart_chans (s : State) (v : Part) : (s.withPart v).chans = s.chans := rfl
@[simp] theorem State.withPart_integ (s : State) (v : Part) : (s.withPart v).integ = s.integ := rfl
@[simp] theorem State.withPart_mgmt (s : State) (v : Part) : (s.withPart v).mgmt = s.mgmt := rfl
@[simp] theorem State.withPart_pins (s : State) (v : Part) : (s.withPart v).pins = s.pins := rfl
@[simp] theorem State.withPart_free (s : State) (v : Part) : (s.withPart v).free = s.free := rfl
@[simp] theorem State.withPart_out (s : State) (v : Part) : (s.withPart v).out = s.out := rfl
@[simp] theorem State.withFolios_pending (s : State) (v : List Folio) : (s.withFolios v).pending = s.pending := rfl
@[simp] theorem State.withFolios_held (s : State) (v : List Folio) : (s.withFolios v).held = s.held := rfl
@[simp] theorem State.withFolios_fuses (s : State) (v : List Folio) : (s.withFolios v).fuses = s.fuses := rfl
@[simp] theorem State.withFolios_flash (s : State) (v : List Folio) : (s.withFolios v).flash = s.flash := rfl
@[simp] theorem State.withFolios_boot (s : State) (v : List Folio) : (s.withFolios v).boot = s.boot := rfl
@[simp] theorem State.withFolios_clk (s : State) (v : List Folio) : (s.withFolios v).clk = s.clk := rfl
@[simp] theorem State.withFolios_isl (s : State) (v : List Folio) : (s.withFolios v).isl = s.isl := rfl
@[simp] theorem State.withFolios_rings (s : State) (v : List Folio) : (s.withFolios v).rings = s.rings := rfl
@[simp] theorem State.withFolios_irq (s : State) (v : List Folio) : (s.withFolios v).irq = s.irq := rfl
@[simp] theorem State.withFolios_mbx (s : State) (v : List Folio) : (s.withFolios v).mbx = s.mbx := rfl
@[simp] theorem State.withFolios_mem (s : State) (v : List Folio) : (s.withFolios v).mem = s.mem := rfl
@[simp] theorem State.withFolios_host (s : State) (v : List Folio) : (s.withFolios v).host = s.host := rfl
@[simp] theorem State.withFolios_part (s : State) (v : List Folio) : (s.withFolios v).part = s.part := rfl
@[simp] theorem State.withFolios_folios (s : State) (v : List Folio) : (s.withFolios v).folios = v := rfl
@[simp] theorem State.withFolios_tables (s : State) (v : List Folio) : (s.withFolios v).tables = s.tables := rfl
@[simp] theorem State.withFolios_tableWait (s : State) (v : List Folio) : (s.withFolios v).tableWait = s.tableWait := rfl
@[simp] theorem State.withFolios_jobs (s : State) (v : List Folio) : (s.withFolios v).jobs = s.jobs := rfl
@[simp] theorem State.withFolios_sys (s : State) (v : List Folio) : (s.withFolios v).sys = s.sys := rfl
@[simp] theorem State.withFolios_cores (s : State) (v : List Folio) : (s.withFolios v).cores = s.cores := rfl
@[simp] theorem State.withFolios_clus (s : State) (v : List Folio) : (s.withFolios v).clus = s.clus := rfl
@[simp] theorem State.withFolios_topo (s : State) (v : List Folio) : (s.withFolios v).topo = s.topo := rfl
@[simp] theorem State.withFolios_links (s : State) (v : List Folio) : (s.withFolios v).links = s.links := rfl
@[simp] theorem State.withFolios_ports (s : State) (v : List Folio) : (s.withFolios v).ports = s.ports := rfl
@[simp] theorem State.withFolios_video (s : State) (v : List Folio) : (s.withFolios v).video = s.video := rfl
@[simp] theorem State.withFolios_chans (s : State) (v : List Folio) : (s.withFolios v).chans = s.chans := rfl
@[simp] theorem State.withFolios_integ (s : State) (v : List Folio) : (s.withFolios v).integ = s.integ := rfl
@[simp] theorem State.withFolios_mgmt (s : State) (v : List Folio) : (s.withFolios v).mgmt = s.mgmt := rfl
@[simp] theorem State.withFolios_pins (s : State) (v : List Folio) : (s.withFolios v).pins = s.pins := rfl
@[simp] theorem State.withFolios_free (s : State) (v : List Folio) : (s.withFolios v).free = s.free := rfl
@[simp] theorem State.withFolios_out (s : State) (v : List Folio) : (s.withFolios v).out = s.out := rfl
@[simp] theorem State.withTables_pending (s : State) (v : SMap (Option Table)) : (s.withTables v).pending = s.pending := rfl
@[simp] theorem State.withTables_held (s : State) (v : SMap (Option Table)) : (s.withTables v).held = s.held := rfl
@[simp] theorem State.withTables_fuses (s : State) (v : SMap (Option Table)) : (s.withTables v).fuses = s.fuses := rfl
@[simp] theorem State.withTables_flash (s : State) (v : SMap (Option Table)) : (s.withTables v).flash = s.flash := rfl
@[simp] theorem State.withTables_boot (s : State) (v : SMap (Option Table)) : (s.withTables v).boot = s.boot := rfl
@[simp] theorem State.withTables_clk (s : State) (v : SMap (Option Table)) : (s.withTables v).clk = s.clk := rfl
@[simp] theorem State.withTables_isl (s : State) (v : SMap (Option Table)) : (s.withTables v).isl = s.isl := rfl
@[simp] theorem State.withTables_rings (s : State) (v : SMap (Option Table)) : (s.withTables v).rings = s.rings := rfl
@[simp] theorem State.withTables_irq (s : State) (v : SMap (Option Table)) : (s.withTables v).irq = s.irq := rfl
@[simp] theorem State.withTables_mbx (s : State) (v : SMap (Option Table)) : (s.withTables v).mbx = s.mbx := rfl
@[simp] theorem State.withTables_mem (s : State) (v : SMap (Option Table)) : (s.withTables v).mem = s.mem := rfl
@[simp] theorem State.withTables_host (s : State) (v : SMap (Option Table)) : (s.withTables v).host = s.host := rfl
@[simp] theorem State.withTables_part (s : State) (v : SMap (Option Table)) : (s.withTables v).part = s.part := rfl
@[simp] theorem State.withTables_folios (s : State) (v : SMap (Option Table)) : (s.withTables v).folios = s.folios := rfl
@[simp] theorem State.withTables_tables (s : State) (v : SMap (Option Table)) : (s.withTables v).tables = v := rfl
@[simp] theorem State.withTables_tableWait (s : State) (v : SMap (Option Table)) : (s.withTables v).tableWait = s.tableWait := rfl
@[simp] theorem State.withTables_jobs (s : State) (v : SMap (Option Table)) : (s.withTables v).jobs = s.jobs := rfl
@[simp] theorem State.withTables_sys (s : State) (v : SMap (Option Table)) : (s.withTables v).sys = s.sys := rfl
@[simp] theorem State.withTables_cores (s : State) (v : SMap (Option Table)) : (s.withTables v).cores = s.cores := rfl
@[simp] theorem State.withTables_clus (s : State) (v : SMap (Option Table)) : (s.withTables v).clus = s.clus := rfl
@[simp] theorem State.withTables_topo (s : State) (v : SMap (Option Table)) : (s.withTables v).topo = s.topo := rfl
@[simp] theorem State.withTables_links (s : State) (v : SMap (Option Table)) : (s.withTables v).links = s.links := rfl
@[simp] theorem State.withTables_ports (s : State) (v : SMap (Option Table)) : (s.withTables v).ports = s.ports := rfl
@[simp] theorem State.withTables_video (s : State) (v : SMap (Option Table)) : (s.withTables v).video = s.video := rfl
@[simp] theorem State.withTables_chans (s : State) (v : SMap (Option Table)) : (s.withTables v).chans = s.chans := rfl
@[simp] theorem State.withTables_integ (s : State) (v : SMap (Option Table)) : (s.withTables v).integ = s.integ := rfl
@[simp] theorem State.withTables_mgmt (s : State) (v : SMap (Option Table)) : (s.withTables v).mgmt = s.mgmt := rfl
@[simp] theorem State.withTables_pins (s : State) (v : SMap (Option Table)) : (s.withTables v).pins = s.pins := rfl
@[simp] theorem State.withTables_free (s : State) (v : SMap (Option Table)) : (s.withTables v).free = s.free := rfl
@[simp] theorem State.withTables_out (s : State) (v : SMap (Option Table)) : (s.withTables v).out = s.out := rfl
@[simp] theorem State.withTableWait_pending (s : State) (v : SMap (Option TableWait)) : (s.withTableWait v).pending = s.pending := rfl
@[simp] theorem State.withTableWait_held (s : State) (v : SMap (Option TableWait)) : (s.withTableWait v).held = s.held := rfl
@[simp] theorem State.withTableWait_fuses (s : State) (v : SMap (Option TableWait)) : (s.withTableWait v).fuses = s.fuses := rfl
@[simp] theorem State.withTableWait_flash (s : State) (v : SMap (Option TableWait)) : (s.withTableWait v).flash = s.flash := rfl
@[simp] theorem State.withTableWait_boot (s : State) (v : SMap (Option TableWait)) : (s.withTableWait v).boot = s.boot := rfl
@[simp] theorem State.withTableWait_clk (s : State) (v : SMap (Option TableWait)) : (s.withTableWait v).clk = s.clk := rfl
@[simp] theorem State.withTableWait_isl (s : State) (v : SMap (Option TableWait)) : (s.withTableWait v).isl = s.isl := rfl
@[simp] theorem State.withTableWait_rings (s : State) (v : SMap (Option TableWait)) : (s.withTableWait v).rings = s.rings := rfl
@[simp] theorem State.withTableWait_irq (s : State) (v : SMap (Option TableWait)) : (s.withTableWait v).irq = s.irq := rfl
@[simp] theorem State.withTableWait_mbx (s : State) (v : SMap (Option TableWait)) : (s.withTableWait v).mbx = s.mbx := rfl
@[simp] theorem State.withTableWait_mem (s : State) (v : SMap (Option TableWait)) : (s.withTableWait v).mem = s.mem := rfl
@[simp] theorem State.withTableWait_host (s : State) (v : SMap (Option TableWait)) : (s.withTableWait v).host = s.host := rfl
@[simp] theorem State.withTableWait_part (s : State) (v : SMap (Option TableWait)) : (s.withTableWait v).part = s.part := rfl
@[simp] theorem State.withTableWait_folios (s : State) (v : SMap (Option TableWait)) : (s.withTableWait v).folios = s.folios := rfl
@[simp] theorem State.withTableWait_tables (s : State) (v : SMap (Option TableWait)) : (s.withTableWait v).tables = s.tables := rfl
@[simp] theorem State.withTableWait_tableWait (s : State) (v : SMap (Option TableWait)) : (s.withTableWait v).tableWait = v := rfl
@[simp] theorem State.withTableWait_jobs (s : State) (v : SMap (Option TableWait)) : (s.withTableWait v).jobs = s.jobs := rfl
@[simp] theorem State.withTableWait_sys (s : State) (v : SMap (Option TableWait)) : (s.withTableWait v).sys = s.sys := rfl
@[simp] theorem State.withTableWait_cores (s : State) (v : SMap (Option TableWait)) : (s.withTableWait v).cores = s.cores := rfl
@[simp] theorem State.withTableWait_clus (s : State) (v : SMap (Option TableWait)) : (s.withTableWait v).clus = s.clus := rfl
@[simp] theorem State.withTableWait_topo (s : State) (v : SMap (Option TableWait)) : (s.withTableWait v).topo = s.topo := rfl
@[simp] theorem State.withTableWait_links (s : State) (v : SMap (Option TableWait)) : (s.withTableWait v).links = s.links := rfl
@[simp] theorem State.withTableWait_ports (s : State) (v : SMap (Option TableWait)) : (s.withTableWait v).ports = s.ports := rfl
@[simp] theorem State.withTableWait_video (s : State) (v : SMap (Option TableWait)) : (s.withTableWait v).video = s.video := rfl
@[simp] theorem State.withTableWait_chans (s : State) (v : SMap (Option TableWait)) : (s.withTableWait v).chans = s.chans := rfl
@[simp] theorem State.withTableWait_integ (s : State) (v : SMap (Option TableWait)) : (s.withTableWait v).integ = s.integ := rfl
@[simp] theorem State.withTableWait_mgmt (s : State) (v : SMap (Option TableWait)) : (s.withTableWait v).mgmt = s.mgmt := rfl
@[simp] theorem State.withTableWait_pins (s : State) (v : SMap (Option TableWait)) : (s.withTableWait v).pins = s.pins := rfl
@[simp] theorem State.withTableWait_free (s : State) (v : SMap (Option TableWait)) : (s.withTableWait v).free = s.free := rfl
@[simp] theorem State.withTableWait_out (s : State) (v : SMap (Option TableWait)) : (s.withTableWait v).out = s.out := rfl
@[simp] theorem State.withJobs_pending (s : State) (v : SMap (Option Job)) : (s.withJobs v).pending = s.pending := rfl
@[simp] theorem State.withJobs_held (s : State) (v : SMap (Option Job)) : (s.withJobs v).held = s.held := rfl
@[simp] theorem State.withJobs_fuses (s : State) (v : SMap (Option Job)) : (s.withJobs v).fuses = s.fuses := rfl
@[simp] theorem State.withJobs_flash (s : State) (v : SMap (Option Job)) : (s.withJobs v).flash = s.flash := rfl
@[simp] theorem State.withJobs_boot (s : State) (v : SMap (Option Job)) : (s.withJobs v).boot = s.boot := rfl
@[simp] theorem State.withJobs_clk (s : State) (v : SMap (Option Job)) : (s.withJobs v).clk = s.clk := rfl
@[simp] theorem State.withJobs_isl (s : State) (v : SMap (Option Job)) : (s.withJobs v).isl = s.isl := rfl
@[simp] theorem State.withJobs_rings (s : State) (v : SMap (Option Job)) : (s.withJobs v).rings = s.rings := rfl
@[simp] theorem State.withJobs_irq (s : State) (v : SMap (Option Job)) : (s.withJobs v).irq = s.irq := rfl
@[simp] theorem State.withJobs_mbx (s : State) (v : SMap (Option Job)) : (s.withJobs v).mbx = s.mbx := rfl
@[simp] theorem State.withJobs_mem (s : State) (v : SMap (Option Job)) : (s.withJobs v).mem = s.mem := rfl
@[simp] theorem State.withJobs_host (s : State) (v : SMap (Option Job)) : (s.withJobs v).host = s.host := rfl
@[simp] theorem State.withJobs_part (s : State) (v : SMap (Option Job)) : (s.withJobs v).part = s.part := rfl
@[simp] theorem State.withJobs_folios (s : State) (v : SMap (Option Job)) : (s.withJobs v).folios = s.folios := rfl
@[simp] theorem State.withJobs_tables (s : State) (v : SMap (Option Job)) : (s.withJobs v).tables = s.tables := rfl
@[simp] theorem State.withJobs_tableWait (s : State) (v : SMap (Option Job)) : (s.withJobs v).tableWait = s.tableWait := rfl
@[simp] theorem State.withJobs_jobs (s : State) (v : SMap (Option Job)) : (s.withJobs v).jobs = v := rfl
@[simp] theorem State.withJobs_sys (s : State) (v : SMap (Option Job)) : (s.withJobs v).sys = s.sys := rfl
@[simp] theorem State.withJobs_cores (s : State) (v : SMap (Option Job)) : (s.withJobs v).cores = s.cores := rfl
@[simp] theorem State.withJobs_clus (s : State) (v : SMap (Option Job)) : (s.withJobs v).clus = s.clus := rfl
@[simp] theorem State.withJobs_topo (s : State) (v : SMap (Option Job)) : (s.withJobs v).topo = s.topo := rfl
@[simp] theorem State.withJobs_links (s : State) (v : SMap (Option Job)) : (s.withJobs v).links = s.links := rfl
@[simp] theorem State.withJobs_ports (s : State) (v : SMap (Option Job)) : (s.withJobs v).ports = s.ports := rfl
@[simp] theorem State.withJobs_video (s : State) (v : SMap (Option Job)) : (s.withJobs v).video = s.video := rfl
@[simp] theorem State.withJobs_chans (s : State) (v : SMap (Option Job)) : (s.withJobs v).chans = s.chans := rfl
@[simp] theorem State.withJobs_integ (s : State) (v : SMap (Option Job)) : (s.withJobs v).integ = s.integ := rfl
@[simp] theorem State.withJobs_mgmt (s : State) (v : SMap (Option Job)) : (s.withJobs v).mgmt = s.mgmt := rfl
@[simp] theorem State.withJobs_pins (s : State) (v : SMap (Option Job)) : (s.withJobs v).pins = s.pins := rfl
@[simp] theorem State.withJobs_free (s : State) (v : SMap (Option Job)) : (s.withJobs v).free = s.free := rfl
@[simp] theorem State.withJobs_out (s : State) (v : SMap (Option Job)) : (s.withJobs v).out = s.out := rfl
@[simp] theorem State.withSys_pending (s : State) (v : Sys) : (s.withSys v).pending = s.pending := rfl
@[simp] theorem State.withSys_held (s : State) (v : Sys) : (s.withSys v).held = s.held := rfl
@[simp] theorem State.withSys_fuses (s : State) (v : Sys) : (s.withSys v).fuses = s.fuses := rfl
@[simp] theorem State.withSys_flash (s : State) (v : Sys) : (s.withSys v).flash = s.flash := rfl
@[simp] theorem State.withSys_boot (s : State) (v : Sys) : (s.withSys v).boot = s.boot := rfl
@[simp] theorem State.withSys_clk (s : State) (v : Sys) : (s.withSys v).clk = s.clk := rfl
@[simp] theorem State.withSys_isl (s : State) (v : Sys) : (s.withSys v).isl = s.isl := rfl
@[simp] theorem State.withSys_rings (s : State) (v : Sys) : (s.withSys v).rings = s.rings := rfl
@[simp] theorem State.withSys_irq (s : State) (v : Sys) : (s.withSys v).irq = s.irq := rfl
@[simp] theorem State.withSys_mbx (s : State) (v : Sys) : (s.withSys v).mbx = s.mbx := rfl
@[simp] theorem State.withSys_mem (s : State) (v : Sys) : (s.withSys v).mem = s.mem := rfl
@[simp] theorem State.withSys_host (s : State) (v : Sys) : (s.withSys v).host = s.host := rfl
@[simp] theorem State.withSys_part (s : State) (v : Sys) : (s.withSys v).part = s.part := rfl
@[simp] theorem State.withSys_folios (s : State) (v : Sys) : (s.withSys v).folios = s.folios := rfl
@[simp] theorem State.withSys_tables (s : State) (v : Sys) : (s.withSys v).tables = s.tables := rfl
@[simp] theorem State.withSys_tableWait (s : State) (v : Sys) : (s.withSys v).tableWait = s.tableWait := rfl
@[simp] theorem State.withSys_jobs (s : State) (v : Sys) : (s.withSys v).jobs = s.jobs := rfl
@[simp] theorem State.withSys_sys (s : State) (v : Sys) : (s.withSys v).sys = v := rfl
@[simp] theorem State.withSys_cores (s : State) (v : Sys) : (s.withSys v).cores = s.cores := rfl
@[simp] theorem State.withSys_clus (s : State) (v : Sys) : (s.withSys v).clus = s.clus := rfl
@[simp] theorem State.withSys_topo (s : State) (v : Sys) : (s.withSys v).topo = s.topo := rfl
@[simp] theorem State.withSys_links (s : State) (v : Sys) : (s.withSys v).links = s.links := rfl
@[simp] theorem State.withSys_ports (s : State) (v : Sys) : (s.withSys v).ports = s.ports := rfl
@[simp] theorem State.withSys_video (s : State) (v : Sys) : (s.withSys v).video = s.video := rfl
@[simp] theorem State.withSys_chans (s : State) (v : Sys) : (s.withSys v).chans = s.chans := rfl
@[simp] theorem State.withSys_integ (s : State) (v : Sys) : (s.withSys v).integ = s.integ := rfl
@[simp] theorem State.withSys_mgmt (s : State) (v : Sys) : (s.withSys v).mgmt = s.mgmt := rfl
@[simp] theorem State.withSys_pins (s : State) (v : Sys) : (s.withSys v).pins = s.pins := rfl
@[simp] theorem State.withSys_free (s : State) (v : Sys) : (s.withSys v).free = s.free := rfl
@[simp] theorem State.withSys_out (s : State) (v : Sys) : (s.withSys v).out = s.out := rfl
@[simp] theorem State.withCores_pending (s : State) (v : SMap CoreSt) : (s.withCores v).pending = s.pending := rfl
@[simp] theorem State.withCores_held (s : State) (v : SMap CoreSt) : (s.withCores v).held = s.held := rfl
@[simp] theorem State.withCores_fuses (s : State) (v : SMap CoreSt) : (s.withCores v).fuses = s.fuses := rfl
@[simp] theorem State.withCores_flash (s : State) (v : SMap CoreSt) : (s.withCores v).flash = s.flash := rfl
@[simp] theorem State.withCores_boot (s : State) (v : SMap CoreSt) : (s.withCores v).boot = s.boot := rfl
@[simp] theorem State.withCores_clk (s : State) (v : SMap CoreSt) : (s.withCores v).clk = s.clk := rfl
@[simp] theorem State.withCores_isl (s : State) (v : SMap CoreSt) : (s.withCores v).isl = s.isl := rfl
@[simp] theorem State.withCores_rings (s : State) (v : SMap CoreSt) : (s.withCores v).rings = s.rings := rfl
@[simp] theorem State.withCores_irq (s : State) (v : SMap CoreSt) : (s.withCores v).irq = s.irq := rfl
@[simp] theorem State.withCores_mbx (s : State) (v : SMap CoreSt) : (s.withCores v).mbx = s.mbx := rfl
@[simp] theorem State.withCores_mem (s : State) (v : SMap CoreSt) : (s.withCores v).mem = s.mem := rfl
@[simp] theorem State.withCores_host (s : State) (v : SMap CoreSt) : (s.withCores v).host = s.host := rfl
@[simp] theorem State.withCores_part (s : State) (v : SMap CoreSt) : (s.withCores v).part = s.part := rfl
@[simp] theorem State.withCores_folios (s : State) (v : SMap CoreSt) : (s.withCores v).folios = s.folios := rfl
@[simp] theorem State.withCores_tables (s : State) (v : SMap CoreSt) : (s.withCores v).tables = s.tables := rfl
@[simp] theorem State.withCores_tableWait (s : State) (v : SMap CoreSt) : (s.withCores v).tableWait = s.tableWait := rfl
@[simp] theorem State.withCores_jobs (s : State) (v : SMap CoreSt) : (s.withCores v).jobs = s.jobs := rfl
@[simp] theorem State.withCores_sys (s : State) (v : SMap CoreSt) : (s.withCores v).sys = s.sys := rfl
@[simp] theorem State.withCores_cores (s : State) (v : SMap CoreSt) : (s.withCores v).cores = v := rfl
@[simp] theorem State.withCores_clus (s : State) (v : SMap CoreSt) : (s.withCores v).clus = s.clus := rfl
@[simp] theorem State.withCores_topo (s : State) (v : SMap CoreSt) : (s.withCores v).topo = s.topo := rfl
@[simp] theorem State.withCores_links (s : State) (v : SMap CoreSt) : (s.withCores v).links = s.links := rfl
@[simp] theorem State.withCores_ports (s : State) (v : SMap CoreSt) : (s.withCores v).ports = s.ports := rfl
@[simp] theorem State.withCores_video (s : State) (v : SMap CoreSt) : (s.withCores v).video = s.video := rfl
@[simp] theorem State.withCores_chans (s : State) (v : SMap CoreSt) : (s.withCores v).chans = s.chans := rfl
@[simp] theorem State.withCores_integ (s : State) (v : SMap CoreSt) : (s.withCores v).integ = s.integ := rfl
@[simp] theorem State.withCores_mgmt (s : State) (v : SMap CoreSt) : (s.withCores v).mgmt = s.mgmt := rfl
@[simp] theorem State.withCores_pins (s : State) (v : SMap CoreSt) : (s.withCores v).pins = s.pins := rfl
@[simp] theorem State.withCores_free (s : State) (v : SMap CoreSt) : (s.withCores v).free = s.free := rfl
@[simp] theorem State.withCores_out (s : State) (v : SMap CoreSt) : (s.withCores v).out = s.out := rfl
@[simp] theorem State.withClus_pending (s : State) (v : SMap Cluster) : (s.withClus v).pending = s.pending := rfl
@[simp] theorem State.withClus_held (s : State) (v : SMap Cluster) : (s.withClus v).held = s.held := rfl
@[simp] theorem State.withClus_fuses (s : State) (v : SMap Cluster) : (s.withClus v).fuses = s.fuses := rfl
@[simp] theorem State.withClus_flash (s : State) (v : SMap Cluster) : (s.withClus v).flash = s.flash := rfl
@[simp] theorem State.withClus_boot (s : State) (v : SMap Cluster) : (s.withClus v).boot = s.boot := rfl
@[simp] theorem State.withClus_clk (s : State) (v : SMap Cluster) : (s.withClus v).clk = s.clk := rfl
@[simp] theorem State.withClus_isl (s : State) (v : SMap Cluster) : (s.withClus v).isl = s.isl := rfl
@[simp] theorem State.withClus_rings (s : State) (v : SMap Cluster) : (s.withClus v).rings = s.rings := rfl
@[simp] theorem State.withClus_irq (s : State) (v : SMap Cluster) : (s.withClus v).irq = s.irq := rfl
@[simp] theorem State.withClus_mbx (s : State) (v : SMap Cluster) : (s.withClus v).mbx = s.mbx := rfl
@[simp] theorem State.withClus_mem (s : State) (v : SMap Cluster) : (s.withClus v).mem = s.mem := rfl
@[simp] theorem State.withClus_host (s : State) (v : SMap Cluster) : (s.withClus v).host = s.host := rfl
@[simp] theorem State.withClus_part (s : State) (v : SMap Cluster) : (s.withClus v).part = s.part := rfl
@[simp] theorem State.withClus_folios (s : State) (v : SMap Cluster) : (s.withClus v).folios = s.folios := rfl
@[simp] theorem State.withClus_tables (s : State) (v : SMap Cluster) : (s.withClus v).tables = s.tables := rfl
@[simp] theorem State.withClus_tableWait (s : State) (v : SMap Cluster) : (s.withClus v).tableWait = s.tableWait := rfl
@[simp] theorem State.withClus_jobs (s : State) (v : SMap Cluster) : (s.withClus v).jobs = s.jobs := rfl
@[simp] theorem State.withClus_sys (s : State) (v : SMap Cluster) : (s.withClus v).sys = s.sys := rfl
@[simp] theorem State.withClus_cores (s : State) (v : SMap Cluster) : (s.withClus v).cores = s.cores := rfl
@[simp] theorem State.withClus_clus (s : State) (v : SMap Cluster) : (s.withClus v).clus = v := rfl
@[simp] theorem State.withClus_topo (s : State) (v : SMap Cluster) : (s.withClus v).topo = s.topo := rfl
@[simp] theorem State.withClus_links (s : State) (v : SMap Cluster) : (s.withClus v).links = s.links := rfl
@[simp] theorem State.withClus_ports (s : State) (v : SMap Cluster) : (s.withClus v).ports = s.ports := rfl
@[simp] theorem State.withClus_video (s : State) (v : SMap Cluster) : (s.withClus v).video = s.video := rfl
@[simp] theorem State.withClus_chans (s : State) (v : SMap Cluster) : (s.withClus v).chans = s.chans := rfl
@[simp] theorem State.withClus_integ (s : State) (v : SMap Cluster) : (s.withClus v).integ = s.integ := rfl
@[simp] theorem State.withClus_mgmt (s : State) (v : SMap Cluster) : (s.withClus v).mgmt = s.mgmt := rfl
@[simp] theorem State.withClus_pins (s : State) (v : SMap Cluster) : (s.withClus v).pins = s.pins := rfl
@[simp] theorem State.withClus_free (s : State) (v : SMap Cluster) : (s.withClus v).free = s.free := rfl
@[simp] theorem State.withClus_out (s : State) (v : SMap Cluster) : (s.withClus v).out = s.out := rfl
@[simp] theorem State.withTopo_pending (s : State) (v : Topo) : (s.withTopo v).pending = s.pending := rfl
@[simp] theorem State.withTopo_held (s : State) (v : Topo) : (s.withTopo v).held = s.held := rfl
@[simp] theorem State.withTopo_fuses (s : State) (v : Topo) : (s.withTopo v).fuses = s.fuses := rfl
@[simp] theorem State.withTopo_flash (s : State) (v : Topo) : (s.withTopo v).flash = s.flash := rfl
@[simp] theorem State.withTopo_boot (s : State) (v : Topo) : (s.withTopo v).boot = s.boot := rfl
@[simp] theorem State.withTopo_clk (s : State) (v : Topo) : (s.withTopo v).clk = s.clk := rfl
@[simp] theorem State.withTopo_isl (s : State) (v : Topo) : (s.withTopo v).isl = s.isl := rfl
@[simp] theorem State.withTopo_rings (s : State) (v : Topo) : (s.withTopo v).rings = s.rings := rfl
@[simp] theorem State.withTopo_irq (s : State) (v : Topo) : (s.withTopo v).irq = s.irq := rfl
@[simp] theorem State.withTopo_mbx (s : State) (v : Topo) : (s.withTopo v).mbx = s.mbx := rfl
@[simp] theorem State.withTopo_mem (s : State) (v : Topo) : (s.withTopo v).mem = s.mem := rfl
@[simp] theorem State.withTopo_host (s : State) (v : Topo) : (s.withTopo v).host = s.host := rfl
@[simp] theorem State.withTopo_part (s : State) (v : Topo) : (s.withTopo v).part = s.part := rfl
@[simp] theorem State.withTopo_folios (s : State) (v : Topo) : (s.withTopo v).folios = s.folios := rfl
@[simp] theorem State.withTopo_tables (s : State) (v : Topo) : (s.withTopo v).tables = s.tables := rfl
@[simp] theorem State.withTopo_tableWait (s : State) (v : Topo) : (s.withTopo v).tableWait = s.tableWait := rfl
@[simp] theorem State.withTopo_jobs (s : State) (v : Topo) : (s.withTopo v).jobs = s.jobs := rfl
@[simp] theorem State.withTopo_sys (s : State) (v : Topo) : (s.withTopo v).sys = s.sys := rfl
@[simp] theorem State.withTopo_cores (s : State) (v : Topo) : (s.withTopo v).cores = s.cores := rfl
@[simp] theorem State.withTopo_clus (s : State) (v : Topo) : (s.withTopo v).clus = s.clus := rfl
@[simp] theorem State.withTopo_topo (s : State) (v : Topo) : (s.withTopo v).topo = v := rfl
@[simp] theorem State.withTopo_links (s : State) (v : Topo) : (s.withTopo v).links = s.links := rfl
@[simp] theorem State.withTopo_ports (s : State) (v : Topo) : (s.withTopo v).ports = s.ports := rfl
@[simp] theorem State.withTopo_video (s : State) (v : Topo) : (s.withTopo v).video = s.video := rfl
@[simp] theorem State.withTopo_chans (s : State) (v : Topo) : (s.withTopo v).chans = s.chans := rfl
@[simp] theorem State.withTopo_integ (s : State) (v : Topo) : (s.withTopo v).integ = s.integ := rfl
@[simp] theorem State.withTopo_mgmt (s : State) (v : Topo) : (s.withTopo v).mgmt = s.mgmt := rfl
@[simp] theorem State.withTopo_pins (s : State) (v : Topo) : (s.withTopo v).pins = s.pins := rfl
@[simp] theorem State.withTopo_free (s : State) (v : Topo) : (s.withTopo v).free = s.free := rfl
@[simp] theorem State.withTopo_out (s : State) (v : Topo) : (s.withTopo v).out = s.out := rfl
@[simp] theorem State.withLinks_pending (s : State) (v : SMap Link) : (s.withLinks v).pending = s.pending := rfl
@[simp] theorem State.withLinks_held (s : State) (v : SMap Link) : (s.withLinks v).held = s.held := rfl
@[simp] theorem State.withLinks_fuses (s : State) (v : SMap Link) : (s.withLinks v).fuses = s.fuses := rfl
@[simp] theorem State.withLinks_flash (s : State) (v : SMap Link) : (s.withLinks v).flash = s.flash := rfl
@[simp] theorem State.withLinks_boot (s : State) (v : SMap Link) : (s.withLinks v).boot = s.boot := rfl
@[simp] theorem State.withLinks_clk (s : State) (v : SMap Link) : (s.withLinks v).clk = s.clk := rfl
@[simp] theorem State.withLinks_isl (s : State) (v : SMap Link) : (s.withLinks v).isl = s.isl := rfl
@[simp] theorem State.withLinks_rings (s : State) (v : SMap Link) : (s.withLinks v).rings = s.rings := rfl
@[simp] theorem State.withLinks_irq (s : State) (v : SMap Link) : (s.withLinks v).irq = s.irq := rfl
@[simp] theorem State.withLinks_mbx (s : State) (v : SMap Link) : (s.withLinks v).mbx = s.mbx := rfl
@[simp] theorem State.withLinks_mem (s : State) (v : SMap Link) : (s.withLinks v).mem = s.mem := rfl
@[simp] theorem State.withLinks_host (s : State) (v : SMap Link) : (s.withLinks v).host = s.host := rfl
@[simp] theorem State.withLinks_part (s : State) (v : SMap Link) : (s.withLinks v).part = s.part := rfl
@[simp] theorem State.withLinks_folios (s : State) (v : SMap Link) : (s.withLinks v).folios = s.folios := rfl
@[simp] theorem State.withLinks_tables (s : State) (v : SMap Link) : (s.withLinks v).tables = s.tables := rfl
@[simp] theorem State.withLinks_tableWait (s : State) (v : SMap Link) : (s.withLinks v).tableWait = s.tableWait := rfl
@[simp] theorem State.withLinks_jobs (s : State) (v : SMap Link) : (s.withLinks v).jobs = s.jobs := rfl
@[simp] theorem State.withLinks_sys (s : State) (v : SMap Link) : (s.withLinks v).sys = s.sys := rfl
@[simp] theorem State.withLinks_cores (s : State) (v : SMap Link) : (s.withLinks v).cores = s.cores := rfl
@[simp] theorem State.withLinks_clus (s : State) (v : SMap Link) : (s.withLinks v).clus = s.clus := rfl
@[simp] theorem State.withLinks_topo (s : State) (v : SMap Link) : (s.withLinks v).topo = s.topo := rfl
@[simp] theorem State.withLinks_links (s : State) (v : SMap Link) : (s.withLinks v).links = v := rfl
@[simp] theorem State.withLinks_ports (s : State) (v : SMap Link) : (s.withLinks v).ports = s.ports := rfl
@[simp] theorem State.withLinks_video (s : State) (v : SMap Link) : (s.withLinks v).video = s.video := rfl
@[simp] theorem State.withLinks_chans (s : State) (v : SMap Link) : (s.withLinks v).chans = s.chans := rfl
@[simp] theorem State.withLinks_integ (s : State) (v : SMap Link) : (s.withLinks v).integ = s.integ := rfl
@[simp] theorem State.withLinks_mgmt (s : State) (v : SMap Link) : (s.withLinks v).mgmt = s.mgmt := rfl
@[simp] theorem State.withLinks_pins (s : State) (v : SMap Link) : (s.withLinks v).pins = s.pins := rfl
@[simp] theorem State.withLinks_free (s : State) (v : SMap Link) : (s.withLinks v).free = s.free := rfl
@[simp] theorem State.withLinks_out (s : State) (v : SMap Link) : (s.withLinks v).out = s.out := rfl
@[simp] theorem State.withPorts_pending (s : State) (v : SMap Port) : (s.withPorts v).pending = s.pending := rfl
@[simp] theorem State.withPorts_held (s : State) (v : SMap Port) : (s.withPorts v).held = s.held := rfl
@[simp] theorem State.withPorts_fuses (s : State) (v : SMap Port) : (s.withPorts v).fuses = s.fuses := rfl
@[simp] theorem State.withPorts_flash (s : State) (v : SMap Port) : (s.withPorts v).flash = s.flash := rfl
@[simp] theorem State.withPorts_boot (s : State) (v : SMap Port) : (s.withPorts v).boot = s.boot := rfl
@[simp] theorem State.withPorts_clk (s : State) (v : SMap Port) : (s.withPorts v).clk = s.clk := rfl
@[simp] theorem State.withPorts_isl (s : State) (v : SMap Port) : (s.withPorts v).isl = s.isl := rfl
@[simp] theorem State.withPorts_rings (s : State) (v : SMap Port) : (s.withPorts v).rings = s.rings := rfl
@[simp] theorem State.withPorts_irq (s : State) (v : SMap Port) : (s.withPorts v).irq = s.irq := rfl
@[simp] theorem State.withPorts_mbx (s : State) (v : SMap Port) : (s.withPorts v).mbx = s.mbx := rfl
@[simp] theorem State.withPorts_mem (s : State) (v : SMap Port) : (s.withPorts v).mem = s.mem := rfl
@[simp] theorem State.withPorts_host (s : State) (v : SMap Port) : (s.withPorts v).host = s.host := rfl
@[simp] theorem State.withPorts_part (s : State) (v : SMap Port) : (s.withPorts v).part = s.part := rfl
@[simp] theorem State.withPorts_folios (s : State) (v : SMap Port) : (s.withPorts v).folios = s.folios := rfl
@[simp] theorem State.withPorts_tables (s : State) (v : SMap Port) : (s.withPorts v).tables = s.tables := rfl
@[simp] theorem State.withPorts_tableWait (s : State) (v : SMap Port) : (s.withPorts v).tableWait = s.tableWait := rfl
@[simp] theorem State.withPorts_jobs (s : State) (v : SMap Port) : (s.withPorts v).jobs = s.jobs := rfl
@[simp] theorem State.withPorts_sys (s : State) (v : SMap Port) : (s.withPorts v).sys = s.sys := rfl
@[simp] theorem State.withPorts_cores (s : State) (v : SMap Port) : (s.withPorts v).cores = s.cores := rfl
@[simp] theorem State.withPorts_clus (s : State) (v : SMap Port) : (s.withPorts v).clus = s.clus := rfl
@[simp] theorem State.withPorts_topo (s : State) (v : SMap Port) : (s.withPorts v).topo = s.topo := rfl
@[simp] theorem State.withPorts_links (s : State) (v : SMap Port) : (s.withPorts v).links = s.links := rfl
@[simp] theorem State.withPorts_ports (s : State) (v : SMap Port) : (s.withPorts v).ports = v := rfl
@[simp] theorem State.withPorts_video (s : State) (v : SMap Port) : (s.withPorts v).video = s.video := rfl
@[simp] theorem State.withPorts_chans (s : State) (v : SMap Port) : (s.withPorts v).chans = s.chans := rfl
@[simp] theorem State.withPorts_integ (s : State) (v : SMap Port) : (s.withPorts v).integ = s.integ := rfl
@[simp] theorem State.withPorts_mgmt (s : State) (v : SMap Port) : (s.withPorts v).mgmt = s.mgmt := rfl
@[simp] theorem State.withPorts_pins (s : State) (v : SMap Port) : (s.withPorts v).pins = s.pins := rfl
@[simp] theorem State.withPorts_free (s : State) (v : SMap Port) : (s.withPorts v).free = s.free := rfl
@[simp] theorem State.withPorts_out (s : State) (v : SMap Port) : (s.withPorts v).out = s.out := rfl
@[simp] theorem State.withVideo_pending (s : State) (v : SMap Engine) : (s.withVideo v).pending = s.pending := rfl
@[simp] theorem State.withVideo_held (s : State) (v : SMap Engine) : (s.withVideo v).held = s.held := rfl
@[simp] theorem State.withVideo_fuses (s : State) (v : SMap Engine) : (s.withVideo v).fuses = s.fuses := rfl
@[simp] theorem State.withVideo_flash (s : State) (v : SMap Engine) : (s.withVideo v).flash = s.flash := rfl
@[simp] theorem State.withVideo_boot (s : State) (v : SMap Engine) : (s.withVideo v).boot = s.boot := rfl
@[simp] theorem State.withVideo_clk (s : State) (v : SMap Engine) : (s.withVideo v).clk = s.clk := rfl
@[simp] theorem State.withVideo_isl (s : State) (v : SMap Engine) : (s.withVideo v).isl = s.isl := rfl
@[simp] theorem State.withVideo_rings (s : State) (v : SMap Engine) : (s.withVideo v).rings = s.rings := rfl
@[simp] theorem State.withVideo_irq (s : State) (v : SMap Engine) : (s.withVideo v).irq = s.irq := rfl
@[simp] theorem State.withVideo_mbx (s : State) (v : SMap Engine) : (s.withVideo v).mbx = s.mbx := rfl
@[simp] theorem State.withVideo_mem (s : State) (v : SMap Engine) : (s.withVideo v).mem = s.mem := rfl
@[simp] theorem State.withVideo_host (s : State) (v : SMap Engine) : (s.withVideo v).host = s.host := rfl
@[simp] theorem State.withVideo_part (s : State) (v : SMap Engine) : (s.withVideo v).part = s.part := rfl
@[simp] theorem State.withVideo_folios (s : State) (v : SMap Engine) : (s.withVideo v).folios = s.folios := rfl
@[simp] theorem State.withVideo_tables (s : State) (v : SMap Engine) : (s.withVideo v).tables = s.tables := rfl
@[simp] theorem State.withVideo_tableWait (s : State) (v : SMap Engine) : (s.withVideo v).tableWait = s.tableWait := rfl
@[simp] theorem State.withVideo_jobs (s : State) (v : SMap Engine) : (s.withVideo v).jobs = s.jobs := rfl
@[simp] theorem State.withVideo_sys (s : State) (v : SMap Engine) : (s.withVideo v).sys = s.sys := rfl
@[simp] theorem State.withVideo_cores (s : State) (v : SMap Engine) : (s.withVideo v).cores = s.cores := rfl
@[simp] theorem State.withVideo_clus (s : State) (v : SMap Engine) : (s.withVideo v).clus = s.clus := rfl
@[simp] theorem State.withVideo_topo (s : State) (v : SMap Engine) : (s.withVideo v).topo = s.topo := rfl
@[simp] theorem State.withVideo_links (s : State) (v : SMap Engine) : (s.withVideo v).links = s.links := rfl
@[simp] theorem State.withVideo_ports (s : State) (v : SMap Engine) : (s.withVideo v).ports = s.ports := rfl
@[simp] theorem State.withVideo_video (s : State) (v : SMap Engine) : (s.withVideo v).video = v := rfl
@[simp] theorem State.withVideo_chans (s : State) (v : SMap Engine) : (s.withVideo v).chans = s.chans := rfl
@[simp] theorem State.withVideo_integ (s : State) (v : SMap Engine) : (s.withVideo v).integ = s.integ := rfl
@[simp] theorem State.withVideo_mgmt (s : State) (v : SMap Engine) : (s.withVideo v).mgmt = s.mgmt := rfl
@[simp] theorem State.withVideo_pins (s : State) (v : SMap Engine) : (s.withVideo v).pins = s.pins := rfl
@[simp] theorem State.withVideo_free (s : State) (v : SMap Engine) : (s.withVideo v).free = s.free := rfl
@[simp] theorem State.withVideo_out (s : State) (v : SMap Engine) : (s.withVideo v).out = s.out := rfl
@[simp] theorem State.withChans_pending (s : State) (v : SMap Chan) : (s.withChans v).pending = s.pending := rfl
@[simp] theorem State.withChans_held (s : State) (v : SMap Chan) : (s.withChans v).held = s.held := rfl
@[simp] theorem State.withChans_fuses (s : State) (v : SMap Chan) : (s.withChans v).fuses = s.fuses := rfl
@[simp] theorem State.withChans_flash (s : State) (v : SMap Chan) : (s.withChans v).flash = s.flash := rfl
@[simp] theorem State.withChans_boot (s : State) (v : SMap Chan) : (s.withChans v).boot = s.boot := rfl
@[simp] theorem State.withChans_clk (s : State) (v : SMap Chan) : (s.withChans v).clk = s.clk := rfl
@[simp] theorem State.withChans_isl (s : State) (v : SMap Chan) : (s.withChans v).isl = s.isl := rfl
@[simp] theorem State.withChans_rings (s : State) (v : SMap Chan) : (s.withChans v).rings = s.rings := rfl
@[simp] theorem State.withChans_irq (s : State) (v : SMap Chan) : (s.withChans v).irq = s.irq := rfl
@[simp] theorem State.withChans_mbx (s : State) (v : SMap Chan) : (s.withChans v).mbx = s.mbx := rfl
@[simp] theorem State.withChans_mem (s : State) (v : SMap Chan) : (s.withChans v).mem = s.mem := rfl
@[simp] theorem State.withChans_host (s : State) (v : SMap Chan) : (s.withChans v).host = s.host := rfl
@[simp] theorem State.withChans_part (s : State) (v : SMap Chan) : (s.withChans v).part = s.part := rfl
@[simp] theorem State.withChans_folios (s : State) (v : SMap Chan) : (s.withChans v).folios = s.folios := rfl
@[simp] theorem State.withChans_tables (s : State) (v : SMap Chan) : (s.withChans v).tables = s.tables := rfl
@[simp] theorem State.withChans_tableWait (s : State) (v : SMap Chan) : (s.withChans v).tableWait = s.tableWait := rfl
@[simp] theorem State.withChans_jobs (s : State) (v : SMap Chan) : (s.withChans v).jobs = s.jobs := rfl
@[simp] theorem State.withChans_sys (s : State) (v : SMap Chan) : (s.withChans v).sys = s.sys := rfl
@[simp] theorem State.withChans_cores (s : State) (v : SMap Chan) : (s.withChans v).cores = s.cores := rfl
@[simp] theorem State.withChans_clus (s : State) (v : SMap Chan) : (s.withChans v).clus = s.clus := rfl
@[simp] theorem State.withChans_topo (s : State) (v : SMap Chan) : (s.withChans v).topo = s.topo := rfl
@[simp] theorem State.withChans_links (s : State) (v : SMap Chan) : (s.withChans v).links = s.links := rfl
@[simp] theorem State.withChans_ports (s : State) (v : SMap Chan) : (s.withChans v).ports = s.ports := rfl
@[simp] theorem State.withChans_video (s : State) (v : SMap Chan) : (s.withChans v).video = s.video := rfl
@[simp] theorem State.withChans_chans (s : State) (v : SMap Chan) : (s.withChans v).chans = v := rfl
@[simp] theorem State.withChans_integ (s : State) (v : SMap Chan) : (s.withChans v).integ = s.integ := rfl
@[simp] theorem State.withChans_mgmt (s : State) (v : SMap Chan) : (s.withChans v).mgmt = s.mgmt := rfl
@[simp] theorem State.withChans_pins (s : State) (v : SMap Chan) : (s.withChans v).pins = s.pins := rfl
@[simp] theorem State.withChans_free (s : State) (v : SMap Chan) : (s.withChans v).free = s.free := rfl
@[simp] theorem State.withChans_out (s : State) (v : SMap Chan) : (s.withChans v).out = s.out := rfl
@[simp] theorem State.withInteg_pending (s : State) (v : Integ) : (s.withInteg v).pending = s.pending := rfl
@[simp] theorem State.withInteg_held (s : State) (v : Integ) : (s.withInteg v).held = s.held := rfl
@[simp] theorem State.withInteg_fuses (s : State) (v : Integ) : (s.withInteg v).fuses = s.fuses := rfl
@[simp] theorem State.withInteg_flash (s : State) (v : Integ) : (s.withInteg v).flash = s.flash := rfl
@[simp] theorem State.withInteg_boot (s : State) (v : Integ) : (s.withInteg v).boot = s.boot := rfl
@[simp] theorem State.withInteg_clk (s : State) (v : Integ) : (s.withInteg v).clk = s.clk := rfl
@[simp] theorem State.withInteg_isl (s : State) (v : Integ) : (s.withInteg v).isl = s.isl := rfl
@[simp] theorem State.withInteg_rings (s : State) (v : Integ) : (s.withInteg v).rings = s.rings := rfl
@[simp] theorem State.withInteg_irq (s : State) (v : Integ) : (s.withInteg v).irq = s.irq := rfl
@[simp] theorem State.withInteg_mbx (s : State) (v : Integ) : (s.withInteg v).mbx = s.mbx := rfl
@[simp] theorem State.withInteg_mem (s : State) (v : Integ) : (s.withInteg v).mem = s.mem := rfl
@[simp] theorem State.withInteg_host (s : State) (v : Integ) : (s.withInteg v).host = s.host := rfl
@[simp] theorem State.withInteg_part (s : State) (v : Integ) : (s.withInteg v).part = s.part := rfl
@[simp] theorem State.withInteg_folios (s : State) (v : Integ) : (s.withInteg v).folios = s.folios := rfl
@[simp] theorem State.withInteg_tables (s : State) (v : Integ) : (s.withInteg v).tables = s.tables := rfl
@[simp] theorem State.withInteg_tableWait (s : State) (v : Integ) : (s.withInteg v).tableWait = s.tableWait := rfl
@[simp] theorem State.withInteg_jobs (s : State) (v : Integ) : (s.withInteg v).jobs = s.jobs := rfl
@[simp] theorem State.withInteg_sys (s : State) (v : Integ) : (s.withInteg v).sys = s.sys := rfl
@[simp] theorem State.withInteg_cores (s : State) (v : Integ) : (s.withInteg v).cores = s.cores := rfl
@[simp] theorem State.withInteg_clus (s : State) (v : Integ) : (s.withInteg v).clus = s.clus := rfl
@[simp] theorem State.withInteg_topo (s : State) (v : Integ) : (s.withInteg v).topo = s.topo := rfl
@[simp] theorem State.withInteg_links (s : State) (v : Integ) : (s.withInteg v).links = s.links := rfl
@[simp] theorem State.withInteg_ports (s : State) (v : Integ) : (s.withInteg v).ports = s.ports := rfl
@[simp] theorem State.withInteg_video (s : State) (v : Integ) : (s.withInteg v).video = s.video := rfl
@[simp] theorem State.withInteg_chans (s : State) (v : Integ) : (s.withInteg v).chans = s.chans := rfl
@[simp] theorem State.withInteg_integ (s : State) (v : Integ) : (s.withInteg v).integ = v := rfl
@[simp] theorem State.withInteg_mgmt (s : State) (v : Integ) : (s.withInteg v).mgmt = s.mgmt := rfl
@[simp] theorem State.withInteg_pins (s : State) (v : Integ) : (s.withInteg v).pins = s.pins := rfl
@[simp] theorem State.withInteg_free (s : State) (v : Integ) : (s.withInteg v).free = s.free := rfl
@[simp] theorem State.withInteg_out (s : State) (v : Integ) : (s.withInteg v).out = s.out := rfl
@[simp] theorem State.withMgmt_pending (s : State) (v : Mgmt) : (s.withMgmt v).pending = s.pending := rfl
@[simp] theorem State.withMgmt_held (s : State) (v : Mgmt) : (s.withMgmt v).held = s.held := rfl
@[simp] theorem State.withMgmt_fuses (s : State) (v : Mgmt) : (s.withMgmt v).fuses = s.fuses := rfl
@[simp] theorem State.withMgmt_flash (s : State) (v : Mgmt) : (s.withMgmt v).flash = s.flash := rfl
@[simp] theorem State.withMgmt_boot (s : State) (v : Mgmt) : (s.withMgmt v).boot = s.boot := rfl
@[simp] theorem State.withMgmt_clk (s : State) (v : Mgmt) : (s.withMgmt v).clk = s.clk := rfl
@[simp] theorem State.withMgmt_isl (s : State) (v : Mgmt) : (s.withMgmt v).isl = s.isl := rfl
@[simp] theorem State.withMgmt_rings (s : State) (v : Mgmt) : (s.withMgmt v).rings = s.rings := rfl
@[simp] theorem State.withMgmt_irq (s : State) (v : Mgmt) : (s.withMgmt v).irq = s.irq := rfl
@[simp] theorem State.withMgmt_mbx (s : State) (v : Mgmt) : (s.withMgmt v).mbx = s.mbx := rfl
@[simp] theorem State.withMgmt_mem (s : State) (v : Mgmt) : (s.withMgmt v).mem = s.mem := rfl
@[simp] theorem State.withMgmt_host (s : State) (v : Mgmt) : (s.withMgmt v).host = s.host := rfl
@[simp] theorem State.withMgmt_part (s : State) (v : Mgmt) : (s.withMgmt v).part = s.part := rfl
@[simp] theorem State.withMgmt_folios (s : State) (v : Mgmt) : (s.withMgmt v).folios = s.folios := rfl
@[simp] theorem State.withMgmt_tables (s : State) (v : Mgmt) : (s.withMgmt v).tables = s.tables := rfl
@[simp] theorem State.withMgmt_tableWait (s : State) (v : Mgmt) : (s.withMgmt v).tableWait = s.tableWait := rfl
@[simp] theorem State.withMgmt_jobs (s : State) (v : Mgmt) : (s.withMgmt v).jobs = s.jobs := rfl
@[simp] theorem State.withMgmt_sys (s : State) (v : Mgmt) : (s.withMgmt v).sys = s.sys := rfl
@[simp] theorem State.withMgmt_cores (s : State) (v : Mgmt) : (s.withMgmt v).cores = s.cores := rfl
@[simp] theorem State.withMgmt_clus (s : State) (v : Mgmt) : (s.withMgmt v).clus = s.clus := rfl
@[simp] theorem State.withMgmt_topo (s : State) (v : Mgmt) : (s.withMgmt v).topo = s.topo := rfl
@[simp] theorem State.withMgmt_links (s : State) (v : Mgmt) : (s.withMgmt v).links = s.links := rfl
@[simp] theorem State.withMgmt_ports (s : State) (v : Mgmt) : (s.withMgmt v).ports = s.ports := rfl
@[simp] theorem State.withMgmt_video (s : State) (v : Mgmt) : (s.withMgmt v).video = s.video := rfl
@[simp] theorem State.withMgmt_chans (s : State) (v : Mgmt) : (s.withMgmt v).chans = s.chans := rfl
@[simp] theorem State.withMgmt_integ (s : State) (v : Mgmt) : (s.withMgmt v).integ = s.integ := rfl
@[simp] theorem State.withMgmt_mgmt (s : State) (v : Mgmt) : (s.withMgmt v).mgmt = v := rfl
@[simp] theorem State.withMgmt_pins (s : State) (v : Mgmt) : (s.withMgmt v).pins = s.pins := rfl
@[simp] theorem State.withMgmt_free (s : State) (v : Mgmt) : (s.withMgmt v).free = s.free := rfl
@[simp] theorem State.withMgmt_out (s : State) (v : Mgmt) : (s.withMgmt v).out = s.out := rfl
@[simp] theorem State.withPins_pending (s : State) (v : Pins) : (s.withPins v).pending = s.pending := rfl
@[simp] theorem State.withPins_held (s : State) (v : Pins) : (s.withPins v).held = s.held := rfl
@[simp] theorem State.withPins_fuses (s : State) (v : Pins) : (s.withPins v).fuses = s.fuses := rfl
@[simp] theorem State.withPins_flash (s : State) (v : Pins) : (s.withPins v).flash = s.flash := rfl
@[simp] theorem State.withPins_boot (s : State) (v : Pins) : (s.withPins v).boot = s.boot := rfl
@[simp] theorem State.withPins_clk (s : State) (v : Pins) : (s.withPins v).clk = s.clk := rfl
@[simp] theorem State.withPins_isl (s : State) (v : Pins) : (s.withPins v).isl = s.isl := rfl
@[simp] theorem State.withPins_rings (s : State) (v : Pins) : (s.withPins v).rings = s.rings := rfl
@[simp] theorem State.withPins_irq (s : State) (v : Pins) : (s.withPins v).irq = s.irq := rfl
@[simp] theorem State.withPins_mbx (s : State) (v : Pins) : (s.withPins v).mbx = s.mbx := rfl
@[simp] theorem State.withPins_mem (s : State) (v : Pins) : (s.withPins v).mem = s.mem := rfl
@[simp] theorem State.withPins_host (s : State) (v : Pins) : (s.withPins v).host = s.host := rfl
@[simp] theorem State.withPins_part (s : State) (v : Pins) : (s.withPins v).part = s.part := rfl
@[simp] theorem State.withPins_folios (s : State) (v : Pins) : (s.withPins v).folios = s.folios := rfl
@[simp] theorem State.withPins_tables (s : State) (v : Pins) : (s.withPins v).tables = s.tables := rfl
@[simp] theorem State.withPins_tableWait (s : State) (v : Pins) : (s.withPins v).tableWait = s.tableWait := rfl
@[simp] theorem State.withPins_jobs (s : State) (v : Pins) : (s.withPins v).jobs = s.jobs := rfl
@[simp] theorem State.withPins_sys (s : State) (v : Pins) : (s.withPins v).sys = s.sys := rfl
@[simp] theorem State.withPins_cores (s : State) (v : Pins) : (s.withPins v).cores = s.cores := rfl
@[simp] theorem State.withPins_clus (s : State) (v : Pins) : (s.withPins v).clus = s.clus := rfl
@[simp] theorem State.withPins_topo (s : State) (v : Pins) : (s.withPins v).topo = s.topo := rfl
@[simp] theorem State.withPins_links (s : State) (v : Pins) : (s.withPins v).links = s.links := rfl
@[simp] theorem State.withPins_ports (s : State) (v : Pins) : (s.withPins v).ports = s.ports := rfl
@[simp] theorem State.withPins_video (s : State) (v : Pins) : (s.withPins v).video = s.video := rfl
@[simp] theorem State.withPins_chans (s : State) (v : Pins) : (s.withPins v).chans = s.chans := rfl
@[simp] theorem State.withPins_integ (s : State) (v : Pins) : (s.withPins v).integ = s.integ := rfl
@[simp] theorem State.withPins_mgmt (s : State) (v : Pins) : (s.withPins v).mgmt = s.mgmt := rfl
@[simp] theorem State.withPins_pins (s : State) (v : Pins) : (s.withPins v).pins = v := rfl
@[simp] theorem State.withPins_free (s : State) (v : Pins) : (s.withPins v).free = s.free := rfl
@[simp] theorem State.withPins_out (s : State) (v : Pins) : (s.withPins v).out = s.out := rfl
@[simp] theorem State.withFree_pending (s : State) (v : Nat) : (s.withFree v).pending = s.pending := rfl
@[simp] theorem State.withFree_held (s : State) (v : Nat) : (s.withFree v).held = s.held := rfl
@[simp] theorem State.withFree_fuses (s : State) (v : Nat) : (s.withFree v).fuses = s.fuses := rfl
@[simp] theorem State.withFree_flash (s : State) (v : Nat) : (s.withFree v).flash = s.flash := rfl
@[simp] theorem State.withFree_boot (s : State) (v : Nat) : (s.withFree v).boot = s.boot := rfl
@[simp] theorem State.withFree_clk (s : State) (v : Nat) : (s.withFree v).clk = s.clk := rfl
@[simp] theorem State.withFree_isl (s : State) (v : Nat) : (s.withFree v).isl = s.isl := rfl
@[simp] theorem State.withFree_rings (s : State) (v : Nat) : (s.withFree v).rings = s.rings := rfl
@[simp] theorem State.withFree_irq (s : State) (v : Nat) : (s.withFree v).irq = s.irq := rfl
@[simp] theorem State.withFree_mbx (s : State) (v : Nat) : (s.withFree v).mbx = s.mbx := rfl
@[simp] theorem State.withFree_mem (s : State) (v : Nat) : (s.withFree v).mem = s.mem := rfl
@[simp] theorem State.withFree_host (s : State) (v : Nat) : (s.withFree v).host = s.host := rfl
@[simp] theorem State.withFree_part (s : State) (v : Nat) : (s.withFree v).part = s.part := rfl
@[simp] theorem State.withFree_folios (s : State) (v : Nat) : (s.withFree v).folios = s.folios := rfl
@[simp] theorem State.withFree_tables (s : State) (v : Nat) : (s.withFree v).tables = s.tables := rfl
@[simp] theorem State.withFree_tableWait (s : State) (v : Nat) : (s.withFree v).tableWait = s.tableWait := rfl
@[simp] theorem State.withFree_jobs (s : State) (v : Nat) : (s.withFree v).jobs = s.jobs := rfl
@[simp] theorem State.withFree_sys (s : State) (v : Nat) : (s.withFree v).sys = s.sys := rfl
@[simp] theorem State.withFree_cores (s : State) (v : Nat) : (s.withFree v).cores = s.cores := rfl
@[simp] theorem State.withFree_clus (s : State) (v : Nat) : (s.withFree v).clus = s.clus := rfl
@[simp] theorem State.withFree_topo (s : State) (v : Nat) : (s.withFree v).topo = s.topo := rfl
@[simp] theorem State.withFree_links (s : State) (v : Nat) : (s.withFree v).links = s.links := rfl
@[simp] theorem State.withFree_ports (s : State) (v : Nat) : (s.withFree v).ports = s.ports := rfl
@[simp] theorem State.withFree_video (s : State) (v : Nat) : (s.withFree v).video = s.video := rfl
@[simp] theorem State.withFree_chans (s : State) (v : Nat) : (s.withFree v).chans = s.chans := rfl
@[simp] theorem State.withFree_integ (s : State) (v : Nat) : (s.withFree v).integ = s.integ := rfl
@[simp] theorem State.withFree_mgmt (s : State) (v : Nat) : (s.withFree v).mgmt = s.mgmt := rfl
@[simp] theorem State.withFree_pins (s : State) (v : Nat) : (s.withFree v).pins = s.pins := rfl
@[simp] theorem State.withFree_free (s : State) (v : Nat) : (s.withFree v).free = v := rfl
@[simp] theorem State.withFree_out (s : State) (v : Nat) : (s.withFree v).out = s.out := rfl
@[simp] theorem State.withOut_pending (s : State) (v : List Out) : (s.withOut v).pending = s.pending := rfl
@[simp] theorem State.withOut_held (s : State) (v : List Out) : (s.withOut v).held = s.held := rfl
@[simp] theorem State.withOut_fuses (s : State) (v : List Out) : (s.withOut v).fuses = s.fuses := rfl
@[simp] theorem State.withOut_flash (s : State) (v : List Out) : (s.withOut v).flash = s.flash := rfl
@[simp] theorem State.withOut_boot (s : State) (v : List Out) : (s.withOut v).boot = s.boot := rfl
@[simp] theorem State.withOut_clk (s : State) (v : List Out) : (s.withOut v).clk = s.clk := rfl
@[simp] theorem State.withOut_isl (s : State) (v : List Out) : (s.withOut v).isl = s.isl := rfl
@[simp] theorem State.withOut_rings (s : State) (v : List Out) : (s.withOut v).rings = s.rings := rfl
@[simp] theorem State.withOut_irq (s : State) (v : List Out) : (s.withOut v).irq = s.irq := rfl
@[simp] theorem State.withOut_mbx (s : State) (v : List Out) : (s.withOut v).mbx = s.mbx := rfl
@[simp] theorem State.withOut_mem (s : State) (v : List Out) : (s.withOut v).mem = s.mem := rfl
@[simp] theorem State.withOut_host (s : State) (v : List Out) : (s.withOut v).host = s.host := rfl
@[simp] theorem State.withOut_part (s : State) (v : List Out) : (s.withOut v).part = s.part := rfl
@[simp] theorem State.withOut_folios (s : State) (v : List Out) : (s.withOut v).folios = s.folios := rfl
@[simp] theorem State.withOut_tables (s : State) (v : List Out) : (s.withOut v).tables = s.tables := rfl
@[simp] theorem State.withOut_tableWait (s : State) (v : List Out) : (s.withOut v).tableWait = s.tableWait := rfl
@[simp] theorem State.withOut_jobs (s : State) (v : List Out) : (s.withOut v).jobs = s.jobs := rfl
@[simp] theorem State.withOut_sys (s : State) (v : List Out) : (s.withOut v).sys = s.sys := rfl
@[simp] theorem State.withOut_cores (s : State) (v : List Out) : (s.withOut v).cores = s.cores := rfl
@[simp] theorem State.withOut_clus (s : State) (v : List Out) : (s.withOut v).clus = s.clus := rfl
@[simp] theorem State.withOut_topo (s : State) (v : List Out) : (s.withOut v).topo = s.topo := rfl
@[simp] theorem State.withOut_links (s : State) (v : List Out) : (s.withOut v).links = s.links := rfl
@[simp] theorem State.withOut_ports (s : State) (v : List Out) : (s.withOut v).ports = s.ports := rfl
@[simp] theorem State.withOut_video (s : State) (v : List Out) : (s.withOut v).video = s.video := rfl
@[simp] theorem State.withOut_chans (s : State) (v : List Out) : (s.withOut v).chans = s.chans := rfl
@[simp] theorem State.withOut_integ (s : State) (v : List Out) : (s.withOut v).integ = s.integ := rfl
@[simp] theorem State.withOut_mgmt (s : State) (v : List Out) : (s.withOut v).mgmt = s.mgmt := rfl
@[simp] theorem State.withOut_pins (s : State) (v : List Out) : (s.withOut v).pins = s.pins := rfl
@[simp] theorem State.withOut_free (s : State) (v : List Out) : (s.withOut v).free = s.free := rfl
@[simp] theorem State.withOut_out (s : State) (v : List Out) : (s.withOut v).out = v := rfl
end Sys2Proof.Machine
end

