-- ==== Sys2Proof/Laws/Objects.lean ====
section
/-!
SUPPORT. What the numbered objects read as after one of them has been changed, and what a record can change.
-/
namespace Sys2Proof.Machine

open Sys2Proof

@[simp] theorem State.ring_modRing (s : State) (n : Nat) (f : Ring → Ring) (m : Nat) :
    (s.modRing n f).ring m = if m = n then f (s.ring n) else s.ring m := by
  show SMap.get _ (SMap.modify _ _ _ _) _ = _; rw [SMap.get_modify]; rfl

@[simp] theorem State.island_modIsl (s : State) (n : Nat) (f : Island → Island) (m : Nat) :
    (s.modIsl n f).island m = if m = n then f (s.island n) else s.island m := by
  show SMap.get _ (SMap.modify _ _ _ _) _ = _; rw [SMap.get_modify]; rfl

@[simp] theorem State.job_setJob (s : State) (k : Nat) (j : Option Job) (m : Nat) :
    (s.setJob k j).job m = if m = k then j else s.job m := by
  show SMap.get _ (SMap.set _ _ _ _) _ = _; rw [SMap.get_set]; rfl

@[simp] theorem State.job_modJob (s : State) (k : Nat) (f : Job → Job) (m : Nat) :
    (s.modJob k f).job m = if m = k then (s.job k).map f else s.job m := by
  show SMap.get _ (SMap.modify _ _ _ _) _ = _; rw [SMap.get_modify]; rfl

@[simp] theorem State.core_modCore (s : State) (c : Nat) (f : CoreSt → CoreSt) (m : Nat) :
    (s.modCore c f).core m = if m = c then f (s.core c) else s.core m := by
  show SMap.get _ (SMap.modify _ _ _ _) _ = _; rw [SMap.get_modify]; rfl

@[simp] theorem State.cluster_modClu (s : State) (n : Nat) (f : Cluster → Cluster) (m : Nat) :
    (s.modClu n f).cluster m = if m = n then f (s.cluster n) else s.cluster m := by
  show SMap.get _ (SMap.modify _ _ _ _) _ = _; rw [SMap.get_modify]; rfl

@[simp] theorem State.link_modLink (s : State) (n : Nat) (f : Link → Link) (m : Nat) :
    (s.modLink n f).link m = if m = n then f (s.link n) else s.link m := by
  show SMap.get _ (SMap.modify _ _ _ _) _ = _; rw [SMap.get_modify]; rfl

@[simp] theorem State.port_modPort (s : State) (n : Nat) (f : Port → Port) (m : Nat) :
    (s.modPort n f).port m = if m = n then f (s.port n) else s.port m := by
  show SMap.get _ (SMap.modify _ _ _ _) _ = _; rw [SMap.get_modify]; rfl

@[simp] theorem State.engine_modEngine (s : State) (n : Nat) (f : Engine → Engine) (m : Nat) :
    (s.modEngine n f).engine m = if m = n then f (s.engine n) else s.engine m := by
  show SMap.get _ (SMap.modify _ _ _ _) _ = _; rw [SMap.get_modify]; rfl

@[simp] theorem State.chan_modChan (s : State) (n : Nat) (f : Chan → Chan) (m : Nat) :
    (s.modChan n f).chan m = if m = n then f (s.chan n) else s.chan m := by
  show SMap.get _ (SMap.modify _ _ _ _) _ = _; rw [SMap.get_modify]; rfl

/-! ## What a record can change -/

/-- Two states differ at most in the rings, the memories, the host's side, the terminals, and `sys`. -/
structure State.SameButIo (s t : State) : Prop where
  pending : t.pending = s.pending
  held : t.held = s.held
  fuses : t.fuses = s.fuses
  flash : t.flash = s.flash
  boot : t.boot = s.boot
  clk : t.clk = s.clk
  isl : t.isl = s.isl
  irq : t.irq = s.irq
  mbx : t.mbx = s.mbx
  part : t.part = s.part
  folios : t.folios = s.folios
  tables : t.tables = s.tables
  tableWait : t.tableWait = s.tableWait
  jobs : t.jobs = s.jobs
  cores : t.cores = s.cores
  clus : t.clus = s.clus
  topo : t.topo = s.topo
  links : t.links = s.links
  ports : t.ports = s.ports
  video : t.video = s.video
  chans : t.chans = s.chans
  integ : t.integ = s.integ
  mgmt : t.mgmt = s.mgmt
  pins : t.pins = s.pins
  free : t.free = s.free

theorem State.SameButIo.refl (s : State) : s.SameButIo s :=
  ⟨rfl, rfl, rfl, rfl, rfl, rfl, rfl, rfl, rfl, rfl, rfl, rfl, rfl, rfl, rfl, rfl, rfl, rfl, rfl, rfl, rfl, rfl, rfl, rfl, rfl⟩

theorem State.SameButIo.trans {s t u : State} (h : s.SameButIo t) (g : t.SameButIo u) : s.SameButIo u :=
  ⟨g.pending.trans h.pending, g.held.trans h.held, g.fuses.trans h.fuses, g.flash.trans h.flash, g.boot.trans h.boot, g.clk.trans h.clk,
   g.isl.trans h.isl, g.irq.trans h.irq, g.mbx.trans h.mbx, g.part.trans h.part, g.folios.trans h.folios, g.tables.trans
   h.tables, g.tableWait.trans h.tableWait, g.jobs.trans h.jobs, g.cores.trans h.cores, g.clus.trans h.clus, g.topo.trans
   h.topo, g.links.trans h.links, g.ports.trans h.ports, g.video.trans h.video, g.chans.trans h.chans, g.integ.trans
   h.integ, g.mgmt.trans h.mgmt, g.pins.trans h.pins, g.free.trans h.free⟩

/-- Such a state, written out. -/
theorem State.SameButIo.eq {s t : State} (h : s.SameButIo t) :
    t = ((((s.withRings t.rings).withMem t.mem).withHost t.host).withOut t.out).withSys t.sys := by
  obtain ⟨h0, h1, h2, h3, h4, h5, h6, h7, h8, h9, h10, h11, h12, h13, h14, h15, h16, h17, h18, h19, h20, h21, h22, h23, h24⟩ := h
  cases s; cases t
  simp only [State.withRings, State.withMem, State.withHost, State.withOut, State.withSys] at *
  simp only [*]

theorem State.sameButIo_modRing (s : State) (n : Nat) (f : Ring → Ring) : s.SameButIo (s.modRing n f) :=
  ⟨rfl, rfl, rfl, rfl, rfl, rfl, rfl, rfl, rfl, rfl, rfl, rfl, rfl, rfl, rfl, rfl, rfl, rfl, rfl, rfl, rfl, rfl, rfl, rfl, rfl⟩
theorem State.sameButIo_modSys (s : State) (f : Sys → Sys) : s.SameButIo (s.modSys f) :=
  ⟨rfl, rfl, rfl, rfl, rfl, rfl, rfl, rfl, rfl, rfl, rfl, rfl, rfl, rfl, rfl, rfl, rfl, rfl, rfl, rfl, rfl, rfl, rfl, rfl, rfl⟩
theorem State.sameButIo_modHost (s : State) (f : HostSide → HostSide) : s.SameButIo (s.modHost f) :=
  ⟨rfl, rfl, rfl, rfl, rfl, rfl, rfl, rfl, rfl, rfl, rfl, rfl, rfl, rfl, rfl, rfl, rfl, rfl, rfl, rfl, rfl, rfl, rfl, rfl, rfl⟩
theorem State.sameButIo_emit (s : State) (o : Out) : s.SameButIo (s.emit o) :=
  ⟨rfl, rfl, rfl, rfl, rfl, rfl, rfl, rfl, rfl, rfl, rfl, rfl, rfl, rfl, rfl, rfl, rfl, rfl, rfl, rfl, rfl, rfl, rfl, rfl, rfl⟩
theorem State.sameButIo_withMem (s : State) (m : Mem) : s.SameButIo (s.withMem m) :=
  ⟨rfl, rfl, rfl, rfl, rfl, rfl, rfl, rfl, rfl, rfl, rfl, rfl, rfl, rfl, rfl, rfl, rfl, rfl, rfl, rfl, rfl, rfl, rfl, rfl, rfl⟩

theorem State.sameButIo_emitHost (s : State) (o : Out) : s.SameButIo (s.emitHost o) := by
  unfold State.emitHost; split
  · exact State.sameButIo_emit s o
  · exact State.sameButIo_modHost s _

theorem State.sameButIo_each {α : Type} {f : State → α → State} (hf : ∀ (s : State) (x : α), s.SameButIo (f s x)) (xs : List α) (s : State) :
    s.SameButIo (s.each xs f) := by
  unfold State.each
  induction xs generalizing s with
  | nil => exact State.SameButIo.refl s
  | cons x xs ih => exact (hf s x).trans (ih (f s x))

theorem State.sameButIo_writeLine (s : State) (l : Nat) (ws : List (Nat × Byte)) : s.SameButIo (s.writeLine l ws) := by
  unfold State.writeLine
  split
  · refine State.sameButIo_each ?_ ws s
    intro t w
    exact State.sameButIo_modHost t _
  · split
    · exact State.SameButIo.refl s
    · split
      · dsimp only
        split
        · exact State.sameButIo_modHost s _
        · exact (State.sameButIo_emitHost s _).trans (State.sameButIo_modHost _ _)
      · exact State.sameButIo_withMem s _

/-- A device write changes nothing else. -/
theorem State.sameButIo_devWrite (s : State) (a : Nat) (bs : List Byte) : s.SameButIo (s.devWrite a bs) := by
  unfold State.devWrite
  refine State.sameButIo_each ?_ _ s
  intro t c
  exact State.sameButIo_writeLine t c.1 c.2

theorem State.sameButIo_dstWrite (s : State) (host : Bool) (a : Nat) (bs : List Byte) : s.SameButIo (s.dstWrite host a bs) := by
  unfold State.dstWrite; split
  · exact State.sameButIo_modHost s _
  · exact State.sameButIo_devWrite s a bs

theorem State.sameButIo_ringNoted (s : State) (n : Nat) : s.SameButIo (s.ringNoted n) := by
  unfold State.ringNoted; split
  · exact State.sameButIo_modRing s n _
  · split
    · exact (State.sameButIo_emitHost s _).trans (State.sameButIo_modRing _ n _)
    · exact State.SameButIo.refl s

theorem State.sameButIo_queueRec (s : State) (n : Nat) (r : Rec) : s.SameButIo (s.queueRec n r) := by
  unfold State.queueRec; split
  · exact ((State.sameButIo_dstWrite s _ _ _).trans (State.sameButIo_modRing _ n _)).trans (State.sameButIo_ringNoted _ n)
  · exact State.sameButIo_modRing s n _

theorem State.sameButIo_sendStall (s : State) (n : Nat) (r : Rec) : s.SameButIo (s.sendStall n r) := by
  unfold State.sendStall
  exact (State.sameButIo_queueRec s n r).trans (State.sameButIo_modRing _ n _)

/-- All that a record can change. -/
theorem State.sameButIo_sendRec (s : State) (n : Nat) (r : Rec) : s.SameButIo (s.sendRec n r) := by
  unfold State.sendRec; split
  · split
    · exact (State.sameButIo_modSys s _).trans (State.sameButIo_sendStall _ n _)
    · exact State.sameButIo_queueRec s n r
  · exact State.sameButIo_queueRec s n r

theorem State.sameButIo_reply (s : State) (n op : Nat) (p : Pkt) (r : Refuse) : s.SameButIo (s.reply n op p r) :=
  State.sameButIo_sendRec s n _

theorem State.sameButIo_accept (s : State) (n op : Nat) (p : Pkt) (k : OpKind) (d : DWord) : s.SameButIo (s.accept n op p k d) := by
  unfold State.accept State.owe
  exact ((State.sameButIo_sendRec s n _).trans (State.sameButIo_modRing _ _ _)).trans (State.sameButIo_modSys _ _)

theorem State.sameButIo_finishOp (s : State) (o : Op) (st rs : Nat) (d : DWord) : s.SameButIo (s.finishOp o st rs d) := by
  unfold State.finishOp State.dropOp
  exact ((State.sameButIo_modRing s _ _).trans (State.sameButIo_modSys _ _)).trans (State.sameButIo_sendRec _ _ _)

/-- A ring command, once its packet passes every check. -/
theorem State.command_passes {s : State} {n op : Nat} {p : Pkt} {plenOk : Nat → Bool} {a b : Option Refuse} {run : State → State}
    (hf : s.fetchable n p = true) (h : (s.headerCheck n op true plenOk p).or (a.or ((s.stateCheck op).or b)) = none) :
    s.command n op p plenOk a b run = run (s.fetched n p) := by
  simp only [State.command, hf, if_true, State.serve, h]

/-- A ring command whose first failing check is `r`. -/
theorem State.command_refused {s : State} {n op : Nat} {p : Pkt} {plenOk : Nat → Bool} {a b : Option Refuse} {run : State → State}
    {r : Refuse} (hf : s.fetchable n p = true)
    (h : (s.headerCheck n op true plenOk p).or (a.or ((s.stateCheck op).or b)) = some r) :
    s.command n op p plenOk a b run = (s.fetched n p).reply n op p r := by
  simp only [State.command, hf, if_true, State.serve, h]

theorem State.command_waits {s : State} {n op : Nat} {p : Pkt} {plenOk : Nat → Bool} {a b : Option Refuse} {run : State → State}
    (hf : s.fetchable n p = false) : s.command n op p plenOk a b run = s := by
  simp only [State.command, hf, Bool.false_eq_true, if_false]

end Sys2Proof.Machine
end

