-- ==== Sys2Proof/Laws/Core.lean ====
section
/-!
SUPPORT. What the shared operations of the core instructions do: registers, flags and predicates under a mask, and the vector forms.
-/
namespace Sys2Proof.Machine

open Sys2Proof

theorem bitsFn_bit (f : Nat → Bool) (n i : Nat) : (bitsFn f n).testBit i = (decide (i < n) && f i) := by
  have hlt : ∀ n, bitsFn f n < 2 ^ n := by
    intro n
    induction n with
    | zero => simp [bitsFn]
    | succ n ih => unfold bitsFn; rw [Nat.pow_succ]; split <;> omega
  induction n with
  | zero => simp [bitsFn]
  | succ n ih =>
    unfold bitsFn
    by_cases hf : f n = true
    · rw [if_pos hf, Nat.add_comm]
      rcases Nat.lt_trichotomy i n with h | h | h
      · rw [Nat.testBit_two_pow_add_gt h, ih]; simp [h, Nat.lt_succ_of_lt h]
      · subst h; rw [Nat.testBit_two_pow_add_eq, ih]; simp [hf]
      · have : bitsFn f n + 2 ^ n < 2 ^ i := by
          have := hlt n
          calc bitsFn f n + 2 ^ n < 2 ^ n + 2 ^ n := by omega
            _ = 2 ^ (n + 1) := by rw [Nat.pow_succ]; omega
            _ ≤ 2 ^ i := Nat.pow_le_pow_right (by decide) h
        rw [Nat.add_comm, Nat.testBit_lt_two_pow this]; simp; omega
    · simp only [Bool.not_eq_true] at hf
      rw [hf]; simp only [Bool.false_eq_true, if_false, Nat.add_zero, ih]
      rcases Nat.lt_trichotomy i n with h | h | h
      · simp [h, Nat.lt_succ_of_lt h]
      · subst h; simp [hf]
      · have : ¬ i < n := by omega
        have : ¬ i < n + 1 := by omega
        simp [*]

/-- A predicate holds the bits that it is made of. -/
theorem predOf_bit (f : Nat → Bool) (i : Nat) (h : i < 512) : (predOf f).getLsbD i = f i := by
  simp only [predOf, BitVec.getLsbD_ofNat, h, decide_true, Bool.true_and, bitsFn_bit]

theorem lanesFlags_foldl (act : Nat → Bool) (f : Nat → Half) (b : Nat) (xs : List Nat) (h : Half) :
    (xs.foldl (fun h i => if act i then h ||| f i else h) h).getLsbD b = (h.getLsbD b || xs.any fun i => act i && (f i).getLsbD b) := by
  induction xs generalizing h with
  | nil => simp
  | cons x xs ih =>
    rw [List.foldl_cons, ih, List.any_cons]
    cases hx : act x <;> simp [Bool.or_assoc]

/-- The flags of lanes are those of its active lanes. -/
theorem lanesFlags_bit (act : Nat → Bool) (f : Nat → Half) (b : Nat) :
    (lanesFlags act f).getLsbD b = (List.range 512).any fun i => act i && (f i).getLsbD b := by
  rw [lanesFlags, lanesFlags_foldl]; simp

theorem CoreSt.putTreg_lane (x : CoreSt) (k n : Nat) (f : Nat → Word) (m i : Nat) :
    (x.putTreg k n f).lane m i = if m = n then (if i < 512 then f i else 0) else x.lane m i := by
  simp only [CoreSt.lane, CoreSt.putTreg, SMap.get_set]
  split
  · simp only [SMap.get_ofFn]
  · rfl

theorem CoreSt.putTreg_owner (x : CoreSt) (k n : Nat) (f : Nat → Word) (m : Nat) :
    ((x.putTreg k n f).tregs.get TReg.empty m).owner = if m = n then some k else (x.tregs.get TReg.empty m).owner := by
  simp only [CoreSt.putTreg, SMap.get_set]; split <;> rfl

theorem CoreSt.modCtx_get (x : CoreSt) (k : Nat) (f : Ctx → Ctx) (j : Nat) :
    (x.modCtx k f).ctxs.get Ctx.empty j = if j = k then f (x.ctxs.get Ctx.empty k) else x.ctxs.get Ctx.empty j := by
  simp only [CoreSt.modCtx, SMap.get_modify]

theorem CoreSt.raise_lane (x : CoreSt) (k : Nat) (h : Half) (n i : Nat) : (x.raise k h).lane n i = x.lane n i := rfl

theorem CoreSt.raise_ctx (x : CoreSt) (k : Nat) (h : Half) (j : Nat) : (x.raise k h).ctxs.get Ctx.empty j =
    if j = k then { x.ctxs.get Ctx.empty k with flags := (x.ctxs.get Ctx.empty k).flags ||| h } else x.ctxs.get Ctx.empty j :=
  CoreSt.modCtx_get x k _ j

theorem CoreSt.putLanes_ctxs (x : CoreSt) (k n : Nat) (m : Mask) (f : Nat → Word) : (x.putLanes k n m f).ctxs = x.ctxs := by
  unfold CoreSt.putLanes CoreSt.putTreg; rfl

theorem CoreSt.putLanes_lane (x : CoreSt) (k n : Nat) (m : Mask) (f : Nat → Word) (r i : Nat) (h : i < 512) :
    (x.putLanes k n m f).lane r i = if r = n then
      (if (x.ctxs.get Ctx.empty k).act m.pred i then f i else if m.zero then 0 else x.lane n i) else x.lane r i := by
  unfold CoreSt.putLanes
  rw [CoreSt.putTreg_lane, if_pos h]

/-- The lanes that a vector result leaves in its register and in the others. -/
theorem CoreSt.putVec_lane (x : CoreSt) (k n : Nat) (m : Mask) (f : Nat → FW) (r i : Nat) (h : i < 512) :
    (x.putVec k n m f).lane r i = if r = n then
      (if (x.ctxs.get Ctx.empty k).act m.pred i then (f i).1 else if m.zero then 0 else x.lane n i) else x.lane r i := by
  unfold CoreSt.putVec
  rw [CoreSt.raise_lane, CoreSt.putLanes_lane x k n m _ r i h]

/-- The contexts that a vector result leaves: the flag word of the job gains bits. -/
theorem CoreSt.putVec_ctx (x : CoreSt) (k n : Nat) (m : Mask) (f : Nat → FW) (j : Nat) :
    (x.putVec k n m f).ctxs.get Ctx.empty j = if j = k then { x.ctxs.get Ctx.empty k with
      flags := (x.ctxs.get Ctx.empty k).flags ||| lanesFlags ((x.ctxs.get Ctx.empty k).act m.pred) fun i => (f i).2 }
      else x.ctxs.get Ctx.empty j := by
  unfold CoreSt.putVec
  rw [CoreSt.raise_ctx, CoreSt.putLanes_ctxs]

/-- The three ways of an instruction's issue (R125): it runs, it joins those that are held, or it is not the core's. -/
theorem State.issue_cases (s : State) (i : Instr) (r : CoreRef) (regs : List Nat) (go : State → State) :
    (s.ready r regs = true ∧ s.issue i r regs go = go s) ∨
    (s.ready r regs = false ∧ s.issue i r regs go = s.withHeld (s.held ++ [⟨.issue r regs, i⟩])) ∨
    (s.ready r regs = false ∧ s.issue i r regs go = s) := by
  unfold State.issue
  split
  · exact .inl ⟨‹_›, rfl⟩
  · rename_i h
    have h := Bool.eq_false_iff.2 h
    split
    · exact .inr (.inl ⟨h, rfl⟩)
    · exact .inr (.inr ⟨h, rfl⟩)

theorem State.issue_ready {s : State} (i : Instr) {r : CoreRef} {regs : List Nat} (go : State → State) (h : s.ready r regs = true) :
    s.issue i r regs go = go s := if_pos h

/-- A vector instruction that issues and meets no upset. -/
theorem State.vecOp_issues {s : State} (i : Instr) {r : CoreRef} {reads : List Nat} {d : Nat} (m : Mask) (arith : Bool)
    (f : CoreSt → Nat → FW) (h : s.ready r (d :: reads) = true) :
    s.vecOp i r .none reads d m arith f = s.modCore r.core fun x => x.putVec r.slot d m (f x) := State.issue_ready i _ h

/-- One that does not issue changes nothing but what is held. -/
theorem State.vecOp_held {s : State} (i : Instr) {r : CoreRef} {reads : List Nat} {d : Nat} (u : Upset) (m : Mask) (arith : Bool)
    (f : CoreSt → Nat → FW) (h : s.ready r (d :: reads) = false) :
    s.vecOp i r u reads d m arith f = s.withHeld (s.vecOp i r u reads d m arith f).held := by
  unfold State.vecOp
  obtain ⟨g, -⟩ | ⟨-, e⟩ | ⟨-, e⟩ := State.issue_cases s i r (d :: reads) fun s =>
    s.checked r u (fun t e => reads.contains t && s.active r m e) d (fun e => arith && s.active r m e) fun s =>
      s.modCore r.core fun x => x.putVec r.slot d m (f x)
  · rw [h] at g; cases g
  · rw [e]; rfl
  · rw [e]; rfl

theorem State.vecPred_issues {s : State} (i : Instr) {r : CoreRef} {reads : List Nat} {p : Nat} (m : Mask) (f : CoreSt → Nat → Bool)
    (h : s.ready r reads = true) : s.vecPred i r .none reads p m f = s.modCore r.core fun x => x.putPred r.slot p m (f x) :=
  State.issue_ready i _ h

end Sys2Proof.Machine
end

