-- ==== Sys2Proof/Laws/Memory.lean ====
section
/-!
SUPPORT. Every operation on the memories keeps their canonical form (`State.memWf`), up to the operations that the families share:
writes of the device and of the host, the line cache, records, the end of a job, a detection, a hold.
-/
namespace Sys2Proof.Machine

open Sys2Proof

/-! ## The form -/

theorem State.memWf_iff (s : State) : s.memWf = true ↔ (s.mem.wf = true ∧ SMap.wf 0 s.host.mem = true ∧ SMap.wf 0xFF s.flash = true) ∧
    ∀ kv ∈ s.cores, SMap.wf 0 kv.2.well = true := by
  simp only [State.memWf, Bool.and_eq_true, List.all_eq_true, and_assoc]

/-- The form depends on four fields alone. -/
theorem State.memWf_congr {s t : State} (h : s.memWf = true) (hm : t.mem = s.mem) (hh : t.host.mem = s.host.mem) (hf : t.flash = s.flash)
    (hc : t.cores = s.cores) : t.memWf = true := by
  unfold State.memWf at *; rw [hm, hh, hf, hc]; exact h

/-- A loop of steps that keep the form keeps it. -/
theorem State.memWf_each {α : Type} {f : State → α → State} {xs : List α} {s : State} (h : s.memWf = true)
    (hf : ∀ s x, s.memWf = true → (f s x).memWf = true) : (s.each xs f).memWf = true := by
  unfold State.each
  induction xs generalizing s with
  | nil => exact h
  | cons x xs ih => exact ih (hf s x h)

theorem State.memWf_when {f : State → State} (b : Bool) (hf : ∀ s, s.memWf = true → (f s).memWf = true) {s : State} (h : s.memWf = true) :
    (s.when b f).memWf = true := by
  unfold State.when; split
  · exact hf s h
  · exact h

/-! ## Fields that the form does not read -/

@[simp] theorem State.memWf_withPending (s : State) (v : List Instr) : (s.withPending v).memWf = s.memWf := rfl
@[simp] theorem State.memWf_withHeld (s : State) (v : List Held) : (s.withHeld v).memWf = s.memWf := rfl
@[simp] theorem State.memWf_withFuses (s : State) (v : Fuses) : (s.withFuses v).memWf = s.memWf := rfl
@[simp] theorem State.memWf_withBoot (s : State) (v : Boot) : (s.withBoot v).memWf = s.memWf := rfl
@[simp] theorem State.memWf_withClk (s : State) (v : Clock) : (s.withClk v).memWf = s.memWf := rfl
@[simp] theorem State.memWf_withIsl (s : State) (v : SMap Island) : (s.withIsl v).memWf = s.memWf := rfl
@[simp] theorem State.memWf_withRings (s : State) (v : SMap Ring) : (s.withRings v).memWf = s.memWf := rfl
@[simp] theorem State.memWf_withIrq (s : State) (v : Irq) : (s.withIrq v).memWf = s.memWf := rfl
@[simp] theorem State.memWf_withMbx (s : State) (v : Mbx) : (s.withMbx v).memWf = s.memWf := rfl
@[simp] theorem State.memWf_withPart (s : State) (v : Part) : (s.withPart v).memWf = s.memWf := rfl
@[simp] theorem State.memWf_withFolios (s : State) (v : List Folio) : (s.withFolios v).memWf = s.memWf := rfl
@[simp] theorem State.memWf_withTables (s : State) (v : SMap (Option Table)) : (s.withTables v).memWf = s.memWf := rfl
@[simp] theorem State.memWf_withTableWait (s : State) (v : SMap (Option TableWait)) : (s.withTableWait v).memWf = s.memWf := rfl
@[simp] theorem State.memWf_withJobs (s : State) (v : SMap (Option Job)) : (s.withJobs v).memWf = s.memWf := rfl
@[simp] theorem State.memWf_withSys (s : State) (v : Sys) : (s.withSys v).memWf = s.memWf := rfl
@[simp] theorem State.memWf_withClus (s : State) (v : SMap Cluster) : (s.withClus v).memWf = s.memWf := rfl
@[simp] theorem State.memWf_withTopo (s : State) (v : Topo) : (s.withTopo v).memWf = s.memWf := rfl
@[simp] theorem State.memWf_withLinks (s : State) (v : SMap Link) : (s.withLinks v).memWf = s.memWf := rfl
@[simp] theorem State.memWf_withPorts (s : State) (v : SMap Port) : (s.withPorts v).memWf = s.memWf := rfl
@[simp] theorem State.memWf_withVideo (s : State) (v : SMap Engine) : (s.withVideo v).memWf = s.memWf := rfl
@[simp] theorem State.memWf_withChans (s : State) (v : SMap Chan) : (s.withChans v).memWf = s.memWf := rfl
@[simp] theorem State.memWf_withInteg (s : State) (v : Integ) : (s.withInteg v).memWf = s.memWf := rfl
@[simp] theorem State.memWf_withMgmt (s : State) (v : Mgmt) : (s.withMgmt v).memWf = s.memWf := rfl
@[simp] theorem State.memWf_withPins (s : State) (v : Pins) : (s.withPins v).memWf = s.memWf := rfl
@[simp] theorem State.memWf_withFree (s : State) (v : Nat) : (s.withFree v).memWf = s.memWf := rfl
@[simp] theorem State.memWf_withOut (s : State) (v : List Out) : (s.withOut v).memWf = s.memWf := rfl
@[simp] theorem State.memWf_modRing (s : State) (n : Nat) (f : Ring → Ring) : (s.modRing n f).memWf = s.memWf := rfl
@[simp] theorem State.memWf_modIsl (s : State) (n : Nat) (f : Island → Island) : (s.modIsl n f).memWf = s.memWf := rfl
@[simp] theorem State.memWf_modJob (s : State) (n : Nat) (f : Job → Job) : (s.modJob n f).memWf = s.memWf := rfl
@[simp] theorem State.memWf_modClu (s : State) (n : Nat) (f : Cluster → Cluster) : (s.modClu n f).memWf = s.memWf := rfl
@[simp] theorem State.memWf_modLink (s : State) (n : Nat) (f : Link → Link) : (s.modLink n f).memWf = s.memWf := rfl
@[simp] theorem State.memWf_modPort (s : State) (n : Nat) (f : Port → Port) : (s.modPort n f).memWf = s.memWf := rfl
@[simp] theorem State.memWf_modEngine (s : State) (n : Nat) (f : Engine → Engine) : (s.modEngine n f).memWf = s.memWf := rfl
@[simp] theorem State.memWf_modChan (s : State) (n : Nat) (f : Chan → Chan) : (s.modChan n f).memWf = s.memWf := rfl
@[simp] theorem State.memWf_modSys (s : State) (f : Sys → Sys) : (s.modSys f).memWf = s.memWf := rfl
@[simp] theorem State.memWf_modBoot (s : State) (f : Boot → Boot) : (s.modBoot f).memWf = s.memWf := rfl
@[simp] theorem State.memWf_modInteg (s : State) (f : Integ → Integ) : (s.modInteg f).memWf = s.memWf := rfl
@[simp] theorem State.memWf_setJob (s : State) (k : Nat) (j : Option Job) : (s.setJob k j).memWf = s.memWf := rfl
@[simp] theorem State.memWf_took (s : State) : s.took.memWf = s.memWf := rfl
@[simp] theorem State.memWf_countFault (s : State) : s.countFault.memWf = s.memWf := rfl

/-! ## Device memory and host memory -/

theorem Mem.wf_iff (m : Mem) : m.wf = true ↔ SMap.wf 0 m.bytes = true ∧ SMap.wf 0 m.synd = true ∧ SMap.wf 0 m.cached = true := by
  simp only [Mem.wf, Bool.and_eq_true, and_assoc]

theorem Mem.wf_putBytes (m : Mem) (ws : List (Nat × Byte)) (h : m.wf = true) : (m.putBytes ws).wf = true := by
  rw [Mem.wf_iff] at *
  exact ⟨SMap.wf_foldl 0 _ ws m.bytes (fun b w hb => SMap.wf_set 0 w.1 w.2 b hb) h.1, h.2⟩

theorem Mem.wf_putLine (m : Mem) (line : Nat) (ws : List (Nat × Byte)) (d : Bool) (h : m.wf = true) : (m.putLine line ws d).wf = true := by
  have h' := (Mem.wf_iff _).1 (Mem.wf_putBytes m ws h)
  rw [Mem.wf_iff]; unfold Mem.putLine; dsimp only
  refine ⟨h'.1, SMap.wf_set 0 line 0 _ h'.2.1, ?_⟩
  split
  · exact SMap.wf_set 0 _ _ _ h'.2.2
  · exact h'.2.2

theorem HostSide.wf_put (h : HostSide) (a : Nat) (bs : List Byte) (hw : SMap.wf 0 h.mem = true) : SMap.wf 0 (h.put a bs).mem = true :=
  SMap.wf_foldl 0 _ _ h.mem (fun m bi hm => SMap.wf_set 0 _ bi.1 m hm) hw

theorem State.memWf_withMem {s : State} {m : Mem} (h : s.memWf = true) (hm : m.wf = true) : (s.withMem m).memWf = true := by
  rw [State.memWf_iff] at *; exact ⟨⟨hm, h.1.2⟩, h.2⟩

theorem State.memWf_withHost {s : State} {v : HostSide} (h : s.memWf = true) (hv : SMap.wf 0 v.mem = true) : (s.withHost v).memWf = true := by
  rw [State.memWf_iff] at *; exact ⟨⟨h.1.1, hv, h.1.2.2⟩, h.2⟩

theorem State.memWf_host {s : State} (h : s.memWf = true) : SMap.wf 0 s.host.mem = true := ((State.memWf_iff s).1 h).1.2.1
theorem State.memWf_mem {s : State} (h : s.memWf = true) : s.mem.wf = true := ((State.memWf_iff s).1 h).1.1

theorem State.memWf_emit {s : State} (o : Out) (h : s.memWf = true) : (s.emit o).memWf = true := State.memWf_congr h rfl rfl rfl rfl

theorem State.memWf_emitHost {s : State} (o : Out) (h : s.memWf = true) : (s.emitHost o).memWf = true := by
  unfold State.emitHost; split <;> exact State.memWf_congr h rfl rfl rfl rfl

theorem State.memWf_hostWrite {s : State} (a : Nat) (bs : List Byte) (h : s.memWf = true) : (s.hostWrite a bs).memWf = true := by
  unfold State.hostWrite State.modHost
  refine State.memWf_withHost h ?_
  dsimp only
  split
  · exact HostSide.wf_put _ _ _ (State.memWf_host h)
  · exact State.memWf_host h

theorem State.memWf_writeLine {s : State} (l : Nat) (ws : List (Nat × Byte)) (h : s.memWf = true) : (s.writeLine l ws).memWf = true := by
  unfold State.writeLine
  split
  · exact State.memWf_each h fun s w hs => State.memWf_hostWrite _ _ hs
  · split
    · exact h
    · split
      · have hq : ∀ t : State, t.memWf = true → (t.modHost fun x => { x with biWait := x.biWait ++ [⟨l, ws⟩] }).memWf = true :=
          fun t ht => State.memWf_withHost ht (State.memWf_host ht)
        dsimp only
        split
        · exact hq _ h
        · exact hq _ (State.memWf_emitHost _ h)
      · exact State.memWf_withMem h (Mem.wf_putLine _ _ _ _ (State.memWf_mem h))

/-- A device write keeps the form. -/
theorem State.memWf_devWrite {s : State} (a : Nat) (bs : List Byte) (h : s.memWf = true) : (s.devWrite a bs).memWf = true := by
  unfold State.devWrite
  refine State.memWf_each h ?_
  intro t c ht
  exact State.memWf_writeLine c.1 c.2 ht

theorem State.memWf_dstWrite {s : State} (host : Bool) (a : Nat) (bs : List Byte) (h : s.memWf = true) :
    (s.dstWrite host a bs).memWf = true := by
  unfold State.dstWrite; split
  · exact State.memWf_hostWrite a bs h
  · exact State.memWf_devWrite a bs h

/-- The correction of a storage error keeps the form. -/
theorem State.memWf_correct {s : State} (l : Nat) (h : s.memWf = true) : (s.correct l).memWf = true := by
  have hm : ∀ es, (s.withMem { s.mem with errs := es }).memWf = true := fun es =>
    State.memWf_withMem h ((Mem.wf_iff _).2 ((Mem.wf_iff _).1 (State.memWf_mem h)))
  unfold State.correct
  split
  · exact h
  · split
    · dsimp only
      split
      · rw [State.memWf_modChan]; exact hm _
      · rw [State.memWf_modInteg]; exact hm _
      · exact hm _
    · exact h

theorem State.memWf_touch {s : State} (a n : Nat) (h : s.memWf = true) : (s.touch a n).memWf = true := by
  replace h := State.memWf_each (xs := linesOf a n) h fun _ l ht => State.memWf_correct l ht
  have hm := (Mem.wf_iff _).1 (State.memWf_mem h)
  refine State.memWf_withMem h ((Mem.wf_iff _).2 ⟨hm.1, hm.2.1, ?_⟩)
  refine SMap.wf_foldl 0 _ _ _ (fun c l hc => ?_) hm.2.2
  split
  · exact hc
  · split
    · exact SMap.wf_set 0 l 1 c hc
    · exact hc

theorem SMap.above_clean (b : Nat) (m : SMap Nat) (h : ∀ kv ∈ m, b < kv.1) :
    ∀ kv ∈ (m.filterMap fun kv => if kv.2 = 2 then some (kv.1, 1) else some kv), b < kv.1 := by
  intro kv hk
  obtain ⟨r, hr, he⟩ := List.mem_filterMap.1 hk
  have hb := h r hr
  split at he <;> cases he <;> exact hb

theorem SMap.wf_clean (m : SMap Nat) (h : SMap.wf 0 m = true) :
    SMap.wf 0 (m.filterMap fun kv => if kv.2 = 2 then some (kv.1, 1) else some kv) = true := by
  induction m with
  | nil => rfl
  | cons kv m ih =>
    obtain ⟨j, v⟩ := kv
    rw [SMap.wf_cons] at h
    by_cases hv : v = 2
    · simp only [List.filterMap_cons, hv, if_true]
      exact (SMap.wf_cons ..).2 ⟨by decide, SMap.above_clean j m h.2.1, ih h.2.2⟩
    · simp only [List.filterMap_cons, hv, if_false]
      exact (SMap.wf_cons ..).2 ⟨h.1, SMap.above_clean j m h.2.1, ih h.2.2⟩

theorem State.memWf_cleanCache {s : State} (h : s.memWf = true) : s.cleanCache.memWf = true := by
  have hm := (Mem.wf_iff _).1 (State.memWf_mem h)
  exact State.memWf_withMem h ((Mem.wf_iff _).2 ⟨hm.1, hm.2.1, SMap.wf_clean _ hm.2.2⟩)

/-! ## The cores' wells -/

theorem SMap.mem_set {α : Type} [DecidableEq α] (d : α) (k : Nat) (v : α) (m : SMap α) (kv : Nat × α) (h : kv ∈ SMap.set d k v m) :
    kv = (k, v) ∨ kv ∈ m := by
  unfold SMap.set at h; split at h
  · exact .inr (List.mem_filter.1 h).1
  · exact SMap.mem_insert k v m kv h

theorem SMap.get_mem {α : Type} (d : α) (m : SMap α) (k : Nat) : SMap.get d m k = d ∨ (k, SMap.get d m k) ∈ m := by
  induction m with
  | nil => exact .inl rfl
  | cons kv m ih =>
    obtain ⟨j, v⟩ := kv
    rw [SMap.get_cons]
    split
    · subst_vars; exact .inr (List.mem_cons_self ..)
    · exact ih.imp id (List.mem_cons_of_mem _)

theorem State.memWf_core {s : State} (h : s.memWf = true) (c : Nat) : SMap.wf 0 (s.core c).well = true := by
  rcases SMap.get_mem CoreSt.empty s.cores c with he | hm
  · show SMap.wf 0 (SMap.get CoreSt.empty s.cores c).well = true
    rw [he]; rfl
  · exact ((State.memWf_iff s).1 h).2 _ hm

/-- A core changed so that its well keeps the form. -/
theorem State.memWf_modCore {s : State} (c : Nat) {f : CoreSt → CoreSt} (h : s.memWf = true)
    (hf : ∀ x : CoreSt, SMap.wf 0 x.well = true → SMap.wf 0 (f x).well = true) : (s.modCore c f).memWf = true := by
  have hs := (State.memWf_iff s).1 h
  refine (State.memWf_iff _).2 ⟨hs.1, fun kv hk => ?_⟩
  rcases SMap.mem_set _ _ _ _ _ hk with rfl | hk
  · exact hf _ (State.memWf_core h c)
  · exact hs.2 kv hk

theorem State.memWf_mapCores {s : State} {f : CoreSt → CoreSt} (h : s.memWf = true)
    (hf : ∀ x : CoreSt, SMap.wf 0 x.well = true → SMap.wf 0 (f x).well = true) : (s.mapCores f).memWf = true :=
  State.memWf_each h fun _ c hs => State.memWf_modCore c hs hf

theorem CoreSt.wf_putBack (c : CoreSt) (v : Nat) (m : Mem) (a : Nat) (l : Loc) (d : LocData) (h : SMap.wf 0 c.well = true) :
    SMap.wf 0 (c.putBack v m a l d).well = true := by
  cases d <;> cases l <;> first
    | exact h
    | exact SMap.wf_foldl 0 _ _ _ (fun w kv hw => SMap.wf_set 0 _ _ w hw) (SMap.wf_filter 0 _ _ h)

/-! ## Records, events, faults -/

/-- Closes a goal whose state differs from one in form only in fields that the form does not read. -/
theorem State.memWf_same {s t : State} (h : s.memWf = true)
    (e : (t.mem, t.host.mem, t.flash, t.cores) = (s.mem, s.host.mem, s.flash, s.cores)) : t.memWf = true := by
  simp only [Prod.mk.injEq] at e
  exact State.memWf_congr h e.1 e.2.1 e.2.2.1 e.2.2.2

theorem State.memWf_sendMsi {s : State} (v : Nat) (h : s.memWf = true) : (s.sendMsi v).memWf = true := State.memWf_emitHost _ h

theorem State.memWf_ringMsg {s : State} (n : Nat) (h : s.memWf = true) : (s.ringMsg n).memWf = true :=
  State.memWf_same (State.memWf_sendMsi n h) rfl

theorem State.memWf_ringNoted {s : State} (n : Nat) (h : s.memWf = true) : (s.ringNoted n).memWf = true := by
  unfold State.ringNoted; split
  · exact State.memWf_same h rfl
  · split
    · exact State.memWf_ringMsg n h
    · exact h

theorem State.memWf_ringUnmasked {s : State} (n : Nat) (h : s.memWf = true) : (s.ringUnmasked n).memWf = true := by
  unfold State.ringUnmasked; split
  · exact State.memWf_ringMsg n h
  · exact h

theorem State.memWf_event {s : State} (k : Nat) (h : s.memWf = true) : (s.event k).memWf = true := by
  unfold State.event; split
  · exact h
  · dsimp only; split
    · exact State.memWf_sendMsi 64 (State.memWf_same h rfl)
    · exact State.memWf_same h rfl

theorem State.memWf_putRecord {s : State} (n : Nat) (r : Rec) (h : s.memWf = true) : (s.putRecord n r).memWf = true :=
  State.memWf_ringNoted n (State.memWf_same (State.memWf_dstWrite _ _ _ h) rfl)

theorem State.memWf_queueRec {s : State} (n : Nat) (r : Rec) (h : s.memWf = true) : (s.queueRec n r).memWf = true := by
  unfold State.queueRec; split
  · exact State.memWf_putRecord n r h
  · exact State.memWf_same h rfl

theorem State.memWf_sendStall {s : State} (n : Nat) (r : Rec) (h : s.memWf = true) : (s.sendStall n r).memWf = true :=
  State.memWf_same (State.memWf_queueRec n r h) rfl

/-- A record keeps the form. -/
theorem State.memWf_sendRec {s : State} (n : Nat) (r : Rec) (h : s.memWf = true) : (s.sendRec n r).memWf = true := by
  unfold State.sendRec; split
  · split
    · exact State.memWf_sendStall n _ (State.memWf_same h rfl)
    · exact State.memWf_queueRec n r h
  · exact State.memWf_queueRec n r h

theorem State.memWf_fetched {s : State} (n : Nat) (p : Pkt) (h : s.memWf = true) : (s.fetched n p).memWf = true := State.memWf_same h rfl

theorem State.memWf_reply {s : State} (n op : Nat) (p : Pkt) (r : Refuse) (h : s.memWf = true) : (s.reply n op p r).memWf = true :=
  State.memWf_sendRec n _ h

theorem State.memWf_accept {s : State} (n op : Nat) (p : Pkt) (k : OpKind) (d : DWord) (h : s.memWf = true) :
    (s.accept n op p k d).memWf = true := State.memWf_same (State.memWf_sendRec n _ h) rfl

theorem State.memWf_finishOp {s : State} (o : Op) (st rs : Nat) (d : DWord) (h : s.memWf = true) : (s.finishOp o st rs d).memWf = true :=
  State.memWf_sendRec _ _ (State.memWf_same h rfl)

/-- A ring command keeps the form when what it does after its checks does. -/
theorem State.memWf_command {s : State} (n op : Nat) (p : Pkt) (plenOk : Nat → Bool) (a b : Option Refuse) {run : State → State}
    (h : s.memWf = true) (hr : ∀ t : State, t.memWf = true → (run t).memWf = true) : (s.command n op p plenOk a b run).memWf = true := by
  unfold State.command; split
  · unfold State.serve; split
    · exact State.memWf_reply n op p _ (State.memWf_fetched n p h)
    · exact hr _ (State.memWf_fetched n p h)
  · exact h

theorem State.memWf_logFault {s : State} (e : LogEntry) (h : s.memWf = true) : (s.logFault e).memWf = true := by
  unfold State.logFault; dsimp only
  refine State.memWf_emit _ ?_
  rw [State.memWf_withMgmt]
  refine State.memWf_event 2 ?_
  rw [State.memWf_modInteg]; exact h

theorem State.memWf_sendCtrl {s : State} (p m g e : Nat) (bs : List Byte) (h : s.memWf = true) : (s.sendCtrl p m g e bs).memWf = true :=
  State.memWf_emit _ h

theorem State.memWf_floodFault {s : State} (g e r c : Nat) (h : s.memWf = true) : (s.floodFault g e r c).memWf = true := by
  unfold State.floodFault; split
  · exact h
  · dsimp only
    refine State.memWf_each (by rw [State.memWf_withTopo]; exact h) ?_
    intro t p ht
    refine State.memWf_each ht ?_
    intro u _ hu
    exact State.memWf_sendCtrl _ _ _ _ _ hu

theorem State.memWf_frameFinal {s : State} (e : Nat) (f : Frame) (st rs : Nat) (d : DWord) (h : s.memWf = true) :
    (s.frameFinal e f st rs d).memWf = true := by
  unfold State.frameFinal; dsimp only; split
  · refine State.memWf_finishOp _ _ _ _ ?_
    rw [State.memWf_modEngine]; exact h
  · rw [State.memWf_modEngine]; exact h

theorem State.memWf_endFrames {s : State} (hit : Frame → Bool) (st rs : Nat) (h : s.memWf = true) : (s.endFrames hit st rs).memWf = true := by
  unfold State.endFrames
  refine State.memWf_each h ?_
  intro t e ht
  refine State.memWf_each ht ?_
  intro u f hu
  exact State.memWf_frameFinal _ _ _ _ _ hu

theorem State.memWf_restoreSpill {s : State} (sp : Spill) (h : s.memWf = true) : (s.restoreSpill sp).memWf = true := by
  unfold State.restoreSpill; split
  · rw [State.memWf_modJob]; exact h
  · exact State.memWf_modCore _ (State.memWf_touch _ _ h) fun x hx => CoreSt.wf_putBack x _ _ _ _ _ hx

theorem State.memWf_restoreSpills {s : State} (k : Nat) (j : Job) (h : s.memWf = true) : (s.restoreSpills k j).memWf = true := by
  unfold State.restoreSpills; dsimp only
  refine State.memWf_each (State.memWf_each h ?_) ?_
  · intro t sp ht
    split
    · split
      · exact State.memWf_restoreSpill sp ht
      · exact ht
    · exact ht
  · intro t v ht
    rw [State.memWf_modJob]; exact ht

theorem State.memWf_forgetSpills {s : State} (k : Nat) (h : s.memWf = true) : (s.forgetSpills k).memWf = true := by
  unfold State.forgetSpills
  refine State.memWf_each h ?_
  intro t v ht
  rw [State.memWf_modJob]; exact ht

theorem State.memWf_clearCores {s : State} (k : Nat) (h : s.memWf = true) : (s.clearCores k).memWf = true := by
  unfold State.clearCores State.flushBlocks
  rw [State.memWf_modSys, State.memWf_withHeld]
  exact State.memWf_mapCores h fun x hx => by
    simp only [CoreSt.clear, CoreSt.freeStitch, CoreSt.freeAccs, CoreSt.freeTregs]; exact hx

theorem State.memWf_readyAgain {s : State} (b : Bool) (h : s.memWf = true) : (s.readyAgain b).memWf = true := by
  unfold State.readyAgain; split
  · exact State.memWf_event 0 h
  · exact h

theorem State.memWf_dropSubmit {s : State} (k : Nat) (h : s.memWf = true) : (s.dropSubmit k).memWf = true := by
  unfold State.dropSubmit
  refine State.memWf_each h ?_
  intro t o ht
  unfold State.dropOp
  rw [State.memWf_modSys, State.memWf_modRing]; exact ht

theorem State.memWf_endSeqCmds {s : State} (k : Nat) (j : Job) (h : s.memWf = true) : (s.endSeqCmds k j).memWf = true := by
  unfold State.endSeqCmds
  refine State.memWf_each h ?_
  intro t o ht
  refine State.memWf_finishOp _ _ _ _ (State.memWf_each ht ?_)
  intro u r hu
  exact State.memWf_sendRec _ _ hu

theorem State.memWf_endCancels {s : State} (k : Nat) (j : Job) (h : s.memWf = true) : (s.endCancels k j).memWf = true := by
  unfold State.endCancels
  refine State.memWf_each h ?_
  intro t o ht
  exact State.memWf_finishOp _ _ _ _ ht

theorem State.memWf_modHost {s : State} {f : HostSide → HostSide} (h : s.memWf = true) (hf : (f s.host).mem = s.host.mem) :
    (s.modHost f).memWf = true := State.memWf_withHost h (by rw [hf]; exact State.memWf_host h)

theorem State.memWf_finalRecord {s : State} (k : Nat) (j : Job) (h : s.memWf = true) : (s.finalRecord k j).memWf = true := by
  unfold State.finalRecord; dsimp only
  exact State.memWf_modHost h rfl

/-- The end of a job keeps the form. -/
theorem State.memWf_endJob {s : State} (k : Nat) (st : JobState) (rs : Nat) (d : Option DWord) (h : s.memWf = true) :
    (s.endJob k st rs d).memWf = true := by
  unfold State.endJob
  split
  · exact h
  · dsimp only
    refine State.memWf_readyAgain _ (State.memWf_finalRecord _ _ (State.memWf_hostWrite _ _ ?_))
    have hc : ∀ (j' : Job) (t : State), t.memWf = true → ((((t.modSys fun y => { y with waiting := y.waiting.filter (· != k) }).dropSubmit
        k).endSeqCmds k j').endCancels k j').memWf = true := fun j' t ht =>
      State.memWf_endCancels _ _ (State.memWf_endSeqCmds _ _ (State.memWf_dropSubmit _ (by rw [State.memWf_modSys]; exact ht)))
    have hb : ∀ (j : Job) (x : Option Job) (fs : State → List Folio) (u : State),
        u = ((s.setJob k x).restoreSpills k j).forgetSpills k → ((u.clearCores k).withFolios (fs u)).memWf = true := by
      intro j x fs u hu
      rw [State.memWf_withFolios, hu]
      refine State.memWf_clearCores k (State.memWf_forgetSpills k (State.memWf_restoreSpills k j ?_))
      rw [State.memWf_setJob]; exact h
    split
    · exact hc _ _ (hb _ _ (fun u => u.folios.map _) _ rfl)
    · split
      · exact State.memWf_endFrames _ _ _ (hc _ _ (hb _ _ (fun u => u.folios.map _) _ rfl))
      · exact State.memWf_endFrames _ _ _ (hc _ _ (hb _ _ (fun u => u.folios.map _) _ rfl))

theorem State.memWf_logFaults {s : State} {cs : List Cause} (e : State → Cause → LogEntry) (h : s.memWf = true) :
    (s.each cs fun s c => s.logFault (e s c)).memWf = true := by
  refine State.memWf_each h ?_
  intro t c ht
  exact State.memWf_logFault _ ht

/-- Taking a fault keeps the form. -/
theorem State.memWf_faultJob {s : State} (k : Nat) (cs : List Cause) (hold flood : Bool) (h : s.memWf = true) :
    (s.faultJob k cs hold flood).memWf = true := by
  unfold State.faultJob
  split
  · exact h
  · rename_i j _
    split
    · exact h
    · dsimp only
      have h1 := State.memWf_logFaults (cs := cs)
        (fun s c => ⟨s.now, c.reason, c.island, j.id, j.restartsTaken, hold, c.whereBits⟩) h
      cases flood
      · simp only [Bool.false_eq_true, if_false]
        split
        · refine State.memWf_endJob _ _ _ _ (State.memWf_sendRec _ _ ?_)
          rw [State.memWf_setJob, State.memWf_countFault]; exact h1
        · refine State.memWf_sendRec _ _ (State.memWf_clearCores k ?_)
          rw [State.memWf_setJob, State.memWf_countFault]; exact h1
      · simp only [if_true]
        split
        · refine State.memWf_endJob _ _ _ _ (State.memWf_sendRec _ _ ?_)
          rw [State.memWf_setJob]
          refine State.memWf_floodFault _ _ _ _ ?_
          rw [State.memWf_countFault]; exact h1
        · refine State.memWf_sendRec _ _ (State.memWf_clearCores k ?_)
          rw [State.memWf_setJob]
          refine State.memWf_floodFault _ _ _ _ ?_
          rw [State.memWf_countFault]; exact h1

theorem State.memWf_charge {s : State} (i w : Nat) (h : s.memWf = true) : (s.charge i w).memWf = true := by
  unfold State.charge; split
  · exact h
  · rw [State.memWf_modIsl]; exact h

/-- A detection keeps the form. -/
theorem State.memWf_detect {s : State} (k r i l : Nat) (h : s.memWf = true) : (s.detect k r i l).memWf = true :=
  State.memWf_faultJob _ _ _ _ (State.memWf_charge _ _ h)

theorem State.memWf_detectAll {s : State} (ks : List Nat) (r i l : Nat) (h : s.memWf = true) : (s.detectAll ks r i l).memWf = true := by
  unfold State.detectAll
  refine State.memWf_each (State.memWf_charge _ _ h) ?_
  intro t k ht
  exact State.memWf_faultJob _ _ _ _ ht

/-- An error of storage that faults jobs keeps the form. -/
theorem State.memWf_storageFault {s : State} (ks : List Nat) (l : Nat) (h : s.memWf = true) : (s.storageFault ks l).memWf = true := by
  unfold State.storageFault; dsimp only
  split
  · exact State.memWf_detectAll _ _ _ _ (by rw [State.memWf_modChan]; exact h)
  · exact State.memWf_detectAll _ _ _ _ h

theorem State.memWf_lineFault {s : State} (k r i l : Nat) (h : s.memWf = true) : (s.lineFault k r i l).memWf = true := by
  unfold State.lineFault; split
  · exact State.memWf_storageFault _ _ h
  · exact State.memWf_detect _ _ _ _ h

theorem State.memWf_scan {s : State} (a n : Nat) (h : s.memWf = true) : (s.scan a n).memWf = true := by
  unfold State.scan State.lineReport
  have ht := State.memWf_touch a n h
  split
  · split
    · exact State.memWf_storageFault _ _ ht
    · exact ht
  · exact ht

theorem State.memWf_driveFaultL {s : State} (b : Bool) (h : s.memWf = true) : (s.driveFaultL b).memWf = true := by
  unfold State.driveFaultL; split
  · exact h
  · refine State.memWf_emit _ ?_
    rw [State.memWf_withPins]; exact h

theorem State.memWf_uncache {s : State} (l : Nat) (h : s.memWf = true) : (s.uncache l).memWf = true := by
  have hm := (Mem.wf_iff s.mem).1 (State.memWf_mem h)
  refine State.memWf_withMem h ((Mem.wf_iff _).2 ⟨hm.1, hm.2.1, ?_⟩)
  exact SMap.wf_set 0 l 0 s.mem.cached hm.2.2

theorem State.memWf_awlPut {s : State} (g : Chan) (a i : Nat) (h : s.memWf = true) : (s.awlPut g a i).memWf = true := by
  unfold State.awlPut; split
  · exact State.memWf_uncache _ (State.memWf_devWrite _ _ h)
  · exact h

/-- What an awl does to a line keeps the form. -/
theorem State.memWf_awlVisit {s : State} (c : Nat) (ms : List AwlMiss) (i : Nat) (h : s.memWf = true) :
    (s.awlVisit c ms i).memWf = true := by
  unfold State.awlVisit; dsimp only
  rw [State.memWf_modChan]
  exact State.memWf_awlPut _ _ _ h

theorem State.memWf_stopAwls {s : State} (h : s.memWf = true) : s.stopAwls.memWf = true := by
  refine State.memWf_each h ?_
  intro t c ht
  unfold State.stopAwl State.awlEnd; dsimp only
  rw [State.memWf_modChan]
  refine State.memWf_each (by rw [State.memWf_took]; exact ht) ?_
  intro u i hu
  exact State.memWf_awlVisit c [] i hu

/-- A hold cause keeps the form. -/
theorem State.memWf_hold {s : State} (r i l : Nat) (h : s.memWf = true) : (s.hold r i l).memWf = true := by
  unfold State.hold
  split
  · exact h
  · dsimp only
    generalize (s.boot.st != .faultHold) = b
    replace h := State.memWf_stopAwls h
    generalize s.stopAwls = s at h ⊢
    refine State.memWf_driveFaultL _ ?_
    have h1 : ((s.modInteg fun g => { g with
        hold := true, reason := r, holds := if g.holds.contains (r, i) then g.holds else g.holds ++ [(r, i)] }).modBoot fun b =>
        { b with st := .faultHold }).memWf = true := by
      rw [State.memWf_modBoot, State.memWf_modInteg]; exact h
    have h2 := State.memWf_endFrames (fun _ => true) stConflict rsHoldFrames h1
    have h3 := State.memWf_endFrames (fun _ => true) stConflict rsHoldFrames (State.memWf_event 1 h1)
    cases b
    · simp only [Bool.false_eq_true, if_false]
      split
      · rw [State.memWf_countFault]
        exact State.memWf_logFault _ h2
      · refine State.memWf_each h2 ?_
        intro t k ht
        exact State.memWf_faultJob _ _ _ _ ht
    · simp only [if_true]
      split
      · rw [State.memWf_countFault]
        exact State.memWf_logFault _ h3
      · refine State.memWf_each h3 ?_
        intro t k ht
        exact State.memWf_faultJob _ _ _ _ ht

end Sys2Proof.Machine
end

