-- ==== Sys2Proof/Tests/Slice0.lean ====
section
/-!
SUPPORT. The model's own tests: forms that the well-formedness checks refuse, values that the spec states, and for each statement of
Obligations.lean a witness that its hypotheses can be met, clause by clause, at the ends of their ranges.
-/
namespace Sys2Proof.Tests

open Sys2Proof.Machine

-- The kernel's evaluation of a CRC or of a search over all cores is deep.
set_option maxRecDepth 100000
-- One theorem after another: each evaluation waits for the kernel to have checked what stands before it.
set_option Elab.async false

/-! ## Small states -/

def mask : Mask := ⟨0, false⟩
/-- The first output tile of the folio's first contraction. -/
def pos : TileAt := ⟨0, 0, 0⟩

def phase1 : PhaseEntry := ⟨1, 1, 3, 1, [], [], [], [], 0, 0, 0, 2, [], [⟨0, .reg 2, 40⟩], 0⟩

def decl : FolioDecl :=
  { entries := 1, wellKib := 16, tregs := 4, accNeed := 1, cores := 1, pagerNs := 0, snapBytes := 64, workBytes := 0, scratchGran := 0,
    phases := [phase1], formats := [], outs := [], rndCodes := [],
    dwas := [], convs := [], pools := [], maxDim := 64, maxTensorBytes := 4096, attn := none, stanza := none, initStanza := none,
    nullCond := false, compat := false, draws := [], swf := [], snapTensors := [], residentBytes := 0, videoFrames := [],
    linkTraffic := false, reservedOk := true, exchanges := [], scratchTensorLines := [], contrs := [], timingAt := 0, batch := none }

def folio7 : Folio := ⟨7, 0x100000, 4096, decl, false, 0, false, 0, []⟩

def block : StepBlock := ⟨5, 8, 0, 0, false, 0, 0, 0x4000, 128, 0, 0, 1, 2⟩

def terms : Terms :=
  { folio := 7, cls := 0, canonical := false, compat := false, issueShare := 4, memShare := 4, linkShare := 0, accReserve := 0,
    restarts := 1, deadlineUs := 1000000, group := 0, startWaitUs := 0, stepBlock := some block, result := 0x8000, resultBytes := 256,
    completion := 0x40, input := 0, inputBytes := 0, work := 0 }

/-- A job that runs on core 100. -/
def job : Job :=
  { freshJob 9 0 1 terms 0 with
    st := .running, cores := [100], decided := true, promiseUs := 50, holds := [⟨100, [0]⟩], windowWays := 2 }

/-- The job in slot 3 of a device in READY, with its folio loaded. -/
def busy : State :=
  ((State.reset.withFolios [folio7]).withJobs [(3, some job)]).modBoot fun b => { b with st := .ready }

def c3 : CoreRef := ⟨100, 3⟩

/-- The same with 16 rows and 32 columns in LEN. -/
def full : State := busy.modCore 100 fun x => { x with ctxs := [(3, { Ctx.empty with rows := 16, cols := 32 })] }

/-- The run of phase 1 with a grant of one accumulator tile. -/
def freshRun : PhaseRun := ⟨1, 0, 1, 3, 2048, [], 0, false, [], [], [], 0, none, 0, false, [], [], []⟩

/-! ## Ill-formed operands -/

theorem test_ill_formed_operands :
    (⟨.well 0, 0, .byte 127, true, 64, 0, 0, 0, 16⟩ : Operand).wf = false ∧
    (⟨.treg 1, 5, .byte 127, false, 64, 0, 0, 0, 16⟩ : Operand).wf = false ∧
    (let a : Operand := ⟨.well 0, 1, .byte 127, true, 64, 0, 0, 0, 16⟩
     (⟨pos, 0, a, a, 1, true, 17, 32⟩ : OpuOp).wf = false) ∧ (⟨pos, 0, 0, 1, 2, 64, 0, 1, true⟩ : MvOp).wf = false ∧
    (⟨pos, 0, 16, 33, none, 1, 127, .treg 0, true, false⟩ : DrainOp).wf = false ∧ rndFmtOk 5 = false ∧ (LenSrc.imm 17 0).wf = false ∧
    (⟨0, .well 0, 128, 0, 0, 0x0F, 127, false, ⟨0, false⟩⟩ : LdStOp).wf = false ∧
    (⟨0, 0, 8, none, 7, 7, 3, 1, 3, ⟨0, false⟩⟩ : DwaOp).wf = false ∧ (⟨0, 8, 9, 8, 1, 3, .s 0, true, ⟨0, false⟩⟩ : PoolOp).wf = false ∧
    (⟨0, 0, 0, 1, 3, 0, ⟨0, false⟩⟩ : ResampleOp).wf = false ∧ (⟨.colMinus, 0, 8, 9, .none⟩ : SendOp).wf = false ∧
    (⟨.colMinus, .fifo, 17⟩ : RecvOp).wf = false ∧ (⟨0, 14, 0, 0, ⟨0, false⟩⟩ : NoiseOp).wf = false ∧
    (⟨[], false, 0, []⟩ : FlitRx).wf = false ∧ (⟨1, 0, 0, 0, 0, 0, []⟩ : Pkt).wf = false := by decide

theorem test_ill_formed_stops : exec (.echo 0 ⟨1, 0, 0, 0, 0, 0, []⟩) State.reset = .fault .illFormed := rfl

/-! ## Values that the spec states -/

/-- 01, worked example: core 1,337. -/
theorem test_core_1337 :
    coreRow 1337 = 46 ∧ coreCol 1337 = 5 ∧ homeSlice 1337 = 8 ∧ [Dir.colPlus, .colMinus, .rowMinus, .rowPlus].map (stitchNeighbour 1337) =
      [some 1338, some 1336, some 1333, some 1341] ∧ stitchNeighbour 1336 .colMinus = some 1307 := by decide

/-- 10, worked example: one HBM line. -/
theorem test_hbm_line :
    let a := 0x001234567A40
    hbmStack a = 1 ∧ hbmChannel a = 52 ∧ homeSliceOf a = 0 ∧ lineFold (a / 64) = 0x1138 ∧ lineFold (0x001234567A80 / 64) = 0x113B := by decide

/-- 02, worked examples: an MXFP8 element times a BF16 element, and elements of one block. -/
theorem test_mxfp8_times_bf16 : round32 ((internal 5 0x7A 0x5C).mulExact (internal 1 127 0xC0A0)) = 0xC0700000 := by decide

/-- 05, worked example: the variance of three equal elements, shifted and as TH1 had it. -/
theorem test_variance :
    let row := fun (compat : Bool) =>
      let r := (nrmAccRow compat ⟨0, 0, 0, 0, 0, 0, 0⟩ (List.replicate 3 0x45800C00)).1
      (nrmFinRow compat ⟨r.getD 0 0, r.getD 1 0, r.getD 2 0, r.getD 3 0, r.getD 4 0, r.getD 5 0, r.getD 6 0⟩).1
    row false = [0x45800C00, 0] ∧ row true = [0x45800C00, 0x3FAAAAAB] := by decide +kernel

/-- 05, worked example: one softmax row's maximum and flag. -/
theorem test_softmax_row :
    let r := smxAccRow false 0xFF800000 0 [0x3F800000, 0x7FC00000, 0x40400000, 0xFF800000, 0x3F800000]
    r.1.getD 0 0 = 0x40400000 ∧ r.2.getLsbD 6 = true := by decide +kernel

/-- 09 R273: the words of the generator, and the first normal value to four places. -/
theorem test_philox : philox ⟨0, 0, 0, 0⟩ 0 0 = ⟨0x6627E8D5, 0xE169C58D, 0xBC57AC4C, 0x9B00DBD8⟩ := by decide
theorem test_normal : 0x3F7DB573 ≤ (normalValue false 0 0 0 0 0).toNat ∧ (normalValue false 0 0 0 0 0).toNat ≤ 0x3F7DBC01 := by decide +kernel

/-- 11, worked example: the first weights of a sub-stream under its table, and sizes that are wrong. -/
theorem test_substream :
    let cw := codewords ((List.range 256).map fun n => if n = 122 ∨ n = 123 then 2 else if n = 121 ∨ n = 124 then 3
      else if n = 120 ∨ n = 125 then 4 else if n = 119 ∨ n = 126 then 5 else if n = 0 ∨ n = 118 then 6 else 0)
    let bits := 0x23 + 0x90 * 2 ^ 8 + 0xF6 * 2 ^ 24 + 2 ^ 32
    (decodeSub 1 cw bits 64 3).toOption = some [0x3DA3, 0xBE10, 0] ∧
    (match decodeSub 1 cw bits 96 3, decodeSub 1 cw bits 32 3 with
      | .error 1, .error 0 => true
      | _, _ => false) = true := by decide +kernel

/-- 06, worked example: M = 100, N = 50, K = 70, its 7 by 2 tiles and the last one's rows and columns. -/
theorem test_ragged_tiles :
    let b : ContrBody := .mat (.const 100) (.const 50) (.const 70)
    tileGrid decl [] b = (7, 2) ∧ tileExtent decl [] 6 1 b = ⟨4, 18, 70, 70⟩ ∧ tileExtent decl [] 5 0 b = ⟨16, 32, 70, 70⟩ := by decide

/-- 07, worked example: the decoder's last layer, regrouped with f = 2 and o = 1: 16,384 tiles of 12 columns, K = 2,048. -/
theorem test_regrouped_layer :
    let c : ConvDecl := ⟨128, 3, 1, 2, 2, 1, 1, 1, 1, 0, 0, 0, 0, 0, 2, 1, .const 1024, .const 1024, 256, 262144, true, 1024, 1024, 6, 6144⟩
    let d := { decl with convs := [c] }
    tileGrid d [] (.conv 0) = (16384, 1) ∧ tileExtent d [] 0 0 (.conv 0) = ⟨16, 12, 2048, 128⟩ := by decide +kernel

/-- 03, worked example: K = 5,000 in canonical order is cut into 2,048, 2,048 and 904. -/
theorem test_chunks :
    let r := freshRun
    let t := { terms with canonical := true }
    r.segs t 5000 = 3 ∧ r.segEnd t 5000 0 = 2048 ∧ r.segEnd t 5000 2048 = 4096 ∧ r.segEnd t 5000 4096 = 5000 ∧ r.segEnd terms 5000 0 = 2048 := by
  decide

/-- R208: sources of the positions beside an input of 5, and beside one of 1. -/
theorem test_padding_sources :
    [-2, -1, 5, 6].map (padSource 1 5) = [some 0, some 0, some 4, some 4] ∧
    [-2, -1, 5, 6].map (padSource 2 5) = [some 2, some 1, some 3, some 2] ∧
    [-2, -1, 5, 6].map (padSource 3 5) = [some 3, some 4, some 0, some 1] ∧ padSource 2 1 (-1) = some 0 ∧ padSource 0 5 5 = none := by decide

/-- R147, R153, R166: in compatibility mode SF.EXP of 3e38 overflows, and SIGM of the opposite is +0. -/
theorem test_compat_range :
    (sfu true .exp 0x7F61B1E6).fw.1 = 0x7F800000 ∧ (sfu true .exp 0xFF61B1E6).fw.1 = 0 ∧ (sfu true .sigm 0xFF61B1E6).fw.1 = 0 := by decide +kernel

/-! ## The core -/

/-- Every register number of the file may be named: what VecForm and its like ask. -/
theorem witness_ready : full.ready c3 (List.range 32) = true := by decide

theorem witness_conversion_codes : ∀ b ∈ ([1, 0x1D] : List Byte), b.toNat < 32 ∧ b.toNat % 16 ∈ [1, 2, 3, 4, 0xB, 0xC, 0xD] := by decide

theorem witness_setlen : (16 ≤ 16 ∧ 32 ≤ 32) ∧ ((0x2010 : Word).toNat % 32 ≤ 16 ∧ (0x2010 : Word).toNat / 256 % 64 ≤ 32) ∧
    16 < (0x2011 : Word).toNat % 32 ∧ 32 < (0x2100 : Word).toNat / 256 % 64 := by decide

theorem witness_noise : busy.job c3.slot = some job ∧ job.terms.stepBlock = some block ∧ (13 : Fin 16).val ≤ 13 := by decide

theorem witness_equal_elements :
    (decode32 0xFF7FFFFF).isFin = true ∧
    (let a : NrmRow := ⟨0xFF7FFFFF, 0, 0, 0x7FFFFFFE, 0, 0, 0⟩
     a.s1 = 0 ∧ a.s2 = 0 ∧ (a.n = 0 ∨ a.c = 0xFF7FFFFF) ∧ 0 ≤ a.n.toInt ∧ a.mode = 0 ∧ a.pinf = 0 ∧ a.ninf = 0 ∧
       a.n.toInt + 1 < 2 ^ 31 ∧ a.n ≠ 0) := by decide

/-- The last ACC that fits the chunk of a job in canonical order, and one beyond it; in the family's order any. -/
theorem witness_statistics :
    let s := fun (canonical : Bool) (n : Nat) => (full.modJob 3 fun j => { j with terms := { terms with canonical := canonical } }).modCore 100
      fun x => { x with ctxs := [(3, { Ctx.empty with rows := 16, cols := 32, stat := [(31, n)] })] }
    ((s true 63).ctx 100 3).stat.get 0 31 < 64 ∧ ¬ ((s true 64).ctx 100 3).stat.get 0 31 < 64 ∧
      (s true 63).ready c3 [0, 1, 31] = true ∧ ((s false 64).job 3).map (·.terms.canonical) = some false := by decide

/-- The largest kernels and strides that R139, R215 and R218 allow with 16 rows in LEN. -/
theorem witness_windows :
    let x := full.ctx 100 3
    (⟨31, 0, 28, some 31, 7, 7, 2, 1, 3, mask⟩ : DwaOp).wf = true ∧ (x.rows - 1) * 2 + 7 ≤ 16 * 3 ∧
    (⟨31, 0, 28, none, 4, 4, 1, 4, 2, mask⟩ : DwaOp).wf = true ∧ (x.rows - 1) * 1 + 4 ≤ 16 * 2 ∧
    (⟨31, 8, 8, 8, 2, 3, .s 0, true, mask⟩ : PoolOp).wf = true ∧ (x.rows - 1) * 2 + 8 ≤ 16 * 3 ∧
    (⟨31, 29, 29, 3, 4, 0, mask⟩ : ResampleOp).wf = true ∧ (⟨0, 0, 31, 1, 2, 0, mask⟩ : ResampleOp).wf = true := by decide

/-- A load or store of all rows in the last bytes of the well, or in device memory. -/
def row (a : MemRef) (fmt : Byte) : LdStOp := ⟨31, a, 128, 393080, 8, fmt, 127, false, mask⟩

theorem witness_loads :
    full.ready c3 [31] = true ∧ 391168 % 8 = 0 ∧ 128 % 8 = 0 ∧ (row (.well 391168) 1).wf = true ∧ (row (.dev 0x8000) 5).wf = true ∧
    (mxCode 5 = true ∧ 393080 % 8 = 0 ∧ 8 % 8 = 0) ∧
    (∀ p ∈ (Claims.live full c3 0).map (fun i => (391168 + i * 128, 128)) ++ (Claims.live full c3 0).map (fun i => (393080 + i * 8, 1)),
      p.1 + p.2 ≤ 393216) ∧
    ∀ p ∈ (Claims.live full c3 0).map (fun i => (0x8000 + i * 128, 128)) ++ (Claims.live full c3 0).map (fun i => (393080 + i * 8, 1)),
      full.mappedRange p.1 p.2 = true ∧ full.badLine p.1 p.2 = none := by decide

theorem live_full : Claims.live full c3 0 = List.range 16 := by decide

theorem witness_stores_well :
    ∀ w ∈ ((Claims.live full c3 0).map (storeBytes (full.ctx 100 3) (full.core 100) (row (.well 391264) 3) 3 127)).flatMap (·.1),
      w.1 < 393216 := by decide +kernel

/-- The first and the last byte of the job's result, and the byte after it, which it may not write. -/
theorem witness_stores_device :
    full.poolOf 3 = none ∧ full.frameSealed 3 0x8000 = false ∧ full.mayWrite 3 0x8000 = true ∧ full.mayWrite 3 0x80FF = true ∧
      full.mayWrite 3 0x8100 = false ∧ (full.region 0x8000).isSome = true ∧ 0x8000 < farLo ∧ full.lineBad 0x200 = false := by decide

/-- Operands of 16 and 32 rows in the well. -/
def operand (base : Int) (fmt : BitVec 4) : Operand := ⟨.well base, fmt, .byte 127, true, 64, 0, 0, 0, 32⟩
def update : OpuOp := ⟨pos, 7, operand 0 1, operand 4096 1, 64, true, 16, 32⟩
/-- A core whose job has a grant of one accumulator tile. -/
def granted : State := full.modCore 100 fun x => { x with runs := [(3, some freshRun)] }

theorem witness_outer_product :
    update.wf = true ∧ granted.ready c3 (opRegs update.a ++ opRegs update.b) = true ∧ (granted.core 100).tileOk 3 7 true = true ∧
    opFits update.a 16 64 = true ∧ opFits update.b 32 64 = true ∧
    opFifoRows update.a 16 64 + opFifoRows update.b 32 64 ≤ ((granted.core 100).fifoRows 3).length ∧
    Claims.InWell (opSpans update.a 16 16 64 ++ opSpans update.b 32 32 64) := by
  refine ⟨by decide, by decide, by decide, by decide, by decide, by decide, ?_⟩
  unfold Claims.InWell; decide +kernel

/-- A tile of job 3 in integer mode with one check that failed and one skipped. -/
def tileState (mv int : Bool) : State := granted.modCore 100 fun x => { x with
  accs := [(7, { AccTile.empty with owner := some 3, mv := mv, int := int })] }

/-- A folio with one contraction of 16 rows, 32 columns and 64 indices in phase 1. -/
def contracted : FolioDecl := { decl with contrs := [⟨1, .mat (.const 16) (.const 32) (.const 64), []⟩] }
def planned (d : FolioDecl) (s : State) (o : OpuOp) : Option (Option PhaseRun) :=
  (s.withFolios [{ folio7 with decl := d }]).planned c3 o.pos fun q d j pl => q.update d j.terms pl o.pos o.tile o.clear o.len o.rows o.cols (some o.a)

/-- The tiler's plan: none without an instance, an output that the folio does not declare, the declared contraction, and an update for which
it has no room. -/
theorem witness_tiler_plan :
    planned decl full update = some none ∧ (planned decl granted update).isSome = true ∧ (planned contracted granted update).isSome = true ∧
    planned contracted granted { update with rows := 15 } = none ∧ planned contracted granted { update with pos := ⟨0, 1, 0⟩ } = none ∧
    (granted.core 100).pageOk 3 update.a = true ∧ (granted.core 100).settle 3 update.a = update.a := by decide +kernel

theorem witness_outer_product_goes_on :
    let o : OpuOp := { update with a := operand 0 0xB, b := operand 4096 0xB, clear := false }
    o.wf = true ∧ intPair o.a o.b = true ∧ ((tileState false true).core 100).tileOk 3 7 false = true ∧
      ((tileState false true).tile 100 7).mv = false ∧ ((tileState false true).tile 100 7).int = true := by decide

theorem witness_matrix_vector :
    let o : MvOp := ⟨pos, 7, 384, 1, 1, 64, 29, 3069, true⟩
    o.wf = true ∧ granted.ready c3 ((List.range ((o.len + 1023) / 1024)).map (o.x.val + ·)) = true ∧ o.x.val + 3 ≤ 32 ∧
    384 + 128 * 3068 + 2 * 64 ≤ 393216 ∧ (granted.core 100).tileOk 3 7 true = true ∧
    ((tileState true false).core 100).tileOk 3 7 false = true ∧ ((tileState true false).tile 100 7).mv = true := by decide

theorem witness_drain :
    let s := tileState false false
    let toWell : DrainOp := ⟨pos, 7, 16, 32, none, 0, 127, .well 391168 128 0 0, true, true⟩
    let toReg : DrainOp := ⟨pos, 7, 16, 32, some 4, 1, 127, .treg 5, false, false⟩
    (toWell.wf = true ∧ s.ready c3 (drainRegs toWell) = true ∧ (s.tile 100 7).owner = some 3) ∧
      toReg.wf = true ∧ s.ready c3 (drainRegs toReg) = true := by decide

theorem witness_drain_in_well :
    ∀ i ∈ List.range 16, ∀ w ∈ (drainBytes ⟨pos, 7, 16, 32, none, 0, 127, .well 391168 128 0 0, true, true⟩ ((tileState false false).tile 100 7) i
      (List.replicate 32 0)).1, w.1 < 393216 := by decide +kernel

theorem witness_checks_fault :
    full.ready c3 [2, 0, 1] = true ∧ ([511, 0] : List (Fin 512)).Nodup ∧ (0 : Fin 512) ∈ ([511, 0] : List (Fin 512)) ∧
    (∀ i ∈ ([511, 0] : List (Fin 512)), (0 : Fin 512) ≤ i) ∧ ∀ i ∈ ([511, 0] : List (Fin 512)), (full.ctx 100 3).act 0 i = true := by decide

/-- A job preempted, and a register of another job's. -/
theorem witness_held :
    (let s := full.modJob 3 fun j => { j with st := .preempted }
     ∀ j, s.job 3 = some j → j.st ≠ .running) ∧
    (let s := full.modCore 100 fun x => { x with tregs := [(31, ⟨[], some 4⟩)] }
     (((s.core 100).tregs.get TReg.empty 31).owner = some 4 ∧ 4 ≠ 3)) := by
  refine ⟨?_, by decide⟩
  intro s j h
  have : s.job 3 = some { job with st := .preempted } := rfl
  rw [this] at h; cases h; decide

/-- A receive that has register 31 pending, and an instruction behind another. -/
theorem witness_held_in_order :
    let o : Vec2 := ⟨31, 0, 1, mask⟩
    let h : Held := ⟨.issue c3 [31, 0, 1], .sub c3 o .none⟩
    (let s := full.modCore 100 fun x => { x with tregs := [(31, ⟨[], some 3⟩)], ports := [(0, { StitchPort.empty with posted := [⟨3, .treg 31 0, 1, none, 0⟩] })] }
     s.issues 100 3 = true ∧ (∀ n ∈ [31, 0, 1], ((s.core 100).tregs.get TReg.empty n).owner = none ∨
       ((s.core 100).tregs.get TReg.empty n).owner = some 3) ∧
      (((s.core 100).ports.get StitchPort.empty 0).posted.any fun r => r.slot == 3 && r.dst == .treg 31 0) = true) ∧
    (let s := full.withHeld [h, h]
     s.held = h :: [h] ∧ s.pending = [] ∧ s.issues 100 3 = true ∧ h.why.ref = c3 ∧ s.stillHeld h = true ∧
      (s.core 100).ports.get StitchPort.empty 0 = StitchPort.empty) := by decide

/-- Two cores of one job across an edge, with a receive posted at 101, its credit at 100 or on the way, and a SEND of 100 that waits. -/
def pair (posted : List Posted) (at100 : StitchPort) : State :=
  ((full.modJob 3 fun j => { j with cores := [100, 101] }).modCore 101 fun x => { x with
    ports := [(0, { StitchPort.empty with posted := posted })] }).modCore 100 fun x => { x with ports := [(1, at100)] }

def posted16 : Posted := ⟨3, .treg 4 0, 16, none, 0⟩
/-- A link with a credit of job 3 present, and one with it on its way. -/
def present : StitchPort := ⟨[], [], [(3, 0)], [], []⟩
def coming (sends : List SendWait) : StitchPort := ⟨[], [(3, 0)], [], sends, []⟩
def waiting1 : SendWait := ⟨3, [List.replicate 128 0]⟩

theorem witness_stitch :
    let o : SendOp := ⟨.colPlus, 31, 0, 16, .none⟩
    let r : RecvOp := ⟨.colPlus, .treg 31 15, 1⟩
    let mine := fun (q : Credit) => q.1 == 3
    let two := { job with cores := [100, 101] }
    (∀ q ∈ [pair [] StitchPort.empty, pair [posted16] present, pair [posted16] (coming [])],
      q.job 3 = some two ∧ q.edgeOf two 100 .colPlus = .core 101) ∧ two.relayed 100 .colPlus = false ∧
    (r.wf = true ∧ (pair [] StitchPort.empty).ready c3 [31] = true ∧
      (((pair [] { StitchPort.empty with posted := [posted16] }).core 100).link .colPlus).posted.countP (fun q => q.slot == 3) < 2) ∧
    (o.wf = true ∧ (pair [posted16] present).ready c3 [31] = true ∧
      (((pair [posted16] present).core 100).link .colPlus).credits.any mine = true ∧
      (((pair [posted16] present).core 101).link .colMinus).posted.find? (fun q => q.slot == 3) = some posted16 ∧
      posted16.rows = o.rows ∧ posted16.box = none) ∧
    (((pair [posted16] (coming [])).core 100).link .colPlus).credits.any mine = false ∧
    ((((pair [{ posted16 with rows := 1 }] (coming [waiting1])).core 100).link .colPlus).flying.find? mine = some (3, 0) ∧ two.onCore 100 = true ∧
      ((((pair [{ posted16 with rows := 1 }] (coming [waiting1])).core 100).link .colPlus).sends.find? fun w => w.slot == 3) =
        some waiting1) := by decide

/-- A relayed edge: cores 0 and 2 of a job placed at 0 and 2, whose receive names a half of the mailbox in the receiver's home slice. -/
theorem witness_stitch_relayed :
    let j := { job with cores := [0, 2] }
    let half := scratchLo + 2048
    (∃ d ∈ dirs, j.relayed 0 d = true ∧ (busy.modJob 3 fun _ => j).edgeOf j 0 d = .core 2) ∧
    half % 64 = 0 ∧ scratchLo ≤ half ∧ half + 128 * 16 ≤ farLo ∧ busy.host.filter = [] ∧ busy.host.biWait = [] := by decide

/-! ## Jobs -/

/-- A job in slot 3 that waits for its decision. -/
def submitted (t : Terms) : State :=
  (busy.withJobs [(3, some { job with st := .submitted, terms := t, cores := [], holds := [], decided := false })]).withPart
    { Part.atReset with scratch := 1, rate := 120 }
def waiting3 (t : Terms) : State := (submitted t).modSys fun y => { y with waiting := [3] }

def Accepts : Verdict → Bool
  | .accepted .. => true
  | _ => false
def Waits : Verdict → Bool
  | .wait _ => true
  | _ => false
def Refuses : Verdict → Bool
  | .refused _ => true
  | _ => false

/-- The common premises of the decision, for a job in SUBMITTED and for the earliest waiting one. -/
theorem witness_admission :
    (submitted terms).job 3 = some { job with st := .submitted, cores := [], holds := [], decided := false } ∧
    (submitted terms).declOf job = some decl ∧ terms.group = 0 ∧ (submitted terms).tableNeeds decl = none ∧ hasOnce decl = true ∧
    job.displaced = [] ∧ (3 : Nat) ∉ (submitted terms).sys.waiting ∧ (waiting3 terms).sys.waiting.head? = some 3 ∧
    (submitted terms).part.pend = none ∧ terms.cls = 0 ∧ (submitted { terms with cls := 2 }).waitsBehind 3 = false := by decide

theorem witness_admission_accepts :
    Accepts ((submitted terms).verdict terms) = true := by decide +kernel

/-- An S job whose folio wants more granules than a slice has. -/
theorem witness_admission_waits :
    Waits (((submitted { terms with cls := 1 }).withFolios [{ folio7 with decl := { decl with scratchGran := 257 } }]).verdict
      { terms with cls := 1 }) = true := by decide +kernel

theorem witness_admission_refuses :
    Refuses (((submitted terms).withFolios [{ folio7 with invalid := true }]).verdict terms) = true := by decide

/-- Slot 3 with job `j`. -/
def with3 (j : Job) : State := busy.withJobs [(3, some j)]

theorem witness_overrun :
    (let s := (with3 job).withClk ⟨50001, 0, true⟩
     s.job 3 = some job ∧ job.terms.cls = 0 ∧ job.decided = true ∧ job.st.admitted = true ∧ job.promiseUs ≠ 0 ∧
       job.origin + 1000 * job.promiseUs < s.now) ∧
    ({ terms with cls := 1 }).cls = 1 ∧ job.st.final = false := by decide

/-- Writes that wait on the lines before and after the result buffer of `job` do not hold its completion. -/
theorem witness_completion :
    let s := (with3 { job with done := true }).modHost fun h => { h with biWait := [⟨0x1FF, []⟩, ⟨0x204, []⟩] }
    s.job 3 = some { job with done := true } ∧ job.st = .running ∧
    ∀ w ∈ s.host.biWait, 64 * w.line + 64 ≤ terms.result ∨ terms.result + terms.resultBytes ≤ 64 * w.line := by decide

/-- A register of the job in slot 4 that the G job in slot 3 has taken. -/
def reg9 : TReg := ⟨[(0, 1)], some 4⟩
theorem witness_preemption :
    let taker := { job with done := true, spills := [⟨4, 100, .treg 31, .treg reg9, scratchLo⟩] }
    let victim := { job with id := 10, st := .preempted, displaced := [(3, 100)] }
    let s := busy.withJobs [(3, some taker), (4, some victim)]
    s.job 3 = some taker ∧ s.job 4 = some victim ∧ reg9.owner = some 4 ∧ taker.st = .running ∧ s.host.biWait = [] ∧ victim.st = .preempted ∧
    victim.displaced ≠ [] ∧ victim.atCut = false ∧ ({ victim with displaced := [] } : Job).displaced = [] ∧ victim.lost = [] ∧
    ({ victim with lost := [farLo - 64] } : Job).lost.head? = some (farLo - 64) ∧ farLo - 64 < farLo ∧ s.badLine scratchLo 2048 = none ∧
    (s.withMem { Mem.atReset with synd := [(scratchLo / 64 + 31, 1)] }).badLine scratchLo 2048 = some (scratchLo + 64 * 31) ∧
    (∀ d ∈ dirs, ∀ r ∈ ((s.core 100).link d).posted, r.got = 0) ∧ s.edgeOf job 100 .colPlus = .edge := by decide +kernel

theorem witness_phase_start :
    let s := full.modCore 100 fun x => { x with ctxs := [(3, { Ctx.empty with sregs := [(2, 40)] })] }
    s.job 3 = some job ∧ s.declOf job = some decl ∧
    (decl.phases.find? fun q => q.phase == 1) = some phase1 ∧
    100 ∈ job.cores ∧ 100 ∉ job.awaitSpill ∧ job.displaced = [] ∧ job.atCut = false ∧ job.done = false ∧ ((1 = 2) ↔ job.step.isSome = true) ∧
    0 < s.unreservedTiles 100 3 + reserveOf terms decl ∧ decl.initStanza = none ∧ decl.stanza = none ∧ decl.attn = none ∧
    (((s.ctx 100 3).sregs.get 0 2).toNat ≤ 40) ∧ 39 < ((s.ctx 100 3).sregs.get 0 2).toNat := by decide

/-- The start waits for a tile of the one that another job has, and does not wait on a free core; none is held before it. -/
theorem witness_phase_start_waits :
    full.startWaits 3 100 1 = false ∧ full.held = [] ∧
    (let s := (full.withJobs [(3, some { job with terms := { terms with cls := 1 } }), (4, some { job with id := 10 })]).modCore 100 fun x => { x with
       runs := [(4, some { freshRun with grant := 8 })] }
     s.startWaits 3 100 1 = true ∧ s.unreservedTiles 100 3 + 0 = 0) ∧ full.startWaits 3 100 2 = false := by decide +kernel

/-- The last step of 8, and a step that the early stop ends. -/
theorem witness_step_cut :
    let j := { job with step := some 7 }
    let s := with3 j
    s.job 3 = some j ∧ s.declOf j = some decl ∧ j.terms.stepBlock = some block ∧ j.terms.group = 0 ∧ j.pager = none ∧
    block.snapInterval = 0 ∧ block.schedRows = 0 ∧ j.displaced = [] ∧ j.awaitSpill = [] ∧ j.atCut = false ∧ j.done = false ∧ j.snap = none ∧
    ({ j with step := some 6, stopRun := 1 }).step = some 6 ∧ j.nextRow = none ∧ s.schedRow j 8 = .row [] ∧ s.schedRow j 9 = .row [] ∧
    s.holdsFor 3 = false ∧ s.phasesDone 3 j decl = true ∧
    (s.modCore 100 fun x => { x with runs := [(3, some freshRun)] }).phasesDone 3 j contracted = false := by decide

def snap4 : SnapInfo := ⟨4, 3, 0, 0, 0, 64, none, [], true⟩

theorem witness_snapshot_commit :
    let j := { job with st := .preempted, snap := some snap4, snaps := [{ snap4 with ordinal := 3 }] }
    (with3 j).job 3 = some j ∧ (with3 j).declOf j = some decl ∧ j.terms.stepBlock = some block ∧ snap4.begun = true ∧
    j.terms.group = 0 ∧ j.snaps.head?.map (·.ordinal) ≠ some 4 ∧ (block.snapAddr + 4 % 2 * decl.snapBytes) % 64 = 0 ∧
    block.snapAddr + 4 % 2 * decl.snapBytes + 64 ≤ hbmBytes ∧
    ∀ e ∈ [(⟨0x100, []⟩ : BiWrite), ⟨0x102, []⟩], 64 * e.line + 64 ≤ block.snapAddr + 64 ∨
      block.snapAddr + 64 + snap4.bodyBytes ≤ 64 * e.line := by decide

def restartAt (st : RestartStage) (o : Option Nat) : Restart := ⟨st, [], 0, o, [], []⟩

theorem witness_restart_restore :
    let j := { job with st := .restarting, restart := some (restartAt .restore (some 4)), snaps := [snap4] }
    (with3 j).job 3 = some j ∧ (with3 j).declOf j = some decl ∧ j.displaced = [] ∧ j.terms.group = 0 ∧
    j.terms.stepBlock = some block ∧ (j.snaps.find? fun y => y.ordinal == snap4.ordinal) = some snap4 ∧
    (with3 j).badLine (block.snapAddr + snap4.ordinal % 2 * decl.snapBytes) (64 + snap4.bodyBytes) = none ∧
    (restartAt .stopped none).stage = .stopped ∧ (restartAt .restore none).ordinal = none := by decide

theorem witness_restart_resume :
    let q : Price := ⟨[500], 500, 2000, 1, 1, 500, 969, 66001, none⟩
    let j := { job with st := .restarting, restart := some (restartAt .resume none), price := some q }
    (with3 j).job 3 = some j ∧ j.restart = some (restartAt .resume none) ∧ j.price = some q ∧ (with3 j).declOf j = some decl ∧
    hasOnce decl = true ∧ j.snaps = [] := by decide

/-- At the last count of START_WAIT_US and the one after it; at 99,999 ns and at 100,000 ns. -/
theorem witness_timeouts :
    (let j := { job with st := .accepted, start := some ⟨0, [], false⟩, terms := { terms with group := 1, startWaitUs := 10 } }
     let s := ((with3 j).withTopo { Topo.atReset with groups := [(1, some ⟨⟨0, 0, 0, 0⟩, ⟨1, 1, 1, 1⟩⟩)] })
     s.job 3 = some j ∧ s.leads j = true ∧ (s.withClk ⟨10000, 0, true⟩).now ≤ j.origin + 1000 * 10 ∧
      j.origin + 1000 * 10 < (s.withClk ⟨10001, 0, true⟩).now) ∧
    (let j := { job with st := .restarting, restart := some (restartAt .agreement none) }
     let s := with3 j
     s.job 3 = some j ∧ (s.withClk ⟨99999, 0, true⟩).now < 0 + 100000 ∧ 0 + 100000 ≤ (s.withClk ⟨100000, 0, true⟩).now) := by decide

theorem witness_detection :
    busy.job 3 = some job ∧ job.st.final = false ∧ job.st ≠ .released ∧ job.terms.group = 0 ∧
    (∀ r ∈ [cChecksum, 0x98], ownDetail r = false) ∧
    (restartColumn cChecksum 0 = true ∧ ({ job with restartsTaken := 14 }).restartsTaken < 15 ∧ ¬ ((cChecksum = 0x80 ∨ cChecksum = 0x86) ∧
      0 ∈ job.failedAddrs) ∧ ¬ ((cChecksum = 0x90 ∨ cChecksum = 0x91) ∧ job.terms.cls = 0)) ∧
    ¬ (({ job with restartsTaken := 15 }).restartsTaken < 15) := by decide

theorem witness_empty_queue : State.reset.pending = [] ∧ State.reset.held = [] ∧ State.reset.clk.run = true ∧ ({ State.reset with clk := ⟨0, 0, false⟩ }).clk.run = false :=
  by decide

theorem witness_memory_canonical :
    let s := State.reset.withPending [.optclkLoss]
    s.memWf = true ∧ ∃ t, step s = .next t := by
  refine ⟨by decide, ?_⟩
  exact ⟨_, rfl⟩

theorem witness_whole_lines : farLo - 64 + (List.replicate 64 (0 : Byte)).length ≤ farLo ∧ (farLo - 64) % 64 = 0 := by decide

/-! ## Ring commands -/

/-- The packet of an opcode with its parameter bytes, sealed by its welt. -/
def pkt (op plen : Nat) (body : List Byte) : Pkt :=
  let slots := Nat.max 1 ((16 + plen + 63) / 64)
  let p : Pkt := ⟨BitVec.ofNat 8 slots, 0, 5, 9, BitVec.ofNat 16 plen, 0, (body ++ List.replicate (64 * slots - 16) 0).take (64 * slots - 16)⟩
  { p with welt := recWelt 14 (p.bytes op) }

/-- The device in state `st` with ring pair 0 enabled, four slots behind its doorbell, and the host link up. -/
def up (st : DevState) (s : State) : State :=
  (((s.modBoot fun b => { b with st := st }).modHost fun h => { h with modules := 15, rate := 32 }).modRing 0 fun g =>
    { g with enable := true, tail := 4 })

def ready : State := up .ready State.reset

theorem witness_record :
    let g := (up .ready State.reset).ring 0
    g.backlog = [] ∧ (g.rqTail - g.rqHead).toNat < 2 ^ g.rqLog2 ∧ g.rqHbm = false ∧ (up .ready State.reset).host.modules ≠ 0 ∧
    2 ^ 6 ≤ ((0 : Word) - 0xFFFFFFC0).toNat ∧ ((0 : Word) - 0xFFFFFFC1).toNat < 2 ^ 6 := by decide

theorem witness_backlog :
    let r : Rec := ⟨1, 0x401, 0, 0, 9, 5, 0, 0, some 3, false⟩
    let s := (ready.modRing 0 fun g => { g with backlog := [r] })
    (s.ring 0).backlog = [r] ∧ r.jobLife ≠ none := by decide

theorem pkt_weltOk (op plen : Nat) (body : List Byte) : (pkt op plen body).weltOk op = true := by
  simp [pkt, Pkt.weltOk, Pkt.bytes, recWelt, putAt, leBytes]

/-- Each ring command can pass HST's checks: with its opcode, its parameter length and a device state that allows it. -/
def passes (op plen : Nat) (body : List Byte) (s : State) : Bool :=
  let p := pkt op plen body
  p.wf && s.fetchable 0 p && p.slotsOk && !((List.range (s.consumed 0 p)).any (s.slotBad 0)) && p.headerOk (plenOf op) &&
    legalIn op s.devState

theorem passes_spec {op plen : Nat} {body : List Byte} {s : State} (h : passes op plen body s = true) :
    Claims.Passes 0 op (pkt op plen body) s := by
  simp only [passes, Bool.and_eq_true, Bool.not_eq_true'] at h
  obtain ⟨⟨⟨⟨⟨h1, h2⟩, h3⟩, h4⟩, h5⟩, h6⟩ := h
  refine ⟨h1, h2, ?_, h6⟩
  simp [State.headerCheck, h3, h4, h5, pkt_weltOk]

theorem witness_passes :
    ∀ x ∈ [(0x101, 0), (0x102, 0), (0x103, 8), (0x105, 8), (0x201, 32), (0x202, 24), (0x203, 16), (0x301, 24), (0x302, 8), (0x303, 8),
        (0x304, 16), (0x401, 80), (0x402, 0), (0x403, 0), (0x404, 24), (0x405, 0), (0x501, 24), (0x502, 8), (0x503, 24), (0x601, 16),
        (0x602, 16), (0x603, 8), (0x701, 16), (0x702, 16), (0x703, 8), (0x801, 16), (0x802, 16), (0x901, 48), (0x902, 24), (0xA01, 24),
        (0xA02, 24), (0xA03, 32)], passes x.1 x.2 [] ready = true := by decide +kernel

theorem witness_passes_resume : passes 0x104 0 [] (up .quiesced State.reset) = true ∧ passes 0x104 0 [] (up .faultHold State.reset) = true :=
  by decide +kernel

theorem witness_command_checks :
    let p := pkt 0x102 0 []
    p.wf = true ∧ Claims.ringCommand (.queryState 0 p) = some (0, 0x102, p) ∧ ready.fetchable 0 p = true ∧ State.reset.fetchable 0 p = false ∧
    (ready.ring 0).sqHbm = false ∧ ({ p with slots := 0 } : Pkt).wf = true ∧ ready.fetchable 0 { p with slots := 0 } = true ∧
    ({ p with slots := 17 } : Pkt).wf = true ∧ p.weltOk 0x102 = true ∧ ({ p with welt := 0 } : Pkt).weltOk 0x102 = false ∧
    (pkt 0x102 8 []).weltOk 0x102 = true ∧ plenOf 0x102 8 = false ∧ Claims.inMatrix 0x105 .running = false ∧
    (0x999 ∉ opcodes ∧ (pkt 0x999 0 []).weltOk 0x999 = true) := by decide +kernel

theorem witness_echo_longest : passes 0x101 176 (List.replicate 176 7) ready = true := by decide +kernel

theorem witness_quiesce :
    (let s := up .ready State.reset
     (pkt 0x103 8 [1]).arg 0 1 ≤ 1 ∧ zeroAt (pkt 0x103 8 [1]).body 1 7 = true ∧ s.jobList = [] ∧
      ((List.range 4).all (fun e => (s.engine e).queue.isEmpty && (s.engine e).run.isNone) = true) ∧ s.boot.st = .ready ∧
      (s.ring 0).rqHbm = false) ∧
    (let s := up .ready busy
     s.boot.st = .ready ∧ (∀ kj ∈ s.jobList, kj.2.st ≠ .submitted) ∧ s.admittedJobs ≠ [] ∧ legalIn 0x103 s.devState = true ∧
      s.fetchable 0 (pkt 0x103 8 [0]) = true) ∧
    (let s := (up .ready State.reset).modSys fun y => { y with quiesce := some false }
     s.sys.quiesce = some false ∧ s.jobList = [] ∧ s.sys.ops = [] ∧ s.boot.st = .ready ∧ (up .faultHold s).boot.st = .faultHold) ∧
    (let s := (up .faultHold State.reset).withInteg { Integ.atReset with holds := [(0xA1, 0)], hold := true, reason := 0xA1 }
     s.boot.st = .faultHold ∧ (0xA1, 0) ∈ s.integ.holds ∧ (⟨999999999, 0, 0⟩ : HoldEnv).coolNs < 1000000000) := by decide +kernel

/-- A device in READY with command 7 in progress on ring 0. -/
def working (k : OpKind) : State :=
  ready.modSys fun y => { y with ops := [⟨7, 0, 5, 0x101, 0, k⟩], fetchNo := 8 }

theorem witness_partition :
    (let p := pkt 0x105 8 [7, 192]
     p.arg 0 1 ≤ 7 ∧ p.arg 1 1 ≤ 192 ∧ zeroAt p.body 2 6 = true ∧ ready.admittedJobs = [] ∧ ready.part.pend = none ∧ ready.folios = [] ∧
      passes 0x105 8 [7, 192] ready = true) ∧
    (let s := (working .setPartition).withPart { Part.atReset with pend := some (7, 192, 7) }
     s.part.pend = some (7, 192, 7) ∧ (s.opOf 7).isSome = true ∧ (s.ring 0).rqHbm = false) := by decide +kernel

def args (vs : List (Nat × Nat)) : List Byte := vs.flatMap fun x => leBytes x.1 x.2

theorem witness_memory_commands :
    (let p := pkt 0x201 32 (args [(8, 0), (8, 64), (8, 64)])
     (p.arg 0 8 % 64 = 0 ∧ p.arg 16 8 % 64 = 0 ∧ 64 ≤ p.arg 16 8 ∧ ready.mappedRange (p.arg 0 8) (p.arg 16 8) = true) ∧
     (p.arg 8 8 % 64 = 0 ∧ ready.mappedRange (p.arg 8 8) (p.arg 16 8) = true) ∧ p.arg 16 8 ≤ 2 ^ 40 ∧ p.arg 24 1 = 0 ∧
     zeroAt p.body 25 7 = true ∧ p.arg 0 8 + p.arg 16 8 ≤ p.arg 8 8 ∧ passes 0x201 32 (args [(8, 0), (8, 64), (8, 64)]) ready = true) ∧
    (let p := pkt 0x202 24 (args [(8, hbmBytes - 64), (8, 64), (8, 1)])
     p.arg 0 8 % 64 = 0 ∧ p.arg 8 8 % 64 = 0 ∧ ready.mappedRange (p.arg 0 8) (p.arg 8 8) = true) ∧
    (let s := working (.memCopy 0 64 64 false false)
     (s.opOf 7).isSome = true ∧ (s.ring 0).rqHbm = false ∧ s.badLine 0 64 = none ∧ hbmBytes - 64 + 64 ≤ hbmBytes) ∧
    (((working (.memFill 0 64 5)).opOf 7).map (·.kind) = some (.memFill 0 64 5)) ∧
    (let s := (working (.memVerify 0 64)).withMem { Mem.atReset with synd := [(0, 1)] }
     (s.opOf 7).map (·.kind) = some (.memVerify 0 64) ∧ s.badLine 0 64 = some 0) := by decide +kernel

theorem witness_folio_commands :
    (let b := args [(8, 0), (8, 4096), (4, 65535), (1, 1)]
     let p := pkt 0x301 24 b
     p.arg 0 8 % 64 = 0 ∧ p.arg 8 8 ≠ 0 ∧ 1 ≤ p.arg 16 4 ∧ p.arg 16 4 ≤ 65535 ∧ p.arg 20 1 = 1 ∧ zeroAt p.body 21 3 = true ∧
      ready.part.pend = none ∧ ready.folio (p.arg 16 4) = none ∧ ready.loading (p.arg 16 4) = false ∧ passes 0x301 24 b ready = true) ∧
    (let s := ready.withFolios [folio7]
     let p := pkt 0x302 8 (args [(4, 7), (1, 2)])
     p.arg 4 1 ≤ 2 ∧ zeroAt p.body 5 3 = true ∧ s.folio (p.arg 0 4) = some folio7 ∧ s.part.pend = none ∧ folio7.invalid = false ∧
      folio7.resident = false ∧ s.folioInUse 7 = false ∧ ({ folio7 with resident := true } : Folio).resident = true) ∧
    (let s := ready.withFolios [folio7]
     let p := pkt 0x303 8 (args [(4, 7)])
     zeroAt p.body 4 4 = true ∧ s.folio (p.arg 0 4) = some folio7 ∧ s.jobList = [] ∧ ready.folio 7 = none) := by decide +kernel

theorem witness_folio_work :
    (let s := (working (.folioLoad 64 4096 9 true)).withPart { Part.atReset with folioGib := 1 }
     (s.opOf 7).map (·.kind) = some (.folioLoad 64 4096 9 true) ∧ s.host.modules ≠ 0 ∧ (s.ring 0).rqHbm = false ∧
      s.folioStarts ((4096 + 4095) / 4096) ≠ [] ∧ s.part.folioGib ≤ 192 ∧ s.folios = []) ∧
    (let f := { folio7 with resident := true, pin := 2 }
     let s := (working (.folioPin 7 true)).withFolios [f]
     (s.opOf 7).map (·.kind) = some (.folioPin 7 true) ∧ s.folio 7 = some f ∧ f.resident = true ∧
      ((ready.withFolios [folio7]).waysFreed folio7.ways).isSome = true) ∧
    ((working (.folioPin 7 false)).opOf 7).map (·.kind) = some (.folioPin 7 false) := by decide +kernel

theorem witness_folio_checks :
    ({ decl with reservedOk := false }).check [] = some (stBadParam, 0, 0) ∧ decl.check [] = none := by decide +kernel

theorem witness_folio_no_ways :
    let f := { folio7 with decl := { decl with residentBytes := 2 ^ 40 } }
    (ready.withFolios [f]).waysFreed f.ways = none := by decide +kernel
/-! ## Tables, jobs, results and sequences by command -/

/-- Bytes in a memory from address `a` on. -/
def stored (a : Nat) (bs : List Byte) : SMap Byte := bs.zipIdx.filterMap fun x => if x.1 = 0 then none else some (a + x.2, x.1)

/-- A table of 32 codes, two of them of one bit: its lengths fill the code space. -/
def tableImage : List Byte := [2, 1, 1, 0] ++ List.replicate 60 0 ++ [1, 1] ++ List.replicate 62 0
def tabled : State := ready.modHost fun h => { h with mem := stored 64 tableImage }
def table1 : Table := tableOfBytes tableImage

theorem witness_table_load :
    (let p := pkt 0x304 16 (args [(8, 64), (4, 0), (1, 1)])
     let head := tabled.hostBytes (p.arg 0 8) 64
     let img := tabled.hostBytes (p.arg 0 8) (tableBytes (fieldAt head 0 1))
     p.arg 0 8 % 64 = 0 ∧ p.arg 12 1 = 1 ∧ zeroAt p.body 13 3 = true ∧ tabled.host.modules ≠ 0 ∧ fieldAt head 0 1 = 2 ∧ tableOk img = true ∧
      fieldAt head 1 1 = 1 ∧ fieldAt img 1 1 = 1 ∧ tabled.tableWait.get none 1 = none ∧ p.arg 8 4 = 0 ∧
      tabled.slotWith 1 (tableOfBytes img).gen = none ∧ tabled.tableTarget 1 = some 2) ∧
    passes 0x304 16 (args [(8, 64), (4, 0), (1, 1)]) tabled = true ∧
    (tabled.withTables [(2, some table1)]).slotWith 1 1 = some 2 := by decide +kernel

/-- Both slots of the class referenced by a job, so that a load has to wait. -/
def bound : Job := { job with bindings := [(0, 2, 7), (1, 3, 8)] }
def bothHeld : State :=
  ((working .tableLoad).withTables [(2, some { table1 with gen := 7 }), (3, some { table1 with gen := 8, age := 1 })]).withJobs [(3, some bound)]

theorem witness_table_waits :
    bothHeld.slotWith 1 1 = none ∧ bothHeld.tableTarget 1 = none ∧ bothHeld.tableReferenced (bothHeld.olderSlot 1) = true ∧
    (let w : TableWait := ⟨7, table1, 1000⟩
     let s := (bothHeld.withTableWait [(1, some w)]).withJobs []
     s.tableWait.get none 1 = some w ∧ (s.opOf w.op).isSome = true ∧ s.tableReferenced (s.olderSlot 1) = false ∧
      s.now ≤ w.deadline ∧ s.now < w.deadline ∧ w.deadline ≤ (s.withClk ⟨1000, 0, true⟩).now) := by decide +kernel

/-- The parameters of a JOB_SUBMIT of job 9 under folio 7, class G. -/
def submitArgs : List Byte :=
  args [(4, 7), (1, 0), (1, 0), (1, 4), (1, 4), (1, 0), (1, 0), (1, 1), (1, 0), (4, 1000000), (4, 0), (4, 0), (8, 0), (8, 0x8000),
    (8, 256), (8, 64), (8, 0x10000), (8, 64), (8, 0)]

theorem witness_submit :
    let s := ready.withFolios [{ folio7 with decl := { decl with snapBytes := 0 } }]
    let p := pkt 0x401 80 submitArgs
    s.submitParams p = none ∧ s.submitLate p = none ∧ submitBlock p = 0 ∧ passes 0x401 80 submitArgs s = true := by decide +kernel

/-- Job 9 in slot 3 in each state, of a device that is not idle. -/
def jobIn (st : JobState) : State := up .ready (with3 { job with st := st })

theorem witness_job_commands :
    (∀ st ∈ [JobState.running, .complete, .submitted, .restarting], (jobIn st).slotOf (pkt 0x402 0 []).jobId = some 3) ∧
    JobState.complete.final = true ∧ JobState.restarting.final = false ∧ JobState.restarting ≠ .running ∧ job.endDetail = none ∧ job.boundsEnd = none ∧
    (let j := { job with st := .faulted, endReason := 0x26, endDetail := some 5 }
     j.st = .faulted ∧ j.endReason = 0x26 ∧ j.endDetail = some 5) ∧
    passes 0x402 0 [] (jobIn .restarting) = true ∧ passes 0x403 0 [] (jobIn .complete) = true ∧
    (let s := (jobIn .preempted).modSys fun y => { y with ops := [⟨7, 0, 5, 0x402, 9, .jobCancel 3⟩] }
     (s.opOf 7).map (·.kind) = some (.jobCancel 3)) ∧
    ready.slotOf 9 = none ∧ (9 : Nat) ∉ ready.sys.released := by decide +kernel

theorem witness_results :
    (let p := pkt 0x404 24 (args [(8, 64), (8, 192), (8, 64)])
     let s := jobIn .complete
     s.job 3 = some { job with st := .complete } ∧ s.slotOf p.jobId = some 3 ∧ p.arg 0 8 % 64 = 0 ∧ p.arg 16 8 % 64 = 0 ∧
      p.arg 8 8 + p.arg 16 8 ≤ job.terms.resultBytes ∧ s.releasing 3 = false ∧ passes 0x404 24 (args [(8, 64), (8, 192), (8, 64)]) s = true) ∧
    (jobIn .complete).reading 3 = false ∧
    (let s := (jobIn .complete).modSys fun y => { y with ops := [⟨7, 0, 5, 0x404, 9, .readResult 3 64 192 64⟩] }
     s.reading 3 = true ∧ (s.opOf 7).map (·.kind) = some (.readResult 3 64 192 64) ∧ s.host.modules ≠ 0 ∧
      s.badLine (0x8000 + 192) 64 = none ∧
      (s.withMem { Mem.atReset with synd := [((0x8000 + 192) / 64, 1)] }).badLine (0x8000 + 192) 64 = some (0x8000 + 192)) ∧
    (let s := (jobIn .complete).modSys fun y => { y with ops := [⟨7, 0, 5, 0x405, 9, .releaseResult 3⟩] }
     (s.opOf 7).map (·.kind) = some (.releaseResult 3) ∧ s.reading 3 = false) ∧
    (∀ f ∈ ((jobIn .complete).engine 0).queue, f.slot ≠ some 3) := by decide +kernel

def attention : AttnDecl := ⟨⟨8, 2, 64, 0, 0, [⟨1, 1, 0, false⟩], 1, 0⟩, [], 256, 4⟩
def pagerOf (mapped : Bool) : Pager := ⟨0x100000, 0x8000000, 64, 64, [(0, some ⟨5, 64, 256, 64, 0x2000⟩)], [], [], [], [], [], mapped⟩
def paged (g : Option Pager) : State :=
  up .ready (busy.withFolios [{ folio7 with decl := { decl with attn := some attention } }] |>.withJobs [(3, some { job with pager := g })])

theorem witness_sequences :
    (let p := pkt 0x501 24 (args [(4, 6), (4, 256), (4, 256), (4, 0), (8, 0x2000)])
     let s := paged (some (pagerOf true))
     s.slotOf p.jobId = some 3 ∧ ((s.declOf job).bind (·.attn)) = some attention ∧ s.leads job = true ∧ zeroAt p.body 12 4 = true ∧
      p.arg 16 8 % 64 = 0 ∧ p.arg 16 8 < hbmBytes ∧ 1 ≤ p.arg 4 4 ∧ p.arg 4 4 ≤ p.arg 8 4 ∧ p.arg 8 4 ≤ attention.tLimit ∧
      (pagerOf true).hasSeq 6 = false ∧ (pagerOf true).hasJoin 6 = false ∧ (pagerOf true).hasSeq 5 = true ∧ (pagerOf true).hasLeave 5 = false ∧
      passes 0x501 24 (args [(4, 6), (4, 256), (4, 256), (4, 0), (8, 0x2000)]) s = true) ∧
    (let p := pkt 0x503 24 (args [(8, 0x100000), (8, 0x8000000), (4, 64)])
     let s := paged none
     p.arg 0 8 % 64 = 0 ∧ p.arg 8 8 % 64 = 0 ∧ 1 ≤ p.arg 16 4 ∧ p.arg 16 4 ≤ 2 ^ 24 ∧ zeroAt p.body 20 4 = true ∧
      s.mapCheck 3 job (p.arg 0 8) (p.arg 8 8) (p.arg 16 4) = none) := by decide +kernel

theorem witness_pager_work :
    (let s := (paged (some (pagerOf false))).modSys fun y => { y with ops := [⟨7, 0, 5, 0x503, 9, .kvPageMap 3⟩] }
     (s.opOf 7).map (·.kind) = some (.kvPageMap 3) ∧ (s.ring 0).rqHbm = false ∧ (pagerOf false).tableBase + 4 * attention.nMax ≤ hbmBytes ∧
      s.mem.synd = []) ∧
    (let x : Decision := ⟨4, ⟨7, 0, 5, false, 6, 64, 128, 0, false⟩, true, 0, 0, 0⟩
     let j := { job with pager := some { pagerOf true with decisions := [x] }, combined := some 4 }
     let s := (with3 j).modSys fun y => { y with ops := [⟨7, 0, 5, 0x501, 9, .seq 3⟩] }
     s.job 3 = some j ∧ (s.opOf x.req.op).isSome = true ∧ (j.combined.any fun c => decide (x.ordinal ≤ c)) = true) := by decide +kernel

/-! ## The torus -/

/-- A torus of two points along X, this device at its origin, link 8 (port 1, towards plus X) UP. -/
def torus : State :=
  ((ready.withTopo { Topo.atReset with size := ⟨2, 1, 1, 1⟩, wrap := 1, groups := [(1, some ⟨⟨0, 0, 0, 0⟩, ⟨2, 1, 1, 1⟩⟩)] }).modLink 8
    fun x => { x with st := 2, tx := 15, rx := 15 }).modLink 0 fun x => { x with st := 2, tx := 15, rx := 15 }

/-- A flit of a type for the point `x` along X, with one line of zeros at line 2 of device memory. -/
def flit (ty x : Nat) : List Byte :=
  sealFlit (putAt (putAt (List.replicate 288 0) 0 [BitVec.ofNat 8 ty, 1, BitVec.ofNat 8 x, 0, 2])
    272 (leBytes 2 (lineWelt 2 (List.replicate 64 0)).toNat)) 0 0 0

theorem witness_route :
    let t : Topo := { Topo.atReset with size := ⟨16, 16, 8, 8⟩, wrap := 5 }
    (∀ a ∈ List.range 4, (⟨0, 0, 0, 0⟩ : Coord).get a < t.size.get a) ∧ ∀ a ∈ List.range 4, (⟨15, 15, 7, 7⟩ : Coord).get a < t.size.get a := by
  decide

theorem witness_topo_set :
    (let p := pkt 0x601 16 [16, 16, 8, 8, 15, 0, 7, 0, 15]
     zeroAt p.body 9 7 = true ∧ p.arg 8 1 ≤ 15 ∧
      (∀ a ∈ List.range 4, 1 ≤ p.arg a 1 ∧ p.arg a 1 ≤ [16, 16, 8, 8].getD a 0 ∧ p.arg (4 + a) 1 < p.arg a 1 ∧
        ((p.arg 8 1).testBit a = true → 2 ≤ p.arg a 1)) ∧ ready.jobList = [] ∧
      passes 0x601 16 [16, 16, 8, 8, 15, 0, 7, 0, 15] ready = true) ∧
    (let p := pkt 0x602 16 [255, 0, 0, 0, 0, 0, 0, 0, 2, 1, 1, 1]
     1 ≤ p.arg 0 1 ∧ zeroAt p.body 1 3 = true ∧ zeroAt p.body 12 4 = true ∧ torus.topo.size = ⟨2, 1, 1, 1⟩ ∧
      (p.arg 8 1 = torus.topo.size.x ∧ p.arg 4 1 = 0) ∧ p.arg 9 1 = 1 ∧ p.arg 10 1 = 1 ∧ p.arg 11 1 = 1) ∧
    (let j := { job with terms := { terms with group := 1 } }
     let s := torus.withJobs [(3, some j)]
     s.jobList = [(3, j)] ∧ j.terms.group = (pkt 0x602 16 [1]).arg 0 1 ∧ (pkt 0x602 16 [1]).arg 8 1 = 0) := by decide +kernel

theorem witness_link_train :
    (let p := pkt 0x603 8 [3, 1]
     p.arg 1 1 ≤ 1 ∧ zeroAt p.body 2 6 = true ∧ torus.trainConflict (p.arg 0 1) = false ∧ passes 0x603 8 [3, 1] torus = true) ∧
    (let s := (torus.modLink 8 fun x => { x with st := 1 }).modSys fun y => { y with ops := [⟨7, 0, 5, 0x603, 0, .linkTrain 2 false⟩] }
     let r : TrainResult := ⟨8, true, 1, 1, true, [2, 1, 1, 1], 1, 1, 0, 0, 50, true⟩
     (s.opOf 7).map (·.kind) = some (.linkTrain 2 false) ∧ (s.link 8).st = 1 ∧ (2 : BitVec 8).getLsbD (8 / 8) = true ∧ (s.link 0).st ≠ 1 ∧
      s.wired 8 r = true ∧ r.flightNs = 50 ∧ s.wired 8 { r with peerWrap := 0 } = false) := by decide +kernel

theorem witness_flits_fail :
    (torus.link 8).st = 2 ∧ (torus.link 8).realign = false ∧
    ∀ ty ∈ [0, 1, 2], (⟨flit ty 0, true, 15, []⟩ : FlitRx).wf = true ∧ flitType (flit ty 0) = ty := by decide +kernel

theorem witness_flits_pass :
    (flitCrcOk (flit 0 0) = true ∧ (torus.link 8).waiting = [] ∧ fieldAt (flit 0 0) 282 2 / 2 ^ 14 % 2 = 0) ∧
    (flitCrcOk (flit 1 0) = true ∧ flitSeq (flit 1 0) = (torus.link 8).rxSeq ∧ flitDest (flit 1 0) = torus.topo.coord ∧
      torus.stoppedSlot (flitJob (flit 1 0)) = false ∧
      (∀ k ∈ flitLines (flit 1 0), lineWelt (flitLineNo (flit 1 0) + k) (flitLine (flit 1 0) k) = flitWelt (flit 1 0) k ∧
        64 * (flitLineNo (flit 1 0) + k) + 64 ≤ hbmBytes)) ∧
    (flitCrcOk (flit 2 0) = true ∧ flitType (flit 2 0) = 2 ∧ (∀ k ∈ flitLines (flit 2 0), torus.lineBad (flitLineNo (flit 2 0) + k) = false) ∧
      torus.topo.reds = [] ∧ torus.inOrder (flit 2 0) ⟨1, [1]⟩ = true) ∧
    flitVc (flit 1 0) ≠ 2 ∧ (flitVc (flit 1 0) == 3) = false ∧ torus.mayWrite 0 (64 * 2) = false ∧
    (flitCrcOk (flit 1 1) = true ∧ torus.topo.routePort torus.topo.coord (flitDest (flit 1 1)) = some 1 ∧
      torus.streamLink 1 (flitStream (flit 1 1)) = some 8 ∧ (torus.link 8).replay.length < 256 ∧
      (torus.link 8).credit = []) := by decide +kernel

theorem witness_lanes :
    let one := torus.modLink 8 fun x => { x with rx := 8 }
    (torus.link 8).rx.getLsbD 3 = true ∧ (one.link 8).st = 2 ∧ (one.link 8).rx.getLsbD 3 = true ∧ (one.link 8).rx.getLsbD 0 = false ∧
    (torus.link 9).st ≠ 2 ∧ (one.link 8).rx ≠ 0 ∧ (one.link 8).waiting = [] ∧ (torus.link 8).tx &&& (1 : BitVec 4) ≠ 0 ∧
    (torus.link 8).tx &&& (0 : BitVec 4) = 0 := by decide

/-- In canonical order rank 0's own contribution meets that of rank 1; rank 1's, not that of the absent rank 2. -/
theorem witness_reduction_order :
    let j := { job with terms := { terms with group := 1, canonical := true } }
    let s := torus.withJobs [(0, some j)]
    s.inOrder (flit 2 0) ⟨1, [1]⟩ = true ∧ s.inOrder (flit 2 0) ⟨1, [2]⟩ = false ∧ s.stoppedSlot 0 = false ∧ flitJob (flit 2 0) = 0 ∧
      s.groupOf j.terms.group = some ⟨⟨0, 0, 0, 0⟩, ⟨2, 1, 1, 1⟩⟩ := by decide +kernel

/-- A member of group 1 beside rank 0, with a job of the group. -/
def member (j : Job) : State :=
  up .ready ((torus.withTopo { torus.topo with coord := ⟨1, 0, 0, 0⟩ }).withFolios [folio7] |>.withJobs [(3, some j)])
def groupJob : Job := { job with terms := { terms with group := 1, startWaitUs := 100 } }
def ctrl : Ctrl := ⟨8, 1, 0, 0⟩
def group1 : Group := ⟨⟨0, 0, 0, 0⟩, ⟨2, 1, 1, 1⟩⟩

theorem witness_control_messages :
    (let s := member groupJob
     (s.link 8).st = 2 ∧ s.topo.group 1 = some group1 ∧ group1.has s.topo.coord = true ∧ s.job 3 = some groupJob ∧
      groupJob.st.admitted = true ∧ (s.admittedJobs.find? fun kj => kj.2.terms.group == 1) = some (3, groupJob) ∧
      (1, 0) ∉ s.topo.faultSeen ∧ (0x80 : BitVec 8).toNat ∉ [0, 0x32, 0xB0] ∧ s.topo.coord ≠ group1.org ∧
      s.topo.parentPort group1 = some (ctrl.link.val / 8)) ∧
    (let s := (member groupJob).withJobs []
     s.admittedJobs = [] ∧ ctrl.epoch.toNat = 0) ∧
    (let s := (member groupJob).withTopo { (member groupJob).topo with faultSeen := [(1, 0)] }
     (1, 0) ∈ s.topo.faultSeen) ∧
    (let j := { groupJob with st := .accepted, start := some ⟨0, [], false⟩, price := some ⟨[500], 500, 2000, 1, 1, 500, 969, 66001, none⟩ }
     (member j).declOf j = some decl ∧ j.restart = none ∧ hasOnce decl = true ∧ j.displaced = [] ∧ j.terms.cls = 0 ∧ j.price.isSome = true ∧
      ({ j.terms.same with mode := 1 } : GroupTerms) ≠ j.terms.same ∧ (torus.topo.coord = group1.org) ∧
      ({ terms with cls := 1 }).cls ≠ 0) ∧
    (let j := { groupJob with step := some 7 }
     j.step = some 7 ∧ j.atCut = false ∧ j.snap = none) := by decide +kernel

/-! ## Video, awls, SWF blocks, stalled firmware -/

/-- A CONFIG for encoding 64 × 64 in 8 bits with one tile group into a ring of 64 KiB of host memory. -/
def config (rc : Nat) : List Byte :=
  args [(1, 1), (1, 0), (1, 8), (1, 0), (2, 64), (2, 64), (2, 30), (2, 1), (1, 1), (1, 0), (1, rc), (1, 1), (4, 1000), (4, 1000),
    (1, 10), (1, 200), (1, 100), (1, 0), (2, 0), (2, 0), (1, 0), (1, 1), (6, 0), (8, 0), (4, 64), (4, 64), (8, 0x10000), (8, 0x2000)]
def configured : State := ready.withMem { Mem.atReset with bytes := stored 0x4000 (config 1) }

theorem witness_video_open :
    let p := pkt 0x701 16 (args [(8, 0x4000), (1, 3)])
    configured.reach false (p.arg 0 8) = true ∧ configured.openParams p = none ∧ configured.openLate p = none ∧ p.arg 8 1 = 3 ∧
      passes 0x701 16 (args [(8, 0x4000), (1, 3)]) configured = true := by decide +kernel

def session : Session := freshSession (vidCfgOf (config 1 ++ List.replicate 56 0))
/-- The descriptor of a picture at 0 with a pitch of 128. -/
def descriptor : List Byte := args [(8, 0), (4, 128), (4, 0)]
def frame : Frame := frameOf (descriptor ++ List.replicate 48 0) 7 0 4 none
def runFrame : RunFrame := ⟨frame, true, 0, 100, 0, [], [], [], [], 0, 0, []⟩
/-- Session 0 open on engine 0, with a queue and a running frame. -/
def coding (x : Session) (q : List Frame) (r : Option RunFrame) : State :=
  (working (.videoFrame 0 0)).modEngine 0 fun g => { g with sess := [(0, some x)], queue := q, run := r }

theorem witness_video_frame :
    let s := (coding session [] none).withMem { Mem.atReset with bytes := stored 0x4000 descriptor }
    let b := args [(2, 0), (2, 0), (4, 7), (8, 0x4000)]
    let p := pkt 0x702 16 b
    s.session (p.arg 0 2) = some session ∧ session.closing = none ∧ s.reach false (p.arg 8 8) = true ∧ s.frameParams p = none ∧
      s.frameBad session.cfg (s.devBytes (p.arg 8 8) 64) = false ∧ s.sys.quiesce = none ∧
      (s.engine 0).queue.length + (if (s.engine 0).run.isSome then 1 else 0) < 32 ∧
      32 ≤ (List.replicate 31 frame).length + (if (some runFrame).isSome then 1 else 0) ∧
      zeroAt (pkt 0x703 8 []).body 2 6 = true ∧ passes 0x703 8 [] s = true := by decide +kernel

theorem witness_video_frame_job :
    (coding session [] none).frameJobCheck { pkt 0x702 16 [] with job := 0 } = none := by decide +kernel

theorem witness_video_close :
    (let s := (coding session [] none).modSys fun y => { y with ops := [⟨7, 0, 5, 0x703, 0, .videoClose 0 0⟩] }
     (s.opOf 7).map (·.kind) = some (.videoClose 0 0) ∧ (s.engine 0).queue = [] ∧ (s.engine 0).run = none) ∧
    (∃ f ∈ ((coding session [frame] none).engine 0).queue, f.sess = 0) := by decide

theorem witness_frame_start :
    let s := coding session [frame] none
    (s.engine 0).run = none ∧ (s.engine 0).queue = [frame] ∧ s.session frame.sess = some session ∧ frame.sess / 8 = 0 ∧ frame.slot = none ∧
    session.cfg.rc ≠ 0 ∧ session.cfg.qMin ≤ session.cfg.qMax ∧ ({ session with coded := 1 }).coded ≠ 0 ∧
    (let t := { coding session [{ frame with slot := some 3, index := 0 }] none with jobs := [(3, some { job with frames := 0 })] }
     t.job 3 = some { job with frames := 0 } ∧ ({ job with frames := 0 } : Job).frames ≤ 0 ∧ 0 < ({ job with frames := 1 } : Job).frames) := by decide

theorem witness_tile_group :
    let s := coding { session with produced := 65472, cons := 0 } [] (some runFrame)
    let x := { session with produced := 65472, cons := 0 }
    (s.engine 0).run = some runFrame ∧ s.session runFrame.f.sess = some x ∧ runFrame.f.sess / 8 = 0 ∧ x.cfg.encode = true ∧
    runFrame.tail = [] ∧ runFrame.group < x.cfg.groups ∧ ([0] : List Nat).length = (x.cfg.groupRows 0).length ∧ x.cfg.outHost = true ∧
    s.host.modules ≠ 0 ∧ x.produced % 64 = 0 ∧ x.cons ≤ x.produced ∧ x.cfg.progress + 64 ≤ x.cfg.outAddr ∧
    s.frameMapped x.cfg runFrame.f = true ∧ x.cfg.bitsOk runFrame ⟨[0], [1], [2]⟩ = true ∧
    x.produced + 64 ≤ x.cons + x.cfg.outKib * 1024 ∧ 0 + x.cfg.outKib * 1024 < 65536 + 64 := by decide +kernel

theorem witness_frame_done :
    let s := coding session [] (some { runFrame with group := 1 })
    (s.engine 0).run = some { runFrame with group := 1 } ∧ s.session 0 = some session ∧ (s.opOf frame.op).isSome = true ∧
    session.cfg.encode = true ∧ ({ runFrame with group := 1 }).group = session.cfg.groups ∧
    s.frameBadLine session.cfg { frame with srcHost := true } = none ∧ s.frameMapped session.cfg frame = true ∧ s.uncorrectable 0 = false ∧ ({ session.cfg with encode := false }).encode = false ∧
    ({ frame with dstHost := true }).dstHost = true ∧
    (s.withMem { Mem.atReset with synd := [(0, 1)] }).frameBadLine session.cfg { frame with size := 64 } = some 0 := by decide +kernel

theorem witness_awl_start :
    let b := leBytes 24 (2 ^ 191 + 1)
    let p := pkt 0xA01 24 b
    let s := (ready.modChan 0 fun g => { g with pattern := 3, len := 1 }).modChan 191 fun g => { g with len := 2 ^ 25 }
    maskChannels p = [0, 191] ∧ (∀ k ∈ [0, 191], (s.chan k).pattern ≤ 3 ∧ 1 ≤ (s.chan k).len ∧ (s.chan k).len ≤ 2 ^ 25) ∧
    s.admittedJobs = [] ∧ (∀ k ∈ [0, 191], (s.chan k).run = false) ∧ (s.ring 0).rqHbm = false ∧ passes 0xA01 24 b s = true ∧
    ((s.modChan 0 fun g => { g with run := true }).chan 0).run = true ∧ (pkt 0xA03 32 b).arg 24 8 % 64 = 0 := by decide +kernel

theorem witness_awl_runs :
    let s := ready.modChan 5 fun g => { g with run := true, op := 1, pattern := 3, value := 7, len := 1 }
    (s.chan 5).run = true ∧ (s.chan 5).loop = false ∧ (s.chan 5).op = 1 ∧ (s.chan 5).pattern = 3 ∧ (ready.chan 5).run = false ∧
    s.boot.st ≠ .off ∧ s.boot.st ≠ .fuseLoad ∧ s.boot.st ≠ .locked ∧ (up .locked s).boot.st = .locked ∧
    2 ≤ ((s.modChan 5 fun g => { g with op := 2 }).chan 5).op := by decide

/-- A folio with one tensor of class `cls`, whose block lies at its first line: raw with 64 weights, or coded with one weight in
`words` words, under generation 1. -/
def swf (cls : Nat) : SwfDecl := ⟨1, cls, 0, 0, [0]⟩
def rawHead : List Byte := [1, 1, 0, 0, 64, 0, 0, 0] ++ (List.replicate 16 (leBytes 2 32)).flatten
def codedHead (words : Nat) : List Byte := [0, 2, 1, 0, 1, 0, 0, 0] ++ (List.replicate 16 (leBytes 2 words)).flatten
def swfFolio (cls : Nat) : Folio := { folio7 with decl := { decl with swf := [swf cls] } }
def swfJob : Job := { job with bindings := [(0, 2, 1)] }
def swfState (cls : Nat) (head : List Byte) : State :=
  (((busy.withFolios [swfFolio cls]).withTables [(2, some table1)]).withMem { Mem.atReset with bytes := stored 0x100000 head }).withJobs
    [(3, some swfJob)]

theorem witness_swf :
    (∀ cls ∈ [0, 1], (swfState cls rawHead).swfOf 3 0 0 cls = some (swfJob, swfFolio cls, swf cls)) ∧ swfJob.onCore 100 = true ∧
    (let s := swfState 0 rawHead
     let h := BlockHead.ofBytes (s.devBytes 0x100000 64)
     let q := s.queueBlocks 3
     h.raw = true ∧ s.badLine 0x100000 (64 + 4 * h.ends.getD 15 0) = none ∧ s.mappedRange 0x100000 (64 + 4 * h.ends.getD 15 0) = true ∧
      s.nextBlock 3 0 0 = none ∧ (q.modJob 3 fun j => { j with window := [(0x100000, 4096)] }).job 3 ≠ none ∧
      ((s.modJob 3 fun j => { j with window := [(0x100000, 4096)] }).queueBlocks 3).nextBlock 3 0 0 = some ⟨4 * hbmStack 0x100000, 3, 0, 0, some (2, 1)⟩ ∧
      holdsBlock (swfFolio 0).decoded 0 0 = false ∧ holdsBlock swfJob.decoded 0 0 = false ∧ blockError h table1 (s.devBytes 0x100040 128) = none) ∧
    (let s := swfState 1 (codedHead 1)
     let h := BlockHead.ofBytes (s.devBytes 0x100000 64)
     swfJob.bindings.find? (fun b => b.1 == 0) = some (0, 2, 1) ∧ s.table 2 = some table1 ∧ table1.gen = 1 ∧ h.gen = 1 ∧
      blockError h table1 (s.devBytes 0x100040 4) = none ∧ 393152 + (blockLines h table1 (s.devBytes 0x100040 4)).length ≤ 393216) ∧
    (let s := swfState 1 (codedHead 0)
     let h := BlockHead.ofBytes (s.devBytes 0x100000 64)
     h.gen = 1 ∧ blockError h table1 [] = some (0, 0)) := by decide +kernel

theorem witness_stall :
    let p := pkt 0x102 0 []
    p.wf = true ∧ ready.fetchable 0 p = true ∧ State.reset.fetchable 0 p = false ∧ (ready.ring 0).sqHbm = false ∧
    ready.headerCheck 0 0x102 (opcodes.contains 0x102) (plenOf 0x102) p = none ∧
    ready.headerCheck 0 0x999 (opcodes.contains 0x999) (plenOf 0x999) (pkt 0x999 0 []) = some (stBadOpcode, 0, 0) := by decide +kernel

/-! ## Burnish, monitors, holds -/

def hours4 : Nat := 4 * 3600 * 1000000000

theorem witness_burnish :
    (let s := (ready.modIsl 99 fun y => { y with lastPass := some 0 }).withClk ⟨hours4, 0, true⟩
     (s.island 99).lastPass = some 0 ∧ 0 + hours4 ≤ s.now ∧ (s.island 99).dueAt = none ∧ (s.withClk ⟨hours4 - 1, 0, true⟩).now < 0 + hours4) ∧
    (let s := (ready.modIsl 99 fun y => { y with dueAt := some 0, offset := -6 }).withClk ⟨hours4, 0, true⟩
     (s.island 99).dueAt = some 0 ∧ -6 ≤ (s.island 99).offset ∧ (s.island 99).offset ≤ 10 ∧ s.jobsAt 99 = [] ∧ 99 ∉ [islHst, islCtl] ∧
      0 + hours4 ≤ s.now ∧ (s.island 98).dueAt = none) ∧
    (let s := ready.withInteg { Integ.atReset with holds := [(0xA0, 99)] }
     (0xA0, 99) ∈ s.integ.holds) ∧
    (let b := leBytes 13 (2 ^ 100 - 1)
     (pkt 0x801 16 b).arg 0 13 < 2 ^ 100 ∧ zeroAt (pkt 0x801 16 b).body 13 3 = true ∧ passes 0x801 16 b ready = true) ∧
    (let s := working (.burnishRun [0, 99])
     (s.opOf 7).map (·.kind) = some (.burnishRun [0, 99]) ∧ ∀ m ∈ [0, 99], (-6 ≤ (s.island m).offset ∧ (s.island m).offset ≤ 10) ∧
      readingsOf [(0, [1300]), (99, [1300])] m ≠ []) := by decide +kernel

theorem witness_margin_report :
    (let b := args [(8, hbmBytes - 3264), (1, 0)]
     let p := pkt 0x802 16 b
     p.arg 0 8 % 64 = 0 ∧ p.arg 8 1 ≤ 1 ∧ zeroAt p.body 9 7 = true ∧ ready.mappedRange (p.arg 0 8) 3264 = true ∧
      passes 0x802 16 b ready = true) ∧
    (let s := working (.marginReport 0x4000 false)
     (s.opOf 7).map (·.kind) = some (.marginReport 0x4000 false) ∧ 0x4000 < farLo) ∧
    ((working (.marginReport 0x4000 true)).modHost fun h => { h with modules := 0 }).host.modules = 0 := by decide +kernel

theorem witness_islands :
    ready.boot.st ≠ .off ∧ ready.boot.st ≠ .fuseLoad ∧ ready.boot.st ≠ .locked ∧ ready.islFloor 5 ≤ 1400 ∧
    2 ≤ (ready.modIsl 5 fun x => { x with charges := [(0, 2)] }).charged 5 ∧ ready.charged 5 < 2 ∧ ready.pins.thermL = false ∧
    (ready.island 5).noHead = false ∧ (ready.withPins { ready.pins with thermL := true }).pins.thermL = true ∧
    (let s := (ready.modIsl 5 fun x => { x with timingAtFloor := [0] }).withClk ⟨hours4 - 1, 0, true⟩
     (∃ u ∈ (s.island 5).timingAtFloor, s.now - u < hours4) ∧ (s.island 5).freq ≤ s.islFloor 5) ∧
    (let s := up .ready busy
     (3, job) ∈ s.admittedJobs ∧ s.job 3 = some job ∧ 3 ∈ s.jobsAt 3 ∧ (s.island 3).timingAtFloor = []) := by decide

theorem witness_holds :
    (let s := up .ready busy
     s.boot.st ∉ [DevState.locked, .off, .fuseLoad] ∧ s.job 3 = some job ∧ job.st.final = false ∧ s.boot.st ≠ .off) ∧
    (up .locked busy).boot.st ∈ [DevState.locked, .off, .fuseLoad] ∧ (up .off busy).boot.st = .off ∧
    (let s := member groupJob
     (s.link 8).st = 2 ∧ (s.link 9).st ≠ 2 ∧ (3, groupJob) ∈ s.admittedJobs ∧ s.job 3 = some groupJob ∧ s.groupOf 1 = some group1 ∧
      8 / 8 ∈ s.topo.facing group1) := by decide

/-! ## Boot, attestation, staging -/

def booting (b : Boot) (count : Nat) : State := (State.reset.withBoot b).withClk ⟨count, 0, true⟩

theorem witness_power :
    State.reset.pins.pwrgood = true ∧ (State.reset.withPins ⟨false, true, false, false⟩).pins.pwrgood = false ∧
    ({ Boot.atConfigLoad with st := .fuseLoad }).st = .fuseLoad ∧ Boot.atConfigLoad.st ≠ .fuseLoad ∧
    ({ Boot.atConfigLoad with st := .fuseLoad, mode := 3 }).mode = 3 ∧ Boot.atConfigLoad.mode ≠ 3 ∧ Boot.atConfigLoad.st ≠ .off ∧
    ((0 : BitVec 4) = 0 ∧ (0 : BitVec 6) = 0) ∧ ((15 : BitVec 4) ≠ 0 ∧ (32 : BitVec 6).toNat ∈ [4, 8, 12, 16, 24, 32]) := by decide

/-- The bounds of the host's wait and of the reads, on both sides. -/
theorem witness_config_load :
    (let b := { Boot.atConfigLoad with mode := 1, hostWait := true, reading := false, hostLen := 0x2000000 }
     b.st = .configLoad ∧ b.hostWait = true ∧ 1 ≤ b.hostLen ∧ b.hostLen ≤ 0x2000000 ∧ 0x2000000 < 0x2000001 ∧
      b.hostWaitAt + 10000000000 ≤ (booting b 10000000000).now ∧ (booting b 9999999999).now < b.hostWaitAt + 10000000000) ∧
    (Boot.atConfigLoad.reading = true ∧ Boot.atConfigLoad.hostWait = false ∧
      (booting Boot.atConfigLoad 90000000).now ≤ Boot.atConfigLoad.readAt + 90000000 ∧
      Boot.atConfigLoad.readAt + 90000000 ≤ (booting Boot.atConfigLoad 90000000).now) ∧
    (let b := { Boot.atConfigLoad with mode := 1, readLen := 64 }
     (booting b 20000000).now ≤ b.readAt + 20000000 ∧ ((booting b 20000000).modHost fun h => { h with modules := 1 }).host.modules ≠ 0) := by
  decide

/-- An image with a body of one line, format, keys 0 and SVN `svn`, whose digest and signatures are left zero. The witnesses below stop
short of a good signature, which the kernel cannot check in reasonable time; NOTES.md says how one was tried. -/
def image (svn : Nat) : List Byte :=
  let head := args [(4, 0x54484932), (2, 1), (2, 1), (4, 2380 + 64), (4, 64), (1, svn), (1, 0), (1, 0)]
  head ++ List.replicate (2380 + 64 - head.length) 0

def signedFor (svn : Nat) (f : Fuses) : Fuses :=
  { f with ecdsaHash := [sha384 (imgEcdsaPub (image svn))], lmsHash := [sha384 (imgLmsPub (image svn))] }

theorem witness_verify :
    imgFormatOk (image 128) = true ∧ ({ Fuses.named with ecdsaRevoked := 1 }).ecdsaRevoked.getLsbD (fieldAt (image 128) 17 1) = true ∧
    imgFault Fuses.named [] = some 3 ∧ fieldAt (image 128) 0 4 = 0x54484932 ∧ fieldAt ([] : List Byte) 0 4 ≠ 0x54484932 ∧
    (let b := { Boot.atConfigLoad with st := .verify }
     b.st = .verify ∧ b.verified = false) := by decide +kernel

theorem image_fields : fieldAt (image 127) 16 1 = 127 ∧ fieldAt (image 127) 17 1 = 0 ∧ fieldAt (image 127) 18 1 = 0 := by decide +kernel

theorem witness_keys :
    imgFormatOk (image 127) = true ∧ imgKeysOk (signedFor 127 { Fuses.named with svn := 128 }) (image 127) = true ∧
    fieldAt (image 127) 16 1 < (signedFor 127 { Fuses.named with svn := 128 }).svn := by
  refine ⟨by decide +kernel, ?_, by rw [image_fields.1]; decide⟩
  simp [imgKeysOk, image_fields.2.1, image_fields.2.2, signedFor, Fuses.named]

theorem witness_release :
    (let b := { Boot.atConfigLoad with st := .verify, verified := true, image := image 5, imageSvn := 5, leaf := 8191 }
     b.st = .verify ∧ b.verified = true ∧ (fieldAt b.image 6 2 % 2 = 1 ∧ Fuses.named.svn < b.imageSvn) ∧ b.leaf < 8192 ∧
      8192 ≤ ({ b with leaf := 8192 }).leaf) := by decide +kernel

theorem witness_training :
    (let b := { Boot.atConfigLoad with st := .training }
     b.st = .training ∧ b.trained = false ∧ b.hbmFail = false ∧ b.identityOff = false ∧ (120 ≤ 120) ∧
      (∀ ch ∈ List.range 192, 120 ≤ (List.replicate 192 120).getD ch 0) ∧ ¬ (64 ≤ ([] : List Nat).getD 0 0)) ∧
    (let rs : List Readings := List.replicate 100 [1210]
     rs.length = 100 ∧ (∀ r ∈ rs, r ≠ []) ∧
      ∀ i ∈ List.range 100, ∀ x ∈ rs.getD i [], 1210 + 5 * (ready.charged i - 3) ≤ 5 * (x / 5)) := by decide +kernel

theorem witness_attest :
    (let b := List.replicate 32 7 ++ args [(8, 0x4000), (1, 0)]
     let p := pkt 0x901 48 b
     p.arg 40 1 ≤ 1 ∧ zeroAt p.body 41 7 = true ∧ p.arg 32 8 % 64 = 0 ∧ ready.mappedRange (p.arg 32 8) 7140 = true ∧
      ready.boot.identityOff = false ∧ (ready.modBoot fun b => { b with reports := 32767 }).boot.reports + ready.attestsDue.length < 32768 ∧
      32768 ≤ (ready.modBoot fun b => { b with reports := 32768 }).boot.reports + ready.attestsDue.length ∧
      passes 0x901 48 b ready = true) ∧
    (let nonce := List.replicate 32 (7 : Byte)
     let s := (working (.attest nonce 0x4000 false)).modBoot fun b => { b with subtreeReady := true }
     (s.opOf 7).map (·.kind) = some (.attest nonce 0x4000 false) ∧ nonce.length = 32 ∧ s.boot.subtreeReady = true ∧ s.host.modules ≠ 0 ∧
      (∀ q ∈ s.attestsDue, 7 ≤ q.no) ∧ (working (.attest nonce 0x4000 false)).boot.subtreeReady = false) := by decide +kernel

theorem witness_staging :
    (let b := args [(8, 0x4000), (8, 2444), (1, 0)]
     let p := pkt 0x902 24 b
     p.arg 0 8 % 64 = 0 ∧ p.arg 8 8 ≠ 0 ∧ p.arg 16 1 ≤ 1 ∧ zeroAt p.body 17 7 = true ∧ ready.mappedRange (p.arg 0 8) (p.arg 8 8) = true ∧
      ready.staging = false ∧ (working (.fwStage 0x4000 2444 false)).staging = true ∧ passes 0x902 24 b ready = true) ∧
    (let s := working (.fwStage 0x4000 64 false)
     (s.opOf 7).map (·.kind) = some (.fwStage 0x4000 64 false) ∧ s.host.modules ≠ 0 ∧ s.badLine 0x4000 64 = none ∧
      imgFault s.fuses (s.srcBytes false 0x4000 64) = some 3 ∧
      (s.withMem { Mem.atReset with synd := [(0x100, 1)] }).badLine 0x4000 64 ≠ none) := by decide +kernel

/-! ## Registers, mailbox, host bus, management ports -/

theorem witness_ring_registers :
    State.reset.boot.st ∉ [DevState.off, .fuseLoad, .locked] ∧ (up .locked State.reset).boot.st ∈ [DevState.off, .fuseLoad, .locked] ∧
    (let g := ready.ring 0
     ((64 : Word) - g.sqHead).toNat ≤ 2 ^ g.sqLog2 ∧ (g.tail - g.sqHead).toNat ≤ ((64 : Word) - g.sqHead).toNat ∧
      ¬ ((65 : Word) - g.sqHead).toNat ≤ 2 ^ g.sqLog2 ∧ ¬ (g.tail - g.sqHead).toNat ≤ ((3 : Word) - g.sqHead).toNat ∧ g.enable = true ∧
      (ready.ring 1).enable = false ∧ g.owes = [] ∧ g.backlog = [] ∧ ready.jobList = [] ∧ (working .plain).jobList = []) ∧
    (let g := { Ring.atReset with sqBase := hbmBytes - 64 * 64 }
     6 ≤ g.sqLog2 ∧ g.sqLog2 ≤ 16 ∧ g.sqBase + 64 * 2 ^ g.sqLog2 ≤ hbmBytes ∧ ¬ (g.sqBase + 64 + 64 * 2 ^ g.sqLog2 ≤ hbmBytes)) := by decide

theorem witness_masks :
    ready.irq.funcMask = false ∧ ({ ready.irq with funcMask := true }).funcMask = true ∧ ready.host.modules ≠ 0 ∧
    (let s := (ready.modRing 0 fun g => { g with held := true, lastMsg := some 0 }).withIrq { ready.irq with holdoffUs := 1 }
     (s.ring 0).held = true ∧ (ready.ring 0).held = false ∧ (s.withClk ⟨999, 0, true⟩).now - 0 < 1000 * s.irq.holdoffUs ∧
      ¬ (s.withClk ⟨1000, 0, true⟩).now - 0 < 1000 * s.irq.holdoffUs) := by decide

theorem witness_registers :
    ready.boot.st ∉ [DevState.off, .fuseLoad] ∧ (up .fuseLoad ready).boot.st ∈ [DevState.off, .fuseLoad] ∧
    4 % 8 ≠ 0 ∧ (2 : Nat) % 4 ≠ 0 ∧ (ready.chan 5).run = false ∧ ready.admittedJobs = [] ∧ ready.mbx.busy = false ∧
    (let b := { Boot.atConfigLoad with mode := 1, hostWait := true }
     b.st = .configLoad ∧ b.hostWait = true) ∧ ready.boot.st ≠ .configLoad ∧ ready.integ.hours = none ∧
    (ready.withInteg { Integ.atReset with hours := some (0, 0) }).integ.hours ≠ none ∧
    (let j := { job with terms := { terms with linkShare := 1 } }
     let s := with3 j
     (3, j) ∈ s.admittedJobs ∧ j.isG = true ∧ j.terms.linkShare ≠ 0) ∧
    (let x := { session with produced := 128, cons := 64 }
     let s := coding x [] none
     s.session (sessNo 0 0) = some x ∧ x.cons ≤ 0 * 2 ^ 32 + (128 : Word).toNat ∧ 0 * 2 ^ 32 + (128 : Word).toNat ≤ x.produced ∧
      0 * 2 ^ 32 + (63 : Word).toNat < x.cons ∧ x.produced < 0 * 2 ^ 32 + (129 : Word).toNat) := by decide +kernel

/-- The mailbox with the packet of a command in it. -/
def posted (op plen : Nat) (slots : BitVec 8) (welt : Bool) : State :=
  let p := { pkt op plen [] with slots := slots }
  let p := if welt then { p with welt := recWelt 14 (p.bytes op) } else p
  ready.withMbx { Mbx.atReset with packet := (List.range 16).map fun i => (i, BitVec.ofNat 32 (fieldAt (p.bytes op) (4 * i) 4)) }

theorem witness_mailbox :
    let bytes := fun (s : State) => (List.range 16).flatMap fun i => leBytes 4 (s.mbx.packet.get 0 i).toNat
    ready.mbx.busy = false ∧ ({ ready.mbx with busy := true }).busy = true ∧
    fieldAt (bytes (posted 0x101 0 2 true)) 2 1 = 2 ∧ fieldAt (bytes (posted 0x403 0 1 false)) 2 1 = 1 ∧
    (let b := bytes (posted 0x403 0 1 true)
     fieldAt b 0 2 = 0x403 ∧ fieldAt b 12 2 ≤ 48 ∧ plenOf 0x403 (fieldAt b 12 2) = true ∧ fieldAt b 3 1 / 2 = 0) ∧
    plenOf 0x101 48 = true ∧ plenOf 0x102 8 = false ∧ (0x401 : Nat) ∉ [0x101, 0x102, 0x403] ∧ Claims.inMatrix 0x403 .locked = false ∧
    Claims.inMatrix 0x101 .ready = true := by decide +kernel

theorem witness_host_window :
    (let s := ready.modHost fun h => { h with memActive := true }
     (hbmBytes - 64) % 64 = 0 ∧ hbmBytes - 64 < hbmBytes ∧ ¬ s.folioLo ≤ hbmBytes - 64 ∧ s.host.memActive = true ∧
      ready.host.memActive = false ∧ (s.withPart { Part.atReset with folioGib := 1 }).folioLo ≤ hbmBytes - 64 ∧
      s.mem.synd.get 0 0 = 0 ∧ s.uncorrectable 0 = false ∧ (s.withMem { Mem.atReset with errs := [(0, .hbmUncorr)] }).uncorrectable 0 = true ∧
      (s.withMem { Mem.atReset with synd := [(0, 1)] }).mem.synd.get 0 0 ≠ 0 ∧
      (List.replicate 64 (0 : Byte)).length = 64 ∧ (1 : BitVec 64) ≠ BitVec.allOnes 64) ∧
    (farLo / 64 - 1) * 64 < farLo ∧
    (let w := (64, 0, (⟨1, 0x401, 0, 0, 9, 5, 0, 0, some 3, true⟩ : Rec))
     let s := ready.modHost fun h => { h with goWait := [w] }
     s.host.goWait.find? (fun w => w.1 == (64 : DWord).toNat) = some w ∧ s.host.modules ≠ 0 ∧
      (s.modHost fun h => { h with modules := 0 }).host.modules = 0 ∧
      ready.host.goWait.find? (fun w => w.1 == (64 : DWord).toNat) = none) := by decide

theorem witness_management :
    (15 : BitVec 4) ≠ 0 ∧ (4 : BitVec 6).toNat ∈ [4, 8, 12, 16, 24, 32] ∧ ready.boot.st ∉ [DevState.off, .fuseLoad] ∧
    (leBytes 4 0x604).length = 4 ∧ 4 ≤ (leBytes 4 0x604).length ∧ 0x604 ≤ leNat ((leBytes 4 0x604).take 4) ∧
    (up .off ready).boot.st ∈ [DevState.off, .fuseLoad] := by decide


/-! ## Completion -/

/-- Rows whose operands a sender can give: one of each kind that has a condition. -/
theorem witness_forms :
    (Instr.echo 0 (pkt 0x101 0 [])).wf = true ∧ (Instr.quiesceDone).wf = true ∧ (Instr.outerProductUpdate c3 update .none).wf = true ∧
    (Instr.writeFlit 8 ⟨flit 1 0, false, 0, []⟩).wf = true ∧ (Instr.idleFlit 8 ⟨flit 0 0, false, 0, []⟩).wf = true ∧
    (Instr.reduceFlit 8 ⟨flit 2 0, false, 0, []⟩ ⟨false, ⟨1, [1]⟩⟩).wf = true ∧ (Instr.cxlMemRead (hbmBytes - 64)).wf = true ∧
    (Instr.cxlMemRead hbmBytes).wf = false ∧ (Instr.hostLinkUp 1 32).wf = true ∧ (Instr.hostLinkUp 0 32).wf = false ∧
    (Instr.ringEnable 0 1).wf = true ∧ (Instr.ringEnable 0 0).wf = false ∧ (Instr.ringDisable 0 0).wf = true ∧
    (Instr.burnishIdlePass 0 [1300]).wf = true ∧ (Instr.firstBurnishDone (List.replicate 100 [1300])).wf = true ∧
    (Instr.hbmTrainingDone 120 [] []).wf = true ∧ (Instr.unknownOpcodePacket 0 0x999 (pkt 0x999 0 [])).wf = true ∧
    (Instr.firmwareStall none 0 (pkt 0 0 []) 0 false).wf = true := by decide +kernel
end Sys2Proof.Tests
end

section
/-!
The integer, logic and shift instructions of the vector engine (04, R121): what a vector result leaves in a state (R116 to R118), the
words that the model's operations compute as integer formulas, and the obligation.
-/
namespace Sys2Proof

/-! ## Words of two's complement as integers -/

theorem word_sub_eq_ofInt (a b : Word) : a - b = BitVec.ofInt 32 ((a.toNat : Int) - b.toNat) := by
  rw [Int.sub_eq_add_neg, BitVec.ofInt_add, BitVec.ofInt_neg, BitVec.ofInt_natCast, BitVec.ofInt_natCast, BitVec.ofNat_toNat,
    BitVec.ofNat_toNat, BitVec.setWidth_eq, BitVec.setWidth_eq, BitVec.sub_eq_add_neg]

theorem word_shiftLeft_eq_ofNat (a : Word) (n : Nat) : a <<< n = BitVec.ofNat 32 (a.toNat * 2 ^ n) :=
  BitVec.eq_of_toNat_eq (by rw [BitVec.toNat_shiftLeft, BitVec.toNat_ofNat, Nat.shiftLeft_eq])

theorem word_ushiftRight_eq_ofNat (a : Word) (n : Nat) : a >>> n = BitVec.ofNat 32 (a.toNat / 2 ^ n) := by
  rw [← Nat.shiftRight_eq_div_pow, ← BitVec.toNat_ushiftRight, BitVec.ofNat_toNat, BitVec.setWidth_eq]

theorem word_sshiftRight_eq_ofInt (a : Word) (n : Nat) : a.sshiftRight n = BitVec.ofInt 32 (a.toInt / (2 ^ n : Nat)) := by
  rw [BitVec.sshiftRight, Int.shiftRight_eq_div_pow]

/-! ## Saturation -/

theorem clamp32_eq (v : Int) :
    clamp32 v = (max (-2 ^ 31) (min (2 ^ 31 - 1) v), !decide (-2 ^ 31 ≤ v ∧ v < 2 ^ 31)) := by
  unfold clamp32
  split
  case isTrue hlow => exact Prod.ext (by dsimp only; omega) (by rw [decide_eq_false (by omega)]; rfl)
  case isFalse hlow =>
    split
    case isTrue hhigh => exact Prod.ext (by dsimp only; omega) (by rw [decide_eq_false (by omega)]; rfl)
    case isFalse hhigh => exact Prod.ext (by dsimp only; omega) (by rw [decide_eq_true (by omega)]; rfl)

/-- A sum or difference clamped to 32 bits, with the flag VEC_ISAT where it leaves their range. -/
theorem isatFw_clamp32 (v : Int) : isatFw (BitVec.ofInt 32 (clamp32 v).1, (clamp32 v).2) =
    (BitVec.ofInt 32 (max (-2 ^ 31) (min (2 ^ 31 - 1) v)), if -2 ^ 31 ≤ v ∧ v < 2 ^ 31 then 0 else 0x20) := by
  rw [clamp32_eq]
  by_cases h : -2 ^ 31 ≤ v ∧ v < 2 ^ 31
  · rw [if_pos h, decide_eq_true h]; rfl
  · rw [if_neg h, decide_eq_false h]; rfl

end Sys2Proof

namespace Sys2Proof.Machine

open Sys2Proof Sys2Proof.Claims

/-! ## A vector result in a state -/

/-- What a vector result changes on a core: one register, which the job then owns, and the contexts. -/
theorem CoreSt.putVec_eq (x : CoreSt) (k n : Nat) (m : Mask) (f : Nat → FW) : ∃ t y, t.owner = some k ∧
    x.putVec k n m f = { x with tregs := x.tregs.set TReg.empty n t, ctxs := y } := by
  simp only [CoreSt.putVec, CoreSt.raise, CoreSt.modCtx, CoreSt.putLanes, CoreSt.putTreg]
  exact ⟨⟨_, some k⟩, _, rfl, rfl⟩

/-- Only the destination register and the flag word of the job change on the core, and the register is the job's. -/
theorem CoreSt.putVec_onlyRegs (x : CoreSt) (k n : Nat) (m : Mask) (f : Nat → FW) : OnlyRegs k [n] x (x.putVec k n m f) := by
  obtain ⟨t, y, howner, heq⟩ := x.putVec_eq k n m f
  refine ⟨?rest, fun r hr => ?others, fun r hr => ?owner, fun j hj => ?contexts, ?flags⟩
  case rest => rw [heq]
  case others => rw [heq, SMap.get_set, if_neg (List.ne_of_not_mem_cons hr)]
  case owner => rw [heq, SMap.get_set, if_pos (List.mem_singleton.1 hr), howner]
  case contexts => rw [CoreSt.putVec_ctx, if_neg hj]
  case flags => rw [CoreSt.putVec_ctx, if_pos rfl]

/-- A core changed in place is the only one changed. -/
theorem State.onlyCore_modCore (s : State) (c : Nat) (f : CoreSt → CoreSt) : OnlyCore c s (s.modCore c f) :=
  ⟨rfl, fun n hn => (s.core_modCore c f n).trans (if_neg hn)⟩

theorem State.vec_modCore_putVec (s : State) (c : CoreRef) (d : Nat) (m : Mask) (f : CoreSt → Nat → FW) :
    Vec c d m (f (s.core c.core)) s (s.modCore c.core fun x => x.putVec c.slot d m (f x)) := by
  have hcore := (s.core_modCore c.core (fun x => x.putVec c.slot d m (f x)) c.core).trans (if_pos rfl)
  refine ⟨s.onlyCore_modCore _ _, ?_, fun i hi => ?_, fun b => ?_⟩
  · rw [hcore]
    exact CoreSt.putVec_onlyRegs ..
  · rw [hcore, CoreSt.putVec_lane _ _ _ _ _ _ _ hi, if_pos rfl]
    rfl
  · rw [State.ctx, State.ctx, hcore, CoreSt.putVec_ctx, if_pos rfl, BitVec.getLsbD_or, lanesFlags_bit]

/-- An instruction of two sources whose meaning is `g` lane by lane is the vector form of `f` where `f` agrees with `g` on the lanes. -/
theorem vecForm_of_vec2 {i : Instr} {c : CoreRef} {o : Vec2} {s : State} {arith : Bool} {g : Word → Word → FW} {f : CoreSt → Nat → FW}
    (hx : exec i s = .next (s.vec2 i c o .none arith g)) (hg : ∀ x n, g (x.lane o.a n) (x.lane o.b n) = f x n) :
    VecForm i c o.d [o.a, o.b] o.m f s := by
  obtain rfl : (fun (x : CoreSt) n => g (x.lane o.a n) (x.lane o.b n)) = f := funext fun x => funext (hg x)
  intro hready
  exact ⟨_, hx.trans (congrArg _ (State.vecOp_issues i o.m arith _ hready)), s.vec_modCore_putVec c o.d o.m _⟩

/-- Settles O3: each instruction is a vector form of two sources, and its operation on words equals the integer formula of R121. -/
theorem integerLogicWritesActiveLanes : Obligations.IntegerLogicWritesActiveLanes := by
  unfold Obligations.IntegerLogicWritesActiveLanes
  intro c o s two sat
  have htwo {i f} {g : Word → Word → Word} (hx : exec i s = .next (s.vec2 i c o .none false fun a b => FW.of (g a b)))
      (hg : ∀ a b, g a b = f a b) : two i f := vecForm_of_vec2 hx fun _ _ => congrArg FW.of (hg _ _)
  have hsat {i f} (hx : exec i s = .next (s.vec2 i c o .none false fun a b =>
      isatFw (BitVec.ofInt 32 (clamp32 (f a.toInt b.toInt)).1, (clamp32 (f a.toInt b.toInt)).2))) : sat i f :=
    vecForm_of_vec2 hx fun _ _ => isatFw_clamp32 _
  refine ⟨?iadd, ?isub, ?iadds, ?isubs, ?and, ?or, ?xor, ?shl, ?shr, ?sar⟩
  case iadd => exact htwo rfl BitVec.add_def
  case isub => exact htwo rfl word_sub_eq_ofInt
  case iadds => exact hsat rfl
  case isubs => exact hsat rfl
  case and => exact htwo rfl fun _ _ => rfl
  case or => exact htwo rfl fun _ _ => rfl
  case xor => exact htwo rfl fun _ _ => rfl
  case shl => exact htwo rfl fun a b => word_shiftLeft_eq_ofNat a (b.toNat % 32)
  case shr => exact htwo rfl fun a b => word_ushiftRight_eq_ofNat a (b.toNat % 32)
  case sar => exact htwo rfl fun a b => word_sshiftRight_eq_ofInt a (b.toNat % 32)

end Sys2Proof.Machine
end

section
/-!
Boot (17; R299, R462, R471 to R484, R489, R494, R517): what each event of a boot leaves in a state, and the obligation.
-/
namespace Sys2Proof.Machine

open Sys2Proof Sys2Proof.Claims

theorem ite_eq_of_iff {α : Type} {p q : Prop} [Decidable p] [Decidable q] (h : p ↔ q) (a b : α) :
    (if p then a else b) = if q then a else b :=
  ite_congr (propext h) (fun _ => rfl) fun _ => rfl

/-! ## The sideband terminals, LOCKED, reset -/

theorem State.driveFaultL_eq (s : State) (low : Bool) :
    s.driveFaultL low = (s.withPins { s.pins with faultL := low }).withOut (s.driveFaultL low).out := by
  unfold State.driveFaultL
  split
  case isTrue h => subst h; rfl
  case isFalse => rfl

theorem State.driveThermL_eq (s : State) (low : Bool) :
    s.driveThermL low = (s.withPins { s.pins with thermL := low }).withOut (s.driveThermL low).out := by
  unfold State.driveThermL
  split
  case isTrue h => subst h; rfl
  case isFalse => rfl

/-- Locking keeps the fuses, the memories and the host's side, here from a state `u` that has them as `s` has. -/
theorem State.locked_lock {s u : State} (cause : Nat) (hfuses : u.fuses = s.fuses) (hmem : u.mem = s.mem) (hhost : u.host = s.host) :
    Locked cause s (u.lock cause) := by
  rw [State.lock, State.driveFaultL_eq]
  exact ⟨rfl, rfl, rfl, hfuses, hmem, hhost⟩

theorem State.discard_withPins (s : State) (p : Pins) : Discarded s (s.withPins p).discard ∧
    (s.withPins p).discard.pins = { p with faultL := false, thermL := false } := by
  unfold State.discard
  dsimp only
  rw [State.driveFaultL_eq, State.driveThermL_eq]
  exact ⟨⟨rfl, rfl, rfl, rfl, rfl, rfl, rfl, rfl, rfl, rfl, rfl, rfl, rfl, rfl, rfl, rfl, rfl, rfl, rfl, rfl, rfl, rfl⟩, rfl⟩

/-- Fuse load begins exactly where both terminals are high and the device is off (R473, R517). -/
theorem State.beginBoot_eq (s : State) : s.beginBoot = s.withBoot { s.boot with
    st := if s.pins.pwrgood = true ∧ s.pins.resetL = true ∧ s.boot.st = .off then .fuseLoad else s.boot.st } := by
  unfold State.beginBoot
  by_cases h : s.pins.pwrgood = true ∧ s.pins.resetL = true ∧ s.boot.st = .off
  · rw [if_pos (by simpa [and_assoc] using h), if_pos h]; rfl
  · rw [if_neg (by simpa [and_assoc] using h), if_neg h]; rfl

theorem does_pwrgoodRise {s : State} (mode : BitVec 2) (h : s.pins.pwrgood = false) :
    Does (.pwrgoodRise mode) s fun t => t.pins = { s.pins with pwrgood := true } ∧
      t.boot = { s.boot with mode := mode, st := if s.pins.resetL = true ∧ s.boot.st = .off then .fuseLoad else s.boot.st } := by
  refine ⟨_, congrArg Host.Outcome.next (if_neg (ne_true_of_eq_false h)), ?_⟩
  rw [State.beginBoot_eq]
  exact ⟨rfl, congrArg (fun st => { s.boot with mode := mode, st := st }) (ite_eq_of_iff (and_iff_right rfl) _ _)⟩

theorem does_resetLRise (s : State) : Does .resetLRise s fun t => t.pins = { s.pins with resetL := true } ∧
    t.boot = { s.boot with st := if s.pins.pwrgood = true ∧ s.boot.st = .off then .fuseLoad else s.boot.st } := by
  refine ⟨_, rfl, ?_⟩
  rw [State.beginBoot_eq]
  exact ⟨rfl, congrArg (fun st => { s.boot with st := st }) (ite_eq_of_iff (and_congr_right fun _ => and_iff_right rfl) _ _)⟩

/-! ## Fuse load and the image -/

theorem exec_fuseLoadDone {s : State} (bad : Bool) (h : s.boot.st = .fuseLoad) : exec (.fuseLoadDone bad) s = .next
    (let u := (s.modBoot fun b => { b with leaf := Nat.min 8192 s.fuses.bootCount }).withClk ⟨0, 0, true⟩
     if bad then u.lock lockFuse else if u.boot.mode = 3 then u.lock lockStrap else u.enterConfigLoad) :=
  congrArg Host.Outcome.next (if_neg (not_not_intro h))

theorem does_fuseLoadDone_bad {s : State} (h : s.boot.st = .fuseLoad) : Does (.fuseLoadDone true) s (Locked 1 s) :=
  ⟨_, exec_fuseLoadDone true h, State.locked_lock 1 rfl rfl rfl⟩

theorem does_fuseLoadDone_badStrap {s : State} (h : s.boot.st = .fuseLoad) (hm : s.boot.mode = 3) :
    Does (.fuseLoadDone false) s (Locked 2 s) :=
  ⟨_, (exec_fuseLoadDone false h).trans (congrArg Host.Outcome.next (if_pos hm)), State.locked_lock 2 rfl rfl rfl⟩

theorem does_fuseLoadDone_good {s : State} (h : s.boot.st = .fuseLoad) (hm : s.boot.mode ≠ 3) :
    Does (.fuseLoadDone false) s fun t => t = (s.withClk ⟨0, 0, true⟩).withBoot t.boot ∧
      t.boot.st = .configLoad ∧ t.boot.leaf = Nat.min 8192 s.fuses.bootCount ∧ (t.boot.slotB = true ↔ s.boot.mode = 2) ∧
      (t.boot.hostWait = true ↔ s.boot.mode = 1) ∧ (t.boot.reading = true ↔ ¬ s.boot.mode = 1) ∧
      t.boot.readFrom = if s.boot.mode = 2 then 0x2000000 else 0 :=
  ⟨_, (exec_fuseLoadDone false h).trans (congrArg Host.Outcome.next (if_neg hm)), rfl, rfl, rfl, beq_iff_eq, beq_iff_eq, bne_iff_ne,
    ite_eq_of_iff beq_iff_eq _ _⟩

theorem exec_ucieTrainingDone {s : State} {modules : BitVec 4} {rate : BitVec 6} (h : s.boot.st ≠ .off)
    (hr : modules = 0 ∧ rate = 0 ∨ modules ≠ 0 ∧ rate.toNat ∈ [4, 8, 12, 16, 24, 32]) :
    exec (.ucieTrainingDone modules rate) s = .next (s.modHost fun h => { h with modules := modules, rate := rate.toNat }) := by
  have hlegal : ¬ ((modules = 0 ∧ rate ≠ 0) ∨ (modules ≠ 0 ∧ (!hostRates.contains rate.toNat) = true)) := by
    rintro (⟨hm, hrate⟩ | ⟨hm, hrate⟩)
    · exact hr.elim (fun hz => hrate hz.2) (fun hu => hu.1 hm)
    · exact hr.elim (fun hz => hm hz.1) (fun hu => by simp [hostRates] at hrate; simp at hu; omega)
  exact (if_neg hlegal).trans (congrArg Host.Outcome.next (if_neg h))

theorem exec_hostBootGo_waiting {s : State} (h : s.boot.st = .configLoad) (hw : s.boot.hostWait = true) :
    exec .hostBootGo s = .next (if s.boot.hostLen = 0 ∨ slotBytes < s.boot.hostLen then s.lock lockFormat
      else s.modBoot fun b => { b with
        hostWait := false, reading := true, readAt := s.now, readFrom := b.hostAddrHi.toNat * 2 ^ 32 + b.hostAddrLo,
        readLen := b.hostLen }) := by
  have hopen : s.regsOpen = true := by rw [State.regsOpen, h]; rfl
  refine congrArg Host.Outcome.next ((if_pos hopen).trans (if_neg ?_))
  rw [h, hw]; decide

theorem does_hostBootGo_badLength {s : State} (h : s.boot.st = .configLoad) (hw : s.boot.hostWait = true)
    (hlen : s.boot.hostLen = 0 ∨ 0x2000000 < s.boot.hostLen) : Does .hostBootGo s (Locked 3 s) :=
  ⟨_, (exec_hostBootGo_waiting h hw).trans (congrArg Host.Outcome.next (if_pos hlen)), State.locked_lock 3 rfl rfl rfl⟩

theorem exec_hostBootGo_read {s : State} (h : s.boot.st = .configLoad) (hw : s.boot.hostWait = true)
    (hlo : 1 ≤ s.boot.hostLen) (hhi : s.boot.hostLen ≤ 0x2000000) :
    exec .hostBootGo s = .next (s.modBoot fun b => { b with
      hostWait := false, reading := true, readAt := s.now, readFrom := b.hostAddrHi.toNat * 2 ^ 32 + b.hostAddrLo,
      readLen := b.hostLen }) :=
  (exec_hostBootGo_waiting h hw).trans (congrArg Host.Outcome.next (if_neg (by rw [slotBytes]; omega)))

theorem exec_hostBootGo_notWaiting {s : State} (hw : s.boot.hostWait = false) : exec .hostBootGo s = .next s := by
  have hgo : s.hostBootGo = s := if_pos (by rw [hw]; exact Bool.or_true _)
  refine congrArg Host.Outcome.next ?_
  rw [State.write, hgo, ite_self]

theorem exec_hostWaitTimeout_early {s : State} (h : ¬ (s.boot.hostWait = true ∧ s.boot.hostWaitAt + 10000000000 ≤ s.now)) :
    exec .hostWaitTimeout s = .next s := congrArg Host.Outcome.next (if_neg h)

theorem does_hostWaitTimeout {s : State} (hw : s.boot.hostWait = true) (ht : s.boot.hostWaitAt + 10000000000 ≤ s.now) :
    Does .hostWaitTimeout s (Locked 8 s) :=
  ⟨_, congrArg Host.Outcome.next (if_pos ⟨hw, ht⟩), State.locked_lock 8 rfl rfl rfl⟩

theorem Boot.readBound_eq (b : Boot) : b.readBound = if b.mode = 1 then 20000000 else 90000000 :=
  ite_eq_of_iff beq_iff_eq _ _

theorem State.imageRead_host {s : State} (h : s.boot.mode = 1) : s.imageRead = s.hostBytes s.boot.readFrom s.boot.readLen :=
  if_pos (beq_iff_eq.2 h)

/-- From flash, an image is at least as long as its header, and its bytes are those of the flash (R473). -/
theorem State.imageRead_flash {s : State} (h : s.boot.mode ≠ 1) : 512 ≤ s.imageRead.length ∧
    ∀ k, k < s.imageRead.length → s.imageRead.getD k 0 = s.flash.get 0xFF (s.boot.readFrom + k) := by
  obtain ⟨n, hn, hread⟩ : ∃ n, 512 ≤ n ∧ s.imageRead = s.flashBytes s.boot.readFrom n :=
    ⟨_, Nat.le_max_left _ _, if_neg (mt beq_iff_eq.1 h)⟩
  rw [hread, State.flashBytes, List.length_map, List.length_range]
  refine ⟨hn, fun k hk => ?_⟩
  rw [List.getD_eq_getElem?_getD, List.getElem?_map, List.getElem?_range hk]
  rfl

theorem does_imageReadDone {s : State} (h : s.boot.st = .configLoad) (hr : s.boot.reading = true)
    (ht : s.now ≤ s.boot.readAt + if s.boot.mode = 1 then 20000000 else 90000000) (hup : s.boot.mode = 1 → s.host.modules ≠ 0) :
    Does .imageReadDone s fun t =>
      t = s.withBoot { s.boot with st := .verify, reading := false, image := t.boot.image } ∧
      (s.boot.mode = 1 → t.boot.image = s.hostBytes s.boot.readFrom s.boot.readLen) ∧
      (¬ s.boot.mode = 1 → 512 ≤ t.boot.image.length ∧ ∀ k, k < t.boot.image.length →
        t.boot.image.getD k 0 = s.flash.get 0xFF (s.boot.readFrom + k)) := by
  rw [← Boot.readBound_eq] at ht
  have hhost : s.boot.fromHost = false ∨ s.hostUp = true := by
    rw [Boot.fromHost, beq_eq_false_iff_ne, State.hostUp, bne_iff_ne]
    exact (Decidable.em (s.boot.mode = 1)).symm.imp id hup
  refine ⟨_, congrArg Host.Outcome.next (if_pos ?_), rfl, State.imageRead_host, State.imageRead_flash⟩
  simpa [h, hr, ht] using hhost

theorem does_imageReadTimeout {s : State} (h : s.boot.st = .configLoad) (hr : s.boot.reading = true)
    (ht : s.boot.readAt + (if s.boot.mode = 1 then 20000000 else 90000000) ≤ s.now) : Does .imageReadTimeout s (Locked 9 s) := by
  rw [← Boot.readBound_eq] at ht
  exact ⟨_, congrArg Host.Outcome.next (if_pos ⟨h, hr, ht⟩), State.locked_lock 9 rfl rfl rfl⟩

/-- The first half of O54, event by event. -/
theorem bootLoadsTheImage : BootLoadsTheImage := by
  intro mode bad modules rate s b toHost bound
  refine ⟨?riseAgain, ?rise, ?fall, ?assert, ?release, ?noFuseLoad, ?fuseLoad, ?ucie, ?go, ?noWait, ?timeout, ?early, ?read⟩
  case riseAgain => exact fun h => congrArg Host.Outcome.next (if_pos h)
  case rise => exact does_pwrgoodRise mode
  case fall =>
    obtain ⟨hdiscarded, hpins⟩ := s.discard_withPins { s.pins with pwrgood := false }
    exact ⟨_, rfl, hdiscarded, (congrArg Pins.pwrgood hpins :), (congrArg Pins.resetL hpins :)⟩
  case assert =>
    obtain ⟨hdiscarded, hpins⟩ := s.discard_withPins { s.pins with resetL := false }
    exact ⟨_, rfl, hdiscarded, (congrArg Pins.resetL hpins :), (congrArg Pins.pwrgood hpins :)⟩
  case release => exact does_resetLRise s
  case noFuseLoad => exact fun h => congrArg Host.Outcome.next (if_pos h)
  case fuseLoad =>
    intro h
    refine ⟨?_, ?_, ?_⟩
    · rintro rfl; exact does_fuseLoadDone_bad h
    · rintro rfl; exact does_fuseLoadDone_badStrap h
    · rintro rfl; exact does_fuseLoadDone_good h
  case ucie => exact exec_ucieTrainingDone
  case go => exact fun h hw => ⟨does_hostBootGo_badLength h hw, exec_hostBootGo_read h hw⟩
  case noWait =>
    exact fun hw => ⟨exec_hostBootGo_notWaiting hw, exec_hostWaitTimeout_early fun h => ne_true_of_eq_false hw h.1⟩
  case timeout => exact does_hostWaitTimeout
  case early => exact fun ht => exec_hostWaitTimeout_early fun h => absurd h.2 (Nat.not_le_of_lt ht)
  case read => exact fun h hr => ⟨does_imageReadDone h hr, does_imageReadTimeout h hr⟩

/-! ## The checks of the image -/

theorem imgFault_of_not_format {f : Fuses} {m : List Byte} (h : imgFormatOk m = false) : imgFault f m = some lockFormat := by
  simp [imgFault, imgChecks, h]

theorem imgFault_of_not_keys {f : Fuses} {m : List Byte} (h : imgFormatOk m = true) (hk : imgKeysOk f m = false) :
    imgFault f m = some lockRevoked := by
  simp [imgFault, imgChecks, h, hk]

theorem imgFault_of_rollback {f : Fuses} {m : List Byte} (h : imgFormatOk m = true) (hk : imgKeysOk f m = true) (hs : imgSvn m < f.svn) :
    imgFault f m = some lockRollback := by
  simp [imgFault, imgChecks, h, hk, hs]

theorem imgFormatOk_of_imgFault_none {f : Fuses} {m : List Byte} (h : imgFault f m = none) : imgFormatOk m = true := by
  cases hf : imgFormatOk m with
  | true => rfl
  | false => exact absurd ((imgFault_of_not_format hf).symm.trans h) (Option.some_ne_none _)

/-- An image of good format holds its whole header, so that nothing is padded. -/
theorem imgHeader_of_format {m : List Byte} (h : imgFormatOk m = true) : imgHeader m = m.take 512 := by
  have hlen : m.length = imgTail + imgBodyBytes m := by
    simp only [imgFormatOk, Bool.and_eq_true, beq_iff_eq, and_assoc] at h
    obtain ⟨-, -, -, -, hlen, -⟩ := h
    exact hlen
  have htake : (m.take 512).length = 512 := List.length_take_of_le (by rw [hlen, imgTail]; omega)
  rw [imgHeader, sliceAt, List.drop_zero, htake, Nat.sub_self, List.replicate_zero, List.append_nil]

theorem exec_verifyDone_fault {s : State} {c : Nat} (h : s.boot.st = .verify) (hv : s.boot.verified = false)
    (hc : imgFault s.fuses s.boot.image = some c) : exec .verifyDone s = .next (s.lock c) := by
  refine congrArg Host.Outcome.next ((if_pos (by rw [h, hv]; rfl)).trans ?_)
  rw [hc]

theorem does_verifyDone_fault {s : State} {c : Nat} (h : s.boot.st = .verify) (hv : s.boot.verified = false)
    (hc : imgFault s.fuses s.boot.image = some c) : Does .verifyDone s (Locked c s) :=
  ⟨_, exec_verifyDone_fault h hv hc, State.locked_lock c rfl rfl rfl⟩

theorem exec_verifyDone_good {s : State} (h : s.boot.st = .verify) (hv : s.boot.verified = false)
    (hc : imgFault s.fuses s.boot.image = none) : exec .verifyDone s = .next (s.withBoot { s.boot with
      verified := true, measure := sha384 (s.boot.image.take 512), imageSvn := fieldAt s.boot.image 16 1,
      ecdsaIdx := fieldAt s.boot.image 17 1, lmsIdx := fieldAt s.boot.image 18 1 }) := by
  refine congrArg Host.Outcome.next ((if_pos (by rw [h, hv]; rfl)).trans ?_)
  rw [hc, ← imgHeader_of_format (imgFormatOk_of_imgFault_none hc)]
  rfl

theorem imgFormatOk_of_badHeader {m : List Byte} (h : fieldAt m 0 4 ≠ 0x54484932 ∨ fieldAt m 4 2 ≠ 1) : imgFormatOk m = false := by
  rcases h with h | h <;> simp [imgFormatOk, h]

theorem imgKeysOk_of_revoked {f : Fuses} {m : List Byte}
    (h : f.ecdsaRevoked.getLsbD (fieldAt m 17 1) = true ∨ f.lmsRevoked.getLsbD (fieldAt m 18 1) = true) : imgKeysOk f m = false := by
  rcases h with h | h <;> simp [imgKeysOk, h]

/-! ## The release -/

/-- The state after the boot fuse and the identity of step 4, before the ratchet. -/
def State.identified (s : State) (fuseOk : Bool) : State := (s.blowBoot fuseOk).makeIdentity (s.identityOk fuseOk)

theorem State.blowBoot_eq (s : State) (ok : Bool) : s.blowBoot ok =
    (s.withFuses { s.fuses with bootCount := (s.blowBoot ok).fuses.bootCount }).withFree (s.blowBoot ok).free := by
  unfold State.blowBoot
  split
  case isTrue => rfl
  case isFalse => split <;> rfl

theorem State.blowBoot_readsBack {s : State} (h : s.boot.leaf < 8192) : (s.blowBoot true).fuses.bootCount = s.boot.leaf + 1 := by
  rw [State.blowBoot, if_neg (Nat.not_le_of_lt h), Bool.true_or, if_pos rfl]; rfl

theorem State.blowBoot_used {s : State} (ok : Bool) (h : 8192 ≤ s.boot.leaf) : s.blowBoot ok = s := if_pos h

theorem State.identified_eq (s : State) (ok : Bool) : s.identified ok =
    ((s.withBoot { s.boot with
      identityOff := !s.identityOk ok, deviceCert := if s.identityOk ok then s.deviceCert else [],
      bootCert := if s.identityOk ok then bootCertOf s.boot.leaf (s.pathEntry s.boot.leaf) else [] }).withFuses
      { s.fuses with bootCount := (s.blowBoot ok).fuses.bootCount }).withFree (s.blowBoot ok).free := by
  rw [State.identified, State.blowBoot_eq]; rfl

theorem State.identityOk_false {s : State} {ok : Bool} (h : 8192 ≤ s.boot.leaf ∨ ok = false) : s.identityOk ok = false := by
  rcases h with h | rfl
  · rw [State.identityOk, decide_eq_false (Nat.not_lt.2 h)]; rfl
  · rw [State.identityOk, Bool.and_false]; rfl

theorem State.ratchets_iff (s : State) :
    s.ratchets = true ↔ fieldAt s.boot.image 6 2 % 2 = 1 ∧ s.fuses.svn < s.boot.imageSvn := by
  simp only [State.ratchets, Bool.and_eq_true, beq_iff_eq, decide_eq_true_eq]

theorem State.ratchets_identified (s : State) (ok : Bool) : (s.identified ok).ratchets = s.ratchets := by
  rw [State.identified_eq]; rfl

theorem exec_releaseDone {s : State} (bootOk ratchetOk : Bool) (h : s.boot.st = .verify) (hv : s.boot.verified = true) :
    exec (.releaseDone bootOk ratchetOk) s = .next
      (if s.ratchets && !ratchetOk then ((s.identified bootOk).ratchet false).lock lockFuse
       else (if s.ratchets then (s.identified bootOk).ratchet true else s.identified bootOk).modBoot fun b =>
        { b with st := .training }) := by
  refine congrArg Host.Outcome.next ((if_pos (by rw [h, hv]; rfl)).trans ?_)
  rw [← State.ratchets_identified s bootOk]
  rfl

/-- The release, where `ratchet` says that the ratchet is asked for. -/
theorem does_releaseDone_releases {s : State} {bootOk ratchetOk : Bool} {ratchet : Prop} (h : s.boot.st = .verify)
    (hv : s.boot.verified = true) (hask : s.ratchets = true ↔ ratchet) (hr : ¬ ratchet ∨ ratchetOk = true) :
    Does (.releaseDone bootOk ratchetOk) s fun t =>
      t = ((s.withBoot t.boot).withFuses t.fuses).withFree t.free ∧ t.boot.st = .training ∧
      t.fuses = { s.fuses with bootCount := t.fuses.bootCount, svn := t.fuses.svn } ∧ (ratchet → t.fuses.svn = s.boot.imageSvn) ∧
      (¬ ratchet → t.fuses.svn = s.fuses.svn) ∧ (s.boot.leaf < 8192 → bootOk = true → t.fuses.bootCount = s.boot.leaf + 1) ∧
      (8192 ≤ s.boot.leaf → t.fuses.bootCount = s.fuses.bootCount) ∧
      (8192 ≤ s.boot.leaf ∨ bootOk = false → t.boot.identityOff = true) ∧
      (t.boot.identityOff = false → t.boot.deviceCert = s.flashBytes 0x4000000 2124) := by
  obtain rfl : (s.ratchets = true) = ratchet := propext hask
  have hgo : ¬ (s.ratchets && !ratchetOk) = true := by
    rw [Bool.and_eq_true, Bool.not_eq_true']
    rintro ⟨hask, hfail⟩
    exact hr.elim (fun hn => hn hask) (ne_true_of_eq_false hfail)
  have hcount : s.boot.leaf < 8192 → bootOk = true → (s.blowBoot bootOk).fuses.bootCount = s.boot.leaf + 1 := by
    rintro hleaf rfl; exact State.blowBoot_readsBack hleaf
  have hused : 8192 ≤ s.boot.leaf → (s.blowBoot bootOk).fuses.bootCount = s.fuses.bootCount := by
    intro hleaf; rw [State.blowBoot_used _ hleaf]
  have hoff : 8192 ≤ s.boot.leaf ∨ bootOk = false → (!s.identityOk bootOk) = true := by
    intro hid; rw [State.identityOk_false hid]; rfl
  have hcert : (!s.identityOk bootOk) = false →
      (if s.identityOk bootOk then s.deviceCert else []) = s.flashBytes 0x4000000 2124 := by
    intro hid; exact if_pos (by simpa using hid)
  refine ⟨_, (exec_releaseDone bootOk ratchetOk h hv).trans (congrArg Host.Outcome.next (if_neg hgo)), ?_⟩
  by_cases hratchet : s.ratchets = true
  · rw [if_pos hratchet, State.identified_eq]
    exact ⟨rfl, rfl, rfl, fun _ => rfl, fun hn => absurd hratchet hn, hcount, hused, hoff, hcert⟩
  · rw [if_neg hratchet, State.identified_eq]
    exact ⟨rfl, rfl, rfl, fun hn => absurd hn hratchet, fun _ => rfl, hcount, hused, hoff, hcert⟩

/-- A ratchet that fails its read-back leaves a count between the two, and the device locked (R480). -/
theorem does_releaseDone_locks {s : State} (bootOk : Bool) (h : s.boot.st = .verify) (hv : s.boot.verified = true)
    (hr : fieldAt s.boot.image 6 2 % 2 = 1 ∧ s.fuses.svn < s.boot.imageSvn) :
    Does (.releaseDone bootOk false) s fun t => t.boot.st = .locked ∧ t.boot.lockCause = 1 ∧ t.pins.faultL = true ∧
      s.fuses.svn ≤ t.fuses.svn ∧ t.fuses.svn ≤ s.boot.imageSvn := by
  have hask : (s.ratchets && !false) = true := by rw [(s.ratchets_iff).2 hr]; rfl
  refine ⟨_, (exec_releaseDone bootOk false h hv).trans (congrArg Host.Outcome.next (if_pos hask)), ?_⟩
  rw [State.lock, State.driveFaultL_eq, State.identified_eq]
  refine ⟨rfl, rfl, rfl, Nat.le_add_right _ _, ?_⟩
  have hmod := Nat.mod_lt (Config.freeValue (s.blowBoot bootOk).free).toNat (by omega : 0 < s.boot.imageSvn - s.fuses.svn + 1)
  show s.fuses.svn + (Config.freeValue (s.blowBoot bootOk).free).toNat % (s.boot.imageSvn - s.fuses.svn + 1) ≤ s.boot.imageSvn
  omega

/-! ## HBM training -/

theorem trainedRate_pred_iff (cap : Nat) (best : List Nat) (r : Nat) :
    (decide (r ≤ cap) && (List.range 192).all fun c => decide (r ≤ best.getD c 0)) = true ↔
      r ≤ cap ∧ ∀ ch, ch < 192 → r ≤ best.getD ch 0 := by
  simp only [Bool.and_eq_true, decide_eq_true_eq, List.all_eq_true, List.mem_range]

/-- In a falling list the first element found is the highest. -/
theorem find?_eq_some_of_falling {p : Nat → Bool} {rs : List Nat} (hrs : rs.Pairwise (· > ·)) {r : Nat} (hr : r ∈ rs)
    (hp : p r = true) (hmax : ∀ q ∈ rs, p q = true → q ≤ r) : rs.find? p = some r := by
  induction rs with
  | nil => cases hr
  | cons q rs ih =>
    obtain ⟨hq, hrest⟩ := List.pairwise_cons.1 hrs
    rcases List.mem_cons.1 hr with rfl | hr
    · exact List.find?_cons_of_pos hp
    · have hpq : ¬ p q = true := fun hpq => absurd (hmax q List.mem_cons_self hpq) (Nat.not_le_of_lt (hq r hr))
      rw [List.find?_cons_of_neg hpq]
      exact ih hrest hr fun q' hq' => hmax q' (List.mem_cons_of_mem _ hq')

theorem trainedRate_eq_some {cap r : Nat} {best : List Nat} (hr : r ∈ pinRates)
    (hreach : r ≤ cap ∧ ∀ ch, ch < 192 → r ≤ best.getD ch 0)
    (hmax : ∀ q ∈ pinRates, (q ≤ cap ∧ ∀ ch, ch < 192 → q ≤ best.getD ch 0) → q ≤ r) : trainedRate cap best = some r :=
  find?_eq_some_of_falling (by decide) hr ((trainedRate_pred_iff cap best r).2 hreach)
    fun q hq hp => hmax q hq ((trainedRate_pred_iff cap best q).1 hp)

theorem trainedRate_eq_none {cap : Nat} {best : List Nat}
    (h : ∀ r ∈ pinRates, ¬ (r ≤ cap ∧ ∀ ch, ch < 192 → r ≤ best.getD ch 0)) : trainedRate cap best = none :=
  List.find?_eq_none.2 fun r hr => mt (trainedRate_pred_iff cap best r).1 (h r hr)

/-- Each channel of a list without repeats is changed once, and only channels are changed. -/
theorem State.each_modChan (f : Nat → Chan → Chan) (cs : List Nat) (hcs : cs.Nodup) (s : State) :
    (s.each cs fun s c => s.modChan c (f c)) = s.withChans (s.each cs fun s c => s.modChan c (f c)).chans ∧
    ∀ ch, (s.each cs fun s c => s.modChan c (f c)).chan ch = if ch ∈ cs then f ch (s.chan ch) else s.chan ch := by
  induction cs generalizing s with
  | nil => exact ⟨rfl, fun ch => rfl⟩
  | cons c cs ih =>
    obtain ⟨hc, hcs⟩ := List.nodup_cons.1 hcs
    obtain ⟨heq, hchan⟩ := ih hcs (s.modChan c (f c))
    refine ⟨heq, fun ch => (hchan ch).trans ?_⟩
    rw [State.chan_modChan]
    by_cases h : ch = c
    · subst h; simp [hc]
    · simp [h]

theorem exec_hbmTrainingDone {s : State} {cap : Nat} (best : List Nat) (report : List (BitVec 8 × Bool)) (hcap : cap ≤ 120)
    (h : s.boot.st = .training) (ht : s.boot.trained = false) (hf : s.boot.hbmFail = false) :
    exec (.hbmTrainingDone cap best report) s = .next (s.trainHbm cap best report) :=
  (if_neg (Nat.not_lt.2 hcap)).trans (congrArg Host.Outcome.next (if_pos (by rw [h, ht, hf]; rfl)))

theorem does_hbmTrainingDone_trains {s : State} {cap r : Nat} {best : List Nat} {report : List (BitVec 8 × Bool)} (hcap : cap ≤ 120)
    (h : s.boot.st = .training) (ht : s.boot.trained = false) (hf : s.boot.hbmFail = false) (hr : trainedRate cap best = some r) :
    Does (.hbmTrainingDone cap best report) s fun t =>
      t.part = { s.part with cap := cap, rate := r } ∧ t.boot = { s.boot with trained := true } ∧
      t.host = { s.host with memActive := true } ∧
      ∀ ch, ch < 192 → t.chan ch = { s.chan ch with
        trained := true, temp := (report.getD ch (0, false)).1.toNat, refresh2x := (report.getD ch (0, false)).2 } := by
  refine ⟨_, exec_hbmTrainingDone best report hcap h ht hf, ?_⟩
  rw [State.trainHbm, hr]
  dsimp only
  obtain ⟨heq, hchan⟩ := State.each_modChan (fun c g => { g with
    trained := true, temp := (report.getD c (0, false)).1.toNat, refresh2x := (report.getD c (0, false)).2 })
    (List.range 192) List.nodup_range
    (((s.withPart { s.part with cap := cap, rate := r }).modBoot fun b => { b with trained := true }).modHost fun h =>
      { h with memActive := true })
  exact ⟨congrArg State.part heq, congrArg State.boot heq, congrArg State.host heq,
    fun ch hch => (hchan ch).trans (if_pos (List.mem_range.2 hch))⟩

theorem does_hbmTrainingDone_fails {s : State} {cap : Nat} {best : List Nat} {report : List (BitVec 8 × Bool)} (hcap : cap ≤ 120)
    (h : s.boot.st = .training) (ht : s.boot.trained = false) (hf : s.boot.hbmFail = false) (hr : trainedRate cap best = none) :
    Does (.hbmTrainingDone cap best report) s fun t => t.boot = { s.boot with hbmFail := true } ∧ t.pins.faultL = true ∧
      t.host = s.host ∧ t.chans = s.chans := by
  refine ⟨_, exec_hbmTrainingDone best report hcap h ht hf, ?_⟩
  rw [State.trainHbm, hr]
  dsimp only
  rw [State.driveFaultL_eq]
  exact ⟨rfl, rfl, rfl, rfl⟩

theorem exec_subtreeReady {s : State} (h : s.boot.st ∈ [.training, .ready, .running, .quiesced, .faultHold])
    (hid : s.boot.identityOff = false) : exec .subtreeReady s = .next (s.withBoot { s.boot with subtreeReady := true }) := by
  have hrun : s.scribesRun = true := List.contains_iff_mem.2 h
  exact congrArg Host.Outcome.next (if_pos (by rw [hrun, hid]; rfl))

/-! ## The first pass on every island -/

/-- An event that is already noted changes nothing; one that is not is noted, and at most its message is sent (R505). -/
theorem State.event_cases (s : State) (k : Nat) : (s.irq.event.getLsbD k = true ∧ s.event k = s) ∨
    (s.withIrq { s.irq with event := s.irq.event ||| (1 <<< k) }).SameButIo (s.event k) := by
  unfold State.event
  split
  case isTrue h => exact .inl ⟨h, rfl⟩
  case isFalse =>
    right
    dsimp only
    split
    case isTrue => exact State.sameButIo_emitHost _ _
    case isFalse => exact State.SameButIo.refl _

theorem State.sameButIo_event (s : State) (k : Nat) : (s.withIrq (s.event k).irq).SameButIo (s.event k) := by
  rcases s.event_cases k with ⟨-, heq⟩ | hsame
  · rw [heq]; exact State.SameButIo.refl s
  · rw [hsame.irq]; exact hsame

theorem State.event_sets (s : State) : (s.event 0).irq.event.getLsbD 0 = true := by
  rcases s.event_cases 0 with ⟨hset, heq⟩ | hsame
  · rw [heq]; exact hset
  · rw [hsame.irq]
    show (s.irq.event ||| (1 : BitVec 5) <<< 0).getLsbD 0 = true
    simp

theorem State.event_island (s : State) (k m : Nat) : (s.event k).island m = s.island m :=
  congrArg (fun x => SMap.get Island.atConfigLoad x m) (s.sameButIo_event k).isl

/-- Of the state that the first passes depend on, only the floor of admission of island `i` and what it holds differ. -/
structure State.FloorOnly (i : Nat) (s t : State) : Prop where
  boot : t.boot = s.boot
  clk : t.clk = s.clk
  integ : t.integ = s.integ
  others : ∀ m, m ≠ i → t.island m = s.island m
  own : t.island i = { s.island i with admFloor := (t.island i).admFloor, held := (t.island i).held }

theorem State.floorOnly_modIsl (s : State) (i : Nat) (f : Island → Island)
    (hf : f (s.island i) = { s.island i with admFloor := (f (s.island i)).admFloor, held := (f (s.island i)).held }) :
    State.FloorOnly i s (s.modIsl i f) := by
  refine ⟨rfl, rfl, rfl, fun m hm => ?_, ?_⟩
  · rw [State.island_modIsl, if_neg hm]
  · rw [State.island_modIsl, if_pos rfl]; exact hf

theorem State.FloorOnly.event {i : Nat} {s t : State} (h : State.FloorOnly i s t) (k : Nat) : State.FloorOnly i s (t.event k) := by
  have hsame := t.sameButIo_event k
  refine ⟨hsame.boot.trans h.boot, hsame.clk.trans h.clk, hsame.integ.trans h.integ,
    fun m hm => (t.event_island k m).trans (h.others m hm), ?_⟩
  rw [State.event_island]; exact h.own

/-- A pass that projects 1,200 MHz or more decides on the floor alone: the island is not exhausted (R463 to R465). -/
theorem State.floorOnly_decideFloor (s : State) (i : Nat) {proj : Nat} (idle : Bool) (h : 1200 ≤ proj) :
    State.FloorOnly i s (s.decideFloor i proj idle) := by
  unfold State.decideFloor
  rw [if_neg (Nat.not_lt.2 h)]
  split
  case isTrue => exact (s.floorOnly_modIsl i _ rfl).event 3
  case isFalse =>
    split
    case isTrue => exact s.floorOnly_modIsl i _ rfl
    case isFalse => exact ⟨rfl, rfl, rfl, fun _ _ => rfl, rfl⟩

theorem passStatus_ne_three (a b : Bool) : (if a then 2 else if b then 1 else 0) ≠ 3 := by
  cases a <;> cases b <;> decide

/-- A pass counts, writes the island's measurement, the `k`-th, and decides on the floor (R463). -/
theorem State.pass_eq (s : State) (i : Nat) (idle : Bool) (r : Readings) : ∃ (k : Nat) (f : Island → Island),
    s.pass i idle r =
      ((s.modIsl i f).modInteg fun g => { g with passes := g.passes + 1 }).decideFloor i (projOf (s.charged i) r k) idle ∧
    ∀ x, (f x).lastPass = some s.now ∧ (f x).live = !idle ∧ (f x).status ≠ 3 ∧ (f x).capRaw = capOf r k := by
  unfold State.pass
  dsimp only
  generalize passOffset idle (s.behind i) (projOf (s.charged i) r) (s.island i).offset = found
  obtain ⟨k, off⟩ := found
  refine ⟨k, _, rfl, fun x => ?_⟩
  exact ⟨rfl, rfl, passStatus_ne_three _ _, rfl⟩

theorem reading_mem {r : Readings} (h : r ≠ []) (k : Nat) : r.getD k (r.getLastD 0) ∈ r := by
  by_cases hk : k < r.length
  · rw [List.getD_eq_getElem?_getD, List.getElem?_eq_getElem hk]
    exact List.getElem_mem hk
  · rw [List.getD_eq_getElem?_getD, List.getElem?_eq_none (Nat.not_lt.1 hk), List.getLastD_eq_getLast?, List.getLast?_eq_some_getLast h]
    exact List.getLast_mem h

/-- Readings with the margin that the charges ask for project 1,200 MHz or more. -/
theorem projOf_ge {charged : Nat} {r : Readings} (hr : r ≠ []) (h : ∀ x ∈ r, 1210 + 5 * (charged - 3) ≤ 5 * (x / 5)) (k : Nat) :
    1200 ≤ projOf charged r k := by
  have hx := h _ (reading_mem hr k)
  rw [projOf, capAfter, capOf]
  omega

theorem State.charged_congr {s t : State} {i : Nat} (hclk : t.clk = s.clk) (hisl : t.island i = s.island i) :
    t.charged i = s.charged i := by
  rw [State.charged, State.charged, State.now, State.now, hclk, hisl]

/-- What the first pass leaves at an island that has not exhausted its margin. -/
def Island.FirstPassed (now : Nat) (r : Readings) (x : Island) : Prop :=
  x.lastPass = some now ∧ x.live = false ∧ x.status ≠ 3 ∧ ∃ k, x.capRaw = 5 * (k / 5) ∧ k ∈ r

/-- The first `n` islands have had their first pass, the others are as they were. -/
structure State.PassedUpTo (s : State) (rs : List Readings) (n : Nat) (t : State) : Prop where
  boot : t.boot = s.boot
  clk : t.clk = s.clk
  passes : t.integ.passes = s.integ.passes + n
  passed : ∀ i, i < n → Island.FirstPassed s.now (rs.getD i []) (t.island i)
  rest : ∀ i, n ≤ i → t.island i = s.island i

theorem State.PassedUpTo.pass {s t : State} {rs : List Readings} {n : Nat} (h : s.PassedUpTo rs n t) (hr : rs.getD n [] ≠ [])
    (hm : ∀ x ∈ rs.getD n [], 1210 + 5 * (s.charged n - 3) ≤ 5 * (x / 5)) :
    s.PassedUpTo rs (n + 1) (t.pass n true (rs.getD n [])) := by
  rw [← State.charged_congr h.clk (h.rest n (Nat.le_refl n))] at hm
  obtain ⟨k, f, heq, hf⟩ := t.pass_eq n true (rs.getD n [])
  have hfloor := State.floorOnly_decideFloor ((t.modIsl n f).modInteg fun g => { g with passes := g.passes + 1 }) n true
    (projOf_ge hr hm k)
  rw [← heq] at hfloor
  have hother : ∀ m, m ≠ n → (t.pass n true (rs.getD n [])).island m = t.island m := fun m hmn =>
    (hfloor.others m hmn).trans ((t.island_modIsl n f m).trans (if_neg hmn))
  refine ⟨hfloor.boot.trans h.boot, hfloor.clk.trans h.clk, ?passes, fun i hi => ?passed, fun i hi => ?rest⟩
  case passes => rw [hfloor.integ, ← Nat.add_assoc, ← h.passes]; rfl
  case rest => rw [hother i (by omega)]; exact h.rest i (by omega)
  case passed =>
    rcases Nat.lt_succ_iff_lt_or_eq.1 hi with hi | rfl
    · rw [hother i (Nat.ne_of_lt hi)]; exact h.passed i hi
    · obtain ⟨hlast, hlive, hstatus, hcap⟩ := hf (t.island i)
      have hown : ((t.modIsl i f).modInteg fun g => { g with passes := g.passes + 1 }).island i = f (t.island i) :=
        (t.island_modIsl i f i).trans (if_pos rfl)
      have hnow : t.now = s.now := congrArg Clock.count h.clk
      rw [hfloor.own, hown]
      exact ⟨hlast.trans (congrArg some hnow), hlive, hstatus, _, hcap, reading_mem hr k⟩

theorem State.passedUpTo_each {s : State} {rs : List Readings} {n : Nat} (hr : ∀ i, i < n → rs.getD i [] ≠ [])
    (hm : ∀ i, i < n → ∀ x ∈ rs.getD i [], 1210 + 5 * (s.charged i - 3) ≤ 5 * (x / 5)) :
    s.PassedUpTo rs n (s.each (List.range n) fun s i => s.pass i true (rs.getD i [])) := by
  induction n with
  | zero => exact ⟨rfl, rfl, rfl, fun i hi => absurd hi (Nat.not_lt_zero i), fun _ _ => rfl⟩
  | succ n ih =>
    have hprev := ih (fun i hi => hr i (Nat.lt_succ_of_lt hi)) (fun i hi => hm i (Nat.lt_succ_of_lt hi))
    rw [State.each, List.range_succ, List.foldl_append]
    exact hprev.pass (hr n (Nat.lt_succ_self n)) (hm n (Nat.lt_succ_self n))

theorem exec_firstBurnishDone {s : State} {rs : List Readings} (h : s.boot.st = .training) (ht : s.boot.trained = true)
    (hr : ∀ i, i < 100 → rs.getD i [] ≠ []) : exec (.firstBurnishDone rs) s = .next (s.firstBurnish rs) := by
  have hmeasured : ¬ ((List.range islandCount).any fun i => (rs.getD i []).isEmpty) = true := by
    simpa only [List.any_eq_true, List.mem_range, List.isEmpty_iff, not_exists, not_and, islandCount] using hr
  exact (if_neg hmeasured).trans (congrArg Host.Outcome.next (if_pos (by rw [h, ht]; rfl)))

theorem does_firstBurnishDone {s : State} {rs : List Readings} (h : s.boot.st = .training) (ht : s.boot.trained = true)
    (hlen : rs.length = 100) (hr : ∀ r ∈ rs, r ≠ [])
    (hm : ∀ i, i < 100 → ∀ x ∈ rs.getD i [], 1210 + 5 * (s.charged i - 3) ≤ 5 * (x / 5)) :
    Does (.firstBurnishDone rs) s fun t => t.boot = { s.boot with st := .ready } ∧ t.irq.event.getLsbD 0 = true ∧
      t.integ.passes = s.integ.passes + 100 ∧ ∀ i, i < 100 → Island.FirstPassed s.now (rs.getD i []) (t.island i) := by
  have hr : ∀ i, i < 100 → rs.getD i [] ≠ [] := by
    intro i hi
    rw [List.getD_eq_getElem?_getD, List.getElem?_eq_getElem (hlen ▸ hi)]
    exact hr _ (List.getElem_mem _)
  have hpassed := State.passedUpTo_each hr hm
  refine ⟨_, exec_firstBurnishDone h ht hr, ?_⟩
  rw [State.firstBurnish, show islandCount = 100 from rfl]
  generalize (s.each (List.range 100) fun s i => s.pass i true (rs.getD i [])) = u at hpassed
  dsimp only
  rw [if_pos ((congrArg Boot.st hpassed.boot).trans h)]
  have hsame := (u.modBoot fun b => { b with st := .ready }).sameButIo_event 0
  refine ⟨hsame.boot.trans (congrArg (fun b => { b with st := .ready }) hpassed.boot), State.event_sets _,
    (congrArg Integ.passes hsame.integ).trans hpassed.passes, fun i hi => ?_⟩
  rw [State.event_island]
  exact hpassed.passed i hi

/-- The second half of O54, event by event. -/
theorem bootVerifiesAndReachesReady : BootVerifiesAndReachesReady := by
  intro bootOk ratchetOk cap best report rs c s b m ratchet reach rates
  refine ⟨?verify, ?release, ?hbm, ?subtree, ?burnish⟩
  case verify =>
    intro h hv
    refine ⟨does_verifyDone_fault h hv, fun hhead => ?_, fun hformat hrevoked => ?_, fun hformat hkeys hsvn => ?_,
      exec_verifyDone_good h hv⟩
    · exact does_verifyDone_fault h hv (imgFault_of_not_format (imgFormatOk_of_badHeader hhead))
    · exact does_verifyDone_fault h hv (imgFault_of_not_keys hformat (imgKeysOk_of_revoked hrevoked))
    · exact does_verifyDone_fault h hv (imgFault_of_rollback hformat hkeys hsvn)
  case release =>
    intro h hv
    refine ⟨does_releaseDone_releases h hv s.ratchets_iff, ?_⟩
    rintro hr rfl
    exact does_releaseDone_locks bootOk h hv hr
  case hbm =>
    intro hcap h ht hf
    refine ⟨fun r hr hreach hmax => ?_, fun hnone => ?_⟩
    · exact does_hbmTrainingDone_trains hcap h ht hf (trainedRate_eq_some hr hreach hmax)
    · exact does_hbmTrainingDone_fails hcap h ht hf (trainedRate_eq_none hnone)
  case subtree => exact exec_subtreeReady
  case burnish => exact does_firstBurnishDone

/-- Settles O54, by what each event of a boot leaves: the loading of the image, then its verification and the way to READY. -/
theorem bootReachesReadyOrLocks : Obligations.BootReachesReadyOrLocks :=
  ⟨bootLoadsTheImage, bootVerifiesAndReachesReady⟩

end Sys2Proof.Machine
end
